-- ==== Sys2Proof/Word.lean ====
section
/-!
DEFINITION. The word types of the machine and the fixed-size collections it is built of.
-/

namespace Sys2Proof

/-- 8 bits (R4). -/
abbrev Byte := BitVec 8
/-- 16 bits: one unit of the index stream (R193). -/
abbrev Half := BitVec 16
/-- 32 bits: one V register of one lane, one literal word. -/
abbrev Word := BitVec 32
/-- 64 bits: a port, a latch, an A register, a slot word. -/
abbrev DWord := BitVec 64
/-- 128 bits: a seed, a 16-byte operand (R23, R294). -/
abbrev QWord := BitVec 128
/-- One bit per lane, bit l for lane l. -/
abbrev Mask := BitVec 32
/-- The chain format W56 (R82). -/
abbrev W56 := BitVec 68
/-- A lane number (R19: 32 lanes). -/
abbrev Lane := Fin 32
/-- A value for each lane of a wave. -/
abbrev Lanes (α : Type) := Vector α 32

/-- Every lane, in ascending lane number (R9). -/
def allLanes : List Lane :=
  [0, 1, 2, 3, 4, 5, 6, 7, 8, 9, 10, 11, 12, 13, 14, 15, 16, 17, 18, 19, 20, 21, 22, 23, 24, 25, 26, 27, 28, 29, 30, 31]

/-- The full lane mask. -/
def fullMask : Mask := BitVec.allOnes 32

/-- Lane l's bit of a mask. -/
abbrev laneBit (m : Mask) (l : Lane) : Bool := m.getLsbD l.val

/-- The mask of the lanes on which f holds. -/
def maskOf (f : Lane → Bool) : Mask := BitVec.ofFnLE fun l => f l

/-- The mask of one lane. -/
def oneLane (l : Lane) : Mask := BitVec.ofNat 32 (2 ^ l.val)

/-- The lanes of a mask, ascending. -/
def lanesOf (m : Mask) : List Lane := allLanes.filter fun l => laneBit m l

/-- The lowest lane of a mask; lane 0 of an empty one. -/
def lowLane (m : Mask) : Lane := (lanesOf m).headD 0

/-- The same value in every lane. -/
abbrev Lanes.all {α : Type} (x : α) : Lanes α := Vector.replicate 32 x

/-- A lane vector given lane by lane. -/
def Lanes.of {α : Type} (f : Lane → α) : Lanes α := ⟨⟨allLanes.map f⟩, by simp [allLanes]⟩

/-- Replaces the lanes of a mask and leaves the others. -/
def Lanes.blend {α : Type} (m : Mask) (new old : Lanes α) : Lanes α :=
  Lanes.of fun l => if laneBit m l then new[l] else old[l]

/-- Changes one element. -/
def vset {α : Type} {n : Nat} (v : Vector α n) (i : Fin n) (f : α → α) : Vector α n := v.set i (f v[i])

/-- Changes every element. -/
def vmap {α : Type} {n : Nat} (f : α → α) (v : Vector α n) : Vector α n := ⟨⟨v.toList.map f⟩, by simp⟩

/-- The indexes from i on, at most fuel of them. -/
def idxsFrom (n : Nat) : Nat → Nat → List (Fin n)
  | 0, _ => []
  | fuel + 1, i => if h : i < n then ⟨i, h⟩ :: idxsFrom n fuel (i + 1) else []

/-- The indexes of a vector, ascending. -/
def idxs (n : Nat) : List (Fin n) := idxsFrom n n 0

end Sys2Proof
end

