-- ==== Sys2Proof/Syntax.lean ====
section
/-!
DEFINITION. The instruction set: field types of the slot words and the header, and `Instr`, one constructor for each
row of the opcode table. Slot instructions carry their slot word's fields (R202, R205). The other rows are the
machine's own steps (R61, R133, R397, R466, ...): they are no words of a program, and carry what they act on.
-/

namespace Sys2Proof

/-- A core by its package number (R11). -/
abbrev CoreId := Fin 4096
/-- A wave context of a core (R25). -/
abbrev SlotId := Fin 48
/-- A split record of a wave (R28). -/
abbrev RecId := Fin 4
/-- A context (R357). -/
abbrev CtxId := Fin 64
/-- A submission queue (R387). -/
abbrev QueueId := Fin 64
/-- A tile: die * 32 + tile (R360). -/
abbrev TileId := Fin 256
/-- A die (R11). -/
abbrev DieId := Fin 8

/-- The units with ports and a latch (R53). -/
inductive VUnit
  | ial | fma | xf | xl | str | lsu
  deriving DecidableEq, Repr

/-- The type codes of a v opcode (R206). -/
inductive Ty
  | i32 | n32 | i64 | n64 | i16 | n16 | i8 | n8 | f32 | f64 | f16 | bf16 | e4m3 | e5m2 | b32 | b64
  deriving DecidableEq, Repr

/-- The system values a specifier names (R23, R200). -/
inductive SysVal
  | lane | wave | group | grid | depth | core | tile | die | step | seed (k : Fin 4) | cycleLo | cycleHi
  deriving DecidableEq, Repr

/-- Source specifiers (R200). -/
inductive Src
  | v (n : Fin 256)              -- V0-V255
  | a (n : Fin 32)               -- A0-A31
  | p (n : Fin 8)                -- P0-P7
  | latch (u : VUnit) (hi : Bool)  -- the output latches (R56)
  | sys (s : SysVal)
  | peek (k : Fin 8)             -- QH.k
  | pop                          -- QP
  | imm (k : Fin 128)            -- the small immediate k - 64
  | lit (k : Fin 6)              -- literal word k
  | keep                         -- the port unchanged (R54)
  deriving DecidableEq, Repr

/-- Deposit targets of a v slot (R67). -/
inductive Dep
  | v (n : Fin 256)
  | p (n : Fin 7)                -- P(n+1)
  | none
  deriving DecidableEq, Repr

/-- A guard or a branch test: predicate and negate bit (R203, R210). -/
structure Guard where
  neg : Bool
  pred : Fin 8
  deriving DecidableEq, Repr

/-- A path tag (R204). -/
inductive Path
  | leaf (k : Fin 5)
  | all
  deriving DecidableEq, Repr

/-- Rounding modes (R88): the four overrides; RNA and SR come from opcodes. -/
inductive Rnd
  | rne | rtz | rup | rdn
  deriving DecidableEq, Repr

/-- Chain control (R96, R202). -/
inductive Chain
  | none | opn | cont | close
  deriving DecidableEq, Repr

/-- Scopes (R140, R205). -/
inductive Scope
  | w | g | t | d | k | p
  deriving DecidableEq, Repr

/-- Access sizes: 1, 2, 4, 8, 16 bytes (R205). -/
inductive Size
  | b1 | b2 | b4 | b8 | b16
  deriving DecidableEq, Repr

/-- Order qualifier of an atomic (R146, R205). -/
inductive Order
  | none | acq | rel | ar
  deriving DecidableEq, Repr

/-- Matrix formats (R208). -/
inductive Fmt
  | fp64 | fp32 | fp16 | bf16 | e4m3 | e5m2 | i8 | mx8e4 | mx8e5 | mx6e3 | mx6e2 | mx4 | bin
  deriving DecidableEq, Repr

/-- The mode field of an x slot (R205). -/
inductive MxMode
  | mac | xorPop | andPop
  deriving DecidableEq, Repr

/-- The v slot's fields besides unit and operation (R202). -/
structure VSlot where
  ty : Ty
  a : Src
  b : Src
  c : Src
  dep : Dep
  guard : Guard
  path : Path
  rnd : Rnd
  chain : Chain
  sat : Bool
  deriving DecidableEq, Repr

/-- The m slot's fields besides the opcode (R205). `dep` is absent for 0x1FF. -/
structure MSlot where
  order : Order
  size : Size
  scope : Scope
  a : Src
  b : Src
  base : Fin 32
  sem : BitVec 8
  dep : Option (Fin 256)
  guard : Guard
  path : Path
  postinc : Bool
  deriving DecidableEq, Repr

/-- The x slot's fields besides the opcode (R205). -/
structure XSlot where
  fmt : Fmt
  mode : MxMode
  ra : Fin 32
  rb : Fin 32
  tile : BitVec 10
  count : BitVec 16
  incr : BitVec 3
  init : Bool
  circuit : BitVec 6
  deriving DecidableEq, Repr

/-- The c slot's fields besides the opcode (R205). -/
structure CSlot where
  shape : BitVec 4
  t0 : Guard
  t1 : Guard
  t2 : Guard
  t3 : Guard
  lit : BitVec 3
  src : Src
  sem : BitVec 8
  imm : BitVec 8
  pred : Fin 8
  deriving DecidableEq, Repr

/-- The bundle header (R198). -/
structure Header where
  v : Bool
  m : Bool
  x : Bool
  c : Bool
  gap : Fin 16
  sp : Bool
  lits : Fin 8
  waitEn : Bool
  waitLit : Bool
  waitSem : BitVec 8
  waitThr : BitVec 16
  sigEn : Bool
  sigSem : BitVec 8
  sigInc : BitVec 8
  sync : Bool
  deriving DecidableEq, Repr

/-- What the host or the pod puts into a window write message (R451, R465): one Barn entry. -/
structure BarnWrite where
  window : Fin 256
  elem : Nat        -- element number within the window
  value : DWord
  step : Word
  rank : BitVec 28  -- source rank (R165)
  seq : BitVec 32   -- sequence (R165)
  order : Nat       -- the copy's byte order within one sequence (R165)
  deriving DecidableEq, Repr

/-- The header fields of a Mbohus message that its receiver reads: source module and sequence number (R460, R463). -/
structure MsgHead where
  src : BitVec 10
  seq : Word
  deriving DecidableEq, Repr

/-- The domain and the step that a message of a boundary names (R466, R468). -/
structure DomainStep where
  domain : Word
  step : Word
  deriving DecidableEq, Repr

/-- What a WACK says of an entry (R451, R465). -/
structure BarnAnswer where
  entry : BarnWrite
  refused : Bool
  deriving DecidableEq, Repr

/-- The element that a CONFLICT reports, and its step (R467). -/
structure StepElement where
  step : Word
  addr : DWord
  deriving DecidableEq, Repr

/-- What a READ carries beside the window bytes that it names (R465): the request of a load, or the committed bytes that answer
it. `tag` names the access at its requester. -/
inductive ReadBody
  | request (step : Word) (tag : Nat)
  | answer (tag : Nat) (data : List Byte)
  deriving DecidableEq, Repr

/-- READ in both directions (R465). -/
inductive ReadMsg
  | request (window : Fin 256) (offset : Nat) (n : Nat) (step : Word) (tag : Nat)
  | answer (tag : Nat) (data : List Byte)
  deriving DecidableEq, Repr

/-- The PTP messages that a slave receives, with the grandmaster's times in ns (R469). -/
inductive PtpMsg
  | sync
  | followUp (t1 : Nat)
  | delayResp (t4 : Nat)
  deriving DecidableEq, Repr

/-- A PTP message as it arrives: its header, the station it came in by and its domain number (R469). -/
structure PtpPacket where
  head : MsgHead
  station : Fin 16
  dom : Byte
  msg : PtpMsg
  deriving DecidableEq, Repr

/-- An address of the host on one of its links (R456). -/
structure LinkAddr where
  link : Fin 2
  addr : Nat
  deriving DecidableEq, Repr

/-- An access of the register window: its link, offset and size in bytes (R458). -/
structure WindowAccess where
  link : Fin 2
  offset : Nat
  size : Nat
  deriving DecidableEq, Repr

/-- Units that count corrected errors (R481). -/
inductive FaultUnit
  | core (c : CoreId) | copyEngine (d : DieId) (e : Fin 16) | router (t : TileId)
  | l2Row (addr : Nat) | yardRow (addr : Nat) | barnRow (addr : Nat) | hbmRow (addr : Nat)
  deriving DecidableEq, Repr

/-- One constructor for each row of the opcode table: the slot instructions, the machine's own steps, then what comes from
outside or has another caller. -/
inductive Instr
  -- v slot (R206)
  | pset (u : VUnit) (f : VSlot)
  | add (f : VSlot)
  | sub (f : VSlot)
  | mul (f : VSlot)
  | mulhi (f : VSlot)
  | mad (f : VSlot)
  | abs (f : VSlot)
  | neg (f : VSlot)
  | min (f : VSlot)
  | max (f : VSlot)
  | and (f : VSlot)
  | or (f : VSlot)
  | xor (f : VSlot)
  | not (f : VSlot)
  | andn (f : VSlot)
  | shl (f : VSlot)
  | shr (f : VSlot)
  | rotl (f : VSlot)
  | rotr (f : VSlot)
  | bfx (f : VSlot)
  | bfi (f : VSlot)
  | popc (f : VSlot)
  | clz (f : VSlot)
  | ctz (f : VSlot)
  | brev (f : VSlot)
  | perm (f : VSlot)
  | seteq (f : VSlot)
  | setne (f : VSlot)
  | setlt (f : VSlot)
  | setle (f : VSlot)
  | setgt (f : VSlot)
  | setge (f : VSlot)
  | plog (f : VSlot)
  | sel (f : VSlot)
  | mov (f : VSlot)
  | fadd (f : VSlot)
  | fsub (f : VSlot)
  | fmul (f : VSlot)
  | fma (f : VSlot)
  | fms (f : VSlot)
  | fnma (f : VSlot)
  | fnms (f : VSlot)
  | fmin (f : VSlot)
  | fmax (f : VSlot)
  | fabs (f : VSlot)
  | fneg (f : VSlot)
  | fcps (f : VSlot)
  | fseteq (f : VSlot)
  | fsetne (f : VSlot)
  | fsetlt (f : VSlot)
  | fsetle (f : VSlot)
  | fsetun (f : VSlot)
  | fclass (f : VSlot)
  | fscale (f : VSlot)
  | frnd (f : VSlot)
  | cvt (dst : Ty) (f : VSlot)
  | cvtRna (dst : Ty) (f : VSlot)
  | cvtSr (dst : Ty) (f : VSlot)
  | wupd (f : VSlot)
  | wmrg (f : VSlot)
  | rcp (f : VSlot)
  | rsqrt (f : VSlot)
  | sqrt (f : VSlot)
  | div (f : VSlot)
  | exp2 (f : VSlot)
  | log2 (f : VSlot)
  | sin (f : VSlot)
  | cos (f : VSlot)
  | tanh (f : VSlot)
  | exp (f : VSlot)
  | log (f : VSlot)
  | sigm (f : VSlot)
  | idiv (f : VSlot)
  | irem (f : VSlot)
  | hazel (f : VSlot)
  | shfl (f : VSlot)
  | push (f : VSlot)
  | voteAll (f : VSlot)
  | voteAny (f : VSlot)
  | voteBal (f : VSlot)
  | redAdd (f : VSlot)
  | redMul (f : VSlot)
  | redMin (f : VSlot)
  | redMax (f : VSlot)
  | redAnd (f : VSlot)
  | redOr (f : VSlot)
  | redXor (f : VSlot)
  | scanAdd (f : VSlot)
  | scanMul (f : VSlot)
  | scanMin (f : VSlot)
  | scanMax (f : VSlot)
  | scmp (f : VSlot)
  | seq (f : VSlot)
  | spfx (f : VSlot)
  | sfind (f : VSlot)
  | crc32c (f : VSlot)
  | hmix (f : VSlot)
  | fold (f : VSlot)
  | dfa (f : VSlot)
  -- m slot (R207)
  | ldG (f : MSlot)
  | stG (f : MSlot)
  | ldY (f : MSlot)
  | stY (f : MSlot)
  | ldW (f : MSlot)
  | stW (f : MSlot)
  | ldAcqG (f : MSlot)
  | stRelG (f : MSlot)
  | ldAcqY (f : MSlot)
  | stRelY (f : MSlot)
  | ldAcqW (f : MSlot)
  | stRelW (f : MSlot)
  | ldL1 (f : MSlot)
  | ldc (f : MSlot)
  | ldSLin (f : MSlot)
  | stSLin (f : MSlot)
  | ldS (f : MSlot)
  | stS (f : MSlot)
  | ldQ (f : MSlot)
  | atomGAdd (f : MSlot)
  | atomGMin (f : MSlot)
  | atomGMax (f : MSlot)
  | atomGAnd (f : MSlot)
  | atomGOr (f : MSlot)
  | atomGXor (f : MSlot)
  | atomGXchg (f : MSlot)
  | atomGCas (f : MSlot)
  | atomYAdd (f : MSlot)
  | atomYMin (f : MSlot)
  | atomYMax (f : MSlot)
  | atomYAnd (f : MSlot)
  | atomYOr (f : MSlot)
  | atomYXor (f : MSlot)
  | atomYXchg (f : MSlot)
  | atomYCas (f : MSlot)
  | faddX (f : MSlot)
  | faddY64 (f : MSlot)
  | vupd (f : MSlot)
  | zfill (f : MSlot)
  | pref (f : MSlot)
  | mark (f : MSlot)
  | markPair (f : MSlot)
  | fence (f : MSlot)
  -- x slot (R208)
  | mxl (f : XSlot)
  | mxr (f : XSlot)
  | mxw (f : XSlot)
  | mxc (f : XSlot)
  | mxz (f : XSlot)
  | kick (f : XSlot)
  | csend (f : XSlot)
  | crecv (f : XSlot)
  -- c slot, user level (R209), and a bundle without slots (R198)
  | nop (f : CSlot)
  | headerOnlyBundle
  | br (f : CSlot)
  | jmp (f : CSlot)
  | call (f : CSlot)
  | ret (f : CSlot)
  | endLanes (f : CSlot)
  | yield (f : CSlot)
  | bar (f : CSlot)
  | wait (f : CSlot)
  | sig (f : CSlot)
  | stint (f : CSlot)
  | launch (f : CSlot)
  | join (f : CSlot)
  | tokenPass (f : CSlot)
  | step (f : CSlot)
  | trap (f : CSlot)
  | convHold (f : CSlot)
  | brk (f : CSlot)
  -- c slot, privileged (R372), and the device steps that follow from it
  | mfcr (f : CSlot)
  | mtcr (f : CSlot)
  | tilePowerChangeDone (t : TileId)
  | tileWakeDone (t : TileId)
  | huskSave (f : CSlot)
  | huskLoad (f : CSlot)
  | rte (f : CSlot)
  | tlbinv (f : CSlot)
  | tlbRemoval (k : CoreId) (ctx : CtxId)
  | tlbinvCompletion (id : Nat)
  | semmapW (f : CSlot)
  | semmapR (f : CSlot)
  | preempt (f : CSlot)
  | park (f : CSlot)
  | unpark (f : CSlot)
  | slotLd (f : CSlot)
  | slotEntryEffect (t : TileId) (slot : Fin 256) (word : DWord)
  | winLd (f : CSlot)
  | imgInv (f : CSlot)
  | ctxSwout (f : CSlot)
  | ctxSwin (f : CSlot)
  | seedOpPush (f : CSlot)
  | seedOpPop (f : CSlot)
  | seedOpFork (f : CSlot)
  | halt (f : CSlot)
  | attest (f : CSlot)
  | mcload (f : CSlot)
  -- the machine's own steps
  | resultLanding (k : CoreId) (w : SlotId)
  | linBankAccess (k : CoreId) (w : SlotId)
  | dfaL1Read (k : CoreId) (w : SlotId)
  | loadDataArrival (k : CoreId) (w : SlotId) (id : Nat)
  | mergeBufferEntry (k : CoreId) (w : SlotId) (id : Nat)
  | mergeStep (ids : List Nat)
  | atomicPerform (k : CoreId) (w : SlotId) (id : Nat)
  | fenceCompletion (k : CoreId) (w : SlotId) (id : Nat)
  | tableWalk (k : CoreId) (ctx : CtxId) (va : DWord)
  | overlayFetch (k : CoreId) (handle : Word) (page : Nat)
  | ldcUnitFill (k : CoreId) (w : SlotId) (id : Nat) (l : Lane)
  | copyEngineStart (id : Nat)
  | copyByteWrite (id : Nat) (req : Nat)
  | circuitSend (k : CoreId) (circuit : BitVec 6)
  | circuitReceive (k : CoreId) (circuit : BitVec 6)
  | flitDiscard (k : CoreId) (circuit : BitVec 6)
  | mxlStep (k : CoreId)
  | mxlTileWrite (k : CoreId)
  | mxrTileRead (k : CoreId)
  | mxrRegisterWrite (k : CoreId)
  | mxwTileWrite (k : CoreId)
  | mxzTileWrite (k : CoreId)
  | mxcTileRead (k : CoreId)
  | mxcSlabWrite (k : CoreId)
  | tileBarrierRelease (t : TileId)
  | barrierRelease (g : Nat)
  | stintStart (k : CoreId) (ctx : CtxId)
  | stintOverrun (k : CoreId) (w : SlotId)
  | watchdog (k : CoreId) (w : SlotId) (r : RecId)
  | pendingTrap (k : CoreId) (w : SlotId) (r : RecId)
  | handlerWaveStart (k : CoreId)
  | preemptSafePointStop (k : CoreId) (w : SlotId) (r : RecId)
  | preemptForcedStop (k : CoreId) (w : SlotId)
  | parkedShareSwitch (k : CoreId) (ctx : CtxId)
  | joinSwapOut (g : Nat)
  | joinReturn (g : Nat)
  | retiringRelease (g : Nat)
  | groupRetire (g : Nat)
  | packetTake (q : QueueId)
  | packetStart (q : QueueId) (seq : Word)
  | dependenceRead (q : QueueId) (seq : Word)
  | packetCompletion (q : QueueId) (seq : Word)
  | pendingLaunchRemoval (g : Nat)
  | groupPlacement (grid : Nat)
  | scratchpadScatterWrite (k : CoreId) (w : SlotId) (id : Nat)
  | controlRegisterHoldEnd (k : CoreId) (w : SlotId) (r : RecId)
  | privilegedOperationCompletion (id : Nat)
  -- what arrives from outside, register writes and packet commands with rows of their own; in a management request `none`
  -- stands for a field that a request of a wrong length does not hold (R470)
  | hostqDoorbell (q : QueueId) (v : Word) (link : Fin 2)
  | hostqCfgEnable (q : QueueId) (on : Bool)
  | hostqCfgReset (q : QueueId)
  | diePartWrite (layout : BitVec 2)
  | tilePwrReqRun (t : TileId)
  | tilePwrReqRetain (t : TileId)
  | tilePwrReqOff (t : TileId)
  | tilePwrReqFence (t : TileId) (on : Bool)
  | tileWake (t : TileId)
  | cmdNop (q : QueueId) (seq : Word)
  | cmdLaunch (q : QueueId) (seq : Word)
  | seedPush (q : QueueId) (seq : Word)
  | seedPop (q : QueueId) (seq : Word)
  | seedFork (q : QueueId) (seq : Word)
  | ysemAdd (q : QueueId) (seq : Word)
  | barnEntry (ctx : CtxId) (e : BarnWrite)
  | form (h : MsgHead) (domain : Word) (p : BitVec 16) (rank : BitVec 16) (step : Word)
  | write (h : MsgHead) (domain : Word) (entries : List BarnWrite)
  | wack (h : MsgHead) (ctx : CtxId) (a : BarnAnswer)
  | read (h : MsgHead) (domain : Word) (window : Fin 256) (offset : Nat) (n : Nat) (body : ReadBody)
  | arrive (h : MsgHead) (d : DomainStep) (rank : BitVec 16) (refused : Bool)
  | apply (h : MsgHead) (d : DomainStep) (discard : Bool)
  | conflict (h : MsgHead) (ctx : CtxId) (rank : BitVec 28) (at_ : StepElement)
  | applied (h : MsgHead) (d : DomainStep) (rank : BitVec 16) (conflict : Bool)
  | release (h : MsgHead) (d : DomainStep) (outcome : BitVec 2) (stamp : DWord)
  | heartbeat (h : MsgHead) (domain : Word)
  | heartbeatLoss (domain : Word) (peer : BitVec 10)
  | fail (h : MsgHead) (d : DomainStep) (rank : BitVec 16)
  | ualinkPacketArrival (src : BitVec 10) (ctx : CtxId) (flow : Byte) (ordered : Bool) (seq : Word) (dst : Nat) (data : List Byte)
  | packetRetryTimeout (dst : BitVec 10) (ctx : CtxId) (flow : Byte) (seq : Word)
  | ptpEventMessage (p : PtpPacket)
  | cxlMemRead (a : LinkAddr) (n : Nat)
  | cxlMemWrite (a : LinkAddr) (data : List Byte)
  | bar0InvalidAccess (a : WindowAccess) (data : Option (List Byte))
  | setEndpointId (eid : Option Byte)
  | getEndpointId
  | getMctpVersionSupport (mtype : Option Byte)
  | getMessageTypeSupport
  | getId
  | setId (id : Option Word)
  | pathWrite (dst : Word) (entry : List Byte)
  | domainWrite (domain : Word) (p : BitVec 16) (ids : List (BitVec 16))
  | ptpConfig (gm : Option (BitVec 16)) (dom : Option Byte)
  | attestRun (q : Byte) (seq : Word) (nonce : List Byte)
  | haltRelease (core : Option Word)
  | clockReduction (khz : Nat)
  | unitRetirement (u : FaultUnit)
  | patrolScrub (addr : Nat)
  | moduleReset
  deriving DecidableEq, Repr

end Sys2Proof
end

