-- ==== Sys2Proof/Machine/Encoding.lean ====
section
/-!
DEFINITION. The opcode maps (R206-R209) and the field use of each instruction (R247-R292, R301, R319, R223, R372):
which unit, operation and types an instruction has, which fields it uses, and when its slot word is legal whatever
the bundle around it holds (R202, R205, R213).
-/

namespace Sys2Proof.Machine

open Sys2Proof

/-- The type code of a type (R206). -/
def tyCode : Ty → Nat
  | .i32 => 0 | .n32 => 1 | .i64 => 2 | .n64 => 3 | .i16 => 4 | .n16 => 5 | .i8 => 6 | .n8 => 7
  | .f32 => 8 | .f64 => 9 | .f16 => 10 | .bf16 => 11 | .e4m3 => 12 | .e5m2 => 13 | .b32 => 14 | .b64 => 15

/-- The type with a type code. -/
def tyOfCode : Nat → Option Ty
  | 0 => some .i32 | 1 => some .n32 | 2 => some .i64 | 3 => some .n64 | 4 => some .i16 | 5 => some .n16
  | 6 => some .i8 | 7 => some .n8 | 8 => some .f32 | 9 => some .f64 | 10 => some .f16 | 11 => some .bf16
  | 12 => some .e4m3 | 13 => some .e5m2 | 14 => some .b32 | 15 => some .b64 | _ => none

/-- Width in bits at which a type's operands are read: "type width" (R247). -/
def tyRead : Ty → Nat
  | .i64 | .n64 | .f64 | .b64 => 64
  | _ => 32

/-- Width w of a type's value. -/
def tyBits : Ty → Nat
  | .i64 | .n64 | .f64 | .b64 => 64
  | .i32 | .n32 | .f32 | .b32 => 32
  | .i16 | .n16 | .f16 | .bf16 => 16
  | .i8 | .n8 | .e4m3 | .e5m2 => 8

/-- I types are signed (R86). -/
def tySigned : Ty → Bool
  | .i32 | .i64 | .i16 | .i8 => true
  | _ => false

/-- The integer types INT (R206). -/
def tyInt (t : Ty) : Bool := tyCode t < 8

/-- The floating types with a type code, 8 to 13. -/
def tyFloat (t : Ty) : Bool := 8 ≤ tyCode t && tyCode t ≤ 13

/-- The class FLT: types 8 to 11 (R206). -/
def tyFlt (t : Ty) : Bool := 8 ≤ tyCode t && tyCode t ≤ 11

/-- A conversion is legal from this source type to this destination type (R264). -/
def cvtTypes (dst src : Ty) : Bool := tyCode dst < 14 && tyCode src < 14 && dst ≠ src

/-- Type classes of the v opcode map (R206), and the source types of PSET and of each conversion (R55, R264-R266). -/
inductive TyClass
  | int | sint | wide | flt | fw | bit | b32 | b64 | f32 | intBit | wideFlt
  | pset | cvt (d : Ty) | cvtRna (d : Ty) | cvtSr (d : Ty)
  deriving DecidableEq, Repr

/-- Whether a class holds a type. -/
def classHas : TyClass → Ty → Bool
  | .int, t => tyInt t
  | .sint, t => tySigned t
  | .wide, t => tyCode t < 4
  | .flt, t => tyFlt t
  | .fw, t => tyCode t = 8 || tyCode t = 9
  | .bit, t => t = .b32 || t = .b64
  | .b32, t => t = .b32
  | .b64, t => t = .b64
  | .f32, t => t = .f32
  | .intBit, t => tyInt t || t = .b32 || t = .b64
  | .wideFlt, t => tyCode t < 4 || tyFlt t
  | .pset, t => t = .i32
  | .cvt d, t => cvtTypes d t
  | .cvtRna d, t => cvtTypes d t && tyFloat t
  | .cvtSr d, t => 10 ≤ tyCode d && tyCode d ≤ 13 && (t = .f32 || t = .f64)

/-- The width at which a port is read: type width, 32, 64, or as a member mask (R247, R275). -/
inductive PortUse
  | ty | w32 | w64 | mask
  deriving DecidableEq, Repr

/-- The width of a result (R247). -/
inductive ResUse
  | ty | w32 | w64
  deriving DecidableEq, Repr

/-- What a v-slot instruction reads and allows (R247-R292). -/
structure VInfo where
  cls : TyClass
  a : Option PortUse := some .ty
  b : Option PortUse := none
  c : Option PortUse := none
  sat : Bool := false
  rnd : Bool := false
  chain : Bool := false
  res : ResUse := .ty
  deriving DecidableEq, Repr

/-- Unit, operation number and fields of a v slot. -/
structure VWord where
  unit : VUnit
  op : Nat
  f : VSlot
  deriving DecidableEq, Repr

end Sys2Proof.Machine

namespace Sys2Proof

/-- The class FLT, as a test on a type. -/
abbrev Ty.isFlt (t : Ty) : Bool := Machine.tyFlt t

end Sys2Proof

namespace Sys2Proof.Machine

open Sys2Proof

/-- The v slot word of an instruction and what it uses; none for an instruction of another slot, and for PSET and the
conversions, which `vInfo` adds. -/
def vRow : Instr → Option (VWord × VInfo)
  | .add f => some (⟨.ial, 1, f⟩, { cls := .int, sat := true, b := some .ty })
  | .sub f => some (⟨.ial, 2, f⟩, { cls := .int, sat := true, b := some .ty })
  | .mul f => some (⟨.ial, 3, f⟩, { cls := .int, sat := true, b := some .ty })
  | .mulhi f => some (⟨.ial, 4, f⟩, { cls := .int, b := some .ty })
  | .mad f => some (⟨.ial, 5, f⟩, { cls := .int, sat := true, b := some .ty, c := some .ty })
  | .abs f => some (⟨.ial, 6, f⟩, { cls := .sint, sat := true })
  | .neg f => some (⟨.ial, 7, f⟩, { cls := .int, sat := true })
  | .min f => some (⟨.ial, 8, f⟩, { cls := .int, b := some .ty })
  | .max f => some (⟨.ial, 9, f⟩, { cls := .int, b := some .ty })
  | .and f => some (⟨.ial, 10, f⟩, { cls := .bit, b := some .ty })
  | .or f => some (⟨.ial, 11, f⟩, { cls := .bit, b := some .ty })
  | .xor f => some (⟨.ial, 12, f⟩, { cls := .bit, b := some .ty })
  | .not f => some (⟨.ial, 13, f⟩, { cls := .bit })
  | .andn f => some (⟨.ial, 14, f⟩, { cls := .bit, b := some .ty })
  | .shl f => some (⟨.ial, 15, f⟩, { cls := .int, sat := true, b := some .ty })
  | .shr f => some (⟨.ial, 16, f⟩, { cls := .int, b := some .ty })
  | .rotl f => some (⟨.ial, 17, f⟩, { cls := .bit, b := some .ty })
  | .rotr f => some (⟨.ial, 18, f⟩, { cls := .bit, b := some .ty })
  | .bfx f => some (⟨.ial, 19, f⟩, { cls := .wide, c := some .w32 })
  | .bfi f => some (⟨.ial, 20, f⟩, { cls := .bit, b := some .ty, c := some .w32 })
  | .popc f => some (⟨.ial, 21, f⟩, { cls := .bit })
  | .clz f => some (⟨.ial, 22, f⟩, { cls := .bit })
  | .ctz f => some (⟨.ial, 23, f⟩, { cls := .bit })
  | .brev f => some (⟨.ial, 24, f⟩, { cls := .bit })
  | .perm f => some (⟨.ial, 25, f⟩, { cls := .b32, b := some .ty, c := some .ty })
  | .seteq f => some (⟨.ial, 26, f⟩, { cls := .intBit, res := .w32, b := some .ty })
  | .setne f => some (⟨.ial, 27, f⟩, { cls := .intBit, res := .w32, b := some .ty })
  | .setlt f => some (⟨.ial, 28, f⟩, { cls := .int, res := .w32, b := some .ty })
  | .setle f => some (⟨.ial, 29, f⟩, { cls := .int, res := .w32, b := some .ty })
  | .setgt f => some (⟨.ial, 30, f⟩, { cls := .int, res := .w32, b := some .ty })
  | .setge f => some (⟨.ial, 31, f⟩, { cls := .int, res := .w32, b := some .ty })
  | .plog f => some (⟨.ial, 32, f⟩, { cls := .b32, b := some .ty, c := some .ty })
  | .sel f => some (⟨.ial, 33, f⟩, { cls := .bit, b := some .ty, c := some .w32 })
  | .mov f => some (⟨.ial, 34, f⟩, { cls := .bit })
  | .fadd f => some (⟨.fma, 1, f⟩, { cls := .flt, sat := true, rnd := true, chain := true, b := some .ty })
  | .fsub f => some (⟨.fma, 2, f⟩, { cls := .flt, sat := true, rnd := true, chain := true, b := some .ty })
  | .fmul f => some (⟨.fma, 3, f⟩, { cls := .flt, sat := true, rnd := true, chain := true, b := some .ty })
  | .fma f => some (⟨.fma, 4, f⟩, { cls := .flt, sat := true, rnd := true, chain := true, b := some .ty, c := some .ty })
  | .fms f => some (⟨.fma, 5, f⟩, { cls := .flt, sat := true, rnd := true, chain := true, b := some .ty, c := some .ty })
  | .fnma f => some (⟨.fma, 6, f⟩, { cls := .flt, sat := true, rnd := true, chain := true, b := some .ty, c := some .ty })
  | .fnms f => some (⟨.fma, 7, f⟩, { cls := .flt, sat := true, rnd := true, chain := true, b := some .ty, c := some .ty })
  | .fmin f => some (⟨.fma, 8, f⟩, { cls := .flt, b := some .ty })
  | .fmax f => some (⟨.fma, 9, f⟩, { cls := .flt, b := some .ty })
  | .fabs f => some (⟨.fma, 10, f⟩, { cls := .flt })
  | .fneg f => some (⟨.fma, 11, f⟩, { cls := .flt })
  | .fcps f => some (⟨.fma, 12, f⟩, { cls := .flt, b := some .ty })
  | .fseteq f => some (⟨.fma, 13, f⟩, { cls := .flt, res := .w32, b := some .ty })
  | .fsetne f => some (⟨.fma, 14, f⟩, { cls := .flt, res := .w32, b := some .ty })
  | .fsetlt f => some (⟨.fma, 15, f⟩, { cls := .flt, res := .w32, b := some .ty })
  | .fsetle f => some (⟨.fma, 16, f⟩, { cls := .flt, res := .w32, b := some .ty })
  | .fsetun f => some (⟨.fma, 17, f⟩, { cls := .flt, res := .w32, b := some .ty })
  | .fclass f => some (⟨.fma, 18, f⟩, { cls := .flt, res := .w32 })
  | .fscale f => some (⟨.fma, 19, f⟩, { cls := .flt, sat := true, rnd := true, b := some .w32 })
  | .frnd f => some (⟨.fma, 22, f⟩, { cls := .flt, sat := true, rnd := true })
  | .wupd f => some (⟨.fma, 20, f⟩, { cls := .f32, rnd := true, res := .w64, a := some .w64, b := some .w32, c := some .w32 })
  | .wmrg f => some (⟨.fma, 21, f⟩, { cls := .f32, rnd := true, res := .w64, a := some .w64, b := some .w64, c := some .w64 })
  | .rcp f => some (⟨.xf, 1, f⟩, { cls := .fw, sat := true, rnd := true })
  | .rsqrt f => some (⟨.xf, 2, f⟩, { cls := .fw, sat := true, rnd := true })
  | .sqrt f => some (⟨.xf, 3, f⟩, { cls := .fw, sat := true, rnd := true })
  | .div f => some (⟨.xf, 4, f⟩, { cls := .fw, sat := true, rnd := true, b := some .ty })
  | .exp2 f => some (⟨.xf, 5, f⟩, { cls := .fw, sat := true, rnd := true })
  | .log2 f => some (⟨.xf, 6, f⟩, { cls := .fw, sat := true, rnd := true })
  | .sin f => some (⟨.xf, 7, f⟩, { cls := .fw, sat := true, rnd := true })
  | .cos f => some (⟨.xf, 8, f⟩, { cls := .fw, sat := true, rnd := true })
  | .tanh f => some (⟨.xf, 9, f⟩, { cls := .fw, sat := true, rnd := true })
  | .exp f => some (⟨.xf, 10, f⟩, { cls := .fw, sat := true, rnd := true })
  | .log f => some (⟨.xf, 11, f⟩, { cls := .fw, sat := true, rnd := true })
  | .sigm f => some (⟨.xf, 15, f⟩, { cls := .fw, sat := true, rnd := true })
  | .idiv f => some (⟨.xf, 12, f⟩, { cls := .wide, sat := true, b := some .ty })
  | .irem f => some (⟨.xf, 13, f⟩, { cls := .wide, b := some .ty })
  | .hazel f => some (⟨.xf, 14, f⟩, { cls := .b64, a := some .w64, b := some .w64 })
  | .shfl f => some (⟨.xl, 1, f⟩, { cls := .bit, b := some .w32, c := some .mask })
  | .push f => some (⟨.xl, 2, f⟩, { cls := .bit, b := some .w32, c := some .mask })
  | .voteAll f => some (⟨.xl, 3, f⟩, { cls := .b32, c := some .mask })
  | .voteAny f => some (⟨.xl, 4, f⟩, { cls := .b32, c := some .mask })
  | .voteBal f => some (⟨.xl, 5, f⟩, { cls := .b32, c := some .mask })
  | .redAdd f => some (⟨.xl, 6, f⟩, { cls := .wideFlt, sat := true, rnd := f.ty.isFlt, c := some .mask })
  | .redMul f => some (⟨.xl, 7, f⟩, { cls := .wideFlt, sat := true, rnd := f.ty.isFlt, c := some .mask })
  | .redMin f => some (⟨.xl, 8, f⟩, { cls := .wideFlt, c := some .mask })
  | .redMax f => some (⟨.xl, 9, f⟩, { cls := .wideFlt, c := some .mask })
  | .redAnd f => some (⟨.xl, 10, f⟩, { cls := .bit, c := some .mask })
  | .redOr f => some (⟨.xl, 11, f⟩, { cls := .bit, c := some .mask })
  | .redXor f => some (⟨.xl, 12, f⟩, { cls := .bit, c := some .mask })
  | .scanAdd f => some (⟨.xl, 13, f⟩, { cls := .wideFlt, sat := true, rnd := f.ty.isFlt, c := some .mask })
  | .scanMul f => some (⟨.xl, 14, f⟩, { cls := .wideFlt, sat := true, rnd := f.ty.isFlt, c := some .mask })
  | .scanMin f => some (⟨.xl, 15, f⟩, { cls := .wideFlt, c := some .mask })
  | .scanMax f => some (⟨.xl, 16, f⟩, { cls := .wideFlt, c := some .mask })
  | .scmp f => some (⟨.str, 1, f⟩, { cls := .bit, res := .w32, b := some .ty, c := some .w32 })
  | .seq f => some (⟨.str, 2, f⟩, { cls := .bit, res := .w32, b := some .ty, c := some .w32 })
  | .spfx f => some (⟨.str, 3, f⟩, { cls := .bit, res := .w32, b := some .ty, c := some .w32 })
  | .sfind f => some (⟨.str, 4, f⟩, { cls := .bit, res := .w32, b := some .w32, c := some .w32 })
  | .crc32c f => some (⟨.str, 5, f⟩, { cls := .bit, res := .w32, b := some .w32 })
  | .hmix f => some (⟨.str, 6, f⟩, { cls := .bit, b := some .ty })
  | .fold f => some (⟨.str, 8, f⟩, { cls := .bit })
  | .dfa f => some (⟨.str, 7, f⟩, { cls := .b32, b := some .ty, c := some .ty })
  | _ => none

/-- The v slot word of an instruction and what it uses. CVT to type T has operation 0x20 + T, CVT.RNA 0x30 + T and
CVT.SR 0x18 to 0x1B (R264-R266). PSET is opcode 0x000 on any unit (R55). -/
def vInfo : Instr → Option (VWord × VInfo)
  | .cvt d f => some (⟨.fma, 32 + tyCode d, f⟩,
      { cls := .cvt d, rnd := !(tyInt f.ty && tyInt d), sat := !(tyFloat f.ty && tyInt d), res := if tyBits d = 64 then .w64 else .w32 })
  | .cvtRna d f => some (⟨.fma, 48 + tyCode d, f⟩,
      { cls := .cvtRna d, sat := !tyInt d, res := if tyBits d = 64 then .w64 else .w32 })
  | .cvtSr d f => some (⟨.fma, 14 + tyCode d, f⟩, { cls := .cvtSr d, c := some .w32, sat := true, res := .w32 })
  | .pset u f => some (⟨u, 0, f⟩, { cls := .pset, a := some .w32, b := some .w32 })
  | i => vRow i

/-- The instruction of a unit and operation number in the v opcode map (R206), conversions and PSET apart. -/
def vOfRow : VUnit → Nat → Option (VSlot → Instr)
  | .ial, 1 => some .add
  | .ial, 2 => some .sub
  | .ial, 3 => some .mul
  | .ial, 4 => some .mulhi
  | .ial, 5 => some .mad
  | .ial, 6 => some .abs
  | .ial, 7 => some .neg
  | .ial, 8 => some .min
  | .ial, 9 => some .max
  | .ial, 10 => some .and
  | .ial, 11 => some .or
  | .ial, 12 => some .xor
  | .ial, 13 => some .not
  | .ial, 14 => some .andn
  | .ial, 15 => some .shl
  | .ial, 16 => some .shr
  | .ial, 17 => some .rotl
  | .ial, 18 => some .rotr
  | .ial, 19 => some .bfx
  | .ial, 20 => some .bfi
  | .ial, 21 => some .popc
  | .ial, 22 => some .clz
  | .ial, 23 => some .ctz
  | .ial, 24 => some .brev
  | .ial, 25 => some .perm
  | .ial, 26 => some .seteq
  | .ial, 27 => some .setne
  | .ial, 28 => some .setlt
  | .ial, 29 => some .setle
  | .ial, 30 => some .setgt
  | .ial, 31 => some .setge
  | .ial, 32 => some .plog
  | .ial, 33 => some .sel
  | .ial, 34 => some .mov
  | .fma, 1 => some .fadd
  | .fma, 2 => some .fsub
  | .fma, 3 => some .fmul
  | .fma, 4 => some .fma
  | .fma, 5 => some .fms
  | .fma, 6 => some .fnma
  | .fma, 7 => some .fnms
  | .fma, 8 => some .fmin
  | .fma, 9 => some .fmax
  | .fma, 10 => some .fabs
  | .fma, 11 => some .fneg
  | .fma, 12 => some .fcps
  | .fma, 13 => some .fseteq
  | .fma, 14 => some .fsetne
  | .fma, 15 => some .fsetlt
  | .fma, 16 => some .fsetle
  | .fma, 17 => some .fsetun
  | .fma, 18 => some .fclass
  | .fma, 19 => some .fscale
  | .fma, 20 => some .wupd
  | .fma, 21 => some .wmrg
  | .fma, 22 => some .frnd
  | .xf, 1 => some .rcp
  | .xf, 2 => some .rsqrt
  | .xf, 3 => some .sqrt
  | .xf, 4 => some .div
  | .xf, 5 => some .exp2
  | .xf, 6 => some .log2
  | .xf, 7 => some .sin
  | .xf, 8 => some .cos
  | .xf, 9 => some .tanh
  | .xf, 10 => some .exp
  | .xf, 11 => some .log
  | .xf, 12 => some .idiv
  | .xf, 13 => some .irem
  | .xf, 14 => some .hazel
  | .xf, 15 => some .sigm
  | .xl, 1 => some .shfl
  | .xl, 2 => some .push
  | .xl, 3 => some .voteAll
  | .xl, 4 => some .voteAny
  | .xl, 5 => some .voteBal
  | .xl, 6 => some .redAdd
  | .xl, 7 => some .redMul
  | .xl, 8 => some .redMin
  | .xl, 9 => some .redMax
  | .xl, 10 => some .redAnd
  | .xl, 11 => some .redOr
  | .xl, 12 => some .redXor
  | .xl, 13 => some .scanAdd
  | .xl, 14 => some .scanMul
  | .xl, 15 => some .scanMin
  | .xl, 16 => some .scanMax
  | .str, 1 => some .scmp
  | .str, 2 => some .seq
  | .str, 3 => some .spfx
  | .str, 4 => some .sfind
  | .str, 5 => some .crc32c
  | .str, 6 => some .hmix
  | .str, 7 => some .dfa
  | .str, 8 => some .fold
  | _, _ => none

/-- The instruction of a unit, operation number and fields (R206). -/
def vOf (u : VUnit) (op : Nat) (f : VSlot) : Option Instr :=
  if op = 0 then some (.pset u f)
  else if u = .fma ∧ 24 ≤ op ∧ op ≤ 27 then (tyOfCode (op - 14)).map fun d => .cvtSr d f
  else if u = .fma ∧ 32 ≤ op ∧ op ≤ 45 then (tyOfCode (op - 32)).map fun d => .cvt d f
  else if u = .fma ∧ 48 ≤ op ∧ op ≤ 61 then (tyOfCode (op - 48)).map fun d => .cvtRna d f
  else (vOfRow u op).map fun g => g f

/-- Where an m-slot instruction reaches (R301). -/
inductive Space
  | hbm | yard | window | l1 | scratch | queue | none
  deriving DecidableEq, Repr

/-- How an m-slot instruction uses b (R294, R301): not at all, as data of the access width, as the compare-and-swap
double operand, or as a 32-bit word. -/
inductive BUse
  | none | data | cas | word
  deriving DecidableEq, Repr

/-- How an m-slot instruction uses its semaphore field (R297, R301, R316). -/
inductive SemUse
  | null | completes | bySize
  deriving DecidableEq, Repr

/-- Whether an m-slot instruction takes a scope (R207). -/
inductive ScopeUse
  | never | always | ordered
  deriving DecidableEq, Repr

/-- What an m-slot instruction uses (R301). `a64` is whether a is read at 64 bits; none when a is null. -/
structure MInfo where
  space : Space
  lo : Nat
  hi : Nat
  a64 : Option Bool := some true
  b : BUse := .none
  dep : Bool := false
  sem : SemUse := .completes
  scope : ScopeUse := .never
  post : Bool := true
  deriving DecidableEq, Repr

/-- Opcode and fields of an m slot. -/
structure MWord where
  op : Nat
  f : MSlot
  deriving DecidableEq, Repr

/-- The m slot word of an instruction and what it uses (R207, R301). -/
def mInfo : Instr → Option (MWord × MInfo)
  | .ldG f => some (⟨1, f⟩, { space := .hbm, lo := 0, hi := 4, dep := true })
  | .stG f => some (⟨2, f⟩, { space := .hbm, lo := 0, hi := 4, b := .data })
  | .ldY f => some (⟨3, f⟩, { space := .yard, lo := 0, hi := 4, dep := true })
  | .stY f => some (⟨4, f⟩, { space := .yard, lo := 0, hi := 4, b := .data })
  | .ldW f => some (⟨5, f⟩, { space := .window, lo := 0, hi := 4, dep := true })
  | .stW f => some (⟨6, f⟩, { space := .window, lo := 0, hi := 4, b := .data })
  | .ldAcqG f => some (⟨14, f⟩, { space := .hbm, lo := 0, hi := 4, dep := true, scope := .always })
  | .stRelG f => some (⟨15, f⟩, { space := .hbm, lo := 0, hi := 4, b := .data, scope := .always })
  | .ldAcqY f => some (⟨16, f⟩, { space := .yard, lo := 0, hi := 4, dep := true, scope := .always })
  | .stRelY f => some (⟨17, f⟩, { space := .yard, lo := 0, hi := 4, b := .data, scope := .always })
  | .ldAcqW f => some (⟨18, f⟩, { space := .window, lo := 0, hi := 4, dep := true, scope := .always })
  | .stRelW f => some (⟨19, f⟩, { space := .window, lo := 0, hi := 4, b := .data, scope := .always })
  | .ldL1 f => some (⟨7, f⟩, { space := .l1, lo := 0, hi := 4, dep := true, a64 := some false })
  | .ldc f => some (⟨8, f⟩, { space := .hbm, lo := 0, hi := 0, b := .word })
  | .ldSLin f => some (⟨9, f⟩, { space := .scratch, lo := 0, hi := 3, dep := true, sem := .null, a64 := some false })
  | .stSLin f => some (⟨10, f⟩, { space := .scratch, lo := 0, hi := 3, b := .data, sem := .null, a64 := some false })
  | .ldS f => some (⟨11, f⟩, { space := .scratch, lo := 0, hi := 4, dep := true, a64 := some false })
  | .stS f => some (⟨12, f⟩, { space := .scratch, lo := 0, hi := 4, b := .data, a64 := some false })
  | .ldQ f => some (⟨13, f⟩, { space := .queue, lo := 0, hi := 3 })
  | .atomGAdd f => some (⟨32, f⟩, { space := .hbm, lo := 2, hi := 3, b := .data, dep := true, scope := .ordered })
  | .atomGMin f => some (⟨33, f⟩, { space := .hbm, lo := 2, hi := 3, b := .data, dep := true, scope := .ordered })
  | .atomGMax f => some (⟨34, f⟩, { space := .hbm, lo := 2, hi := 3, b := .data, dep := true, scope := .ordered })
  | .atomGAnd f => some (⟨35, f⟩, { space := .hbm, lo := 2, hi := 3, b := .data, dep := true, scope := .ordered })
  | .atomGOr f => some (⟨36, f⟩, { space := .hbm, lo := 2, hi := 3, b := .data, dep := true, scope := .ordered })
  | .atomGXor f => some (⟨37, f⟩, { space := .hbm, lo := 2, hi := 3, b := .data, dep := true, scope := .ordered })
  | .atomGXchg f => some (⟨38, f⟩, { space := .hbm, lo := 2, hi := 3, b := .data, dep := true, scope := .ordered })
  | .atomGCas f => some (⟨39, f⟩, { space := .hbm, lo := 2, hi := 3, b := .cas, dep := true, scope := .ordered })
  | .atomYAdd f => some (⟨40, f⟩, { space := .yard, lo := 2, hi := 3, b := .data, dep := true, scope := .ordered })
  | .atomYMin f => some (⟨41, f⟩, { space := .yard, lo := 2, hi := 3, b := .data, dep := true, scope := .ordered })
  | .atomYMax f => some (⟨42, f⟩, { space := .yard, lo := 2, hi := 3, b := .data, dep := true, scope := .ordered })
  | .atomYAnd f => some (⟨43, f⟩, { space := .yard, lo := 2, hi := 3, b := .data, dep := true, scope := .ordered })
  | .atomYOr f => some (⟨44, f⟩, { space := .yard, lo := 2, hi := 3, b := .data, dep := true, scope := .ordered })
  | .atomYXor f => some (⟨45, f⟩, { space := .yard, lo := 2, hi := 3, b := .data, dep := true, scope := .ordered })
  | .atomYXchg f => some (⟨46, f⟩, { space := .yard, lo := 2, hi := 3, b := .data, dep := true, scope := .ordered })
  | .atomYCas f => some (⟨47, f⟩, { space := .yard, lo := 2, hi := 3, b := .cas, dep := true, scope := .ordered })
  | .faddX f => some (⟨48, f⟩, { space := .yard, lo := 2, hi := 2, b := .data, dep := true })
  | .faddY64 f => some (⟨49, f⟩, { space := .yard, lo := 3, hi := 3, b := .data, dep := true })
  | .vupd f => some (⟨50, f⟩, { space := .yard, lo := 2, hi := 3, b := .data })
  | .zfill f => some (⟨51, f⟩, { space := .hbm, lo := 0, hi := 0, b := .word, post := false })
  | .pref f => some (⟨52, f⟩, { space := .hbm, lo := 0, hi := 0, sem := .null, post := false })
  | .mark f => some (⟨53, f⟩, { space := .none, lo := 0, hi := 0, sem := .null, post := false, a64 := none })
  | .markPair f => some (⟨54, f⟩, { space := .none, lo := 0, hi := 0, sem := .null, post := false, a64 := none })
  | .fence f => some (⟨55, f⟩, { space := .none, lo := 0, hi := 1, sem := .bySize, scope := .always, post := false, a64 := none })
  | _ => none

/-- The instruction of an m opcode (R207). -/
def mOf : Nat → Option (MSlot → Instr)
  | 1 => some .ldG
  | 2 => some .stG
  | 3 => some .ldY
  | 4 => some .stY
  | 5 => some .ldW
  | 6 => some .stW
  | 7 => some .ldL1
  | 8 => some .ldc
  | 9 => some .ldSLin
  | 10 => some .stSLin
  | 11 => some .ldS
  | 12 => some .stS
  | 13 => some .ldQ
  | 14 => some .ldAcqG
  | 15 => some .stRelG
  | 16 => some .ldAcqY
  | 17 => some .stRelY
  | 18 => some .ldAcqW
  | 19 => some .stRelW
  | 32 => some .atomGAdd
  | 33 => some .atomGMin
  | 34 => some .atomGMax
  | 35 => some .atomGAnd
  | 36 => some .atomGOr
  | 37 => some .atomGXor
  | 38 => some .atomGXchg
  | 39 => some .atomGCas
  | 40 => some .atomYAdd
  | 41 => some .atomYMin
  | 42 => some .atomYMax
  | 43 => some .atomYAnd
  | 44 => some .atomYOr
  | 45 => some .atomYXor
  | 46 => some .atomYXchg
  | 47 => some .atomYCas
  | 48 => some .faddX
  | 49 => some .faddY64
  | 50 => some .vupd
  | 51 => some .zfill
  | 52 => some .pref
  | 53 => some .mark
  | 54 => some .markPair
  | 55 => some .fence
  | _ => none

/-- Opcode and fields of an x slot. -/
structure XWord where
  op : Nat
  f : XSlot
  deriving DecidableEq, Repr

/-- The x slot word of an instruction (R208). -/
def xInfo : Instr → Option XWord
  | .mxl f => some ⟨1, f⟩
  | .mxr f => some ⟨2, f⟩
  | .mxw f => some ⟨3, f⟩
  | .mxc f => some ⟨4, f⟩
  | .mxz f => some ⟨5, f⟩
  | .kick f => some ⟨6, f⟩
  | .csend f => some ⟨7, f⟩
  | .crecv f => some ⟨8, f⟩
  | _ => none

/-- The instruction of an x opcode (R208). -/
def xOf : Nat → Option (XSlot → Instr)
  | 1 => some .mxl
  | 2 => some .mxr
  | 3 => some .mxw
  | 4 => some .mxc
  | 5 => some .mxz
  | 6 => some .kick
  | 7 => some .csend
  | 8 => some .crecv
  | _ => none

/-- Specifiers a c slot's src field takes (R219, R372): none, an A register above A0, any A register, a threshold,
a value. -/
inductive CSrc
  | none | link | a | thr | value
  deriving DecidableEq, Repr

/-- Semaphores a c slot's sem field takes (R223, R372): none, one a wait may name, one of S0-S247. -/
inductive CSem
  | none | wait | low
  deriving DecidableEq, Repr

/-- What a c slot's imm field holds: zero, any value, a register number 1-31, one value. -/
inductive CImm
  | none | any | reg | exactly (n : Nat)
  deriving DecidableEq, Repr

/-- Result predicate of a c slot: none, 1-7, or 0-7. -/
inductive CPred
  | none | need | any
  deriving DecidableEq, Repr

/-- What a c-slot instruction uses (R223, R372). -/
structure CInfo where
  code : Nat
  br : Bool := false
  lit : Bool := false
  src : CSrc := .none
  sem : CSem := .none
  imm : CImm := .none
  pred : CPred := .none
  deriving DecidableEq, Repr

/-- The c slot's fields of an instruction and what it uses. -/
def cInfo : Instr → Option (CSlot × CInfo)
  | .nop f => some (f, { code := 0 })
  | .br f => some (f, { code := 1, br := true, lit := true })
  | .jmp f => some (f, { code := 2, lit := true })
  | .call f => some (f, { code := 3, lit := true, src := .link })
  | .ret f => some (f, { code := 4, src := .link })
  | .endLanes f => some (f, { code := 5 })
  | .yield f => some (f, { code := 6 })
  | .bar f => some (f, { code := 7 })
  | .wait f => some (f, { code := 8, sem := .wait, src := .thr })
  | .sig f => some (f, { code := 9, sem := .low, imm := .any })
  | .stint f => some (f, { code := 10, imm := .any, src := .a, lit := true })
  | .launch f => some (f, { code := 11, src := .value, pred := .need })
  | .join f => some (f, { code := 12, src := .link })
  | .tokenPass f => some (f, { code := 13 })
  | .step f => some (f, { code := 14, pred := .any })
  | .trap f => some (f, { code := 15, imm := .any })
  | .convHold f => some (f, { code := 16 })
  | .brk f => some (f, { code := 17 })
  | .mfcr f => some (f, { code := 32, imm := .reg, lit := true })
  | .mtcr f => some (f, { code := 33, lit := true, src := .value })
  | .huskSave f => some (f, { code := 34, src := .a, imm := .reg, sem := .low })
  | .huskLoad f => some (f, { code := 35, src := .a, imm := .reg, sem := .low })
  | .rte f => some (f, { code := 36, src := .a })
  | .tlbinv f => some (f, { code := 37, src := .a, sem := .low })
  | .semmapW f => some (f, { code := 38, sem := .low, src := .a })
  | .semmapR f => some (f, { code := 39, imm := .reg, sem := .low, src := .a })
  | .preempt f => some (f, { code := 40, src := .a, sem := .low })
  | .park f => some (f, { code := 41, src := .a })
  | .unpark f => some (f, { code := 42, src := .a })
  | .slotLd f => some (f, { code := 43, src := .a, lit := true, sem := .low })
  | .winLd f => some (f, { code := 44, src := .a, sem := .low })
  | .imgInv f => some (f, { code := 45, imm := .reg, src := .a, sem := .low })
  | .ctxSwout f => some (f, { code := 46, src := .a, sem := .low })
  | .ctxSwin f => some (f, { code := 47, src := .a, sem := .low })
  | .seedOpPush f => some (f, { code := 48, imm := .exactly 0, pred := .need, src := .a, lit := true })
  | .seedOpPop f => some (f, { code := 48, imm := .exactly 1, pred := .need, src := .a })
  | .seedOpFork f => some (f, { code := 48, imm := .exactly 2, pred := .need, src := .a })
  | .halt f => some (f, { code := 49 })
  | .attest f => some (f, { code := 50, src := .a, sem := .low })
  | .mcload f => some (f, { code := 51, pred := .need, src := .a })
  | _ => none

/-- The instruction of a c opcode; SEED.OP's three rows differ in imm (R372). -/
def cOf (op imm : Nat) : Option (CSlot → Instr) :=
  match op with
  | 0 => some .nop
  | 1 => some .br
  | 2 => some .jmp
  | 3 => some .call
  | 4 => some .ret
  | 5 => some .endLanes
  | 6 => some .yield
  | 7 => some .bar
  | 8 => some .wait
  | 9 => some .sig
  | 10 => some .stint
  | 11 => some .launch
  | 12 => some .join
  | 13 => some .tokenPass
  | 14 => some .step
  | 15 => some .trap
  | 16 => some .convHold
  | 17 => some .brk
  | 32 => some .mfcr
  | 33 => some .mtcr
  | 34 => some .huskSave
  | 35 => some .huskLoad
  | 36 => some .rte
  | 37 => some .tlbinv
  | 38 => some .semmapW
  | 39 => some .semmapR
  | 40 => some .preempt
  | 41 => some .park
  | 42 => some .unpark
  | 43 => some .slotLd
  | 44 => some .winLd
  | 45 => some .imgInv
  | 46 => some .ctxSwout
  | 47 => some .ctxSwin
  | 49 => some .halt
  | 50 => some .attest
  | 51 => some .mcload
  | 48 => match imm with
    | 0 => some .seedOpPush
    | 1 => some .seedOpPop
    | 2 => some .seedOpFork
    | _ => none
  | _ => none

/-- The opcode's level: 1 supervisor from 0x20, 2 machine from 0x31, else user (R209). -/
def cLevel (code : Nat) : Nat := if code < 32 then 0 else if code < 49 then 1 else 2
/-- Result width of a v slot in bits (R247). -/
def resBits (w : VWord) (n : VInfo) : Nat :=
  match n.res with
  | .ty => tyRead w.f.ty
  | .w32 => 32
  | .w64 => 64

/-- A specifier is legal where an operand is read at 64 bits (R57, R201). -/
def src64Ok : Src → Bool
  | .v n => n.val % 2 = 0
  | .latch _ hi => !hi
  | .lit k => k.val % 2 = 0
  | .peek k => k.val ≠ 7
  | _ => true

/-- The width in bits of a port use at a type (R247). -/
def useBits : PortUse → Ty → Nat
  | .ty, t => tyRead t
  | .w32, _ => 32
  | .w64, _ => 64
  | .mask, _ => 32

/-- A specifier is legal for a port of a v slot (R57, R249, R275). -/
def portOk (t : Ty) : Option PortUse → Src → Bool
  | none, s => s = .keep
  | some .mask, s =>
    match s with
    | .a _ | .lit _ | .imm _ => true
    | _ => false
  | some u, s => if useBits u t = 64 then src64Ok s else true

/-- A guard field other than `?!P0` (R203). -/
def guardOk (g : Guard) : Bool := !(g.neg && g.pred = 0)

/-- WUPD and WMRG need an even deposit of at least V2 (R269). -/
def isWelford (w : VWord) : Bool := w.unit = .fma && (w.op = 20 || w.op = 21)

/-- The deposit field is legal for the result (R67, R269, R55). -/
def depOk (w : VWord) (n : VInfo) : Bool :=
  match w.f.dep with
  | .none => true
  | .p _ => !isWelford w && w.op ≠ 0
  | .v d => w.op ≠ 0 && (resBits w n = 32 || d.val % 2 = 0) && (!isWelford w || 2 ≤ d.val)

/-- The v slot word is legal by itself (R55, R96, R202-R206, R249). -/
def vLegal (w : VWord) (n : VInfo) : Bool :=
  w.unit ≠ .lsu && classHas n.cls w.f.ty && portOk w.f.ty n.a w.f.a && portOk w.f.ty n.b w.f.b && portOk w.f.ty n.c w.f.c
    && depOk w n && guardOk w.f.guard && (!w.f.sat || n.sat) && (w.f.rnd = .rne || n.rnd)
    && (w.f.chain = .none || n.chain)
    && ((w.f.chain = .none || w.f.chain = .close) || w.f.dep = .none)

/-- Size code of an access (R205). -/
def sizeCode : Size → Nat
  | .b1 => 0 | .b2 => 1 | .b4 => 2 | .b8 => 3 | .b16 => 4

/-- Access width in bytes (R294). -/
def sizeBytes (z : Size) : Nat := 2 ^ sizeCode z

/-- A V register whose number is a multiple of 4, the only 128-bit operand (R294). -/
def quadOk : Src → Bool
  | .v n => n.val % 4 = 0
  | _ => false

/-- The b operand is read as a 128-bit operand (R294, R309). -/
def bQuad (n : MInfo) (z : Size) : Bool := (n.b = .data && z = .b16) || (n.b = .cas && z = .b8)

/-- Bits at which b is read when it is not a 128-bit operand (R294, R309). -/
def bBits (n : MInfo) (z : Size) : Nat :=
  match n.b with
  | .none | .word => 32
  | .data => if sizeCode z ≤ 2 then 32 else 64
  | .cas => 64

/-- The b specifier is legal (R57, R294, R301). -/
def bOk (n : MInfo) (f : MSlot) : Bool :=
  if n.b = .none then f.b = .keep
  else if bQuad n f.size then quadOk f.b
  else if bBits n f.size = 64 then src64Ok f.b else true

/-- The deposit register is legal for the access width (R294). -/
def mDepOk (n : MInfo) (f : MSlot) : Bool :=
  match f.dep with
  | none => true
  | some d => n.dep && (sizeCode f.size ≤ 2 || (f.size = .b8 && d.val % 2 = 0) || (f.size = .b16 && d.val % 4 = 0))

/-- The semaphore field is legal (R205, R297, R316). -/
def mSemOk (n : MInfo) (f : MSlot) : Bool :=
  match n.sem with
  | .null => f.sem = 0
  | .completes => f.sem.toNat < 248
  | .bySize => if f.size = .b1 then f.sem = 0 else f.sem.toNat < 248

/-- Scope and order fields are legal (R207, R301). -/
def mOrderOk (n : MInfo) (f : MSlot) : Bool :=
  match n.scope with
  | .never => f.order = .none && f.scope = .w
  | .always => f.order = .none
  | .ordered => f.order ≠ .none || f.scope = .w

/-- The m slot word is legal by itself (R205, R207, R294-R297, R301). -/
def mLegal (w : MWord) (n : MInfo) : Bool :=
  n.lo ≤ sizeCode w.f.size && sizeCode w.f.size ≤ n.hi
    && (match n.a64 with
        | none => w.f.a = .keep && w.f.base = 0
        | some b64 => if b64 then src64Ok w.f.a else true)
    && bOk n w.f && mDepOk n w.f && mSemOk n w.f && mOrderOk n w.f
    && guardOk w.f.guard && (!w.f.postinc || (n.post && w.f.base ≠ 0))

/-- The code of a matrix format (R208). -/
def fmtCode : Fmt → Nat
  | .fp64 => 0 | .fp32 => 1 | .fp16 => 2 | .bf16 => 3 | .e4m3 => 4 | .e5m2 => 5 | .i8 => 6 | .mx8e4 => 7
  | .mx8e5 => 8 | .mx6e3 => 9 | .mx6e2 => 10 | .mx4 => 11 | .bin => 12

/-- The microscaling formats, fmt 7 to 11 (R208, R323). -/
def fmtMx (t : Fmt) : Bool := 7 ≤ fmtCode t && fmtCode t ≤ 11

/-- Steps per block of a microscaling format (R323). -/
def fmtSpb : Fmt → Nat
  | .mx4 => 4
  | _ => 8

/-- Parts of a format's tile (R329). -/
def fmtParts (t : Fmt) : Nat := if fmtCode t ≤ 1 then 2 else 8

/-- First V register of an MXR or MXW, count [39:32] of the slot word (R205, R319). -/
def mxReg (f : XSlot) : Nat := f.count.toNat % 256

/-- Part of an MXR or MXW, [43:40] of the slot word (R205, R319). -/
def mxPart (f : XSlot) : Nat := f.count.toNat / 256 % 16

/-- The highest V register an MXR or MXW names (R329). -/
def mxLast (f : XSlot) : Nat :=
  let g := if f.fmt = .fp64 then 2 else 1
  mxReg f + g * (if mxPart f = 8 then fmtParts f.fmt else 1) - 1

/-- The x slot word is legal by itself (R208, R319, R326, R329, R333). -/
def xLegal (w : XWord) : Bool :=
  let f := w.f
  f.incr ≠ 6 &&
  match w.op with
  | 1 => f.circuit = 0 && f.count ≠ 0 && (if f.fmt = .bin then f.mode ≠ .mac else f.mode = .mac)
      && (!fmtMx f.fmt || (f.count.toNat % fmtSpb f.fmt = 0 && f.incr ≠ 7))
  | 2 | 3 => f.circuit = 0 && f.incr = 0 && !f.init && f.ra = 0 && f.rb = 0 && f.mode = .mac
      && f.count.toNat < 4096 && (mxPart f < fmtParts f.fmt || mxPart f = 8)
      && (f.fmt ≠ .fp64 || mxReg f % 2 = 0) && mxLast f < 256
  | 4 => f.circuit = 0 && f.count = 0 && !f.init && f.rb = 0 && f.mode = .mac && (!fmtMx f.fmt || f.incr ≠ 7)
  | 5 => f.circuit = 0 && f.incr = 0 && !f.init && f.ra = 0 && f.rb = 0 && f.mode = .mac && f.fmt = .fp64
      && f.count ≠ 0 && (768 ≤ f.tile.toNat || f.count.toNat ≤ 768 - f.tile.toNat)
  | 6 => f.circuit = 0 && f.incr = 0 && !f.init && f.rb = 0 && f.mode = .mac && f.fmt = .fp64 && f.tile = 0 && f.count ≠ 0
  | 7 | 8 => f.incr = 0 && !f.init && f.mode = .mac && f.fmt = .fp64 && f.tile = 0 && f.count = 0
  | _ => false

/-- The src field of a c slot is legal (R219, R372). A threshold may be an A register, a system value other than
`%LANE`, a small immediate or a literal word. -/
def cSrcOk : CSrc → Src → Bool
  | .none, s => s = .v 0
  | .link, .a n => n ≠ 0
  | .a, .a _ => true
  | .thr, .a _ | .thr, .imm _ | .thr, .lit _ => true
  | .thr, .sys v => v ≠ .lane
  | .value, .a _ | .value, .imm _ | .value, .lit _ => true
  | _, _ => false

/-- The null test field: bits 0b0000. -/
def Guard0 : Guard := ⟨false, 0⟩

/-- The c slot word is legal by itself (R205, R209, R210, R219, R223, R372). -/
def cLegal (f : CSlot) (n : CInfo) : Bool :=
  (if n.br then f.shape ≠ 15 && (f.shape ≠ 14 || (f.t1 = Guard0 && f.t2 = Guard0 && f.t3 = Guard0))
   else f.shape = 0 && f.t0 = Guard0 && f.t1 = Guard0 && f.t2 = Guard0 && f.t3 = Guard0)
    && (n.lit || f.lit = 0) && cSrcOk n.src f.src
    && (match n.sem with
        | .none => f.sem = 0
        | .wait => f.sem.toNat < 248 || 252 < f.sem.toNat
        | .low => f.sem.toNat < 248)
    && (match n.imm with
        | .none => f.imm = 0
        | .any => true
        | .reg => 1 ≤ f.imm.toNat && f.imm.toNat ≤ 31
        | .exactly k => f.imm.toNat = k)
    && (match n.pred with
        | .none => f.pred = 0
        | .need => f.pred ≠ 0
        | .any => true)

/-- The slot an instruction belongs to (R14): v, m, x, c, or none for a bundle without slots and the machine's own
steps. -/
inductive SlotKind
  | v | m | x | c
  deriving DecidableEq, Repr

/-- The slot of an instruction. -/
def slotOf (i : Instr) : Option SlotKind :=
  if (vInfo i).isSome then some .v
  else if (mInfo i).isSome then some .m
  else if (xInfo i).isSome then some .x
  else if (cInfo i).isSome then some .c
  else none

/-- An instruction's slot word is legal whatever the bundle holds (R213). The machine's own steps have no slot word. -/
def legal (i : Instr) : Bool :=
  match vInfo i, mInfo i, xInfo i, cInfo i with
  | some (w, n), _, _, _ => vLegal w n
  | _, some (w, n), _, _ => mLegal w n
  | _, _, some w, _ => xLegal w
  | _, _, _, some (f, n) => cLegal f n
  | _, _, _, _ => true

end Sys2Proof.Machine
end

