-- ==== Sys2Proof/Machine/Flags.lean ====
section
/-!
DEFINITION. Exception conditions (R92) and their enables (R94): the machine keeps no sticky flags (R93), so a condition
is a value a result carries until it lands. Also the saturating and wrapping narrowing of integers (R86, R250).
-/

namespace Sys2Proof.Machine

open Sys2Proof

/-- The three conditions that CTX.FPTRAP can enable: bit 0 invalid, bit 1 divide by zero, bit 2 overflow (R94).
Underflow and inexact leave no trace (R93). -/
abbrev Cond := BitVec 3

def condNone : Cond := 0
def condInvalid : Cond := 1
def condDivZero : Cond := 2
def condOverflow : Cond := 4

/-- Invalid when a test holds. -/
def invalidIf (b : Bool) : Cond := if b then condInvalid else condNone

/-- The conditions that raise ARITH under an FPTRAP value (R94). -/
def condTrapping (c : Cond) (fptrap : BitVec 3) : Bool := c &&& fptrap ≠ 0

/-- Least value of an integer type of width w (R86). -/
def intLo (signed : Bool) (w : Nat) : Int := if signed then -(2 ^ (w - 1) : Int) else 0

/-- Greatest value of an integer type of width w (R86). -/
def intHi (signed : Bool) (w : Nat) : Int := if signed then 2 ^ (w - 1) - 1 else 2 ^ w - 1

/-- Clamps an exact value to an integer type's range. -/
def clampInt (signed : Bool) (w : Nat) (x : Int) : Int := min (max x (intLo signed w)) (intHi signed w)

/-- The value of the low w bits of a word as an integer of a type (R86). -/
def intOf (signed : Bool) (w : Nat) (x : DWord) : Int :=
  let n : Nat := x.toNat % 2 ^ w
  if signed && 2 ^ (w - 1) ≤ n then (n : Int) - 2 ^ w else n

/-- An integer of a type as a 64-bit port value: wrapped to w bits, extended to 32 bits as R86 states for narrow types
and zero above 32 bits, or all 64 bits (R53, R86). -/
def ofInt (signed : Bool) (w : Nat) (x : Int) : DWord :=
  if w = 64 then BitVec.ofInt 64 x
  else
    let y : BitVec w := BitVec.ofInt w x
    let z : BitVec 32 := if signed then y.signExtend 32 else y.zeroExtend 32
    z.zeroExtend 64

/-- `Fit(x)`: an exact value in a type, clamped when sat is set, else wrapped (R250, R86). -/
def fit (t : Ty) (sat : Bool) (x : Int) : DWord :=
  ofInt (tySigned t) (tyBits t) (if sat then clampInt (tySigned t) (tyBits t) x else x)

end Sys2Proof.Machine
end

