-- ==== Sys2Proof/Machine/Numbers.lean ====
section
/-!
DEFINITION. Number formats and exact arithmetic (R78-R91, R95, R97): exact values, decoding and rounding, single
operations, microscaling blocks and the Welford operations.
-/

namespace Sys2Proof.Machine

open Sys2Proof

/-- An exact value: NaN, an infinity, a signed zero, or a non-zero rational given by sign, numerator and denominator,
both positive. -/
inductive Val
  | nan
  | inf (neg : Bool)
  | zero (neg : Bool)
  | fin (neg : Bool) (num den : Nat)
  deriving DecidableEq, Repr

/-- Floating-point formats (R78), and W56 without its explicit leading bit (R82). -/
inductive FFmt
  | f64 | f32 | f16 | bf16 | e4m3 | e5m2 | e3m2 | e2m3 | e2m1 | w56
  deriving DecidableEq, Repr

/-- Exponent field width (R78). -/
def fExp : FFmt → Nat
  | .f64 | .w56 => 11 | .f32 | .bf16 => 8 | .f16 | .e5m2 => 5 | .e4m3 => 4 | .e3m2 => 3 | .e2m3 | .e2m1 => 2

/-- Fraction field width (R78). -/
def fFrac : FFmt → Nat
  | .f64 => 52 | .w56 => 55 | .f32 => 23 | .f16 => 10 | .bf16 => 7 | .e4m3 => 3 | .e5m2 => 2 | .e3m2 => 2 | .e2m3 => 3
  | .e2m1 => 1

/-- Exponent bias (R78). -/
def fBias : FFmt → Nat
  | .f64 | .w56 => 1023 | .f32 | .bf16 => 127 | .f16 | .e5m2 => 15 | .e4m3 => 7 | .e3m2 => 3 | .e2m3 | .e2m1 => 1

/-- Whether the top exponent holds infinities and NaNs as in IEEE 754 (R78). -/
def fIeee : FFmt → Bool
  | .e4m3 | .e3m2 | .e2m3 | .e2m1 => false
  | _ => true

/-- Width in bits. -/
def fBits (t : FFmt) : Nat := 1 + fExp t + fFrac t

/-- The greatest finite encoding with sign 0 (R78). -/
def fMaxCode (t : FFmt) : Nat :=
  if fIeee t then (2 ^ fExp t - 1) * 2 ^ fFrac t - 1
  else if t = .e4m3 then 0x7E else 2 ^ (fExp t + fFrac t) - 1

/-- The canonical NaN (R80); the formats without NaN have none and never need it. -/
def fNaN : FFmt → Nat
  | .e4m3 => 0x7F
  | t => if fIeee t then (2 ^ fExp t - 1) * 2 ^ fFrac t + 2 ^ (fFrac t - 1) else fMaxCode t

/-- The encoding with a sign. -/
def fSigned (t : FFmt) (neg : Bool) (code : Nat) : Nat := if neg then code + 2 ^ (fBits t - 1) else code

/-- The magnitude m × 2^e as an exact value. -/
def valOf (neg : Bool) (m : Nat) (e : Int) : Val :=
  if m = 0 then .zero neg else if 0 ≤ e then .fin neg (m * 2 ^ e.toNat) 1 else .fin neg m (2 ^ (-e).toNat)

/-- The exponent field of an encoding. -/
def fieldExp (t : FFmt) (n : Nat) : Nat := n / 2 ^ fFrac t % 2 ^ fExp t

/-- The fraction field of an encoding. -/
def fieldFrac (t : FFmt) (n : Nat) : Nat := n % 2 ^ fFrac t

/-- The sign of an encoding. -/
def fieldNeg (t : FFmt) (n : Nat) : Bool := n / 2 ^ (fBits t - 1) % 2 = 1

/-- The encoding is a NaN (R78). -/
def isNaN (t : FFmt) (n : Nat) : Bool :=
  if fIeee t then fieldExp t n = 2 ^ fExp t - 1 && fieldFrac t n ≠ 0
  else t = .e4m3 && n % 128 = 0x7F

/-- The encoding is a signalling NaN; those of E4M3 count as quiet (R80). -/
def isSNaN (t : FFmt) (n : Nat) : Bool := fIeee t && isNaN t n && fieldFrac t n < 2 ^ (fFrac t - 1)

/-- The value of an encoding (R79). -/
def decodeF (t : FFmt) (n : Nat) : Val :=
  let s := fieldNeg t n
  let e := fieldExp t n
  let f := fieldFrac t n
  if isNaN t n then .nan
  else if fIeee t && e = 2 ^ fExp t - 1 then .inf s
  else if e = 0 then valOf s f (1 - (fBias t : Int) - fFrac t)
  else valOf s (2 ^ fFrac t + f) ((e : Int) - fBias t - fFrac t)

/-- Rounding modes (R88): SR carries the 32 random bits of the element (R90). -/
inductive RMode
  | rne | rtz | rup | rdn | rna
  | sr (bits : Nat)
  deriving DecidableEq, Repr

/-- The mode of a slot's rounding override. -/
def rmode : Rnd → RMode
  | .rne => .rne | .rtz => .rtz | .rup => .rup | .rdn => .rdn

/-- floor(log2(num / den)). -/
def flog2 (num den : Nat) : Int :=
  let k : Int := (Nat.log2 num : Int) - Nat.log2 den
  let ge : Bool := if 0 ≤ k then den * 2 ^ k.toNat ≤ num else den ≤ num * 2 ^ (-k).toNat
  if ge then k else k - 1

/-- The quotient and remainder of num/den by the unit 2^e: n, remainder r and divisor d with value = (n + r/d) × 2^e. -/
def scaleDiv (num den : Nat) (e : Int) : Nat × Nat × Nat :=
  let a := if 0 ≤ e then num else num * 2 ^ (-e).toNat
  let d := if 0 ≤ e then den * 2 ^ e.toNat else den
  (a / d, a % d, d)

/-- Whether the magnitude n + r/d rounds up (R89). -/
def roundsUp (mode : RMode) (neg : Bool) (n r d : Nat) : Bool :=
  match mode with
  | .rne => d < 2 * r || (2 * r = d && n % 2 = 1)
  | .rna => d ≤ 2 * r
  | .rtz => false
  | .rup => r ≠ 0 && !neg
  | .rdn => r ≠ 0 && neg
  | .sr bits => bits < r * 2 ^ 32 / d

/-- `OverflowResult` and the saturation of R91: the encoding of an overflowed result. -/
def overflowCode (t : FFmt) (mode : RMode) (sat neg : Bool) : Nat :=
  let toMax : Bool := match mode with
    | .rtz => true
    | .rup => neg
    | .rdn => !neg
    | _ => false
  if toMax || sat then fSigned t neg (fMaxCode t)
  else if fIeee t then fSigned t neg ((2 ^ fExp t - 1) * 2 ^ fFrac t)
  else fNaN t

/-- The encoding of an infinity, which a format without one gives as the canonical NaN (R89), or as the greatest finite
value under saturation (R91). -/
def infCode (t : FFmt) (sat neg : Bool) : Nat :=
  if sat then fSigned t neg (fMaxCode t)
  else if fIeee t then fSigned t neg ((2 ^ fExp t - 1) * 2 ^ fFrac t)
  else fNaN t

/-- Places a rounded magnitude n × 2^(e - frac) in a format, or reports overflow (R89). -/
def placeCode (t : FFmt) (mode : RMode) (sat neg : Bool) (n : Nat) (e : Int) : Nat × Cond :=
  let carry := 2 ^ (fFrac t + 1) ≤ n
  let n := if carry then n / 2 else n
  let e := if carry then e + 1 else e
  let code := if n < 2 ^ fFrac t then n else (e + fBias t).toNat * 2 ^ fFrac t + (n - 2 ^ fFrac t)
  if fMaxCode t < code then (overflowCode t mode sat neg, condOverflow) else (fSigned t neg code, condNone)

/-- `RoundTo(fmt, mode, v)` for a floating format, with R91 when sat is set (R89, R91). -/
def roundTo (t : FFmt) (mode : RMode) (sat : Bool) : Val → Nat × Cond
  | .nan => (fNaN t, condNone)
  | .inf s => (infCode t sat s, condNone)
  | .zero s => (fSigned t s 0, condNone)
  | .fin s num den =>
    let e := max (flog2 num den) (1 - (fBias t : Int))
    let (n, r, d) := scaleDiv num den (e - fFrac t)
    placeCode t mode sat s (if roundsUp mode s n r d then n + 1 else n) e

/-- A value rounded to an integer under a mode (R89); zero for NaN and the infinities, which callers treat apart. -/
def roundInt (mode : RMode) : Val → Int
  | .fin s num den =>
    let n := num / den
    let m := if roundsUp mode s n (num % den) den then n + 1 else n
    if s then -(m : Int) else m
  | _ => 0

/-- `RoundTo` for an integer type: out of range and the infinities give min or max, NaN gives 0, each invalid (R89). -/
def roundToInt (signed : Bool) (w : Nat) (mode : RMode) (v : Val) : Int × Cond :=
  match v with
  | .nan => (0, condInvalid)
  | .inf s => (if s then intLo signed w else intHi signed w, condInvalid)
  | .zero _ => (0, condNone)
  | .fin _ _ _ =>
    let n := roundInt mode v
    if n < intLo signed w then (intLo signed w, condInvalid)
    else if intHi signed w < n then (intHi signed w, condInvalid)
    else (n, condNone)

def Val.isNeg : Val → Bool
  | .nan => false
  | .inf s | .zero s | .fin s _ _ => s

def Val.neg : Val → Val
  | .nan => .nan
  | .inf s => .inf (!s)
  | .zero s => .zero (!s)
  | .fin s n d => .fin (!s) n d

def Val.isZero : Val → Bool
  | .zero _ => true
  | _ => false

/-- The integer n as an exact value; zero is +0. -/
def Val.ofInt (n : Int) : Val := if n = 0 then .zero false else .fin (n < 0) n.natAbs 1

/-- An exact zero sum of operands of opposite signs: +0, but −0 under RDN (R95). -/
def zeroSum (mode : RMode) : Val := .zero (mode = .rdn)

/-- Exact sum, with the invalid case +∞ and −∞, and the sign of an exact zero (R95, R258). -/
def Val.add (mode : RMode) : Val → Val → Val × Cond
  | .nan, _ | _, .nan => (.nan, condNone)
  | .inf s, .inf t => if s = t then (.inf s, condNone) else (.nan, condInvalid)
  | .inf s, _ | _, .inf s => (.inf s, condNone)
  | .zero s, .zero t => (if s = t then .zero s else zeroSum mode, condNone)
  | .zero _, v | v, .zero _ => (v, condNone)
  | .fin s a b, .fin t c d =>
    let x := a * d
    let y := c * b
    if s = t then (.fin s (x + y) (b * d), condNone)
    else if x = y then (zeroSum mode, condNone)
    else if y < x then (.fin s (x - y) (b * d), condNone)
    else (.fin t (y - x) (b * d), condNone)

/-- Exact product, with the invalid case 0 × ∞ (R258). -/
def Val.mul : Val → Val → Val × Cond
  | .nan, _ | _, .nan => (.nan, condNone)
  | .inf _, .zero _ | .zero _, .inf _ => (.nan, condInvalid)
  | .inf s, .inf t | .inf s, .fin t _ _ | .fin s _ _, .inf t => (.inf (s ^^ t), condNone)
  | .zero s, .zero t | .zero s, .fin t _ _ | .fin s _ _, .zero t => (.zero (s ^^ t), condNone)
  | .fin s a b, .fin t c d => (.fin (s ^^ t) (a * c) (b * d), condNone)

/-- v × 2^k, exact. -/
def Val.scale (k : Int) : Val → Val
  | .fin s n d => if 0 ≤ k then .fin s (n * 2 ^ k.toNat) d else .fin s n (d * 2 ^ (-k).toNat)
  | v => v

/-- Exact order of two values, none when either is NaN; the two zeros are equal (R260). -/
def Val.cmp : Val → Val → Option Ordering
  | .nan, _ | _, .nan => none
  | x, y =>
    let key : Val → Int × Nat := fun v => match v with
      | .inf s => (if s then -2 else 2, 1)
      | .fin s n d => (if s then -(n : Int) else n, d)
      | _ => (0, 1)
    match x, y with
    | .inf s, .inf t => some (if s = t then .eq else if s then .lt else .gt)
    | .inf s, _ => some (if s then .lt else .gt)
    | _, .inf s => some (if s then .gt else .lt)
    | _, _ =>
      let (a, b) := key x
      let (c, d) := key y
      some (compare (a * d) (c * b))

/-- The format of a floating type. -/
def fmtOfTy : Ty → FFmt
  | .f64 => .f64 | .f16 => .f16 | .bf16 => .bf16 | .e4m3 => .e4m3 | .e5m2 => .e5m2 | _ => .f32

/-- A rounded result as a 64-bit port value. -/
def portF (r : Nat × Cond) : DWord × Cond := (BitVec.ofNat 64 r.1, r.2)

/-- Any operand encoding is a signalling NaN. -/
def sNaNAny (t : FFmt) (l : List Nat) : Bool := l.any (isSNaN t)

/-- The fused multiply-add shape of R258: ±(A × B) ± C rounded once. A product 0 × ∞ is invalid whatever the addend. -/
def fmaVal (mode : RMode) (negP negC : Bool) (a b c : Val) : Val × Cond :=
  let (p, i) := Val.mul a b
  let (s, j) := Val.add mode (if negP then p.neg else p) (if negC then c.neg else c)
  (if i = condNone then s else .nan, i ||| j)

/-- W56 as 68 bits with its explicit leading bit (R82): sign, exponent, 56-bit significand. -/
def w56Encode (v : Val) : W56 :=
  let c := (roundTo .w56 .rne false v).1
  let e := fieldExp .w56 c
  let sig := fieldFrac .w56 c + (if e = 0 then 0 else 2 ^ 55)
  BitVec.ofNat 68 (sig + e * 2 ^ 56 + (fieldNeg .w56 c).toNat * 2 ^ 67)

/-- The value of a W56 (R82). -/
def w56Decode (w : W56) : Val :=
  let n := w.toNat
  let e := n / 2 ^ 56 % 2048
  decodeF .w56 (n % 2 ^ 55 + e * 2 ^ 55 + n / 2 ^ 67 * 2 ^ 66)

/-- What FMA.q reads while a lane is open: `RoundTo(binary64, RTZ, w)` (R98). -/
def w56Read (w : W56) : DWord := BitVec.ofNat 64 (roundTo .f64 .rtz false (w56Decode w)).1

/-- Minimum or maximum of two encodings, minimumNumber and maximumNumber (R95, R259). -/
def minMaxF (t : FFmt) (wantMax : Bool) (a b : Nat) : Nat × Cond :=
  let inv := invalidIf (sNaNAny t [a, b])
  if isNaN t a && isNaN t b then (fNaN t, inv)
  else if isNaN t a then (b, inv)
  else if isNaN t b then (a, inv)
  else
    let va := decodeF t a
    let vb := decodeF t b
    let less : Bool := match Val.cmp va vb with
      | some .lt => true
      | some .eq => va.isNeg && !vb.isNeg
      | _ => false
    (if less ^^ wantMax then a else b, inv)

/-- The one-hot class of an encoding (R261). -/
def classF (t : FFmt) (n : Nat) : Nat :=
  if isSNaN t n then 256
  else if isNaN t n then 512
  else match decodeF t n with
    | .inf s => if s then 1 else 128
    | .zero s => if s then 8 else 16
    | _ =>
      let sub := fieldExp t n = 0
      if fieldNeg t n then (if sub then 4 else 2) else (if sub then 32 else 64)

/-- A value rounded to an integral value in its own format, a zero keeping the operand's sign (R263). -/
def integralVal (mode : RMode) (v : Val) : Val :=
  match v with
  | .fin s _ _ =>
    let n := roundInt mode v
    if n = 0 then .zero s else .fin s n.natAbs 1
  | v => v

/-! ### Microscaling blocks (R83-R85) -/

/-- The value of an element under a scale byte (R84): 0xFF makes every element NaN, an E5M2 infinity too, of which R84 also says
that it stays infinity whatever the scale (log entry 126, DEDUCED). -/
def mxValue (t : FFmt) (scale : Nat) (code : Nat) : Val :=
  if scale = 255 then .nan else (decodeF t code).scale ((scale : Int) - 127)

/-- `emax` of an element format (R85). -/
def mxEmax : FFmt → Int
  | .e4m3 => 8 | .e5m2 => 15 | .e3m2 => 4 | _ => 2

/-- The magnitude of a finite value as numerator and denominator. -/
def Val.mag : Val → Nat × Nat
  | .fin _ n d => (n, d)
  | _ => (0, 1)

/-- `MXEncode(elem, mode, v)` (R85): scale byte and element codes. -/
def mxEncode (t : FFmt) (mode : RMode) (vs : List Val) : Nat × List Nat :=
  if vs.any fun v => match v with | .nan | .inf _ => true | _ => false then (255, vs.map fun _ => 0)
  else
    let amax := vs.foldl (fun (m : Nat × Nat) v => let (n, d) := v.mag; if m.1 * d < n * m.2 then (n, d) else m) (0, 1)
    if amax.1 = 0 then (0, vs.map fun v => fSigned t v.isNeg 0)
    else
      let e := min (max (flog2 amax.1 amax.2 - mxEmax t) (-127)) 127
      ((e + 127).toNat, vs.map fun v => (roundTo t mode true (v.scale (-e))).1)

/-! ### The Welford operations (R106-R108) -/

/-- A Welford triple: count, mean and M2 as binary32 encodings (R106). -/
structure Welford where
  n : Nat
  mean : Nat
  m2 : Nat
  deriving DecidableEq, Repr

/-- Exact quotient by a positive integer. -/
def Val.divNat (k : Nat) : Val → Val
  | .fin s n d => .fin s n (d * k)
  | v => v

/-- Rounds to binary32 under a mode, keeping the conditions of the exact operation. -/
def rf32 (mode : RMode) (x : Val × Cond) : Nat × Cond :=
  let (c, k) := roundTo .f32 mode false x.1
  (c, k ||| x.2)

/-- Sum and conditions, chained. -/
def addC (mode : RMode) (x y : Val × Cond) : Val × Cond :=
  let (v, c) := Val.add mode x.1 y.1
  (v, c ||| x.2 ||| y.2)

/-- Product and conditions, chained. -/
def mulC (x y : Val × Cond) : Val × Cond :=
  let (v, c) := Val.mul x.1 y.1
  (v, c ||| x.2 ||| y.2)

/-- A binary32 encoding as an exact value with its condition: invalid for a signalling NaN. -/
def f32c (n : Nat) : Val × Cond := (decodeF .f32 n, invalidIf (isSNaN .f32 n))

/-- `WelfordUpdate` (R107). A count overflow signals invalid and leaves the triple. -/
def welfordUpdate (mode : RMode) (w : Welford) (x : Nat) : Welford × Cond :=
  if w.n = 0xFFFFFFFF then (w, condInvalid)
  else
    let n := w.n + 1
    let (d, c1) := rf32 mode (addC mode (f32c x) ((f32c w.mean).map Val.neg id))
    let dv := decodeF .f32 d
    let (mean, c2) := rf32 mode (addC mode (f32c w.mean) (dv.divNat n, condNone))
    let (d2, c3) := rf32 mode (addC mode (f32c x) (Val.neg (decodeF .f32 mean), condNone))
    let (m2, c4) := rf32 mode (addC mode (f32c w.m2) (mulC (dv, condNone) (decodeF .f32 d2, condNone)))
    (⟨n, mean, m2⟩, c1 ||| c2 ||| c3 ||| c4)

/-- Product by an integer and quotient by a positive integer, exact. -/
def Val.mulDiv (k : Nat) (j : Nat) : Val → Val
  | .fin s n d => if k = 0 then .zero s else .fin s (n * k) (d * j)
  | v => v

/-- `WelfordMerge` (R108). -/
def welfordMerge (mode : RMode) (a b : Welford) : Welford × Cond :=
  if 0xFFFFFFFF < a.n + b.n then (a, condInvalid)
  else if b.n = 0 then (a, condNone)
  else if a.n = 0 then (b, condNone)
  else
    let n := a.n + b.n
    let (d, c1) := rf32 mode (addC mode (f32c b.mean) ((f32c a.mean).map Val.neg id))
    let dv := decodeF .f32 d
    let (mean, c2) := rf32 mode (addC mode (f32c a.mean) (dv.mulDiv b.n n, condNone))
    let sq := mulC (dv, condNone) (dv, condNone)
    let (m2, c3) := rf32 mode (addC mode (addC mode (f32c a.m2) (f32c b.m2)) (sq.1.mulDiv (a.n * b.n) n, sq.2))
    (⟨n, mean, m2⟩, c1 ||| c2 ||| c3)

end Sys2Proof.Machine
end

