-- ==== Sys2Proof/Config.lean ====
section
/-!
DEFINITION. What the spec leaves to the hardware: constants with no body, so that no statement can rest on a value.
-/

namespace Sys2Proof.Config

open Sys2Proof

/-- Cycles that a variable-latency path takes, for the n-th value drawn (R18, R63, R135, R149; log entry 5). -/
opaque latency : Nat → Nat

/-- An unspecified choice, for the n-th value drawn: old or new data, orders left open (R63, R119, R153; log entry 6). -/
opaque choice : Nat → Nat

/-- Byte i that another module delivers to a copy at the n-th draw: that module is not part of the machine (R341; log entry
15). -/
opaque remoteByte : Nat → Nat → Nat → Byte

/-- The tile router and input port that a tile router's output port leads to in a slot: the spec gives the ports and no
mesh (R176, R178, R378; log entry 27). -/
opaque routerLink : Nat → Nat → Nat → Option (Nat × Nat)

/-- The SM3 hash of a byte string, which the spec names and does not define (R186, R452, R490; log entry 9). -/
opaque sm3 : List Byte → BitVec 256

/-- Whether an SM2 signature (r, s) verifies over a digest under Aednaver's firmware key (R490; log entry 9). -/
opaque sm2Verify : BitVec 256 → BitVec 512 → Bool

/-- The attestation key: what it signs at the n-th draw over a digest, and what its public key 0x04, x, y accepts. Every
signature verifies, and the bytes of two executions differ (R384, R491; log entry 9). -/
structure Sm2Key where
  publicKey : BitVec 520
  sign : Nat → BitVec 256 → BitVec 512
  verify : BitVec 256 → BitVec 512 → Bool
  verifies : ∀ n e, verify e (sign n e) = true
  differs : ∀ n m d e, n < 2 ^ 256 → m < 2 ^ 256 → n ≠ m → sign n d ≠ sign m e

/-- Some such key exists, which is all that the next constant needs. -/
@[reducible] def someKey : Inhabited Sm2Key := ⟨{
  publicKey := 0
  sign := fun n _ => BitVec.ofNat 512 n
  verify := fun _ _ => true
  verifies := fun _ _ => rfl
  differs := fun n m _ _ hn hm h e => h (by
    have := congrArg BitVec.toNat e
    rw [BitVec.toNat_ofNat, BitVec.toNat_ofNat, Nat.mod_eq_of_lt (by omega), Nat.mod_eq_of_lt (by omega)] at this
    exact this) }⟩

/-- The key that the boot derives: no value of it is known. -/
opaque anyKey [Inhabited Sm2Key] : Sm2Key
def attestKey : Sm2Key := @anyKey someKey

/-- The signature made at the n-th draw over a digest with the attestation key (R384). -/
def sm2Sign (n : Nat) (e : BitVec 256) : BitVec 512 := attestKey.sign n e

/-- The value Z of GB/T 32918.2 for the attestation key and the identity string of R454, 32 bytes (log entry 9). -/
opaque attestZ : List Byte

/-- The value Z for Aednaver's firmware key (R490; log entry 9). -/
opaque firmwareZ : List Byte

/-- The attestation public key 0x04, x, y (R491). -/
def publicKey : BitVec 520 := attestKey.publicKey

end Sys2Proof.Config
end

