-- ==== Sys2Proof/WellFormed.lean ====
section
/-!
DEFINITION. Well-formed instructions: the slot word is legal whatever the bundle around it holds (R213). The checks
themselves stand with the opcode maps in Machine/Encoding.lean.
-/

namespace Sys2Proof

/-- A well-formed instruction. Every step of the machine that is no word of a program is well-formed. -/
abbrev WellFormed (i : Instr) : Prop := Machine.legal i = true

/-- A well-formed instruction with a slot word. -/
abbrev Encodable (i : Instr) : Prop := WellFormed i ∧ (Machine.slotOf i).isSome = true

end Sys2Proof
end

