-- ==== Sys2Proof/Decode.lean ====
section
/-!
DEFINITION. Decoding of slot words, the header and bundles (R15, R193, R198-R213), total on any bits and rejecting by
name, and the encoder of slot words written from the same layouts.
-/

namespace Sys2Proof

open Machine

/-- Why bits are no instruction. Each is ENC_ILLEGAL (R213). -/
inductive DecodeErr
  | headerZeroField      -- R198: header [63:57] not zero
  | headerSync           -- R198: sync 2 or 3
  | headerLiterals       -- R198: literal count 7 or above the limit of R15
  | headerSemaphore      -- R74
  | reservedSpecifier    -- R200
  | reservedDeposit      -- R67, R205
  | reservedPath         -- R204: tag 5 or 6
  | reservedUnit         -- R202: unit 5 to 7
  | reservedScope        -- R205
  | reservedSize         -- R205
  | reservedFormat       -- R208
  | reservedMode         -- R205
  | slotZeroField        -- R205: [63:58] of an x or c slot not zero
  | unlistedOpcode       -- R206-R209
  | illegalField         -- R213: a field the instruction's entry does not allow
  | truncated            -- fewer bits than the header asks for
  deriving DecidableEq, Repr

/-- A word from fields of given width and value, the first at bit 0. -/
def pack : List (Nat × Nat) → Nat
  | [] => 0
  | (w, v) :: rest => v + 2 ^ w * pack rest

/-- The fields of given widths of a word, the first at bit 0. -/
def unpack : List Nat → Nat → List Nat
  | [], _ => []
  | w :: rest, n => n % 2 ^ w :: unpack rest (n / 2 ^ w)

/-- The number of a unit in slot words and latch specifiers (R202, R56). -/
def unitCode : VUnit → Nat
  | .ial => 0 | .fma => 1 | .xf => 2 | .xl => 3 | .str => 4 | .lsu => 5

/-- The unit with a number. -/
def unitOf : Nat → Option VUnit
  | 0 => some .ial | 1 => some .fma | 2 => some .xf | 3 => some .xl | 4 => some .str | 5 => some .lsu | _ => none

/-- System values in specifier order from 0x140 (R200). -/
def sysCode : SysVal → Nat
  | .lane => 0 | .wave => 1 | .group => 2 | .grid => 3 | .depth => 4 | .core => 5 | .tile => 6 | .die => 7 | .step => 8
  | .seed k => 9 + k.val | .cycleLo => 13 | .cycleHi => 14

/-- The system value at an offset from 0x140. -/
def sysOf : Nat → Option SysVal
  | 0 => some .lane | 1 => some .wave | 2 => some .group | 3 => some .grid | 4 => some .depth | 5 => some .core
  | 6 => some .tile | 7 => some .die | 8 => some .step | 9 => some (.seed 0) | 10 => some (.seed 1)
  | 11 => some (.seed 2) | 12 => some (.seed 3) | 13 => some .cycleLo | 14 => some .cycleHi | _ => none

/-- The 10-bit code of a source specifier (R200). -/
def srcCode : Src → Nat
  | .v n => n.val
  | .a n => 0x100 + n.val
  | .p n => 0x120 + n.val
  | .latch u hi => 0x128 + 2 * unitCode u + hi.toNat
  | .sys s => 0x140 + sysCode s
  | .peek k => 0x160 + k.val
  | .pop => 0x168
  | .imm k => 0x170 + k.val
  | .lit k => 0x1F0 + k.val
  | .keep => 0x3FF

/-- The source specifier with a code; none for the reserved values (R200). -/
def srcOf (n : Nat) : Option Src :=
  if h : n < 256 then some (.v ⟨n, h⟩)
  else if h : n - 256 < 32 then some (.a ⟨n - 256, h⟩)
  else if h : n - 0x120 < 8 then some (.p ⟨n - 0x120, h⟩)
  else if n < 0x134 then (unitOf ((n - 0x128) / 2)).map fun u => .latch u ((n - 0x128) % 2 = 1)
  else if n < 0x140 then none
  else if n < 0x150 then (sysOf (n - 0x140)).map .sys
  else if n < 0x160 then none
  else if h : n - 0x160 < 8 then some (.peek ⟨n - 0x160, h⟩)
  else if n = 0x168 then some .pop
  else if n < 0x170 then none
  else if h : n - 0x170 < 128 then some (.imm ⟨n - 0x170, h⟩)
  else if h : n - 0x1F0 < 6 then some (.lit ⟨n - 0x1F0, h⟩)
  else if n = 0x3FF then some .keep
  else none

/-- The 9-bit deposit code of a v slot (R67). -/
def depCode : Dep → Nat
  | .v n => n.val
  | .p n => 0x101 + n.val
  | .none => 0x1FF

/-- The deposit with a code; none for 0x100 and 0x108-0x1FE (R67). -/
def depOf (n : Nat) : Option Dep :=
  if h : n < 256 then some (.v ⟨n, h⟩)
  else if n = 256 then none
  else if h : n - 257 < 7 then some (.p ⟨n - 257, h⟩)
  else if n = 0x1FF then some .none
  else none

/-- The deposit code of an m slot (R205). -/
def mDepCode : Option (Fin 256) → Nat
  | some n => n.val
  | none => 0x1FF

/-- The m-slot deposit with a code (R205). -/
def mDepOf (n : Nat) : Option (Option (Fin 256)) :=
  if h : n < 256 then some (some ⟨n, h⟩) else if n = 0x1FF then some none else none

/-- The 4-bit code of a guard or test (R203). -/
def guardCode (g : Guard) : Nat := g.pred.val + 8 * g.neg.toNat

/-- The guard of a 4-bit code. -/
def guardOf (n : Nat) : Guard := ⟨n / 8 % 2 = 1, Fin.ofNat 8 n⟩

/-- The 3-bit code of a path tag (R204). -/
def pathCode : Path → Nat
  | .leaf k => k.val
  | .all => 7

/-- The path tag of a code; 5 and 6 are reserved (R204). -/
def pathOf (n : Nat) : Option Path :=
  if h : n < 5 then some (.leaf ⟨n, h⟩) else if n = 7 then some .all else none

def rndCode : Rnd → Nat | .rne => 0 | .rtz => 1 | .rup => 2 | .rdn => 3
def rndOf : Nat → Rnd | 0 => .rne | 1 => .rtz | 2 => .rup | _ => .rdn
def chainCode : Chain → Nat | .none => 0 | .opn => 1 | .cont => 2 | .close => 3
def chainOf : Nat → Chain | 0 => .none | 1 => .opn | 2 => .cont | _ => .close
def orderCode : Order → Nat | .none => 0 | .acq => 1 | .rel => 2 | .ar => 3
def orderOf : Nat → Order | 0 => .none | 1 => .acq | 2 => .rel | _ => .ar
def scopeCode : Scope → Nat | .w => 0 | .g => 1 | .t => 2 | .d => 3 | .k => 4 | .p => 5
def scopeOf : Nat → Option Scope
  | 0 => some .w | 1 => some .g | 2 => some .t | 3 => some .d | 4 => some .k | 5 => some .p | _ => none
def sizeOf' : Nat → Option Size
  | 0 => some .b1 | 1 => some .b2 | 2 => some .b4 | 3 => some .b8 | 4 => some .b16 | _ => none
def fmtOf : Nat → Option Fmt
  | 0 => some .fp64 | 1 => some .fp32 | 2 => some .fp16 | 3 => some .bf16 | 4 => some .e4m3 | 5 => some .e5m2
  | 6 => some .i8 | 7 => some .mx8e4 | 8 => some .mx8e5 | 9 => some .mx6e3 | 10 => some .mx6e2 | 11 => some .mx4
  | 12 => some .bin | _ => none
def mxModeCode : MxMode → Nat | .mac => 0 | .xorPop => 1 | .andPop => 2
def mxModeOf : Nat → Option MxMode | 0 => some .mac | 1 => some .xorPop | 2 => some .andPop | _ => none

/-- An absent value is a decoding error. -/
def need {α : Type} (e : DecodeErr) : Option α → Except DecodeErr α
  | some x => .ok x
  | none => .error e

/-- An instruction that is not legal by itself is refused (R213). -/
def checked (i : Instr) : Except DecodeErr Instr := if legal i then .ok i else .error .illegalField

/-- The v slot word (R202). -/
def packV (w : VWord) : Nat :=
  pack [(4, tyCode w.f.ty), (6, w.op), (3, unitCode w.unit), (10, srcCode w.f.a), (10, srcCode w.f.b), (10, srcCode w.f.c),
    (9, depCode w.f.dep), (4, guardCode w.f.guard), (3, pathCode w.f.path), (2, rndCode w.f.rnd), (2, chainCode w.f.chain),
    (1, w.f.sat.toNat)]

/-- Decodes a v slot word (R202). -/
def decodeV (n : Nat) : Except DecodeErr Instr :=
  match unpack [4, 6, 3, 10, 10, 10, 9, 4, 3, 2, 2, 1] n with
  | [ty, op, u, a, b, c, dep, g, p, r, ch, sat] => do
    let ty ← need .unlistedOpcode (tyOfCode ty)
    let u ← need .reservedUnit (unitOf u)
    let a ← need .reservedSpecifier (srcOf a)
    let b ← need .reservedSpecifier (srcOf b)
    let c ← need .reservedSpecifier (srcOf c)
    let dep ← need .reservedDeposit (depOf dep)
    let p ← need .reservedPath (pathOf p)
    let i ← need .unlistedOpcode (vOf u op ⟨ty, a, b, c, dep, guardOf g, p, rndOf r, chainOf ch, sat = 1⟩)
    checked i
  | _ => .error .truncated

/-- The m slot word (R205). -/
def packM (w : MWord) : Nat :=
  pack [(6, w.op), (2, orderCode w.f.order), (3, sizeCode w.f.size), (3, scopeCode w.f.scope), (10, srcCode w.f.a),
    (10, srcCode w.f.b), (5, w.f.base.val), (8, w.f.sem.toNat), (9, mDepCode w.f.dep), (4, guardCode w.f.guard),
    (3, pathCode w.f.path), (1, w.f.postinc.toNat)]

/-- Decodes an m slot word (R205). -/
def decodeM (n : Nat) : Except DecodeErr Instr :=
  match unpack [6, 2, 3, 3, 10, 10, 5, 8, 9, 4, 3, 1] n with
  | [op, o, z, sc, a, b, base, sem, dep, g, p, post] => do
    let z ← need .reservedSize (sizeOf' z)
    let sc ← need .reservedScope (scopeOf sc)
    let a ← need .reservedSpecifier (srcOf a)
    let b ← need .reservedSpecifier (srcOf b)
    let dep ← need .reservedDeposit (mDepOf dep)
    let p ← need .reservedPath (pathOf p)
    let g' ← need .unlistedOpcode (mOf op)
    checked (g' ⟨orderOf o, z, sc, a, b, Fin.ofNat 32 base, BitVec.ofNat 8 sem, dep, guardOf g, p, post = 1⟩)
  | _ => .error .truncated

/-- The x slot word (R205). -/
def packX (w : XWord) : Nat :=
  pack [(6, w.op), (4, fmtCode w.f.fmt), (2, mxModeCode w.f.mode), (5, w.f.ra.val), (5, w.f.rb.val), (10, w.f.tile.toNat),
    (16, w.f.count.toNat), (3, w.f.incr.toNat), (1, w.f.init.toNat), (6, w.f.circuit.toNat), (6, 0)]

/-- Decodes an x slot word (R205). -/
def decodeX (n : Nat) : Except DecodeErr Instr :=
  match unpack [6, 4, 2, 5, 5, 10, 16, 3, 1, 6, 6] n with
  | [op, t, m, ra, rb, tile, count, incr, init, circ, z] => do
    if z ≠ 0 then .error .slotZeroField
    let t ← need .reservedFormat (fmtOf t)
    let m ← need .reservedMode (mxModeOf m)
    let g ← need .unlistedOpcode (xOf op)
    checked (g ⟨t, m, Fin.ofNat 32 ra, Fin.ofNat 32 rb, BitVec.ofNat 10 tile, BitVec.ofNat 16 count, BitVec.ofNat 3 incr,
      init = 1, BitVec.ofNat 6 circ⟩)
  | _ => .error .truncated

/-- The c slot word (R205). -/
def packC (code : Nat) (f : CSlot) : Nat :=
  pack [(6, code), (4, f.shape.toNat), (4, guardCode f.t0), (4, guardCode f.t1), (4, guardCode f.t2), (4, guardCode f.t3),
    (3, f.lit.toNat), (10, srcCode f.src), (8, f.sem.toNat), (8, f.imm.toNat), (3, f.pred.val), (6, 0)]

/-- Decodes a c slot word (R205). -/
def decodeC (n : Nat) : Except DecodeErr Instr :=
  match unpack [6, 4, 4, 4, 4, 4, 3, 10, 8, 8, 3, 6] n with
  | [op, sh, t0, t1, t2, t3, lit, src, sem, imm, pred, z] => do
    if z ≠ 0 then .error .slotZeroField
    let src ← need .reservedSpecifier (srcOf src)
    let g ← need .unlistedOpcode (cOf op imm)
    checked (g ⟨BitVec.ofNat 4 sh, guardOf t0, guardOf t1, guardOf t2, guardOf t3, BitVec.ofNat 3 lit, src,
      BitVec.ofNat 8 sem, BitVec.ofNat 8 imm, Fin.ofNat 8 pred⟩)
  | _ => .error .truncated

/-- Decodes the slot word of a slot. -/
def decodeSlot : SlotKind → Nat → Except DecodeErr Instr
  | .v, n => decodeV n
  | .m, n => decodeM n
  | .x, n => decodeX n
  | .c, n => decodeC n

/-- The header's literal count is within the limit of R15. -/
def litsOk (slots lits : Nat) : Bool := lits ≤ 6 && 64 + 64 * slots + 32 * lits ≤ 384

/-- The header's semaphore fields are legal (R74); literal word 0 exists when it holds the threshold. -/
def headerSemOk (h : Header) : Bool :=
  (!h.waitLit || (h.waitEn && h.lits ≠ 0 && h.waitThr = 0))
    && (h.waitEn || (!h.waitLit && h.waitSem = 0 && h.waitThr = 0))
    && (h.sigEn || (h.sigSem = 0 && h.sigInc = 0))
    && (!h.waitEn || h.waitSem.toNat < 248 || 252 < h.waitSem.toNat)
    && (!h.sigEn || h.sigSem.toNat < 248)

/-- Number of slots a header announces. -/
def Header.slots (h : Header) : Nat := h.v.toNat + h.m.toNat + h.x.toNat + h.c.toNat

/-- Length in bits of the bundle a header opens (R15). -/
def Header.bits (h : Header) : Nat := 64 + 64 * h.slots + 32 * h.lits.val

/-- The header's fields, before the checks that make it legal. -/
def headerFields (n : Nat) : Header × Nat × Nat :=
  match unpack [1, 1, 1, 1, 4, 1, 3, 1, 1, 8, 16, 1, 8, 8, 2, 7] n with
  | [v, m, x, c, gap, sp, lits, we, wl, ws, wt, se, ss, si, sync, z] =>
    (⟨v = 1, m = 1, x = 1, c = 1, Fin.ofNat 16 gap, sp = 1, Fin.ofNat 8 lits, we = 1, wl = 1, BitVec.ofNat 8 ws, BitVec.ofNat 16 wt,
      se = 1, BitVec.ofNat 8 ss, BitVec.ofNat 8 si, sync = 1⟩, sync, z)
  | _ => (⟨false, false, false, false, 0, false, 0, false, false, 0, 0, false, 0, 0, false⟩, 0, 0)

/-- Decodes a header word (R198). -/
def decodeHeader (n : Nat) : Except DecodeErr Header :=
  let (h, sync, z) := headerFields n
  if z ≠ 0 then .error .headerZeroField
  else if 2 ≤ sync then .error .headerSync
  else if !litsOk h.slots h.lits.val then .error .headerLiterals
  else if !headerSemOk h then .error .headerSemaphore
  else .ok h

/-- The header word (R198). -/
def packHeader (h : Header) : Nat :=
  pack [(1, h.v.toNat), (1, h.m.toNat), (1, h.x.toNat), (1, h.c.toNat), (4, h.gap.val), (1, h.sp.toNat), (3, h.lits.val),
    (1, h.waitEn.toNat), (1, h.waitLit.toNat), (8, h.waitSem.toNat), (16, h.waitThr.toNat), (1, h.sigEn.toNat),
    (8, h.sigSem.toNat), (8, h.sigInc.toNat), (2, h.sync.toNat), (7, 0)]

/-- A decoded bundle (R15): header, the slots present, the literal words. -/
structure Bundle where
  hdr : Header
  v : Option Instr
  m : Option Instr
  x : Option Instr
  c : Option Instr
  lits : List Word
  deriving DecidableEq, Repr

/-- The slots of a bundle in the order v, m, x, c. -/
def Bundle.slots (b : Bundle) : List Instr := b.v.toList ++ b.m.toList ++ b.x.toList ++ b.c.toList

/-- Decodes the slot words present, in the order v, m, x, c (R15). Answers the slots and the bits after them. -/
def decodeSlots : List (Bool × SlotKind) → Nat → Except DecodeErr (List (Option Instr) × Nat)
  | [], n => .ok ([], n)
  | (true, k) :: rest, n => do
    let i ← decodeSlot k (n % 2 ^ 64)
    let (l, r) ← decodeSlots rest (n / 2 ^ 64)
    pure (some i :: l, r)
  | (false, _) :: rest, n => do
    let (l, r) ← decodeSlots rest n
    pure (none :: l, r)

/-- The literal words of a pool (R199). -/
def litWords (k n : Nat) : List Word := (unpack (List.replicate k 32) n).map (BitVec.ofNat 32)

/-- Decodes a bundle from its bits, the header at bit 0 (R15, R193, R198). -/
def decodeBundle (n : Nat) : Except DecodeErr Bundle := do
  let h ← decodeHeader (n % 2 ^ 64)
  let (l, r) ← decodeSlots [(h.v, .v), (h.m, .m), (h.x, .x), (h.c, .c)] (n / 2 ^ 64)
  match l with
  | [v, m, x, c] => pure ⟨h, v, m, x, c, litWords h.lits.val r⟩
  | _ => .error .truncated

/-- The instruction a bundle of at most one slot stands for: its slot, or HEADER_ONLY_BUNDLE (R198). -/
def Bundle.single (b : Bundle) : Option Instr :=
  match b.slots with
  | [] => some .headerOnlyBundle
  | [i] => some i
  | _ => none

/-- The slot word of an instruction (R202, R205); zero for a step of the machine that has no slot word. -/
def encode (i : Instr) : DWord :=
  match vInfo i, mInfo i, xInfo i, cInfo i with
  | some (w, _), _, _, _ => BitVec.ofNat 64 (packV w)
  | _, some (w, _), _, _ => BitVec.ofNat 64 (packM w)
  | _, _, some w, _ => BitVec.ofNat 64 (packX w)
  | _, _, _, some (f, n) => BitVec.ofNat 64 (packC n.code f)
  | _, _, _, _ => 0

/-- The instruction that a bundle's bits hold, header in bits 63:0, slot word above it, then literals. The table gives
no row any bits, so the whole bundle stands for the row. -/
def decodeTableWord (_nbits w : Nat) : Option Instr :=
  match decodeBundle w with
  | .ok b => b.single
  | .error _ => none

end Sys2Proof
end

