-- ==== Sys2Proof/Machine/State.lean ====
section
/-!
DEFINITION. The state of the package as plain data: everything the spec gives the machine, and what the model needs to
say which step comes next (agenda, inputs, issue context, counters; log entry 1).
-/

namespace Sys2Proof.Machine

open Sys2Proof

/-! ### Outcomes -/

/-- The machine stops for no reason of its own: every event of the spec leaves a next state, so no fault exists. -/
inductive Fault
  deriving DecidableEq, Repr

/-- Why an instruction has no meaning in this model. -/
inductive Refusal
  | /-- Raised by an arm of `exec` whose instruction has no meaning yet. Safe: it only stops. -/
    notModelled (mnemonic : String)
  deriving DecidableEq, Repr

/-! ### Traps and holds -/

/-- Trap codes (R410). -/
inductive TrapCode
  | encIllegal | fetchBound | bankRf | bankSp | bankMx | xlate | access | align | collExited | collMismatch | splitOver
  | splitOverlap | circuitLate | stepOverflow | stepConflict | arith | eccUncorr | copyError | launchDepth | watchdog
  | debugBreak | priv | preempt
  deriving DecidableEq, Repr

/-- The 8-bit code of a trap (R410). -/
def TrapCode.code : TrapCode → Byte
  | .encIllegal => 0x01 | .fetchBound => 0x02 | .bankRf => 0x03 | .bankSp => 0x04 | .bankMx => 0x05 | .xlate => 0x06
  | .access => 0x07 | .align => 0x08 | .collExited => 0x09 | .collMismatch => 0x0A | .splitOver => 0x0B
  | .splitOverlap => 0x0C | .circuitLate => 0x0D | .stepOverflow => 0x0E | .stepConflict => 0x0F | .arith => 0x10
  | .eccUncorr => 0x11 | .copyError => 0x12 | .launchDepth => 0x13 | .watchdog => 0x14 | .debugBreak => 0x15
  | .priv => 0x16 | .preempt => 0x20

/-- Holds, in the order of WATCHDOG's argument (R434). -/
inductive HoldKind
  | collective | queue | token | join | stint | wait | convergence | translation | register | husk | endMatrix | window
  deriving DecidableEq, Repr

/-- WATCHDOG's argument for a hold (R434). -/
def HoldKind.code : HoldKind → Byte
  | .collective => 1 | .queue => 2 | .token => 3 | .join => 4 | .stint => 5 | .wait => 6 | .convergence => 7
  | .translation => 8 | .register => 9 | .husk => 10 | .endMatrix => 11 | .window => 12

/-- A condition of groups 1 and 2 of R411 waiting at a split, or at every split of a wave (R412). -/
structure Pending where
  code : TrapCode
  arg : Byte
  lanes : Mask            -- the lanes concerned
  addr : Lanes DWord      -- the address that each lane met, for A3 (R415)
  record : Word           -- fault-record index, 0xFFFFFFFF for none
  pc : Option Word        -- the instruction that the record names, where it is not the split's PC (R299)
  deriving DecidableEq, Repr

/-- Whether a split record is free, runs, or is stopped (R28). The held states 2 and 3 are `runnable` with a hold;
`resuming` is the rest of the cycle of an RTE, after which the split is runnable (R77). -/
inductive SplitState
  | free | runnable | trapped | parked | resuming
  deriving DecidableEq, Repr

/-- A hold after issue (R218, R362, R371). -/
inductive After
  | none
  | wait (sem : Byte) (thr : Word)
  | conv
  | reg (until_ : Nat)
  | done (id : Nat)
  deriving DecidableEq, Repr

/-- A split record: the fields of R28, the split clock of R59, the trap fields of R420, and what holds keep. -/
structure Split where
  state : SplitState
  pc : Word
  mask : Mask
  gap : Nat
  age : Nat
  tau : Nat
  hold : Option HoldKind     -- the hold in force in this cycle
  held : Nat                 -- consecutive cycles held (R434)
  after : After              -- a hold after issue
  released : Bool            -- a barrier, collective or tile barrier has released the bundle it is due at
  issued : Bool              -- issued in this cycle (R59)
  lost : Bool                -- its next PC is out of range (R194)
  pend : List Pending
  code : Byte
  arg : Byte
  resolve : Bool
  addr : DWord
  record : Word
  abase : Option (Fin 32 × DWord)   -- R295, R420
  qslot : Option (Fin 16)           -- R426
  apc : Word                        -- the bundle that abase and qslot are for
  mask0 : Mask               -- the mask at the trap (R423)
  epc : Option Word          -- the PC that the trap's record names, where it is not the split's (R299)
  syncAt : Option Nat        -- the cycle from which its tile barrier has released it (R46)
  deriving DecidableEq, Repr

/-- An entry of the split stack (R29, R420). -/
structure StackSplit where
  pc : Word
  mask : Mask
  gap : Nat
  age : Nat
  tau : Nat
  pend : List Pending
  lost : Bool
  after : After
  issued : Bool            -- its BR issued in this cycle (R59)
  abase : Option (Fin 32 × DWord)   -- R295
  qslot : Option (Fin 16)           -- R426
  apc : Word
  deriving DecidableEq, Repr

/-! ### A wave -/

/-- The ports and the latch of one unit, 64 bits per lane (R53). -/
structure UnitRegs where
  a : Lanes DWord
  b : Lanes DWord
  t : Lanes DWord
  q : Lanes DWord
  deriving DecidableEq, Repr

/-- A fixed-latency result in flight (R61): per lane the ticks still to run, kept while the lane's clock stands still.
`chain` is what an open or continue step leaves in the latch (R97), `count` a Welford count (R269); `cond` holds the
conditions met and `enb` those enabled at issue (R94); `raised` marks lanes whose ARITH trap keeps the result back. -/
structure Flight where
  id : Nat
  unit : VUnit
  val : Lanes DWord
  chain : Option (Lanes W56)
  count : Option (Lanes Word)
  en : Mask
  left : Lanes Nat
  dep : Dep
  wide : Bool              -- a 64-bit result (R67)
  cond : Lanes (BitVec 3)
  enb : BitVec 3
  raised : Mask
  deriving DecidableEq, Repr

/-- A `.lin` scratchpad access that has issued (R117): per lane the ticks to its bank cycle. -/
structure LinOp where
  id : Nat
  store : Bool
  off : Lanes Word
  data : Lanes DWord
  size : Size
  en : Mask
  left : Lanes Nat
  dep : Dep
  deriving DecidableEq, Repr

/-- A DFA step that has issued (R291, R292): per lane the ticks to its L1 read. -/
structure DfaOp where
  id : Nat
  off : Lanes Word
  acc : Mask
  en : Mask
  left : Lanes Nat
  dep : Dep
  deriving DecidableEq, Repr

/-- A slot of the queue window (R35). -/
structure QSlot where
  val : Lanes Word
  full : Bool
  got : Mask               -- lanes filled so far
  load : Nat               -- the queue load that fills it
  mark : Option Nat        -- MARK.PAIR attached (R139): shadow accesses before this id
  deriving DecidableEq, Repr

/-- The queue window of a compute wave (R35, R419). -/
structure QWindow where
  slots : Vector QSlot 16
  head : Fin 16
  count : Nat
  headSeq : Word
  nextSeq : Word
  deriving DecidableEq, Repr

/-- A deposit of a variable-latency load that no header wait has observed: the words its registers held before (R63). -/
structure Unsettled where
  op : Nat
  sem : Option (Fin 512)
  reg : Fin 256
  lanes : Mask
  old : Lanes Word
  since : Nat              -- the cycle of its arrival; its addition performs at the end of it
  deriving DecidableEq, Repr

inductive WaveKind
  | compute | shadow | stint | handler
  deriving DecidableEq, Repr

/-- The sequencer's part of a running stint (R37, R38, R407). -/
structure StintRun where
  index : Nat
  arg : DWord
  deadline : Nat
  signals : List (Byte × BitVec 8)
  done : List (Byte × BitVec 8)   -- header and SIG signals performed (R427)
  lo : Nat
  hi : Nat
  deriving DecidableEq, Repr

/-- A semaphore that an operation in progress will add to, and the group whose wave issued it (R21, R151). -/
structure SemTo where
  core : CoreId
  sem : Option (Fin 512)
  group : Nat
  deriving DecidableEq, Repr

/-- A requested pre-emption (R376, R431): when it is forced, and the semaphores to add to. -/
structure PreemptReq where
  deadline : Nat
  sems : List SemTo
  deriving DecidableEq, Repr

/-- A wave context (R20, R25, R53, R418). -/
structure Wave where
  live : Bool
  uid : Nat
  kind : WaveKind
  ctx : CtxId
  group : Nat
  windex : Nat
  groupNo : Nat
  serial : Word
  depth : Nat
  seed : QWord
  epoch : Nat
  cls : Nat
  order : Nat              -- placement sequence (R41)
  det : Nat                -- determinism level (R47)
  image : Word
  nregs : Nat
  v : Vector (Lanes Word) 256
  a : Vector DWord 32
  p : Vector Mask 8
  units : Vector UnitRegs 6
  w56 : Lanes W56
  w56ok : Mask             -- lanes whose FMA latch holds an open chain's W56 value (R97)
  chainOpen : Mask
  chainTy : Lanes Ty
  splits : Vector Split 4
  stack : List StackSplit
  exited : Mask
  window : QWindow
  partner : Option SlotId
  flights : List Flight
  lins : List LinOp
  dfas : List DfaOp
  obs : List Nat           -- observed writes still short of .k (R141)
  age : Nat                -- R404
  waited : Bool            -- ready or skipped in this cycle and not issued
  yieldTo : Nat            -- R229: the cycle in which the yield ends
  ahead : Bool             -- R162
  member : Bool            -- counts at step boundaries (R161)
  markNext : Option Nat    -- a shadow's MARK.PAIR for its next slot (R139)
  holdAfter : Option Nat   -- a popped mark: this wave's accesses wait for the shadow's before this id
  stint : Option StintRun
  preempt : Option PreemptReq
  laneCode : Lanes Byte    -- trap code per lane (R421)
  arrived : Option (Nat × List Nat)   -- its STEP's fence: when it issued, and the writes read before it (R159, R163)
  ecc : Bool               -- a register, port, latch or frame word is uncorrectable (R480)
  unsettled : List Unsettled
  deriving DecidableEq, Repr

/-! ### Memory accesses in progress -/

/-- A translation held by a TLB (R443): the page and what the leaf says (R439). -/
structure Tlb where
  ctx : CtxId
  gen : Word               -- CTX.GEN when it was walked (R443)
  page : Nat               -- virtual address of the page
  size : Nat               -- bytes
  pa : Nat
  kind : Nat
  sumcell : Bool
  det : Bool
  user : Bool
  write : Bool
  read : Bool
  win : Fin 256
  deriving DecidableEq, Repr

/-- What a memory-queue entry does (R135). -/
inductive MKind
  | load | qload | gather | l1load | ldc
  | store | scatter | zfill | atom (fn : Fin 8) | sumAdd | fadd64 | vupd
  | winLoad | winStore
  | mark | fence
  | masked (store : Bool)      -- the ordering part of an access without an enabled lane (R147)
  deriving DecidableEq, Repr

/-- One lane's access: where it goes. -/
structure LaneAcc where
  pa : Nat                 -- physical address, scratchpad or L1 offset, or offset in a window
  cell : Bool              -- an exact-sum cell, pa its raw first byte (R124)
  win : Fin 256
  deriving DecidableEq, Repr

/-- An entry of a load or store queue, from issue to completion (R135, R151). A filled queue load stays, with no lane
left, while one of its slots may still be popped (R139); an access with uncorrectable lanes stays for the handler (R299). -/
structure MemOp where
  id : Nat
  wave : Nat               -- uid
  slot : SlotId
  group : Nat
  kind : MKind
  ctx : CtxId
  gen : Word               -- translation generation at translation (R444)
  born : Nat
  due : Nat                -- not before this cycle (free latency)
  pc : Word
  size : Size
  en : Mask
  ea : Lanes DWord         -- effective addresses, for A3 (R415)
  acc : Lanes LaneAcc
  data : Lanes QWord
  len : Lanes Nat          -- LDC's L1 offset; entries of a window store not yet acknowledged
  zero : List (Lane × Nat × Nat)   -- ZFILL: physical ranges, per page, as start and length (R313)
  acq : Bool
  rel : Bool
  scope : Scope
  dep : Option (Fin 256)
  qslots : Option (Fin 16)
  sem : Option (Fin 512)
  token : Bool             -- token-gated (R48)
  tag : Word               -- step of a window write (R165)
  seqN : Nat               -- n of a window write (R165); of a queue load, the allocation it fills
  rank : BitVec 28
  pair : Option Nat        -- waits for the shadow's accesses before this id (R139); of a mark: it is a MARK.PAIR
  left : Mask              -- lanes that have not performed
  failed : Mask            -- lanes whose data were uncorrectable (R299)
  atG : Bool               -- performed at .g or sent, waiting for .k or an acknowledgement; of a queue load: has completed once
  obs : List Nat           -- writes that the wave had read, for a release or a fence (R141)
  sent : Bool              -- a window access on another module: its messages have left (R465)
  got : Mask               -- lanes whose READ has been answered (R465)
  pages : List (Bool × Tlb)    -- LDC: translations of the pages its engine has reached; true for one obtained before a removal (R444)
  deriving DecidableEq, Repr

/-- A byte written: its address, value, and the bits of the old byte that stay. -/
structure ByteW where
  addr : Nat
  val : Byte
  keep : Byte
  deriving DecidableEq, Repr

/-- A merge-buffer entry: one lane's store between .g and .k (R133). -/
structure MergeE where
  id : Nat
  op : Nat
  wave : Nat
  slot : SlotId
  lane : Lane
  bytes : List ByteW
  zeros : Option (Nat × Nat)   -- from ZFILL: start and length of a zeroed range (R121)
  due : Nat
  token : Bool
  gen : Word
  ctx : CtxId
  deriving DecidableEq, Repr

/-- A release still readable in memory, for R145: its bytes, scope, issuer and observed set (log entry 66, DEDUCED). -/
structure Release where
  id : Nat
  wave : Nat
  core : CoreId
  scope : Scope
  addrs : List Nat
  obs : List Nat
  deriving DecidableEq, Repr

/-- Where an addition goes: a physical semaphore, or a counter of R365. -/
inductive SemRef
  | phys (n : Fin 512)
  | s253 (c : CtxId)
  | s254 (c : CtxId)
  deriving DecidableEq, Repr

/-- A matrix-slot operation in progress (R321, R326-R336). -/
structure MxOp where
  id : Nat
  op : Nat                 -- x opcode 1-5
  wave : Nat
  slot : SlotId
  lane : Lane              -- owner lane
  t : Nat                  -- owner ticks since issue
  fmt : Fmt
  mode : MxMode
  init : Bool
  tile : Nat
  n : Nat                  -- steps, parts or tiles
  pa : Nat
  pb : Nat
  incA : Int
  incB : Int
  dispA : Int
  dispB : Int
  latch : List Nat         -- encoding of each cell of the array
  results : List (Nat × List Nat)   -- step results due at later owner ticks, oldest first (R323)
  scaleA : List Nat
  scaleB : List Nat
  next : Nat               -- next step or slab
  src : List Nat           -- source elements read by MXC and MXR; register contents of MXW
  read : Bool
  regs : Fin 256
  left : Lanes Nat         -- MXR: ticks to the register write, per lane
  en : Mask                -- MXR: lanes still to write
  rnd : Rnd
  sat : Bool
  col : Bool
  exp : Int
  late : Bool              -- MXR landed late because its read was (R330)
  failed : Bool            -- its due step or write met BANK_MX and waits for the owner's RTE (R328, R335)
  deriving DecidableEq, Repr

/-- An armed CSEND or CRECV (R179, R180). -/
structure Armed where
  id : Nat
  wave : Nat
  send : Bool
  circuit : BitVec 6
  off : Nat
  cycle : Nat              -- package cycle
  group : Nat
  grid : Nat
  ctx : CtxId
  deriving DecidableEq, Repr

/-- A flit under way (R178): to a tile router, by an input port, or from the last one to a core. -/
structure Flit where
  grid : Nat
  circuit : BitVec 6
  hop : Option (TileId × Nat)
  dst : CoreId             -- where it arrives once it has passed its last router
  cycle : Nat              -- the cycle in which it passes the router, or arrives
  data : List Byte
  deriving DecidableEq, Repr

/-- A queued stint (R37, R234). -/
structure StintEntry where
  ctx : CtxId
  image : Word
  index : Nat
  arg : DWord
  conds : List (Byte × Nat)
  wave : Wave              -- the enqueuing wave's system values and group (log entry 13)
  deriving DecidableEq, Repr

/-! ### A core -/

/-- A walk in progress, and the result of a failed one until the accesses that asked for it, each a wave, a split record and
a PC, have had it (R298, R440). -/
structure Walk where
  ctx : CtxId
  va : DWord
  due : Nat
  failed : Option (TrapCode × DWord)
  askers : List (Nat × RecId × Word)
  deriving DecidableEq, Repr

/-- A semaphore-map entry (R365). -/
structure MapEntry where
  valid : Bool
  phys : Fin 512
  deriving DecidableEq, Repr

/-- An entry of the trap queue (R414). -/
structure TrapEntry where
  wave : Nat
  slot : SlotId
  split : RecId
  at_ : Nat                -- the cycle in which it entered (R411)
  deriving DecidableEq, Repr

/-- What a kernel claims of a core (R113, R190). -/
structure Claim where
  ctx : CtxId
  group : Nat              -- the group that claims it; 0 when only the context's claim stays
  kind : Nat
  bankGroup : Nat
  firstBank : Nat
  bankCount : Nat
  off : Nat
  len : Nat
  deriving DecidableEq, Repr

/-- A dictionary page (R195, R196). -/
structure DictPage where
  image : Word
  page : Nat
  pinned : Bool
  last : Nat
  entries : List Nat           -- what was read, as 384-bit numbers
  bad : Bool                   -- uncorrectable in the dictionary RAM (R479)
  deriving DecidableEq, Repr

/-- A dictionary page being read: where it lies, translated at its miss, and when the read ends (R196, R444). -/
structure OverlayRead where
  image : Word
  ctx : CtxId
  page : Nat
  due : Nat
  src : List (Nat × Nat)       -- physical ranges, as start and length
  old : Bool                   -- translated before a removal at its core (R444)
  deriving DecidableEq, Repr

/-- An L1 unit that an LDC fills: what its read took, what the unit held before, and who has observed the fill (R119,
R292, R307; log entry 6). -/
structure L1Fill where
  op : Nat
  group : Nat
  sem : Option (Fin 512)
  lane : Lane
  due : Nat                    -- the unit is not written before this cycle (free latency)
  off : Nat
  new : List Byte
  old : List Byte              -- empty until the unit is written
  since : Nat                  -- the cycle in which it was written
  seen : List Nat              -- uids of the waves whose header wait has observed the fill
  deriving DecidableEq, Repr

structure Core where
  waves : Vector Wave 48
  scratch : List Host.Cell
  acc : List Host.Cell
  l1 : List Host.Cell
  sems : Vector Word 512
  semObs : List (Fin 512 × List Nat)      -- what completions short of .k bring to a waiter (R152)
  adds : List (SemRef × Int)              -- additions of this cycle (R71)
  addsNext : List (SemRef × Int)          -- additions of the next cycle (R151)
  semMap : Vector (Vector MapEntry 248) 64
  s253 : Vector Int 64
  s254 : Vector Int 64
  stints : List StintEntry
  claims : List Claim
  owners : List Claim                      -- last owners of claimed storage (R113)
  fmaBusy : Nat                            -- the first cycle a trigger may issue (R62)
  xfBusy : Nat
  strBusy : Nat
  ops : List MemOp
  merge : List MergeE
  lastG : List (Nat × Nat)                 -- wave uid, cycle of its last entry to the merge buffer (R149)
  mx : List MxOp
  armed : List Armed
  tlb : List Tlb
  walks : List Walk
  dict : List DictPage
  overlays : List OverlayRead
  l1Fills : List L1Fill
  trapQ : List TrapEntry                   -- 64 entries at most (R414)
  trapWait : List TrapEntry                -- trapped splits that wait for an entry (R414)
  line : Option Nat                        -- cycle in which the tile-barrier line rose (R46)
  halted : Bool
  retired : Bool
  placeSeq : Nat
  frames : List (Nat × Nat)                -- group, flight frames kept for waves away (R417)
  eccSp : List Nat                         -- uncorrectable 8-byte words of the scratchpad, the accumulator store and the L1 (R479)
  eccAcc : List Nat
  eccL1 : List Nat
  ctxSlots : List CtxId                    -- the participants with window writes here, in the order of their context slots (R165)
  ctxSeen : List CtxId                     -- contexts whose S253 and S254 are in force (R365)
  deriving DecidableEq, Repr

/-! ### Contexts, groups, grids -/

/-- A window descriptor (R448). -/
structure Win where
  rule : Nat
  elem : Nat
  signed : Bool
  owner : Nat
  base : DWord
  length : Nat
  home : DieId
  committed : Nat
  deriving DecidableEq, Repr

/-- A domain binding (R448, R449). -/
structure Domain where
  id : Word
  rank : Nat
  p : Nat
  ovfBase : DWord
  ovfLen : Nat
  formed : Bool
  stopped : Bool
  deriving DecidableEq, Repr

/-- An entry of a Barn (R451). -/
structure BarnEntry where
  ctx : CtxId
  w : BarnWrite
  die : DieId
  overflow : Bool
  bad : Bool                   -- uncorrectable in the Barn SRAM (R479)
  deriving DecidableEq, Repr

/-- A requested switch-out (R381, R408). -/
structure Swout where
  dies : List DieId
  release : Bool
  instant : Option Nat
  sems : List SemTo
  due : Nat                    -- no core is written out before this cycle (free latency)
  stopping : Bool
  oneCore : Option CoreId      -- a parked-share switch concerns one core (R435)
  deriving DecidableEq, Repr

/-- What a switched-out context left on a core (R436). -/
structure CoreRec where
  core : CoreId
  vals : List (Nat × Word)     -- virtual semaphore, value
  s253 : Int
  s254 : Int
  slot : Nat                   -- its slot in the swap region, from the end downward
  deriving DecidableEq, Repr

/-- Who wrote an element of a window in a step (R171). -/
structure WinWriter where
  source : BitVec 28
  step : Word
  wave : Nat
  slot : SlotId
  window : Fin 256
  elem : Nat
  deriving DecidableEq, Repr

/-- A STEP_CONFLICT that is due at the release: the source, the wave that wrote and its context, the step, and the element's
address (R171, R467). -/
structure WinConflict where
  source : BitVec 28
  wave : Nat
  slot : SlotId
  step : Word
  addr : DWord
  deriving DecidableEq, Repr

structure Ctx where
  level : BitVec 2
  class0 : Bool
  dbgBrk : Bool
  partition : BitVec 4
  area : DWord
  ptroot : DWord
  gen : Word
  fptrap : BitVec 3
  stepRound : Bool
  joinSwap : Word
  preemptLimit : Word
  parkPct : Word
  handler : DWord
  watchdog : Word
  seedDepth : Nat
  state : Nat
  faultCnt : Word
  serial : Word
  domain : Option Domain
  windows : Vector (Option Win) 256
  pendWins : List (Nat × Option Win × SemTo)   -- descriptors that govern from the next release (R379)
  pendOvf : List (DWord × Nat × SemTo)         -- overflow areas of domain descriptors that do (R379, R449)
  step : Word
  outcome : BitVec 2
  started : Bool               -- has started a member wave (R161)
  arrivedSent : Bool           -- its ARRIVE for the current step has gone
  refusedStep : List (Nat × Word)          -- wave uid and step of refused writes (R173)
  unacked : Nat                -- window writes whose WACK is outstanding (R466)
  counts : List (BitVec 28 × Word × Nat)   -- n per source and tagged step (R165)
  writers : List WinWriter
  ownWrites : List (Nat × Word × Fin 256 × Nat × Byte)  -- wave uid, step, window, byte offset, value (R167)
  conflicts : List WinConflict
  staged : List (Nat × Byte)   -- bytes that an apply has computed, committed at its release (R168, R174)
  swout : List Swout           -- switch-outs requested and not complete, oldest first (R381)
  outDies : List DieId         -- dies the dispatcher avoids (R381)
  outCores : List CoreId       -- cores from which its waves have been written out (R381, R435)
  coreRecs : List CoreRec
  deriving DecidableEq, Repr

/-- A launch record taken into a pending-launch queue (R236). -/
structure LaunchRec where
  image : Word
  entry : Half
  waves : Nat
  flags : Byte
  groups : Nat
  params : DWord
  join : DWord
  f : Nat                  -- the forking count at its LAUNCH (R51)
  due : Nat                -- not removed before this cycle (free latency)
  deriving DecidableEq, Repr

inductive GroupState
  | running | swapped | retiring | retiringOut | out | retired
  deriving DecidableEq, Repr

structure Group where
  id : Nat
  grid : Nat
  ctx : CtxId
  no : Nat
  core : CoreId
  state : GroupState
  slots : List SlotId          -- its wave contexts, compute waves first
  w : Nat
  depth : Nat
  f : Nat
  launchQ : List LaunchRec
  s255 : Nat
  cur : Nat                    -- current wave of a COROUTINE group (R406)
  joinFor : Nat                -- cycles every split has been held at JOIN (R240)
  retireFor : Nat              -- cycles in the retiring state (R241)
  children : Nat               -- live child grids
  ended : List Nat             -- wave indexes that have ended
  away : List (SlotId × Wave × Nat)   -- waves off the core, with their swap-region slots
  fatal : Bool
  placedAt : Nat
  deriving DecidableEq, Repr

inductive GridState
  | waiting | placing | placed | done
  deriving DecidableEq, Repr

structure Grid where
  id : Nat
  serial : Word
  ctx : CtxId
  image : Word
  entry : Half
  g : Nat
  w : Nat
  params : DWord
  depth : Nat
  parent : Option Nat          -- the launching group
  join : DWord
  fork : Option (Nat × Nat)    -- group number and forking count (R51)
  cohort : Bool
  cls : Nat
  det : Nat
  seed : QWord
  epoch : Nat
  queue : Option (QueueId × Word)
  lflags : Byte
  state : GridState
  eligible : Option Nat        -- the cycle in which it became eligible (R397)
  next : Nat                   -- next group to place
  retired : List Nat           -- group numbers retired
  token : Nat                  -- group number that holds, or waits for, the token (R48)
  passing : Bool               -- a TOKEN.PASS has issued beside a token-gated access that has not performed (R49)
  failed : Bool
  obs : List Nat
  due : Nat                    -- no group is placed before this cycle (free latency)
  deriving DecidableEq, Repr

/-! ### Images (R185-R192) -/

structure Entry where
  pc : Nat
  regs : Nat
  shadow : Option Nat
  deriving DecidableEq, Repr

structure Stint where
  pc : Nat
  len : Nat
  regs : Nat
  cycles : Nat
  signals : List (Byte × BitVec 8)
  deriving DecidableEq, Repr

structure Circuit where
  k : Nat
  src : Nat                    -- source group
  dst : Nat
  delay : Nat
  phases : Nat                 -- bitmap of 256 bits
  deriving DecidableEq, Repr

structure Route where
  die : Nat
  tile : Nat
  slot : Nat
  word : DWord
  deriving DecidableEq, Repr

structure Image where
  handle : Word
  ctx : CtxId
  va : DWord                   -- where the image lies in the context (R364)
  key : List Byte              -- image key (R186)
  class0 : Bool
  plan : Option (List CoreId × List Circuit × List Route)
  resident : Nat               -- pinned dictionary entries
  dict : List Nat              -- entries as 384-bit numbers
  dictOff : Nat                -- byte offset of the dictionary in the image
  stream : List Half
  inside : List Nat            -- positions inside literal bundles (R194)
  entries : List Entry
  claims : List Claim
  shadows : List (Nat × Nat)
  stints : List Stint
  windows : List (Nat × Nat × Nat × Bool)
  deriving DecidableEq, Repr

/-! ### Queues -/

inductive PacketState
  | taken | started | done
  deriving DecidableEq, Repr

/-- A taken command packet (R388). -/
structure Packet where
  seq : Word
  op : Nat
  pflags : Byte
  image : Word
  entry : Half
  waves : Nat
  lflags : Byte
  groups : Nat
  extra : Word                 -- bytes 0x14-0x17: seed bits [127:96]
  params : DWord
  depAddr : DWord
  depThr : Word
  sigInc : Word
  sigAddr : DWord
  tag : DWord
  state : PacketState
  performed : Bool             -- a seed packet's operation, or a LAUNCH's first placement
  status : Half
  grid : Nat
  due : Nat                    -- it does not start, complete, or read its dependence before this cycle (free latency)
  deriving DecidableEq, Repr

structure HostQ where
  base : DWord
  cpl : DWord
  enable : Bool
  sizeLog2 : Nat
  classMin : Nat
  ctx : CtxId
  limit : Word
  consumed : Word
  doneSeq : Word
  seqErr : Bool
  taken : List Packet
  msix : Bool                  -- its bit of the pending-bit array (R459)
  msixAddr : DWord             -- its entry of the MSI-X table (R458)
  msixData : Word
  msixMask : Bool
  link : Fin 2                 -- the link of its last doorbell write from the host (R459)
  due : Nat                    -- the next packet is not read before this cycle (free latency)
  deriving DecidableEq, Repr

/-! ### Tiles, dies, hub -/

inductive PwrState
  | running | retained | off | changing (target : Nat)
  deriving DecidableEq, Repr

structure Tile where
  fence : Bool
  req : BitVec 2
  state : PwrState
  from_ : Nat                  -- the state a change started from
  refused : Bool
  keep : BitVec 4
  wakeHeld : Bool
  reqHeld : Option DWord       -- a PWR_REQ write that waits for a change to end
  due : Nat                    -- the cycle in which a change ends
  slots : Vector DWord 256
  tlb : List Tlb               -- the tile's second-level TLB (R443)
  eccSlots : List Nat          -- uncorrectable slot-table entries (R479)
  deriving DecidableEq, Repr

structure Die where
  barn : List BarnEntry
  enginesOut : List (Fin 16)   -- retired copy engines
  steward : Fin 16             -- the steward core of tile 0 (R12, R481)
  deriving DecidableEq, Repr

/-- A row of the domain directory (R464) and what the coordinator and the owner hold of a boundary (R466). -/
structure DomainRow where
  domain : Word
  p : Nat
  ids : List (BitVec 16)
  forms : List (Nat × Nat × BitVec 10 × Word)    -- P, rank, module, step
  arrives : List (Nat × Word × Bool)
  applied : List (Nat × Word × Bool)
  applySent : Option Word
  peers : List (BitVec 10 × Nat)                  -- module, cycle of the last message
  lost : List (BitVec 10)                         -- modules to which a message has failed (R468)
  owed : Option (Word × Bool)                     -- an APPLIED that waits for CONFLICTs to be acknowledged (R466)
  mismatched : Nat
  deriving DecidableEq, Repr

/-- An accepted packet held for order (R463). -/
structure HeldPacket where
  src : BitVec 10
  ctx : CtxId
  flow : Byte
  seq : Word
  dst : Nat
  data : List Byte
  deriving DecidableEq, Repr

/-- What a Mbohus message says (R464-R469). -/
inductive PodMsg
  | form (domain : Word) (p rank : BitVec 16) (step : Word)
  | write (domain : Word) (entries : List BarnWrite)
  | wack (ctx : CtxId) (e : BarnWrite) (refused : Bool)
  | read (domain : Word) (m : ReadMsg)
  | arrive (domain : Word) (rank : BitVec 16) (step : Word) (refused : Bool)
  | apply (domain step : Word) (discard : Bool)
  | conflict (ctx : CtxId) (rank : BitVec 28) (step : Word) (addr : DWord)
  | applied (domain : Word) (rank : BitVec 16) (step : Word) (conflict : Bool)
  | release (domain step : Word) (outcome : BitVec 2) (stamp : DWord)
  | heartbeat
  | fail (domain : Word) (rank : BitVec 16)
  | ptp (station : Fin 16) (dom : Byte) (m : PtpMsg)
  deriving DecidableEq, Repr

/-- A packet sent and not acknowledged (R462). -/
structure SentPacket where
  dst : BitVec 10
  ctx : CtxId
  flow : Byte
  seq : Word
  attempt : Nat
  copy : Option (Nat × Nat)    -- copy list and request
  domain : Option Word         -- a Mbohus message of a domain
  addr : DWord                 -- a copy packet's destination address
  data : List Byte
  msg : Nat × List Nat         -- a message's kind and fields
  due : Nat                    -- the cycle of its next retry
  deriving DecidableEq, Repr

/-- What a module reset is carried out under (R456, R491): partition layout, microcode revision, two links of eight lanes. -/
structure BootSetup where
  layout : BitVec 2
  mcRev : BitVec 16
  x8 : Bool
  deriving DecidableEq, Repr

/-- The hub: what the module shares with the host, the pod and its management port (R456-R470). -/
structure Hub where
  request : Nat                -- bytes of the management request at hand, beyond its code (R470)
  setup : BootSetup            -- what firmware has ready for the next module reset
  module : BitVec 10
  endpoint : Byte
  paths : List (Nat × List Byte)            -- entries written: destination, 48 bytes
  rows : List DomainRow
  held : List HeldPacket
  accepted : List (BitVec 10 × CtxId × Byte × Word)
  nextSeq : List (BitVec 10 × CtxId × Byte × Word)   -- next number to write of an ordered flow
  sent : List SentPacket
  outSeq : List (BitVec 10 × CtxId × Byte × Word)    -- next number to send on a flow (R463)
  msgSeq : List (BitVec 10 × Word)   -- next message number to each module
  ptp : Nat
  ptpFrac : Nat                -- part of a ns, in units of 1 / clockKhz
  slew : Nat                   -- ns still to be lost, and the ns since the last was (R469)
  slewGap : Nat
  grandmaster : BitVec 16
  ptpDomain : Byte
  locked : Bool
  x8 : Bool                    -- two links of eight lanes (R456)
  inSeq : List (BitVec 10 × Word)    -- next message number to deliver from each module (R463)
  heldMsgs : List (BitVec 10 × Word × PodMsg)   -- messages held for those before them
  ptpSync : Option Nat         -- hub time at which the last Sync arrived (R469)
  ptpFollow : Option Nat       -- the grandmaster's time of that Sync
  ptpReq : Option Nat          -- hub time at which the Delay_Req left
  bootStep : Nat
  halted : Bool                -- boot failed (R491)
  retired : List FaultUnit     -- units retired, kept over a reset
  deriving DecidableEq, Repr

/-! ### Engines -/

/-- A copy request (R340). -/
structure CopyReq where
  src : DWord
  dst : DWord
  length : Nat
  rows : Nat
  flow : Byte
  ordered : Bool
  srcStride : Int
  dstStride : Int
  srcNode : Nat
  dstNode : Nat
  srcKind : Nat
  dstKind : Nat
  vsem : Byte
  bad : Bool                   -- breaks R340 or R341
  sem : Option (Fin 512)
  pos : Nat                    -- bytes written so far, in order for an ordered flow
  written : List Nat           -- positions written by an unordered request
  acks : List Nat              -- bytes sent and not acknowledged, oldest first
  done : Nat                   -- bytes written at their destination's .k point (R342, R343)
  failed : Option Nat          -- cause of R343
  ecc : Bool                   -- what its engine's buffer holds is uncorrectable (R479)
  deriving DecidableEq, Repr

/-- A list handed to a copy engine (R339). -/
structure CopyList where
  id : Nat
  core : CoreId
  ctx : CtxId
  wave : Nat
  slot : SlotId
  lane : Lane
  group : Nat
  off : Nat
  count : Nat
  started : Bool
  startSeq : Nat
  tag : Word
  seqN : Nat
  rank : BitVec 28
  pair : Option Nat            -- waits for the shadow's accesses before this id (R139)
  due : Nat
  reqs : List CopyReq
  obs : List Nat
  pages : List (Bool × Tlb)    -- translations in use; true for one obtained before a removal (R444, R445)
  deriving DecidableEq, Repr

/-- A privileged operation in progress (R373, R376-R382). -/
inductive PrivKind
  | huskSave (slot : SlotId) (va : DWord)
  | huskLoad (slot : SlotId) (va : DWord)
  | slotLd (va : DWord) (count : Nat)
  | winLd (va : DWord)
  | attest (va : DWord)
  | tlbinv (ctx : CtxId) (cores : List CoreId) (old : List (CoreId × Nat)) (dies : List DieId)
  | imgInv (old new : Word)
  | swin (ctx : CtxId) (dies : List DieId)
  | seedOp (k : Nat) (ctx : CtxId) (seed : QWord) (pred : Fin 8)
  | mcload (va : DWord) (pred : Fin 8)
  | mtcr (sel : Word) (v : DWord)
  | mfcr (sel : Word) (d : Fin 32)
  deriving DecidableEq, Repr

structure PrivOp where
  id : Nat
  core : CoreId
  slot : SlotId
  wave : Nat
  lanes : Mask
  ctx : CtxId
  group : Nat                  -- of the wave that issued it (R21)
  kind : PrivKind
  started : Bool
  due : Nat
  sem : Option (Fin 512)
  obs : List Nat
  draw : Nat                   -- the first free value of its own
  slotsLeft : List (TileId × Fin 256 × DWord)
  deriving DecidableEq, Repr

/-! ### What the model keeps besides the spec's state -/

/-- What remains to happen in the current cycle (log entry 1). -/
inductive Activity
  | event (i : Instr)
  | issue (c : CoreId)
  deriving DecidableEq, Repr

/-- How the bundle being issued ended. -/
inductive IssueResult
  | issued
  | held (k : HoldKind)
  | busy
  | trapped
  deriving DecidableEq, Repr

/-- The bundle being issued: where, its header and literals, and what its slots have settled so far. -/
structure Issue where
  core : CoreId
  slot : SlotId
  split : RecId
  hdr : Header
  lits : List Word
  pc : Word
  next : Option Word           -- next sequential PC, none when it leaves the range (R194)
  leaf : Lanes (Fin 5)
  leaves : Nat                 -- leaves the bundle's BR can reach; 1 without a BR (R204)
  pops : Nat
  flow : Bool                  -- the c slot has set the next PC, or ended the split
  cdest : Option (Fin 32)      -- the A register the c slot writes (R216)
  postinc : Option (Fin 32 × DWord)   -- R295
  preds : List (Fin 8 × Mask × Mask)  -- predicates written at the end of the cycle: value, lanes
  off : Option RecId           -- the record that took this bundle's faulting lanes (R426)
  result : IssueResult
  checked : Bool               -- the checks of the whole bundle have been made
  draw : Nat                   -- base of the free values for its reads of unsettled registers (R63)
  deriving DecidableEq, Repr

/-- The header of a pod packet (R460). -/
structure PktHdr where
  route : DWord
  src : BitVec 10
  dst : BitVec 10
  ctx : CtxId
  flow : Byte
  kind : Nat
  seq : Word
  deriving DecidableEq, Repr

/-- A message that leaves the package. -/
inductive OutMsg
  | msix (q : QueueId) (link : Fin 2) (addr : DWord) (data : Word)
  | bytes (kind : Nat) (data : List Byte)         -- CXL read data and completions, register reads, management responses
  | nums (kind : Nat) (data : List Nat)
  | mbohus (station : Nat) (h : PktHdr) (fields : List Nat)
  | packet (station : Nat) (h : PktHdr) (addr : DWord) (data : List Byte)
  | ack (station : Nat) (h : PktHdr) (cause : Nat)   -- 0 written, else a cause of R343
  | flit (tile : TileId) (data : List Byte)
  deriving DecidableEq, Repr

/-- An uncorrectable ECC word: the unit that holds it, by its code of R482 (4 L2, 5 Yard, 7 HBM), and its bytes. -/
structure EccWord where
  unit : Nat
  addr : Nat
  size : Nat                   -- 32 in HBM, 8 in an SRAM
  deriving DecidableEq, Repr

structure State where
  cores : Vector Core 4096
  ctxs : Vector Ctx 64
  queues : Vector HostQ 64
  tiles : Vector Tile 256
  dies : Vector Die 8
  layout : BitVec 2
  hub : Hub
  mem : List Host.Cell
  zeroLines : List Nat
  bad : List EccWord           -- uncorrectable words of HBM, L2 and Yard (R479)
  releases : List Release
  images : List Image
  grids : List Grid
  groups : List Group
  copies : List CopyList
  copyStarts : Nat
  flits : List Flit
  yard0 : List (Nat × Nat)     -- Yard banks that class-0 waves have sent requests to, and the cycle of the last (R183)
  privOps : List PrivOp
  handleCtr : Word
  mcRev : Nat
  clockKhz : Nat
  cycle : Nat
  nextId : Nat
  free : Nat
  agenda : List Activity
  inputs : List (Nat × Instr)
  outbox : List OutMsg
  issue : Issue
  deriving DecidableEq, Repr

/-! ### Reset -/

def UnitRegs.zero : UnitRegs := ⟨Lanes.all 0, Lanes.all 0, Lanes.all 0, Lanes.all 0⟩

def QSlot.empty : QSlot := ⟨Lanes.all 0, false, 0, 0, none⟩

def QWindow.empty : QWindow := ⟨Vector.replicate 16 QSlot.empty, 0, 0, 0, 0⟩

/-- A free split record: all zero (R420). -/
def Split.empty : Split :=
  ⟨.free, 0, 0, 0, 0, 0, none, 0, .none, false, false, false, [], 0, 0, false, 0, 0xFFFFFFFF, none, none, 0, 0, none, none⟩

/-- A free wave context; every field zero (log entry 3). -/
def Wave.free : Wave where
  live := false
  uid := 0
  kind := .compute
  ctx := 0
  group := 0
  windex := 0
  groupNo := 0
  serial := 0
  depth := 0
  seed := 0
  epoch := 0
  cls := 0
  order := 0
  det := 0
  image := 0
  nregs := 0
  v := Vector.replicate 256 (Lanes.all 0)
  a := Vector.replicate 32 0
  p := Vector.replicate 8 0
  units := Vector.replicate 6 UnitRegs.zero
  w56 := Lanes.all 0
  w56ok := 0
  chainOpen := 0
  chainTy := Lanes.all .f32
  splits := Vector.replicate 4 Split.empty
  stack := []
  exited := 0
  window := QWindow.empty
  partner := none
  flights := []
  lins := []
  dfas := []
  obs := []
  age := 0
  waited := false
  yieldTo := 0
  ahead := false
  member := false
  markNext := none
  holdAfter := none
  stint := none
  preempt := none
  laneCode := Lanes.all 0
  arrived := none
  ecc := false
  unsettled := []

/-- A core after boot step 2: every SRAM zero (R491), every semaphore 0 (R367). -/
def Core.reset (retired : Bool) : Core where
  waves := Vector.replicate 48 Wave.free
  scratch := []
  acc := []
  l1 := []
  sems := Vector.replicate 512 0
  semObs := []
  adds := []
  addsNext := []
  semMap := Vector.replicate 64 (Vector.replicate 248 ⟨false, 0⟩)
  s253 := Vector.replicate 64 32
  s254 := Vector.replicate 64 0
  stints := []
  claims := []
  owners := []
  fmaBusy := 0
  xfBusy := 0
  strBusy := 0
  ops := []
  merge := []
  lastG := []
  mx := []
  armed := []
  tlb := []
  walks := []
  dict := []
  overlays := []
  l1Fills := []
  trapQ := []
  trapWait := []
  line := none
  halted := false
  retired := retired
  placeSeq := 0
  frames := []
  eccSp := []
  eccAcc := []
  eccL1 := []
  ctxSlots := []
  ctxSeen := []

/-- A context at reset (R361), its level and partition given (R357). -/
def Ctx.reset (level : BitVec 2) (partition : BitVec 4) : Ctx where
  level := level
  class0 := false
  dbgBrk := false
  partition := partition
  area := 0
  ptroot := 0
  gen := 0
  fptrap := 0
  stepRound := false
  joinSwap := 4096
  preemptLimit := 65536
  parkPct := 50
  handler := 0
  watchdog := 0
  seedDepth := 1
  state := 0
  faultCnt := 0
  serial := 1
  domain := none
  windows := Vector.replicate 256 none
  pendWins := []
  pendOvf := []
  step := 0
  outcome := 0
  started := false
  arrivedSent := false
  refusedStep := []
  unacked := 0
  counts := []
  writers := []
  ownWrites := []
  conflicts := []
  staged := []
  swout := []
  outDies := []
  outCores := []
  coreRecs := []

/-- A queue at reset (R361); its MSI-X vector is masked, as PCI Express resets it (R459; log entry 117, PRESUMED). -/
def HostQ.reset : HostQ := ⟨0, 0, false, 0, 0, 0, 0, 0, 0, false, [], false, 0, 0, true, 0, 0⟩

def Tile.reset : Tile := ⟨false, 0, .running, 0, false, 0, false, none, 0, Vector.replicate 256 0, [], []⟩

/-- (Log entry 116, DESIGN CHOICE.) -/
def Issue.reset : Issue where
  core := 0
  slot := 0
  split := 0
  hdr := ⟨false, false, false, false, 0, false, 0, false, false, 0, 0, false, 0, 0, false⟩
  lits := []
  pc := 0
  next := none
  leaf := Lanes.all 0
  leaves := 1
  pops := 0
  flow := false
  cdest := none
  postinc := none
  preds := []
  off := none
  result := .issued
  checked := false
  draw := 0

/-- Contexts after boot step 7 under a layout (R357): 0 machine, 1 + p supervisor of partition p, the others user. -/
def ctxsAtReset (layout : BitVec 2) : Vector Ctx 64 :=
  ⟨⟨(idxs 64).map fun c =>
    if c.val = 0 then Ctx.reset 2 0
    else if c.val ≤ 2 ^ layout.toNat then Ctx.reset 1 (BitVec.ofNat 4 (c.val - 1))
    else Ctx.reset 0 0⟩, by
      have h : (idxs 64).length = 64 := by decide
      simp [h]⟩

/-- The hub after boot (R491): the last step completed is 8. -/
def Hub.reset : Hub where
  request := 0
  setup := ⟨0, 0, false⟩
  module := 0
  endpoint := 0
  paths := []
  rows := []
  held := []
  accepted := []
  nextSeq := []
  sent := []
  outSeq := []
  msgSeq := []
  ptp := 0
  ptpFrac := 0
  slew := 0
  slewGap := 0
  grandmaster := 0
  ptpDomain := 0
  locked := false
  x8 := false
  inSeq := []
  heldMsgs := []
  ptpSync := none
  ptpFollow := none
  ptpReq := none
  bootStep := 8
  halted := false
  retired := []

/-- The package after module reset and the boot steps of R491, under a partition layout and a microcode revision that
firmware gives (log entry 7). -/
def State.boot (layout : BitVec 2) (mcRev : Nat) : State where
  cores := Vector.replicate 4096 (Core.reset false)
  ctxs := ctxsAtReset layout
  queues := Vector.replicate 64 HostQ.reset
  tiles := Vector.replicate 256 Tile.reset
  dies := Vector.replicate 8 ⟨[], [], 0⟩
  layout := layout
  hub := Hub.reset
  mem := []
  zeroLines := []
  bad := []
  releases := []
  images := []
  grids := []
  groups := []
  copies := []
  copyStarts := 0
  flits := []
  yard0 := []
  privOps := []
  handleCtr := 1
  mcRev := mcRev
  clockKhz := 3000000
  cycle := 0
  nextId := 1
  free := 0
  agenda := []
  inputs := []
  outbox := []
  issue := Issue.reset

/-- The machine right after reset. -/
def State.reset : State := State.boot 0 0

end Sys2Proof.Machine
end

