-- ==== Sys2Proof/Machine/Memory.lean ====
section
/-!
DEFINITION. Memory as cells in canonical form: addresses strictly rising, no cell equal to 0, which is what an unlisted
address reads as (boot step 2 zeroes every SRAM, R491; HBM by log entry 2). Little-endian (R3).
-/

namespace Sys2Proof.Machine

open Sys2Proof

abbrev Mem := List Host.Cell

/-- What an unlisted address reads as. -/
def Memory.unlisted : Byte := 0

/-- Every address of a memory is above a bound, they rise strictly, and no cell holds the unlisted value. -/
def Memory.wfFrom : Option Nat → Mem → Bool
  | _, [] => true
  | lo, (a, b) :: m => (match lo with | none => true | some l => decide (l < a)) && b != Memory.unlisted && Memory.wfFrom (some a) m

/-- The canonical form. -/
def Memory.wf (m : Mem) : Bool := Memory.wfFrom none m

/-- The byte at an address. -/
def memRead : Mem → Nat → Byte
  | [], _ => Memory.unlisted
  | (a, b) :: m, x => if a = x then b else memRead m x

/-- The memory with one byte written. -/
def memWrite : Mem → Nat → Byte → Mem
  | [], x, v => if v = Memory.unlisted then [] else [(x, v)]
  | (a, b) :: m, x, v =>
    if x < a then (if v = Memory.unlisted then (a, b) :: m else (x, v) :: (a, b) :: m)
    else if x = a then (if v = Memory.unlisted then m else (x, v) :: m)
    else (a, b) :: memWrite m x v

/-- n bytes from an address. -/
def memBytes (m : Mem) (a : Nat) : Nat → List Byte
  | 0 => []
  | n + 1 => memRead m a :: memBytes m (a + 1) n

/-- Writes bytes from an address on. -/
def memStore (m : Mem) (a : Nat) : List Byte → Mem
  | [] => m
  | b :: bs => memStore (memWrite m a b) (a + 1) bs

/-- Little-endian number of bytes (R3). -/
def leNat : List Byte → Nat
  | [] => 0
  | b :: bs => b.toNat + 256 * leNat bs

/-- The n low bytes of a number, lowest first (R3). -/
def leBytes : Nat → Nat → List Byte
  | 0, _ => []
  | n + 1, x => BitVec.ofNat 8 x :: leBytes n (x / 256)

/-- The n-byte little-endian number at an address. -/
def memNat (m : Mem) (a n : Nat) : Nat := leNat (memBytes m a n)

/-- Writes one masked byte: the kept bits come from the old byte. -/
def memByteW (m : Mem) (w : ByteW) : Mem := memWrite m w.addr ((memRead m w.addr &&& w.keep) ||| w.val)

/-- Writes masked bytes in order. -/
def memByteWs (m : Mem) (ws : List ByteW) : Mem := ws.foldl memByteW m

/-- Plain byte writes of a value. -/
def byteWs (a : Nat) (bs : List Byte) : List ByteW :=
  match bs with
  | [] => []
  | b :: bs => ⟨a, b, 0⟩ :: byteWs (a + 1) bs

end Sys2Proof.Machine
end

