-- ==== Sys2Proof/Machine/Ops.lean ====
section
/-!
DEFINITION. The named operations on the state: lifts to one part of it, free values, messages, the numbering of cores,
semaphores, split records and their stack, the ending of lanes and waves, taking a trap (R410-R416), and fault records.
-/

namespace Sys2Proof.Machine

open Sys2Proof

/-! ### Lifts: each changes one part of the state and nothing else -/

def State.core (s : State) (k : CoreId) : Core := s.cores[k]
def State.wave (s : State) (k : CoreId) (w : SlotId) : Wave := s.cores[k].waves[w]
def State.ctx (s : State) (c : CtxId) : Ctx := s.ctxs[c]

def onCore (k : CoreId) (f : Core → Core) (s : State) : State := { s with cores := vset s.cores k f }
def onWave (k : CoreId) (w : SlotId) (f : Wave → Wave) (s : State) : State :=
  onCore k (fun c => { c with waves := vset c.waves w f }) s
def onSplit (k : CoreId) (w : SlotId) (r : RecId) (f : Split → Split) (s : State) : State :=
  onWave k w (fun x => { x with splits := vset x.splits r f }) s
def onCtx (c : CtxId) (f : Ctx → Ctx) (s : State) : State := { s with ctxs := vset s.ctxs c f }
def onQueue (q : QueueId) (f : HostQ → HostQ) (s : State) : State := { s with queues := vset s.queues q f }
def onTile (t : TileId) (f : Tile → Tile) (s : State) : State := { s with tiles := vset s.tiles t f }
def onDie (d : DieId) (f : Die → Die) (s : State) : State := { s with dies := vset s.dies d f }
def onHub (f : Hub → Hub) (s : State) : State := { s with hub := f s.hub }
def onMem (f : Mem → Mem) (s : State) : State := { s with mem := f s.mem }
def onIssue (f : Issue → Issue) (s : State) : State := { s with issue := f s.issue }
def onGroup (g : Nat) (f : Group → Group) (s : State) : State :=
  { s with groups := s.groups.map fun x => if x.id = g then f x else x }
def onGrid (g : Nat) (f : Grid → Grid) (s : State) : State :=
  { s with grids := s.grids.map fun x => if x.id = g then f x else x }

def emit (m : OutMsg) (s : State) : State := { s with outbox := s.outbox ++ [m] }
/-- More to happen in this cycle, after what already stands on the agenda. -/
def later (l : List Activity) (s : State) : State := { s with agenda := s.agenda ++ l }

/-- An ECC word holds an address. -/
def EccWord.covers (e : EccWord) (a : Nat) : Bool := e.addr ≤ a && a < e.addr + e.size
/-- The byte at a physical address is uncorrectable (R479). -/
def State.badAt (s : State) (a : Nat) : Bool := s.bad.any fun e => e.covers a
/-- Some of n bytes from a physical address on are uncorrectable. -/
def State.badIn (s : State) (a n : Nat) : Bool := s.bad.any fun e => e.addr < a + n && a < e.addr + e.size

/-- A fresh name and the state that has used it. -/
def fresh (s : State) : Nat × State := (s.nextId, { s with nextId := s.nextId + 1 })
/-- Draws a latency. -/
def drawLatency (s : State) : Nat × State := (Config.latency s.free, { s with free := s.free + 1 })
/-- Draws an unspecified choice. -/
def drawChoice (s : State) : Nat × State := (Config.choice s.free, { s with free := s.free + 1 })

def State.group? (s : State) (g : Nat) : Option Group := s.groups.find? fun x => x.id = g
def State.grid? (s : State) (g : Nat) : Option Grid := s.grids.find? fun x => x.id = g
def State.image? (s : State) (c : CtxId) (h : Word) : Option Image := s.images.find? fun x => x.handle = h && x.ctx = c

/-- The live waves of a core with their slots. -/
def Core.liveWaves (c : Core) : List (SlotId × Wave) :=
  (idxs 48).filterMap fun w => if c.waves[w].live then some (w, c.waves[w]) else none

/-- The wave of a uid on a core. -/
def Core.find (c : Core) (uid : Nat) : Option (SlotId × Wave) := c.liveWaves.find? fun x => x.2.uid = uid

/-! ### Numbering (R11, R360) -/

def coreDie (k : CoreId) : DieId := Fin.ofNat 8 (k.val / 512)
def coreTile (k : CoreId) : TileId := Fin.ofNat 256 (k.val / 16)
def coreInTile (k : CoreId) : Nat := k.val % 16
def mkCore (die tile core : Nat) : CoreId := Fin.ofNat 4096 (die * 512 + tile * 16 + core)
/-- The cores of a tile. -/
def tileCores (t : TileId) : List CoreId := (idxs 16).map fun i => Fin.ofNat 4096 (t.val * 16 + i.val)
/-- The core is its die's steward (R12). -/
def isSteward (s : State) (k : CoreId) : Bool := k.val % 512 = s.dies[coreDie k].steward.val
/-- Partition of a die: its index under the layout (R446). -/
def diePartition (s : State) (d : DieId) : Nat := d.val / (8 / 2 ^ s.layout.toNat)
/-- A die lies within a context's reach (R357). -/
def dieReach (s : State) (c : CtxId) (d : DieId) : Bool :=
  (s.ctx c).level = 2 || diePartition s d = (s.ctx c).partition.toNat
def coreReach (s : State) (c : CtxId) (k : CoreId) : Bool := dieReach s c (coreDie k)

/-! ### Words of counters -/

/-- A 32-bit semaphore value, signed (R71). -/
def semInt (w : Word) : Int := w.toInt

/-- A sum saturated at the bounds of a signed 32-bit value (R71). -/
def satAdd (x : Int) : Word := BitVec.ofInt 32 (clampInt true 32 x)

/-- The physical semaphore of a virtual one (R365). -/
def semPhys (s : State) (k : CoreId) (c : CtxId) (v : Byte) : Option (Fin 512) :=
  if h : v.toNat < 248 then
    let e := (s.core k).semMap[c][v.toNat]
    if e.valid then some e.phys else none
  else none

/-- The value a wave reads of a virtual semaphore; none where the entry is not valid (R365; log entry 21, DEDUCED). -/
def semValue (s : State) (k : CoreId) (w : Wave) (v : Byte) : Option Int :=
  if v.toNat < 248 then (semPhys s k w.ctx v).map fun n => semInt (s.core k).sems[n]
  else if v = 253 then some (s.core k).s253[w.ctx]
  else if v = 254 then some (s.core k).s254[w.ctx]
  else if v = 255 then (s.group? w.group).map fun g => (g.s255 : Int)
  else none

/-- An addition of this cycle (R71, R73). -/
def addNow (k : CoreId) (r : SemRef) (n : Int) : State → State := onCore k fun c => { c with adds := c.adds ++ [(r, n)] }

/-- The addition of a completion, which performs in the cycle after it (R151). -/
def addNext (k : CoreId) (r : SemRef) (n : Int) : State → State :=
  onCore k fun c => { c with addsNext := c.addsNext ++ [(r, n)] }

/-- The addition of a completion to the semaphore the operation names, if any. -/
def complete (k : CoreId) (sem : Option (Fin 512)) (n : Int) (s : State) : State :=
  match sem with
  | some p => addNext k (.phys p) n s
  | none => s

/-- What a counter gains from a list of additions. -/
def addsTo (l : List (SemRef × Int)) (r : SemRef) : Int := (l.map fun x => if x.1 = r then x.2 else 0).sum

/-- Applies a cycle's additions: those to one semaphore together, saturated once (R71); then the next cycle's stand. -/
def applyAdds (c : Core) : Core :=
  if c.adds = [] && c.addsNext = [] then c
  else
    let hit (r : SemRef) : Bool := c.adds.any fun x => x.1 = r
    { c with
      sems := c.adds.foldl (fun v x => match x.1 with
        | .phys n => v.set n (satAdd (semInt c.sems[n] + addsTo c.adds (.phys n)))
        | _ => v) c.sems
      s253 := if c.adds.any (fun x => match x.1 with | .s253 _ => true | _ => false)
        then ⟨⟨(idxs 64).map fun i => if hit (.s253 i) then c.s253[i] + addsTo c.adds (.s253 i) else c.s253[i]⟩, by
          have h : (idxs 64).length = 64 := by decide
          simp [h]⟩ else c.s253
      s254 := if c.adds.any (fun x => match x.1 with | .s254 _ => true | _ => false)
        then ⟨⟨(idxs 64).map fun i => if hit (.s254 i) then (satAdd (c.s254[i] + addsTo c.adds (.s254 i))).toInt else c.s254[i]⟩, by
          have h : (idxs 64).length = 64 := by decide
          simp [h]⟩ else c.s254
      adds := c.addsNext
      addsNext := [] }

/-! ### Registers of a wave -/

/-- An A register; A0 reads zero (R200). -/
def Wave.readA (w : Wave) (n : Fin 32) : DWord := if n = 0 then 0 else w.a[n]

/-- Writes an A register; a write of A0 is discarded (R200). -/
def Wave.writeA (w : Wave) (n : Fin 32) (x : DWord) : Wave := if n = 0 then w else { w with a := w.a.set n x }

/-- A predicate in a lane; P0 is true (R203). -/
def Wave.readP (w : Wave) (n : Fin 8) (l : Lane) : Bool := n = 0 || laneBit w.p[n] l

/-- Writes a predicate in the lanes of a mask; a write of P0 is discarded (R67, R203). -/
def Wave.writeP (w : Wave) (n : Fin 8) (lanes val : Mask) : Wave :=
  if n = 0 then w else { w with p := w.p.set n ((w.p[n] &&& ~~~lanes) ||| (val &&& lanes)) }

/-- A written register holds one value again: its lanes leave the unsettled deposits (R63). -/
def settle (n : Fin 256) (lanes : Mask) (l : List Unsettled) : List Unsettled :=
  (l.map fun u => if u.reg = n then { u with lanes := u.lanes &&& ~~~lanes } else u).filter fun u => u.lanes ≠ 0

/-- Writes one V register in the lanes of a mask. -/
def Wave.writeV (w : Wave) (n : Fin 256) (lanes : Mask) (x : Lanes Word) : Wave :=
  { w with v := w.v.set n (Lanes.blend lanes x w.v[n]), unsettled := settle n lanes w.unsettled }

/-- The even-odd partner of a register. -/
def vnext (n : Fin 256) : Fin 256 := Fin.ofNat 256 (n.val + 1)

def lo32 (x : DWord) : Word := x.setWidth 32
def hi32 (x : DWord) : Word := BitVec.ofNat 32 (x.toNat / 2 ^ 32)
def mk64 (lo hi : Word) : DWord := hi ++ lo

/-- Writes a result to its deposit target in the lanes of a mask (R67): a register, a pair, or bit 0 to a predicate. -/
def Wave.deposit (w : Wave) (d : Dep) (wide : Bool) (lanes : Mask) (x : Lanes DWord) : Wave :=
  match d with
  | .none => w
  | .p n => w.writeP (Fin.ofNat 8 (n.val + 1)) lanes (maskOf fun l => x[l].getLsbD 0)
  | .v n =>
    let w := w.writeV n lanes (Lanes.of fun l => lo32 x[l])
    if wide then w.writeV (vnext n) lanes (Lanes.of fun l => hi32 x[l]) else w

def unitIdx : VUnit → Fin 6
  | .ial => 0 | .fma => 1 | .xf => 2 | .xl => 3 | .str => 4 | .lsu => 5

def Wave.unit (w : Wave) (u : VUnit) : UnitRegs := w.units[unitIdx u]
def Wave.onUnit (w : Wave) (u : VUnit) (f : UnitRegs → UnitRegs) : Wave := { w with units := vset w.units (unitIdx u) f }

/-- The wave has ended (R33). -/
def Wave.ended (w : Wave) : Bool := w.exited = fullMask

/-- The record of the split that holds a lane, if resident. -/
def Wave.recOf (w : Wave) (l : Lane) : Option RecId :=
  (idxs 4).find? fun r => w.splits[r].state ≠ .free && laneBit w.splits[r].mask l

def Wave.liveSplits (w : Wave) : List (RecId × Split) :=
  (idxs 4).filterMap fun r => if w.splits[r].state ≠ .free then some (r, w.splits[r]) else none

def Wave.freeRec (w : Wave) : Option RecId := (idxs 4).find? fun r => w.splits[r].state = .free

/-! ### Split records and the stack (R29) -/

/-- Order of residence: lower PC, then lower lowest lane (R29). -/
def beforePc (p q : Word × Mask) : Bool :=
  p.1.toNat < q.1.toNat || (p.1 = q.1 && (lowLane p.2).val ≤ (lowLane q.2).val)

/-- (Log entry 45, DEDUCED.) -/
def Split.toStack (x : Split) : StackSplit := ⟨x.pc, x.mask, x.gap, x.age, x.tau, x.pend, x.lost, x.after, x.issued, x.abase, x.qslot, x.apc⟩

def StackSplit.toSplit (x : StackSplit) : Split :=
  { Split.empty with state := .runnable, pc := x.pc, mask := x.mask, gap := x.gap, age := x.age, tau := x.tau,
                     pend := x.pend, lost := x.lost, after := x.after, issued := x.issued, abase := x.abase, qslot := x.qslot, apc := x.apc }

/-- The base register's value that a re-issue of the bundle uses, and the queue slot it fills; none once a handler has moved
the split to another bundle (R295, R426). -/
def Split.base? (x : Split) : Option (Fin 32 × DWord) := if x.apc = x.pc then x.abase else none
def Split.slot? (x : Split) : Option (Fin 16) := if x.apc = x.pc then x.qslot else none

/-- Brings stack entries into free records, lowest PC first (R29). -/
def Wave.refill (w : Wave) : Nat → Wave
  | 0 => w
  | fuel + 1 =>
    match w.freeRec, w.stack with
    | some r, e :: es =>
      let best := es.foldl (fun b x => if beforePc (b.pc, b.mask) (x.pc, x.mask) then b else x) e
      Wave.refill { w with splits := w.splits.set r best.toSplit, stack := w.stack.filter fun x => x.mask ≠ best.mask } fuel
    | _, _ => w

/-- The runnable split with the highest PC among the resident ones and the new ones: the next to go to the stack. -/
def Wave.worst (w : Wave) (new : List Split) : Option (Split × Option RecId) :=
  let l := ((w.liveSplits.filter fun x => x.2.state = .runnable).map fun x => (x.2, some x.1)) ++ new.map fun x => (x, none)
  l.foldl (fun b x => match b with
    | none => some x
    | some y => if beforePc (x.1.pc, x.1.mask) (y.1.pc, y.1.mask) then some y else some x) none

/-- Places new splits beside the resident ones, sending those with the highest PCs to the stack (R29). -/
def Wave.place (w : Wave) (new : List Split) : Nat → Wave
  | 0 => w
  | fuel + 1 =>
    if w.liveSplits.length + new.length ≤ 4 then
      match new, w.freeRec with
      | x :: xs, some r => Wave.place { w with splits := w.splits.set r x } xs fuel
      | _, _ => w
    else
      match w.worst new with
      | some (x, some r) => Wave.place { w with splits := w.splits.set r Split.empty, stack := w.stack ++ [x.toStack] } new fuel
      | some (x, none) => Wave.place { w with stack := w.stack ++ [x.toStack] } (new.filter fun y => y.mask ≠ x.mask) fuel
      | none => w

/-! ### Fault records (R428) -/

/-- The area's byte address of an offset, as a virtual address of the context. -/
def areaVa (s : State) (c : CtxId) (off : Nat) : DWord := (s.ctx c).area + BitVec.ofNat 64 off

/-- A fault record's 64 bytes (R428). -/
structure FaultRec where
  kind : Nat
  code : Nat := 0
  core : Nat := 0
  slot : Nat := 0
  grid : Nat := 0
  group : Nat := 0
  pc : Nat := 0
  lanes : Nat := 0
  addr : Nat := 0
  d0 : Nat := 0
  d1 : Nat := 0
  d2 : Nat := 0
  deriving DecidableEq, Repr

def FaultRec.bytes (r : FaultRec) (cycle : Nat) : List Byte :=
  leBytes 1 r.kind ++ leBytes 1 r.code ++ leBytes 2 0 ++ leBytes 2 r.core ++ leBytes 1 r.slot ++ leBytes 1 0
    ++ leBytes 4 r.grid ++ leBytes 4 r.group ++ leBytes 4 r.pc ++ leBytes 4 r.lanes ++ leBytes 8 r.addr
    ++ leBytes 8 r.d0 ++ leBytes 8 r.d1 ++ leBytes 8 r.d2 ++ leBytes 8 cycle

end Sys2Proof.Machine
end

