-- ==== Sys2Proof/Machine/Translate.lean ====
section
/-!
DEFINITION. Translation: the physical map, the table walk, page checks (R111, R112, R129, R437-R447), and the accesses
of engines, dispatcher and fault records, which walk when they act (R444).
-/

namespace Sys2Proof.Machine

open Sys2Proof

/-- A bit field of a word as a number. -/
def bits (x : DWord) (lo n : Nat) : Nat := x.toNat / 2 ^ lo % 2 ^ n
def bit (x : DWord) (i : Nat) : Bool := x.getLsbD i

/-- Bytes of one HBM stack and of all of them (R441). -/
def hbmStack : Nat := 0x1800000000
def hbmTop : Nat := 0xC000000000
def yardBase : Nat := 0x400000000000
def yardStride : Nat := 0x100000000
def yardSize : Nat := 0x3000000

/-- The die of a physical address that holds storage; none outside the map (R441). -/
def paDie (pa : Nat) : Option DieId :=
  if pa < hbmTop then some (Fin.ofNat 8 (pa / hbmStack))
  else if yardBase ≤ pa then
    let o := pa - yardBase
    if o / yardStride < 8 && o % yardStride < yardSize then some (Fin.ofNat 8 (o / yardStride)) else none
  else none

/-- The address is storage of the context's partition, or of the package at machine level (R447). -/
def paReach (s : State) (c : CtxId) (pa : Nat) : Bool :=
  match paDie pa with
  | some d => dieReach s c d
  | none => false

/-- Address bits below a leaf's page, by level (R438). -/
def pageBits : Nat → Nat
  | 2 => 30 | 1 => 21 | _ => 16

/-- The index a level takes from an address (R438). -/
def levelIndex (va : DWord) : Nat → Nat
  | 0 => bits va 16 5
  | n => bits va (12 + 9 * n) 9

/-- A leaf entry at a level is malformed, or maps what it may not (R440). -/
def leafBad (s : State) (c : CtxId) (level : Nat) (e : DWord) : Bool :=
  let kind := bits e 5 2
  let addr := bits e 12 36 * 4096
  let size := 2 ^ pageBits level
  let cells := bit e 8
  2 < level || bits e 56 8 ≠ 0 || bits e 9 3 ≠ 0 || kind = 3 || addr % size ≠ 0
    || (kind ≠ 2 && bits e 48 8 ≠ 0)
    || (cells && !(kind = 1 && level = 0))
    || (kind = 2 && bit e 7)
    || (kind = 1 && level = 2)
    || (kind ≠ 2 && !(paReach s c addr && paReach s c (addr + size - 1)))
    || (cells && !(paReach s c (addr + 655360 - 1) && paDie addr = paDie (addr + 655360 - 1)))
    || (kind = 0 && hbmTop ≤ addr)

/-- The page of an address under a leaf. -/
def leafPage (c : CtxId) (gen : Word) (level : Nat) (va e : DWord) : Tlb :=
  let n := pageBits level
  { ctx := c, gen := gen, page := va.toNat / 2 ^ n * 2 ^ n, size := 2 ^ n, pa := bits e 12 36 * 4096, kind := bits e 5 2,
    sumcell := bit e 8, det := bit e 7, user := bit e 4, write := bit e 3, read := bit e 2, win := Fin.ofNat 256 (bits e 48 8) }

/-- The levels of a walk from a table on (R438, R440, R442, R480). -/
def walkFrom (s : State) (c : CtxId) (va : DWord) : Nat → Nat → Except (TrapCode × DWord) Tlb
  | level, table =>
    let at_ := table + 8 * levelIndex va level
    if !(at_ < hbmTop && paReach s c at_) then .error (.xlate, va)
    else if s.badAt at_ then .error (.eccUncorr, BitVec.ofNat 64 at_)
    else
      let e : DWord := BitVec.ofNat 64 (memNat s.mem at_ 8)
      if !bit e 0 then .error (.xlate, va)
      else if bit e 1 then (if leafBad s c level e then .error (.xlate, va) else .ok (leafPage c (s.ctx c).gen level va e))
      else
        match level with
        | 0 => .error (.xlate, va)
        | n + 1 =>
          if bits e 56 8 ≠ 0 || bits e 9 3 ≠ 0 || bits e 2 7 ≠ 0 || bits e 48 8 ≠ 0 then .error (.xlate, va)
          else walkFrom s c va n (bits e 12 36 * 4096)

/-- A walk of a context's tables (R437-R442). -/
def walk (s : State) (c : CtxId) (va : DWord) : Except (TrapCode × DWord) Tlb :=
  let root := (s.ctx c).ptroot
  if bits va 57 7 ≠ 0 || !bit root 0 then .error (.xlate, va) else walkFrom s c va 4 (bits root 12 36 * 4096)

/-- The page covers an address of a context. -/
def Tlb.covers (t : Tlb) (c : CtxId) (va : DWord) : Bool := t.ctx = c && t.page ≤ va.toNat && va.toNat < t.page + t.size

/-- A TLB takes an entry in; when it is full another one leaves, and before that one may (R443; log entry 87, DESIGN CHOICE). -/
def fillTlb (cap n : Nat) (t : Tlb) (l : List Tlb) : List Tlb :=
  t :: if l.length < cap then l.eraseIdx (n % (cap + 1)) else (l.take cap).eraseIdx (n % cap)

/-- The address a page gives: physical, or the offset within the window (R439). -/
def Tlb.addr (t : Tlb) (va : DWord) : Nat := t.pa + (va.toNat - t.page)

/-- An exact-sum cell's first byte (R124). -/
def Tlb.cellAddr (t : Tlb) (va : DWord) : Nat := t.pa + 40 * ((va.toNat - t.page) / 4)

/-- Whether a context's level and the page's bits allow a read and a write asked for (R129). -/
def Tlb.permits (t : Tlb) (level : BitVec 2) (rd wr : Bool) : Bool :=
  (!rd || t.read) && (!wr || t.write) && (level ≠ 0 || t.user)

/-! ### Accesses that translate when they act -/

/-- The physical address of a byte that an engine reads or writes in an HBM or YARD page of a context. -/
def engineAddr (s : State) (c : CtxId) (va : DWord) (rd wr : Bool) : Except TrapCode Nat :=
  match walk s c va with
  | .error e => .error e.1
  | .ok t => if t.kind = 2 || t.sumcell || !t.permits (s.ctx c).level rd wr then .error .access else .ok (t.addr va)

/-- The same for a byte of a context's packet or completion ring, which lies in HBM of its partition (R447). -/
def ringAddr (s : State) (c : CtxId) (va : DWord) (rd wr : Bool) : Except TrapCode Nat :=
  match walk s c va with
  | .error e => .error e.1
  | .ok t => if t.kind ≠ 0 || !t.permits (s.ctx c).level rd wr then .error .access else .ok (t.addr va)

/-- Reads n bytes at a virtual address, each where an address rule puts it; the first fault otherwise. -/
def readVia (s : State) (addr : DWord → Except TrapCode Nat) (va : DWord) : Nat → Except TrapCode (List Byte)
  | 0 => .ok []
  | n + 1 =>
    match addr va with
    | .error e => .error e
    | .ok pa =>
      if s.badAt pa then .error .eccUncorr
      else match readVia s addr (va + 1) n with
        | .error e => .error e
        | .ok l => .ok (memRead s.mem pa :: l)

/-- Reads n bytes for an engine. -/
def engineRead (s : State) (c : CtxId) (va : DWord) (n : Nat) : Except TrapCode (List Byte) :=
  readVia s (fun v => engineAddr s c v true false) va n

/-- Reads n bytes of a ring. -/
def ringRead (s : State) (c : CtxId) (va : DWord) (n : Nat) : Except TrapCode (List Byte) :=
  readVia s (fun v => ringAddr s c v true false) va n

/-- A merge-buffer entry's byte at an address. -/
def mergeByte (e : MergeE) (a : Nat) : Option ByteW :=
  match e.zeros with
  | some (z, n) => if z ≤ a && a < z + n then some ⟨a, 0, 0⟩ else none
  | none => e.bytes.find? fun w => w.addr = a

/-- A release is still in its core's merge buffer. -/
def releasePending (s : State) (r : Release) : Bool := (s.cores[r.core].merge).any fun e => e.id = r.id

/-- Bytes reach .k: zero-flag lines they touch gain data (R120), releases they overwrite end (R145), and a whole
uncorrectable word they replace is cured (R480). -/
def kBytes (ws : List ByteW) (s : State) : State :=
  let full (e : EccWord) : Bool := (List.range e.size).all fun i => ws.any fun w => w.addr = e.addr + i && w.keep = 0
  { s with
    mem := memByteWs s.mem ws
    zeroLines := s.zeroLines.filter fun l => !ws.any fun w => w.addr / 128 = l
    bad := s.bad.filter fun e => !full e
    releases := s.releases.filter fun r => releasePending s r || !ws.any fun w => r.addrs.contains w.addr }

/-- A zero range reaches .k: zero bytes and zero-flag lines (R120, R121). -/
def kZeros (a n : Nat) (s : State) : State :=
  { s with
    mem := s.mem.filter fun c => !(a ≤ c.1 && c.1 < a + n)
    zeroLines := (List.range (n / 128)).map (fun i => a / 128 + i) ++ s.zeroLines.filter fun l => !(a / 128 ≤ l && l < (a + n) / 128)
    bad := s.bad.filter fun e => !(a ≤ e.addr && e.addr + e.size ≤ a + n)
    releases := s.releases.filter fun r => releasePending s r || !r.addrs.any fun x => a ≤ x && x < a + n }

/-- A merge-buffer entry reaches .k. -/
def kEntry (s : State) (e : MergeE) : State :=
  match e.zeros with
  | some (a, n) => kZeros a n s
  | none => kBytes e.bytes s

/-- Removes entries from every merge buffer. -/
def dropEntries (f : MergeE → Bool) (s : State) : State :=
  { s with cores := vmap (fun c => if c.merge = [] then c else { c with merge := c.merge.filter fun e => !f e }) s.cores }

/-- Entries reach .k one after the other, each leaving its merge buffer as it does. -/
def kEntries (l : List MergeE) (s : State) : State := l.foldl (fun s e => dropEntries (fun x => x.id = e.id) (kEntry s e)) s

/-- Inserts an entry by its age. -/
def insertEntry (e : MergeE) : List MergeE → List MergeE
  | [] => [e]
  | x :: l => if e.id ≤ x.id then e :: x :: l else x :: insertEntry e l

/-- Every entry of every merge buffer, oldest first. -/
def pendingEntries (s : State) : List MergeE := (s.cores.toList.flatMap (·.merge)).foldr insertEntry []

/-- Entries whose .g point is older than a write of these bytes that is about to reach .k reach .k before it, with all
entries older than they (R134; log entry 14). -/
def drain (hit : Nat → Bool) (s : State) : State :=
  let l := pendingEntries s
  match (l.filter fun e => match e.zeros with
      | some (a, n) => (List.range n).any fun i => hit (a + i)
      | none => e.bytes.any fun w => hit w.addr).getLast? with
  | none => s
  | some m => kEntries (l.filter fun e => e.id ≤ m.id) s

/-- A write of bytes by an engine or the host performs at .k, after the older stores to those bytes. -/
def storeBytes (ws : List ByteW) (s : State) : State := kBytes ws (drain (fun a => ws.any fun w => w.addr = a) s)

/-- The physical addresses of n bytes from a virtual address on. -/
def addrsVia (addr : DWord → Except TrapCode Nat) (va : DWord) : Nat → Except TrapCode (List Nat)
  | 0 => .ok []
  | n + 1 =>
    match addr va, addrsVia addr (va + 1) n with
    | .ok a, .ok l => .ok (a :: l)
    | .error e, _ => .error e
    | _, .error e => .error e

/-- Writes bytes where an address rule puts them, or reports the first fault. -/
def writeVia (addr : DWord → Except TrapCode Nat) (va : DWord) (bs : List Byte) (s : State) : Except TrapCode State :=
  match addrsVia addr va bs.length with
  | .error e => .error e
  | .ok l => .ok (storeBytes (l.zipWith (fun a b => ⟨a, b, 0⟩) bs) s)

/-- Writes bytes for an engine at a virtual address of a context. -/
def engineWrite (c : CtxId) (va : DWord) (bs : List Byte) (s : State) : Except TrapCode State :=
  writeVia (fun v => engineAddr s c v false true) va bs s

/-- Writes bytes of a ring. -/
def ringWrite (c : CtxId) (va : DWord) (bs : List Byte) (s : State) : Except TrapCode State :=
  writeVia (fun v => ringAddr s c v false true) va bs s

/-- The bytes of a context's area lie in HBM of its partition (R363, R447). -/
def areaAddr (s : State) (c : CtxId) (off : Nat) (wr : Bool) : Except TrapCode Nat :=
  match walk s c (areaVa s c off) with
  | .error e => .error e.1
  | .ok t => if t.kind ≠ 0 || !(t.read && (!wr || t.write)) then .error .access else .ok (t.addr (areaVa s c off))

/-- The supervisor context of a partition: the lowest-numbered of level 1 with it (R363, R414). -/
def supervisorOf (s : State) (c : CtxId) : Option CtxId :=
  (idxs 64).find? fun x => (s.ctx x).level = 1 && (s.ctx x).partition = (s.ctx c).partition

/-- Writes a fault record in a context's ring and answers its index; none when the area cannot be reached (R428). -/
def faultIn (c : CtxId) (r : FaultRec) (s : State) : Option (Word × State) :=
  let n := (s.ctx c).faultCnt
  let off := 0x400 + 64 * (n.toNat % 64)
  if (s.ctx c).area = 0 then none
  else match areaAddr s c off true with
    | .error _ => none
    | .ok pa => some (n, onCtx c (fun x => { x with faultCnt := x.faultCnt + 1 }) (storeBytes (byteWs pa (r.bytes s.cycle)) s))

/-- Enters a fault record. When the area faults, a kind-9 record goes to the supervisor context's ring (R363). Answers
the index in the context's own ring, or 0xFFFFFFFF. -/
def recordFault (c : CtxId) (r : FaultRec) (s : State) : Word × State :=
  match faultIn c r s with
  | some x => x
  | none =>
    let off := 0x400 + 64 * ((s.ctx c).faultCnt.toNat % 64)
    match supervisorOf s c with
    | some v => (0xFFFFFFFF, ((faultIn v { kind := 9, d0 := c.val, d1 := off } s).map (·.2)).getD s)
    | none => (0xFFFFFFFF, s)

/-- A kind-9 record for a context-area access that did not happen (R363). -/
def areaFault (c : CtxId) (off : Nat) (s : State) : State :=
  match supervisorOf s c with
  | some v => (recordFault v { kind := 9, d0 := c.val, d1 := off } s).2
  | none => s

/-- Reads n bytes of a context's area. -/
def areaRead (s : State) (c : CtxId) (off n : Nat) : Option (List Byte) :=
  if (s.ctx c).area = 0 then none
  else match areaAddr s c off false with
    | .error _ => none
    | .ok pa => some (memBytes s.mem pa n)

/-- Writes bytes of a context's area; a fault enters a record and the write does not happen (R363). -/
def areaWrite (c : CtxId) (off : Nat) (bs : List Byte) (s : State) : State :=
  match areaAddr s c off true with
  | .error _ => areaFault c off s
  | .ok pa => storeBytes (byteWs pa bs) s

end Sys2Proof.Machine
end

