-- ==== Sys2Proof/Machine/Trap.lean ====
section
/-!
DEFINITION. Ending lanes and waves (R33, R36, R38, R44), taking a trap (R410-R414), fatal traps (R416) and the end of a
stint that traps (R427).
-/

namespace Sys2Proof.Machine

open Sys2Proof

/-! ### The end of lanes, waves and stints -/

/-- The next wave in order that has not ended, wrapping; the current one when none remains (R406; log entry 24, DEDUCED). -/
def nextRole (g : Group) : Nat :=
  let order := (List.range g.w).map fun i => (g.cur + 1 + i) % g.w
  (order.find? fun i => !g.ended.contains i).getD g.cur

/-- The current wave's role passes when this wave holds it (R44, R406). -/
def passRole (g : Nat) (windex : Nat) : State → State :=
  onGroup g fun x => if x.cur = windex then { x with cur := nextRole x } else x

/-- A pre-emption request completes when every split is stopped or the wave has ended (R376). -/
def donePreempt (k : CoreId) (w : SlotId) (s : State) : State :=
  match (s.wave k w).preempt with
  | none => s
  | some p => onWave k w (fun x => { x with preempt := none }) (p.sems.foldl (fun s x => complete x.core x.sem 1 s) s)

/-- Ends every lane of a wave and discards what was in flight. -/
def Wave.stop (w : Wave) : Wave :=
  { w with splits := Vector.replicate 4 Split.empty, stack := [], exited := fullMask, flights := [], lins := [], dfas := [],
           window := { w.window with count := 0 } }

/-- Frees a wave context. -/
def freeWave (k : CoreId) (w : SlotId) : State → State := onWave k w fun _ => Wave.free

/-- What happens when a wave's last lane has ended: a stint signals and frees its context (R38); a compute wave ends its
shadow (R36), passes the COROUTINE role (R44) and counts as ended for its group. -/
def waveEnd (k : CoreId) (w : SlotId) (byEnd : Bool) (s : State) : State :=
  let x := s.wave k w
  let s := donePreempt k w s
  match x.kind with
  | .stint =>
    let s := match byEnd, x.stint with
      | true, some r =>
        addNow k (.s254 x.ctx) 1 (r.signals.foldl (fun s g =>
          match semPhys s k x.ctx g.1 with
          | some p => addNow k (.phys p) g.2.toInt s
          | none => s) s)
      | _, _ => s
    freeWave k w s
  | .shadow => s
  | _ =>
    let s := onGroup x.group (fun g => { g with ended := x.windex :: g.ended }) s
    let s := passRole x.group x.windex s
    match x.partner with
    | some p => donePreempt k p (onWave k p Wave.stop (onWave k w (fun y => { y with window := { y.window with count := 0 } }) s))
    | none => s

/-- Removes lanes from a wave's splits and results; records left empty are free and the stack refills them (R29, R33). -/
def Wave.dropLanes (w : Wave) (m : Mask) : Wave :=
  Wave.refill
    { w with
      exited := w.exited ||| m
      splits := vmap (fun x => if x.state = .free then x
        else if x.mask &&& ~~~m = 0 then Split.empty else { x with mask := x.mask &&& ~~~m }) w.splits
      stack := (w.stack.map fun x => { x with mask := x.mask &&& ~~~m }).filter fun x => x.mask ≠ 0
      flights := w.flights.map fun f => { f with en := f.en &&& ~~~m }
      lins := w.lins.map fun f => if f.store then f else { f with en := f.en &&& ~~~m }
      dfas := w.dfas.map fun f => { f with en := f.en &&& ~~~m } } 4

/-- Ends lanes of a wave, as END does (R33). -/
def endLanes (k : CoreId) (w : SlotId) (m : Mask) (byEnd : Bool) (s : State) : State :=
  let s := onWave k w (fun x => x.dropLanes m) s
  if (s.wave k w).ended then waveEnd k w byEnd s else s

/-! ### Taking a trap -/

/-- Entries of class-0 waves go ahead of all others (R414); the entries of one cycle stand in ascending record number (R411;
log entry 39, DEDUCED). -/
def Core.trapAhead (c : Core) (e t : TrapEntry) : Bool :=
  let zero (x : TrapEntry) : Bool := c.waves[x.slot].cls = 0
  (zero e && !zero t) || (zero e = zero t && e.at_ = t.at_ && e.split.val < t.split.val)

/-- An entry takes its place in a trap queue. -/
def Core.putTrap (c : Core) (e : TrapEntry) : List TrapEntry → List TrapEntry
  | [] => [e]
  | t :: q => if c.trapAhead e t then e :: t :: q else t :: c.putTrap e q

/-- Trapped splits that wait outside a full queue enter as its entries free (R414). -/
def Core.admitTraps (c : Core) : Core :=
  let room := 64 - c.trapQ.length
  { c with trapQ := (c.trapWait.take room).foldl (fun q e => c.putTrap e q) c.trapQ, trapWait := c.trapWait.drop room }

/-- A trapped split enters the core's trap queue, or waits while its 64 entries are taken (R414). -/
def queueTrap (k : CoreId) (w : SlotId) (r : RecId) (s : State) : State :=
  onCore k (fun c => Core.admitTraps { c with trapWait := c.putTrap ⟨c.waves[w].uid, w, r, s.cycle⟩ c.trapWait }) s

/-- Entries leave the trap queue. -/
def dropTraps (f : TrapEntry → Bool) (c : Core) : Core :=
  Core.admitTraps { c with trapQ := c.trapQ.filter fun t => !f t, trapWait := c.trapWait.filter fun t => !f t }

/-- What a trap records: its code and argument, the address of A3 and the fault-record index of A4 (R415). -/
structure TrapInfo where
  code : TrapCode
  arg : Byte := 0
  addr : DWord := 0
  record : Word := 0xFFFFFFFF
  pc : Option Word := none     -- the PC its record names, where it is not the split's (R299)
  deriving DecidableEq, Repr

/-- The split as it stands once it has trapped: its clock, gap and age stay (R77, R412). One that PREEMPT stops keeps the
progress of its hold (R430). -/
def Split.trap (x : Split) (t : TrapInfo) : Split :=
  { x with state := .trapped, code := t.code.code, arg := t.arg, addr := t.addr, record := t.record, resolve := false,
           mask0 := x.mask, epc := t.pc, hold := none, held := 0, syncAt := none, released := t.code = .preempt && x.released }

/-- The 2-byte pairs of the first four signals a stint performed (R428). -/
def signalDetail (l : List (Byte × BitVec 8)) : Nat :=
  l.length % 256 + ((l.take 4).foldr (fun x acc => x.1.toNat + 256 * x.2.toNat + 65536 * acc) 0) * 256

/-- A stint that traps or overruns ends at once, without its signals; a kind-2 record says what it performed (R427). -/
def stintFail (k : CoreId) (w : SlotId) (r : RecId) (t : TrapInfo) (s : State) : State :=
  let x := s.wave k w
  let st := x.stint.getD ⟨0, 0, 0, [], [], 0, 0⟩
  let rec_ : FaultRec :=
    { kind := 2, code := t.code.code.toNat, core := k.val, slot := w.val, grid := x.serial.toNat, group := x.groupNo,
      pc := (t.pc.getD x.splits[r].pc).toNat, lanes := x.splits[r].mask.toNat, addr := t.addr.toNat, d0 := st.index, d1 := st.arg.toNat,
      d2 := signalDetail st.done }
  freeWave k w (donePreempt k w (recordFault x.ctx rec_ s).2)

/-- Marks the trap code in lane words (R421). -/
def Wave.markLanes (w : Wave) (m : Mask) (code : Byte) : Wave :=
  { w with laneCode := Lanes.of fun l => if laneBit m l then code else w.laneCode[l] }

/-- A whole split traps. PREEMPT queues nothing for a handler (R430); a stint ends (R427). -/
def trapSplit (k : CoreId) (w : SlotId) (r : RecId) (t : TrapInfo) (lanes : Mask) (s : State) : State :=
  if (s.wave k w).kind = .stint then stintFail k w r t s
  else
    let s := onWave k w (fun x => { (x.markLanes lanes t.code.code) with splits := vset x.splits r fun y => y.trap t }) s
    if t.code = .preempt then s else queueTrap k w r s

/-- Some lanes of a split trap: they take the lowest free record and the rest go on; with no free record, or when they
are all its lanes, the whole split traps (R412, R413). Answers whether lanes of the split go on. -/
def trapLanes (k : CoreId) (w : SlotId) (r : RecId) (t : TrapInfo) (lanes : Mask) (s : State) : Bool × State :=
  let x := s.wave k w
  let y := x.splits[r]
  let f := y.mask &&& lanes
  if f = 0 then (true, s)
  else if f = y.mask || x.kind = .stint then (false, trapSplit k w r t f s)
  else
    match x.freeRec with
    | none => (false, trapSplit k w r t f s)
    | some q =>
      let s := onWave k w (fun x => { (x.markLanes f t.code.code) with
        splits := vset (vset x.splits q fun _ => { y with mask := f }.trap t) r fun z => { z with mask := z.mask &&& ~~~f } }) s
      (true, queueTrap k w q s)

/-- A condition waits at a split (R411). -/
def pendAt (k : CoreId) (w : SlotId) (r : RecId) (p : Pending) : State → State :=
  onSplit k w r fun x => { x with pend := x.pend ++ [p] }

/-- A condition of the whole wave waits at each of its splits with live lanes (R412). -/
def Wave.pendAll (p : Pending) (x : Wave) : Wave :=
  { x with
    splits := vmap (fun y => if y.state = .free then y else { y with pend := y.pend ++ [{ p with lanes := y.mask }] }) x.splits
    stack := x.stack.map fun y => { y with pend := y.pend ++ [{ p with lanes := y.mask }] } }

/-- The same for a wave in its context. -/
def pendWave (k : CoreId) (w : SlotId) (p : Pending) : State → State := onWave k w (Wave.pendAll p)

/-- Changes a wave wherever it is: in its context, or off the core. -/
def onWaveOf (k : CoreId) (w : SlotId) (uid : Nat) (f : Wave → Wave) (s : State) : State :=
  if (s.wave k w).live && (s.wave k w).uid = uid then onWave k w f s
  else { s with groups := s.groups.map fun g =>
    if g.away.any fun a => a.2.1.uid = uid then
      { g with away := g.away.map fun a => if a.2.1.uid = uid then (a.1, f a.2.1, a.2.2) else a }
    else g }

/-- A condition waits at every split of a wave, wherever it is. -/
def pendUid (k : CoreId) (w : SlotId) (uid : Nat) (p : Pending) : State → State := onWaveOf k w uid (Wave.pendAll p)

/-- The lanes of a wave that have not ended, wherever it is. -/
def uidLanes (s : State) (k : CoreId) (w : SlotId) (uid : Nat) : Mask :=
  if (s.wave k w).live && (s.wave k w).uid = uid then ~~~(s.wave k w).exited
  else (((s.groups.flatMap (·.away)).find? fun a => a.2.1.uid = uid).map fun a => ~~~a.2.1.exited).getD 0

/-- A wave still has live lanes, in its context or off the core. -/
def uidLives (s : State) (k : CoreId) (w : SlotId) (uid : Nat) : Bool :=
  ((s.wave k w).live && (s.wave k w).uid = uid && !(s.wave k w).ended)
    || s.groups.any fun g => g.away.any fun a => a.2.1.uid = uid && !a.2.1.ended

/-- A condition waits at the splits that hold some of its lanes (R299). -/
def Wave.pendSome (p : Pending) (x : Wave) : Wave :=
  { x with
    splits := vmap (fun y => if y.state = .free || y.mask &&& p.lanes = 0 then y
      else { y with pend := y.pend ++ [{ p with lanes := p.lanes &&& y.mask }] }) x.splits
    stack := x.stack.map fun y => if y.mask &&& p.lanes = 0 then y else { y with pend := y.pend ++ [{ p with lanes := p.lanes &&& y.mask }] } }

/-- Order of groups 1 and 2 of R411. -/
def pendRank : TrapCode → Nat
  | .watchdog => 0 | .eccUncorr => 1 | .bankMx => 2 | .arith => 3 | .copyError => 4 | .stepConflict => 5 | .stepOverflow => 6
  | .debugBreak => 7 | .splitOverlap => 8 | _ => 9

/-- The waiting condition to take first (R411). -/
def firstPend (l : List Pending) : Option Pending :=
  l.foldl (fun b x => match b with
    | none => some x
    | some y => if pendRank x.code < pendRank y.code then some x else some y) none

/-- Removes one copy of a waiting condition. -/
def dropPend (p : Pending) (l : List Pending) : List Pending := l.erase p

/-- A waiting condition is taken (R411, R412). -/
def takePend (k : CoreId) (w : SlotId) (r : RecId) (p : Pending) (s : State) : State :=
  let s := onSplit k w r (fun x => { x with pend := dropPend p x.pend }) s
  (trapLanes k w r ⟨p.code, p.arg, p.addr[lowLane (p.lanes &&& (s.wave k w).splits[r].mask)], p.record, p.pc⟩ p.lanes s).2

/-! ### Fatal traps (R416) -/

/-- Lanes of an access whose data were uncorrectable are given up: nothing is left of it when no other lane is to perform,
and its semaphore is never added to (R425). -/
def MemOp.abandon (m : Mask) (o : MemOp) : Option MemOp :=
  if o.failed &&& m = 0 then some o
  else if o.failed &&& ~~~m = 0 && o.left = 0 then none
  else some { o with failed := o.failed &&& ~~~m, en := o.en &&& ~~~m, sem := none }

/-- Every wave of a group ends, shadows included; the grid fails and places no further group. -/
def killGroup (g : Nat) (s : State) : State :=
  match s.group? g with
  | none => s
  | some x =>
    let s := x.slots.foldl (fun s w =>
      if (s.wave x.core w).live && (s.wave x.core w).group = g then donePreempt x.core w (onWave x.core w Wave.stop s) else s) s
    let s := onCore x.core (fun c => { dropTraps (fun t => c.waves[t.slot].group = g && c.waves[t.slot].uid = t.wave) c with
      ops := c.ops.filterMap fun o => if o.group = g then o.abandon fullMask else some o
      mx := c.mx.filter fun m => !(c.waves[m.slot].group = g && c.waves[m.slot].uid = m.wave) }) s
    let s := onGroup g (fun y => { y with fatal := true, ended := List.range y.w, away := y.away.map fun a => (a.1, a.2.1.stop, a.2.2) }) s
    onGrid x.grid (fun y => { y with failed := true }) s

/-- A fatal trap of a split: a kind-1 record, and the end of its group. -/
def fatalTrap (k : CoreId) (w : SlotId) (r : RecId) (code : Byte) (arg : Byte) (addr : DWord) (s : State) : State :=
  let x := s.wave k w
  let y := x.splits[r]
  let pc := (y.epc.getD y.pc).toNat
  let rec_ : FaultRec :=
    { kind := 1, code := code.toNat, core := k.val, slot := w.val, grid := x.serial.toNat, group := x.groupNo, pc := pc,
      lanes := y.mask.toNat, addr := addr.toNat, d0 := code.toNat + arg.toNat * 2 ^ 8 + r.val * 2 ^ 16 + pc * 2 ^ 32 }
  killGroup x.group (recordFault x.ctx rec_ s).2

/-- A fatal trap of a group that an engine meets for a lane of one of its waves: of the split that holds the lane, or, where
none does, with a kind-1 record that names no PC. -/
def fatalLane (k : CoreId) (w : SlotId) (g : Nat) (l : Lane) (code : TrapCode) (s : State) : State :=
  let x := s.wave k w
  match if x.live && x.group = g then x.recOf l else none with
  | some r => fatalTrap k w r code.code 0 0 s
  | none => match s.group? g with
    | none => s
    | some y =>
      let rec_ : FaultRec :=
        { kind := 1, code := code.code.toNat, core := k.val, slot := w.val, grid := ((s.grid? y.grid).map (·.serial.toNat)).getD 0,
          group := y.no, lanes := (oneLane l).toNat, d0 := code.code.toNat }
      killGroup g (recordFault y.ctx rec_ s).2

end Sys2Proof.Machine
end

