-- ==== Sys2Proof/Machine/Operands.lean ====
section
/-!
DEFINITION. The operands of the bundle being issued: system values (R23), source specifiers (R56-R58, R200, R201),
guards, path tags and enabled lanes (R203, R204, R296), branch trees (R210), ports (R54), addresses (R293), and the V
registers that a slot names (R27, R70).
-/

namespace Sys2Proof.Machine

open Sys2Proof

/-- The wave whose bundle is being issued. -/
def State.iw (s : State) : Wave := s.wave s.issue.core s.issue.slot
/-- The split whose bundle is being issued. -/
def State.is (s : State) : Split := s.iw.splits[s.issue.split]
def onIw (f : Wave → Wave) (s : State) : State := onWave s.issue.core s.issue.slot f s
def onIs (f : Split → Split) (s : State) : State := onSplit s.issue.core s.issue.slot s.issue.split f s

/-- A system value in a lane (R23). -/
def sysVal (s : State) (k : CoreId) (w : Wave) (v : SysVal) (l : Lane) : Word :=
  match v with
  | .lane => BitVec.ofNat 32 l.val
  | .wave => BitVec.ofNat 32 w.windex
  | .group => BitVec.ofNat 32 w.groupNo
  | .grid => w.serial
  | .depth => BitVec.ofNat 32 w.depth
  | .core => BitVec.ofNat 32 (k.val % 16)
  | .tile => BitVec.ofNat 32 (k.val / 16 % 32)
  | .die => BitVec.ofNat 32 (k.val / 512)
  | .step => (s.ctx w.ctx).step
  | .seed j => BitVec.ofNat 32 (w.seed.toNat / 2 ^ (32 * j.val))
  | .cycleLo => BitVec.ofNat 32 (s.cycle - w.epoch)
  | .cycleHi => BitVec.ofNat 32 ((s.cycle - w.epoch) / 2 ^ 32)

/-- A small immediate, specifier minus 0x1B0 (R200). -/
def immInt (k : Fin 128) : Int := (k.val : Int) - 64

/-- A literal word of the bundle; zero past the pool, which decode refuses (R199). -/
def litWord (s : State) (k : Nat) : Word := s.issue.lits.getD k 0

/-- A slot of the queue window, places past the head after the pops so far (R35, R58). -/
def queueWord (w : Wave) (places : Nat) (l : Lane) : Word :=
  (w.window.slots[Fin.ofNat 16 (w.window.head.val + places)]).val[l]

/-- Free values that a bundle's reads of unsettled registers take: one per register and place in the order of R58. -/
def bundleDraws : Nat := 2048

/-- A V register's word in a lane. Where a load has arrived whose semaphore no header wait has observed, it is the word
that stood there before or the one that arrived, freely (R63); `pos` is the reader's place in the order of R58. -/
def readV (s : State) (pos : Nat) (n : Fin 256) (l : Lane) : Word :=
  let w := s.iw
  let pick := Config.choice (s.issue.draw + 256 * pos + n.val)
  w.unsettled.zipIdx.foldl (fun x u =>
    if u.1.reg = n && laneBit u.1.lanes l && pick / 2 ^ (32 * u.2 + l.val) % 2 = 1 then u.1.old[l] else x) w.v[n][l]

/-- What a specifier that reads a latch gets in a lane. FMA.q's 64 bits hold the W56 value of an open chain rounded as
R98 states, which every chain landing writes there and which stays there while a close step that has issued has not
landed (log entry 46, DEDUCED). -/
def latchVal (w : Wave) (u : VUnit) (l : Lane) : DWord := (w.unit u).q[l]

/-- `Read` (R76): a source specifier in a lane, as a zero-extended 64-bit port value. `pos` is its place in the order of
R58, `off` counts the pops the bundle's earlier specifiers make; `port` is the port's present value, which keep leaves. -/
def readSrc (s : State) (pos : Nat) (src : Src) (wide : Bool) (off : Nat) (port : DWord) (l : Lane) : DWord :=
  let w := s.iw
  match src with
  | .v n => mk64 (readV s pos n l) (if wide then readV s pos (vnext n) l else 0)
  | .a n => if wide then w.readA n else (lo32 (w.readA n)).zeroExtend 64
  | .p n => if w.readP n l then 1 else 0
  | .latch u hi =>
    let q := latchVal w u l
    if wide then q else ((if hi then hi32 q else lo32 q)).zeroExtend 64
  | .sys v => (sysVal s s.issue.core w v l).zeroExtend 64
  | .peek k => mk64 (queueWord w (off + k.val) l) (if wide then queueWord w (off + k.val + 1) l else 0)
  | .pop => mk64 (queueWord w off l) (if wide then queueWord w (off + 1) l else 0)
  | .imm k => if wide then BitVec.ofInt 64 (immInt k) else (BitVec.ofInt 32 (immInt k)).zeroExtend 64
  | .lit k => mk64 (litWord s k.val) (if wide then litWord s (k.val + 1) else 0)
  | .keep => port

/-- Queue slots that a specifier pops (R58, R201). -/
def popsOf (src : Src) (wide : Bool) : Nat :=
  match src with
  | .pop => if wide then 2 else 1
  | _ => 0

/-- Queue slots, counted from the head after earlier pops, that a specifier reads (R200, R201). -/
def queueReads (src : Src) (wide : Bool) : List Nat :=
  match src with
  | .pop => if wide then [0, 1] else [0]
  | .peek k => if wide then [k.val, k.val + 1] else [k.val]
  | _ => []

/-! ### Enabled lanes -/

/-- The lanes a guard enables (R203). -/
def guardMask (w : Wave) (g : Guard) : Mask := maskOf fun l => w.readP g.pred l ^^ g.neg

/-- The lanes a path tag enables (R204). -/
def pathMask (leaf : Lanes (Fin 5)) (p : Path) : Mask :=
  match p with
  | .all => fullMask
  | .leaf k => maskOf fun l => leaf[l] = k

/-- The lanes of the issuing split that a slot's guard and path tag enable (R69, R204). -/
def enabled (s : State) (g : Guard) (p : Path) : Mask := s.is.mask &&& guardMask s.iw g &&& pathMask s.issue.leaf p

/-! ### Branch trees (R210) -/

/-- A branch tree. -/
inductive BrTree
  | leaf (k : Fin 5)
  | node (t : Fin 4) (f t' : BrTree)
  deriving DecidableEq, Repr

open BrTree in
/-- The tree of a shape code (R210). -/
def shapeTree : Nat → BrTree
  | 0 => node 0 (leaf 0) (node 1 (leaf 1) (node 2 (leaf 2) (node 3 (leaf 3) (leaf 4))))
  | 1 => node 0 (leaf 0) (node 1 (leaf 1) (node 2 (node 3 (leaf 2) (leaf 3)) (leaf 4)))
  | 2 => node 0 (leaf 0) (node 1 (node 2 (leaf 1) (leaf 2)) (node 3 (leaf 3) (leaf 4)))
  | 3 => node 0 (leaf 0) (node 1 (node 2 (leaf 1) (node 3 (leaf 2) (leaf 3))) (leaf 4))
  | 4 => node 0 (leaf 0) (node 1 (node 2 (node 3 (leaf 1) (leaf 2)) (leaf 3)) (leaf 4))
  | 5 => node 0 (node 1 (leaf 0) (leaf 1)) (node 2 (leaf 2) (node 3 (leaf 3) (leaf 4)))
  | 6 => node 0 (node 1 (leaf 0) (leaf 1)) (node 2 (node 3 (leaf 2) (leaf 3)) (leaf 4))
  | 7 => node 0 (node 1 (leaf 0) (node 2 (leaf 1) (leaf 2))) (node 3 (leaf 3) (leaf 4))
  | 8 => node 0 (node 1 (node 2 (leaf 0) (leaf 1)) (leaf 2)) (node 3 (leaf 3) (leaf 4))
  | 9 => node 0 (node 1 (leaf 0) (node 2 (leaf 1) (node 3 (leaf 2) (leaf 3)))) (leaf 4)
  | 10 => node 0 (node 1 (leaf 0) (node 2 (node 3 (leaf 1) (leaf 2)) (leaf 3))) (leaf 4)
  | 11 => node 0 (node 1 (node 2 (leaf 0) (leaf 1)) (node 3 (leaf 2) (leaf 3))) (leaf 4)
  | 12 => node 0 (node 1 (node 2 (leaf 0) (node 3 (leaf 1) (leaf 2))) (leaf 3)) (leaf 4)
  | 13 => node 0 (node 1 (node 2 (node 3 (leaf 0) (leaf 1)) (leaf 2)) (leaf 3)) (leaf 4)
  | _ => node 0 (leaf 0) (leaf 1)

/-- A BR test in a lane (R210). -/
def testVal (w : Wave) (g : Guard) (l : Lane) : Bool := w.readP g.pred l ^^ g.neg

/-- The leaf a tree reaches under four test results. -/
def BrTree.eval (t : Fin 4 → Bool) : BrTree → Fin 5
  | .leaf k => k
  | .node i f g => if t i then g.eval t else f.eval t

/-- The leaf each lane reaches (R210, R212). -/
def brLeaf (w : Wave) (f : CSlot) : Lanes (Fin 5) :=
  Lanes.of fun l => (shapeTree f.shape.toNat).eval fun i => testVal w (match i with | 0 => f.t0 | 1 => f.t1 | 2 => f.t2 | 3 => f.t3) l

/-- The leaves of a shape (R204). -/
def shapeLeaves (shape : Nat) : Nat := if shape = 14 then 2 else 5

/-! ### The v slot's ports -/

/-- Pops made by the specifiers of a v slot (R58). -/
def vPops (w : VWord) (n : VInfo) : Nat × Nat × Nat :=
  let wd : Option PortUse → Bool := fun u => match u with | some x => useBits x w.f.ty = 64 | none => false
  (popsOf w.f.a (wd n.a), popsOf w.f.b (wd n.b), popsOf w.f.c (wd n.c))

/-- A port is read at 64 bits. -/
def wideUse (u : Option PortUse) (t : Ty) : Bool := match u with | some x => useBits x t = 64 | none => false

/-- The values of `.a`, `.b` and `.t` after the issue-cycle transports, in one lane (R54, R58). -/
def vPorts (s : State) (w : VWord) (n : VInfo) (l : Lane) : DWord × DWord × DWord :=
  let u := s.iw.unit w.unit
  let (pa, pb, _) := vPops w n
  (readSrc s 0 w.f.a (wideUse n.a w.f.ty) s.issue.pops u.a[l] l,
   readSrc s 1 w.f.b (wideUse n.b w.f.ty) (s.issue.pops + pa) u.b[l] l,
   readSrc s 2 w.f.c (wideUse n.c w.f.ty) (s.issue.pops + pa + pb) u.t[l] l)

/-- Performs the transports of a v slot in its enabled lanes and counts its pops (R54, R58). -/
def transportV (w : VWord) (n : VInfo) (s : State) : State :=
  let en := enabled s w.f.guard w.f.path
  let new : Lanes (DWord × DWord × DWord) := Lanes.of fun l => vPorts s w n l
  let (pa, pb, pc) := vPops w n
  onIssue (fun i => { i with pops := i.pops + pa + pb + pc })
    (onIw (fun x => x.onUnit w.unit fun u =>
      { u with a := Lanes.blend en (Lanes.of fun l => new[l].1) u.a,
               b := Lanes.blend en (Lanes.of fun l => new[l].2.1) u.b,
               t := Lanes.blend en (Lanes.of fun l => new[l].2.2) u.t }) s)

/-! ### The m slot's operands -/

/-- The base register's value: the saved one on a re-issue after a lane fault (R295). -/
def baseVal (s : State) (f : MSlot) : DWord :=
  match s.is.base? with
  | some (n, x) => if n = f.base then x else s.iw.readA f.base
  | none => s.iw.readA f.base

/-- a is read at 64 bits (R293). -/
def aWide (n : MInfo) : Bool := n.a64 = some true

/-- The value of LSU.a after the transport, in one lane (R293). -/
def mPortA (s : State) (w : MWord) (n : MInfo) (l : Lane) : DWord :=
  if n.a64 = none then (s.iw.unit .lsu).a[l] else readSrc s 3 w.f.a (aWide n) s.issue.pops (s.iw.unit .lsu).a[l] l

/-- b is read at 64 bits (R294). -/
def bWide (n : MInfo) (z : Size) : Bool := n.b ≠ .none && !bQuad n z && bBits n z = 64

/-- The b operand in one lane: 32, 64 or 128 bits (R294). -/
def mOperandB (s : State) (w : MWord) (n : MInfo) (l : Lane) : QWord :=
  if n.b = .none then (((s.iw.unit .lsu).b[l]).zeroExtend 128)
  else if bQuad n w.f.size then
    match w.f.b with
    | .v r =>
      let q (i : Nat) : Word := readV s 4 (Fin.ofNat 256 (r.val + i)) l
      mk64 (q 2) (q 3) ++ mk64 (q 0) (q 1)
    | _ => 0
  else (readSrc s 4 w.f.b (bWide n w.f.size) (s.issue.pops + popsOf w.f.a (aWide n)) (s.iw.unit .lsu).b[l] l).zeroExtend 128

/-- The effective address of a lane (R293). -/
def effAddr (s : State) (w : MWord) (n : MInfo) (l : Lane) : DWord :=
  match n.space with
  | .l1 | .scratch => (lo32 (baseVal s w.f) + lo32 (mPortA s w n l)).zeroExtend 64
  | _ => baseVal s w.f + mPortA s w n l

/-- The transports of an m slot (R293, R294): LSU.b takes the low 64 bits of a 128-bit operand. -/
def transportM (w : MWord) (n : MInfo) (s : State) : State :=
  let en := enabled s w.f.guard w.f.path
  let a : Lanes DWord := Lanes.of fun l => mPortA s w n l
  let b : Lanes DWord := Lanes.of fun l => (mOperandB s w n l).setWidth 64
  let pops := popsOf w.f.a (aWide n) + (if n.b = .none then 0 else popsOf w.f.b (bWide n w.f.size))
  onIssue (fun i => { i with
      pops := i.pops + pops
      postinc := if w.f.postinc && s.is.base? = none
        then some (w.f.base, s.iw.readA w.f.base + BitVec.ofNat 64 (32 * (if n.b = .word && n.space = .hbm then 64 else sizeBytes w.f.size)))
        else i.postinc })
    (onIw (fun x => x.onUnit .lsu fun u => { u with a := Lanes.blend en a u.a, b := Lanes.blend en b u.b }) s)

/-! ### Registers that a bundle names -/

/-- V registers a source specifier reads (R70). -/
def srcVRegs (src : Src) (wide : Bool) : List Nat :=
  match src with
  | .v n => if wide then [n.val, n.val + 1] else [n.val]
  | _ => []

/-- V registers a deposit writes. -/
def depVRegs (d : Dep) (wide : Bool) : List Nat :=
  match d with
  | .v n => if wide then [n.val, n.val + 1] else [n.val]
  | _ => []

/-- V registers that an instruction's source specifiers name (R70). MXW's registers are not counted (R331). -/
def sourceRegs (i : Instr) : List Nat :=
  match vInfo i, mInfo i with
  | some (w, n), _ => srcVRegs w.f.a (wideUse n.a w.f.ty) ++ srcVRegs w.f.b (wideUse n.b w.f.ty) ++ srcVRegs w.f.c (wideUse n.c w.f.ty)
  | _, some (w, n) =>
    (if n.a64 = none then [] else srcVRegs w.f.a (aWide n))
      ++ (if bQuad n w.f.size then (match w.f.b with | .v r => [r.val, r.val + 1, r.val + 2, r.val + 3] | _ => [])
          else srcVRegs w.f.b (bWide n w.f.size))
  | _, _ => []

/-- V registers that an instruction's other fields name (R27). -/
def otherRegs (i : Instr) : List Nat :=
  match vInfo i, mInfo i, xInfo i with
  | some (w, n), _, _ => depVRegs w.f.dep (resBits w n = 64)
  | _, some (w, _), _ => match w.f.dep with
    | some d => (List.range (if sizeCode w.f.size ≤ 2 then 1 else sizeBytes w.f.size / 4)).map (d.val + ·)
    | none => []
  | _, _, some w => if w.op = 2 || w.op = 3 then [mxReg w.f, mxLast w.f] else []
  | _, _, _ => []

/-- Two different V registers of one bank (R70). -/
def bankClash (l : List Nat) : Bool := l.any fun a => l.any fun b => a % 4 = b % 4 && a ≠ b

/-- The source specifiers of an instruction with the widths they are read at, in the order of R58. -/
def sources (i : Instr) : List (Src × Bool) :=
  match vInfo i, mInfo i, cInfo i with
  | some (w, n), _, _ => [(w.f.a, wideUse n.a w.f.ty), (w.f.b, wideUse n.b w.f.ty), (w.f.c, wideUse n.c w.f.ty)]
  | _, some (w, n), _ => (if n.a64 = none then [] else [(w.f.a, aWide n)]) ++ (if n.b = .none then [] else [(w.f.b, bWide n w.f.size)])
  | _, _, some (f, n) => if n.src = .none then [] else [(f.src, false)]
  | _, _, _ => []

/-- Literal words that an instruction names (R199): through specifiers, the c slot's lit field and the x slot's incr (log entry 42, DEDUCED). -/
def litsUsed (i : Instr) : List Nat :=
  let fromSrc := (sources i).flatMap fun x => match x.1 with
    | .lit k => if x.2 then [k.val, k.val + 1] else [k.val]
    | _ => []
  let fromC : List Nat := match i with
    | .br f => if f.shape = 14 then [f.lit.toNat] else [f.lit.toNat, f.lit.toNat + 1]
    | .jmp f | .call f | .stint f | .mfcr f | .mtcr f | .slotLd f => [f.lit.toNat]
    | .seedOpPush f => [f.lit.toNat, f.lit.toNat + 3]
    | _ => []
  let fromX : List Nat := match i with
    | .mxl f | .mxc f => if f.incr = 7 then [] else if fmtMx f.fmt then [f.incr.toNat, f.incr.toNat + 1] else [f.incr.toNat]
    | _ => []
  fromSrc ++ fromC ++ fromX

end Sys2Proof.Machine
end

