-- ==== Sys2Proof/Machine/Fetch.lean ====
section
/-!
DEFINITION. Fetching a bundle's bits (R193-R196) and the decode checks that look at the wave and the whole bundle (R213).
-/

namespace Sys2Proof.Machine

open Sys2Proof

/-- What a split finds at its PC. -/
inductive Fetched
  | ok (b : Bundle) (next : Option Word)
  | bound
  | illegal
  | stall (page : Nat)
  | fault (code : TrapCode) (addr : DWord)
  deriving DecidableEq, Repr

/-- A position of the stream as a 32-bit PC; none past the end of the range (R194). -/
def seqPc (n : Nat) : Option Word := if n < 2 ^ 32 then some (BitVec.ofNat 32 n) else none

/-- The bits of consecutive units, the first at bit 0 (R193). -/
def unitsNat (l : List Half) : Nat := l.foldr (fun u acc => u.toNat + 65536 * acc) 0

/-- A literal bundle at the units after an escape (R193, R194). -/
def fetchLiteral (pc : Nat) (rest : List Half) : Fetched :=
  if rest.length < 4 then .bound
  else
    let (h, _, _) := headerFields (unitsNat (rest.take 4))
    if !litsOk h.slots h.lits.val then .illegal
    else
      let n := h.bits / 16
      if rest.length < n then .bound
      else match decodeBundle (unitsNat (rest.take n)) with
        | .ok b => .ok b (seqPc (pc + 1 + n))
        | .error _ => .illegal

/-- A dictionary page in the core's dictionary RAM (R195, R196). -/
def pageIn (c : Core) (h : Word) (page : Nat) : Option DictPage := c.dict.find? fun p => p.image = h && p.page = page

/-- The bytes of a dictionary page in the image: where they start, and how many (R195). -/
def dictVa (im : Image) (page : Nat) : DWord := im.va + BitVec.ofNat 64 (im.dictOff + 3072 * page)
def dictBytes (im : Image) (page : Nat) : Nat := 48 * min 64 (im.dict.length - 64 * page)

/-- The physical range of n bytes of one translation page that an overlay read takes, or its fault (R196, R440, R480). -/
def overlayPart (s : State) (c : CtxId) (va : DWord) (n : Nat) : Except (TrapCode × DWord) (Nat × Nat) :=
  match walk s c va with
  | .error e => .error e
  | .ok t =>
    if t.kind ≠ 0 || !t.permits (s.ctx c).level true false then .error (.access, va)
    else if s.badIn (t.addr va) n then .error (.eccUncorr, va)
    else .ok (t.addr va, n)

/-- The physical ranges of an overlay read, translated at its miss: a dictionary page lies in one or two translation pages
(R196, R444; log entry 28, DEDUCED). -/
def overlayRanges (s : State) (im : Image) (page : Nat) : Except (TrapCode × DWord) (List (Nat × Nat)) :=
  let va := dictVa im page
  let n := dictBytes im page
  let here := min n (65536 - va.toNat % 65536)
  match overlayPart s im.ctx va here with
  | .error e => .error e
  | .ok a =>
    if here = n then .ok [a]
    else match overlayPart s im.ctx (va + BitVec.ofNat 64 here) (n - here) with
      | .error e => .error e
      | .ok b => .ok [a, b]

/-- An overlay read of a page is in progress on a core. -/
def overlayRuns (c : Core) (h : Word) (page : Nat) : Bool := c.overlays.any fun o => o.image = h && o.page = page

/-- The unit at a position, and what follows it. -/
def fetchUnit (s : State) (k : CoreId) (im : Image) (pc : Nat) : Fetched :=
  match im.stream.drop pc with
  | [] => .bound
  | u :: rest =>
    if im.inside.contains pc then .bound
    else if u = 0xFFFF then fetchLiteral pc rest
    else if im.dict.length ≤ u.toNat then .illegal
    else match pageIn (s.core k) im.handle (u.toNat / 64) with
      | none =>
        if overlayRuns (s.core k) im.handle (u.toNat / 64) then .stall (u.toNat / 64)
        else (match overlayRanges s im (u.toNat / 64) with
          | .error (c, a) => .fault c a
          | .ok _ => .stall (u.toNat / 64))
      | some p =>
        if p.bad then .fault .eccUncorr (dictVa im (u.toNat / 64))
        else (match decodeBundle (p.entries.getD (u.toNat % 64) 0) with
        | .ok b => .ok b (seqPc (pc + 1))
        | .error _ => .illegal)

/-- What a split of a wave fetches (R193-R196, R221). -/
def fetch (s : State) (k : CoreId) (w : Wave) (x : Split) : Fetched :=
  if x.lost then .bound
  else match s.image? w.ctx w.image with
    | none => .bound
    | some im =>
      match w.stint with
      | some st => if st.lo ≤ x.pc.toNat && x.pc.toNat < st.hi then fetchUnit s k im x.pc.toNat else .bound
      | none => fetchUnit s k im x.pc.toNat

/-! ### Decode checks against the wave and the bundle -/

/-- The path tag of an instruction. -/
def pathUsed (i : Instr) : Option Path :=
  match vInfo i, mInfo i with
  | some (w, _), _ => some w.f.path
  | _, some (w, _) => some w.f.path
  | _, _ => none

/-- The instruction is a member-mask collective (R275). -/
def isCollective (i : Instr) : Bool :=
  match vInfo i with
  | some (w, _) => w.unit = .xl && w.op ≠ 0
  | none => false

/-- c slots that a stint may not hold (R39, R221). -/
def barredInStint : Instr → Bool
  | .bar _ | .yield _ | .join _ | .launch _ | .stint _ | .tokenPass _ | .step _ | .wait _ | .convHold _ => true
  | _ => false

/-- c slots that a tile-barrier bundle may not hold (R222). -/
def barredWithSync : Instr → Bool
  | .bar _ | .step _ | .join _ | .stint _ | .tokenPass _ => true
  | _ => false

/-- The signed halves of a literal word. -/
def half0 (w : Word) : Int := (w.setWidth 16).toInt
def half1 (w : Word) : Int := (BitVec.ofNat 16 (w.toNat / 65536)).toInt

/-- MXL's increments and displacements: incA, incB, dispA, dispB (R326). -/
def mxlParams (s : State) (f : XSlot) : Int × Int × Int × Int :=
  if f.incr = 7 then (64, 64, 0, 0)
  else
    let a := litWord s f.incr.toNat
    let b := if fmtMx f.fmt then litWord s (f.incr.toNat + 1) else 0
    (half0 a, half1 a, half0 b, half1 b)

/-- MXC's parameter word: inc, exp, mode, sat, col, and the displacement of an MX format, read as signed like MXL's (R333;
log entry 118, DEDUCED). -/
structure MxcParams where
  inc : Int
  exp : Int
  mode : Rnd
  sat : Bool
  col : Bool
  disp : Int
  deriving DecidableEq, Repr

def mxcParams (s : State) (f : XSlot) : MxcParams :=
  if f.incr = 7 then ⟨64, 0, .rne, false, false, 0⟩
  else
    let a := litWord s f.incr.toNat
    let b := if fmtMx f.fmt then litWord s (f.incr.toNat + 1) else 0
    ⟨half0 a, (BitVec.ofNat 8 (a.toNat / 65536)).toInt, rndOf (a.toNat / 2 ^ 24 % 4), a.getLsbD 26, a.getLsbD 27, half0 b⟩

/-- The parameter words of an x slot are legal (R326, R333). -/
def xWordsOk (s : State) : Instr → Bool
  | .mxl f =>
    let (a, b, c, d) := mxlParams s f
    a % 16 = 0 && b % 16 = 0 && c % 16 = 0 && d % 16 = 0
  | .mxc f =>
    let p := mxcParams s f
    p.inc % 16 = 0 && (f.incr = 7 ||
      ((litWord s f.incr.toNat).toNat / 2 ^ 28 = 0
        && (!(7 ≤ fmtCode f.fmt) || !p.sat)
        && (f.fmt ≠ .bin || (p.mode = .rne && p.exp = 0))
        && (!fmtMx f.fmt || (litWord s (f.incr.toNat + 1)).toNat < 65536)))
  | _ => true

/-- STINT's condition words: the literal words from k on, at most four (R234). -/
def stintConds (s : State) (k : Nat) : List Word := ((s.issue.lits.drop k).take 4)

/-- A stint condition: semaphore and threshold, when its word is enabled (R234). -/
def stintCond (w : Word) : Option (Byte × Nat) :=
  if w.getLsbD 31 then some (w.setWidth 8, w.toNat / 256 % 2 ^ 23) else none

/-- c-slot checks at decode that look at the image or the literals (R234, R372). -/
def cWordsOk (s : State) (w : Wave) : Instr → Bool
  | .stint f =>
    (match s.image? w.ctx w.image with
      | some im => f.imm.toNat < im.stints.length
      | none => false)
      && ((stintConds s f.lit.toNat).filterMap stintCond).all fun c => c.1.toNat < 248 || 252 < c.1.toNat
  | .slotLd f => (litWord s f.lit.toNat).toNat < 65536
  | _ => true

/-- One slot passes decode in this wave and bundle (R27, R39, R57, R199, R201, R204, R213). -/
def encOkSlot (s : State) (i : Instr) : Bool :=
  let w := s.iw
  legal i
    && (sourceRegs i ++ otherRegs i).all (· < w.nregs)
    && (litsUsed i).all (· < s.issue.lits.length)
    && ((sources i).all fun x => match x.1 with
        | .peek _ | .pop => w.kind = .compute && w.partner.isSome
        | _ => true)
    && (match pathUsed i with
        | some (.leaf k) => k.val < s.issue.leaves
        | _ => true)
    && (w.kind ≠ .stint || !(isCollective i || barredInStint i))
    && (match i with | .ldQ _ => w.kind = .shadow | _ => true)
    && (!s.issue.hdr.sync || !barredWithSync i)
    && xWordsOk s i && cWordsOk s w i

/-- The header passes decode in this wave (R39, R45). -/
def encOkHeader (s : State) : Bool :=
  let h := s.issue.hdr
  let m := (s.issue.lits.getLast?).getD 0
  (s.iw.kind ≠ .stint || (!h.waitEn && !h.sync))
    && (!h.sync || (s.issue.lits ≠ [] && m.toNat < 65536 && m.getLsbD (coreInTile s.issue.core)))

/-- The leaves that the BR of a bundle can reach (R204). -/
def bundleLeaves (b : Bundle) : Nat :=
  match b.c with
  | some (.br f) => shapeLeaves f.shape.toNat
  | _ => 1

/-- The leaf of each lane under a bundle (R212). -/
def bundleLeaf (w : Wave) (b : Bundle) : Lanes (Fin 5) :=
  match b.c with
  | some (.br f) => brLeaf w f
  | _ => Lanes.all 0

/-- The issue context of a split at a bundle. -/
def issueAt (k : CoreId) (w : SlotId) (r : RecId) (wave : Wave) (b : Bundle) (next : Option Word) : Issue :=
  { Issue.reset with
    core := k, slot := w, split := r, hdr := b.hdr, lits := b.lits, pc := wave.splits[r].pc, next := next,
    leaf := bundleLeaf wave b, leaves := bundleLeaves b }

end Sys2Proof.Machine
end

