-- ==== Sys2Proof/Machine/Checks.lean ====
section
/-!
DEFINITION. What the v and m slots test before they issue: chain records (R96), collectives (R276), repeat intervals
(R62), scratchpad banks (R117), translations and lane faults (R298), queue holds (R75), token holds (R48).
-/

namespace Sys2Proof.Machine

open Sys2Proof

/-- What a slot or a bundle may do in this cycle. -/
inductive Verdict
  | go
  | hold (k : HoldKind)
  | busy
  | trap (code : TrapCode) (addr : DWord)
  | faults (l : List (Lane × TrapCode × DWord))
  deriving DecidableEq, Repr

/-- The first verdict that is not `go`. -/
def firstOf : List Verdict → Verdict
  | [] => .go
  | .go :: l => firstOf l
  | v :: _ => v

/-- A trap when a test holds. -/
def trapIf (b : Bool) (code : TrapCode) : Verdict := if b then .trap code 0 else .go
def holdIf (b : Bool) (k : HoldKind) : Verdict := if b then .hold k else .go

/-! ### The v slot -/

/-- The chain-state checks of R96, over every lane of the split. -/
def chainVerdict (s : State) (w : VWord) : Verdict :=
  let x := s.iw
  let m := s.is.mask
  let open_ := x.chainOpen &&& m
  if w.unit ≠ .fma || w.op = 0 then .go
  else match w.f.chain with
    | .none => trapIf (open_ ≠ 0) .encIllegal
    | .opn => trapIf (open_ ≠ 0) .encIllegal
    | _ => trapIf (open_ ≠ m || (lanesOf m).any fun l => x.chainTy[l] ≠ w.f.ty) .encIllegal

/-- The member mask of an XL slot, one value for the split: an A register, a literal or a small immediate (R275). -/
def memberMask (s : State) (w : VWord) : Mask := lo32 (readSrc s 2 w.f.c false s.issue.pops 0 (lowLane s.is.mask))

/-- The lanes of a wave in runnable resident splits at a PC. -/
def lanesAt (w : Wave) (pc : Word) : Mask :=
  (w.liveSplits.filter fun x => x.2.state = .runnable && x.2.pc = pc).foldl (fun m x => m ||| x.2.mask) 0

/-- A resident split is held before issue at a bundle other than the one at a PC: at a collective, BAR, STEP or a tile
barrier, and for a member-mask collective also at JOIN, STINT or TOKEN.PASS (R163, R276). -/
def heldElsewhere (s : State) (k : CoreId) (w : Wave) (pc : Word) (step : Bool) (x : Split) : Bool :=
  x.state = .runnable && x.pc ≠ pc && x.after = .none &&
  match x.hold with
  | some .collective => true
  | some .join | some .stint => !step
  | some .token => !step && match fetch s k w x with
    | .ok b _ => (match b.c with | some (.tokenPass _) => true | _ => false)
    | _ => false
  | _ => false

/-- The hold of a bundle that waits for a set of lanes to reach its PC: STEP's, or a member-mask collective's (R163, R276). -/
def gatherVerdict (s : State) (named : Mask) (step : Bool) : Verdict :=
  let w := s.iw
  if named &&& w.exited ≠ 0 then .trap .collExited 0
  else
    let missing := named &&& ~~~lanesAt w s.issue.pc
    if missing = 0 then .go
    else
      let others := w.liveSplits.filter fun x => x.2.mask &&& missing ≠ 0
      let seen := others.foldl (fun m x => m ||| x.2.mask) 0
      if missing &&& ~~~seen = 0 && others.all (fun x => heldElsewhere s s.issue.core w s.issue.pc step x.2)
      then .trap .collMismatch 0 else .hold .collective

/-- The collective hold of an XL slot (R276). -/
def collectiveVerdict (s : State) (w : VWord) : Verdict :=
  if w.unit = .xl && w.op ≠ 0 then gatherVerdict s (memberMask s w) false else .go

/-- A trigger inside a unit's repeat interval (R62). No other wave's can make a stint late (R405, R407; log entry 123,
DEDUCED). -/
def repeatBusy (s : State) (w : VWord) : Bool :=
  let c := s.core s.issue.core
  if w.op = 0 || s.iw.kind = .stint then false
  else match w.unit with
    | .fma => s.cycle < c.fmaBusy
    | .xf => s.cycle < c.xfBusy
    | .str => s.cycle < c.strBusy
    | _ => false

/-! ### Queue holds -/

/-- Slots of the window, counted from the head, that a list of specifiers reads after some pops (R58, R75). -/
def queueSlots (pops : Nat) : List (Src × Bool) → List Nat
  | [] => []
  | x :: l => (queueReads x.1 x.2).map (pops + ·) ++ queueSlots (pops + popsOf x.1 x.2) l

/-- Every slot a list of specifiers reads, after the pops so far, has been filled (R35, R75). -/
def queueReady (w : Wave) (pops : Nat) (l : List (Src × Bool)) : Bool :=
  (queueSlots pops l).all fun i => i < w.window.count && (w.window.slots[Fin.ofNat 16 (w.window.head.val + i)]).full

/-- The window a shadow's queue loads fill: its compute partner's (R35). -/
def partnerWindow (s : State) : QWindow :=
  match s.iw.partner with
  | some p => (s.wave s.issue.core p).window
  | none => QWindow.empty

/-! ### Translation of an m slot -/

/-- The translation of an address that the core's TLB holds (R443). -/
def tlbFind (c : Core) (ctx : CtxId) (va : DWord) : Option Tlb := c.tlb.find? fun t => t.covers ctx va

/-- The access being tested, as a walk names who asked for it. -/
def State.asker (s : State) : Nat × RecId × Word := (s.iw.uid, s.issue.split, s.issue.pc)

/-- The failure of a walk for an address's 64 KiB page that an access asked for; another access asks anew (R298, R442). -/
def walkFailed (c : Core) (who : Nat × RecId × Word) (ctx : CtxId) (va : DWord) : Option (TrapCode × DWord) :=
  (c.walks.find? fun w => w.ctx = ctx && w.va.toNat / 65536 = va.toNat / 65536 && w.failed.isSome && w.askers.contains who).bind (·.failed)

/-- What is known of an address's translation: nothing yet, a fault, or a page. -/
inductive Known
  | no
  | bad (code : TrapCode) (addr : DWord)
  | page (t : Tlb)
  deriving DecidableEq, Repr

/-- An address that can have no translation is known at once; else the TLB or a finished walk says (R112, R437). -/
def translated (s : State) (k : CoreId) (ctx : CtxId) (va : DWord) : Known :=
  let c := s.core k
  if bits va 57 7 ≠ 0 || !bit (s.ctx ctx).ptroot 0 then .bad .xlate va
  else match tlbFind c ctx va with
    | some t => .page t
    | none => match walkFailed c s.asker ctx va with
      | some (e, a) => .bad e a
      | none => .no

/-- The pages of a ZFILL range, one address in each 64 KiB. -/
def rangePages (va : DWord) (len : Nat) : List DWord :=
  if len = 0 then [] else (List.range ((va.toNat % 65536 + len - 1) / 65536 + 1)).map fun i => BitVec.ofNat 64 (va.toNat / 65536 * 65536 + 65536 * i)

/-- Virtual addresses whose translation a lane of an m slot needs (R298, R313, R314). -/
def laneVas (s : State) (w : MWord) (n : MInfo) (l : Lane) : List DWord :=
  let ea := effAddr s w n l
  match n.space with
  | .hbm => if w.op = 52 then [] else if w.op = 51 then rangePages ea (lo32 ((mOperandB s w n l).setWidth 64)).toNat else [ea]
  | .yard | .window | .queue => [ea]
  | _ => []

/-- Some lane's translation is not known (R298); the hold applies whatever the enables (R296). -/
def missingVa (s : State) (w : MWord) (n : MInfo) : Option DWord :=
  (lanesOf s.is.mask).findSome? fun l =>
    (laneVas s w n l).find? fun va => translated s s.issue.core s.iw.ctx va = .no

/-! ### Lane faults of an m slot -/

/-- Page kinds an instruction reaches (R112, R301). -/
def kindOk (n : MInfo) (kind : Nat) : Bool :=
  match n.space with
  | .hbm => kind = 0
  | .yard => kind = 1
  | .window => kind = 2
  | .queue => kind ≠ 2
  | _ => true

/-- The instruction writes memory (R129). -/
def mWrites (op : Nat) : Bool := [2, 4, 6, 15, 17, 19].contains op || 32 ≤ op && op ≤ 51

/-- SUMCELL rules (R126, R302, R308-R312). -/
def cellOk (w : MWord) (t : Tlb) : Bool :=
  if w.op = 48 then t.sumcell
  else !t.sumcell || ([3, 4, 16, 17].contains w.op && w.f.size = .b4)

/-- The window rules of a lane (R164, R450). -/
def windowOk (s : State) (c : CtxId) (w : MWord) (t : Tlb) : Bool :=
  match (s.ctx c).windows[t.win] with
  | none => false
  | some d => t.pa + t.size ≤ d.length && (!mWrites w.op || (d.elem ≤ sizeBytes w.f.size && (s.ctx c).domain.isSome))

/-- ACCESS of a lane at its page (R112, R129). -/
def pageFault (s : State) (w : MWord) (n : MInfo) (t : Tlb) : Bool :=
  let c := s.iw.ctx
  !kindOk n t.kind || !t.permits (s.ctx c).level (!mWrites w.op) (mWrites w.op)
    || (n.space ≠ .hbm && !cellOk w t) || (t.kind = 2 && !windowOk s c w t)

/-- A lane's alignment fault (R114, R307, R313). -/
def alignFault (s : State) (w : MWord) (n : MInfo) (l : Lane) : Bool :=
  let ea := (effAddr s w n l).toNat
  let b := (lo32 ((mOperandB s w n l).setWidth 64)).toNat
  if w.op = 8 then ea % 64 ≠ 0 || b % 64 ≠ 0
  else if w.op = 51 then ea % 128 ≠ 0 || b % 128 ≠ 0
  else ea % sizeBytes w.f.size ≠ 0

/-- The first of XLATE, ECC_UNCORR of the walk and ACCESS over the addresses of a lane (R298, R480). -/
def vaFault (s : State) (w : MWord) (n : MInfo) (vas : List DWord) : Option (TrapCode × DWord) :=
  let known := vas.map fun va => (va, translated s s.issue.core s.iw.ctx va)
  match known.findSome? fun x => match x.2 with | .bad e a => some (e, a) | _ => none with
  | some e => some e
  | none => known.findSome? fun x => match x.2 with
    | .page t => if pageFault s w n t then some (.access, x.1) else none
    | _ => none

/-- The fault of an enabled lane: the first of ALIGN, XLATE, ACCESS (R298). -/
def laneFault (s : State) (w : MWord) (n : MInfo) (l : Lane) : Option (TrapCode × DWord) :=
  let ea := effAddr s w n l
  match n.space with
  | .none => none
  | .l1 => if alignFault s w n l then some (.align, ea) else if 65536 ≤ ea.toNat then some (.access, ea) else none
  | .scratch => if alignFault s w n l then some (.align, ea) else if 524288 ≤ ea.toNat then some (.access, ea) else none
  | _ =>
    if w.op = 52 then none
    else if alignFault s w n l then some (.align, ea)
    else match vaFault s w n (laneVas s w n l) with
      | some e => some e
      | none => if w.op = 8 && 65472 < (lo32 ((mOperandB s w n l).setWidth 64)).toNat then some (.access, ea) else none

/-- The faulting lanes of an m slot (R298). -/
def mFaults (s : State) (w : MWord) (n : MInfo) : List (Lane × TrapCode × DWord) :=
  (lanesOf (enabled s w.f.guard w.f.path)).filterMap fun l => (laneFault s w n l).map fun e => (l, e.1, e.2)

/-! ### Scratchpad banks (R115, R117) -/

/-- Bank group, bank and bank word of a scratchpad offset (R115). -/
def spBank (off : Nat) : Nat × Nat × Nat := (off / 262144, off % 262144 / 8 % 32, off % 262144 / 256)

/-- Two lanes of a `.lin` access address different words of one bank, whatever the guards (R117). -/
def bankSpFault (s : State) (w : MWord) (n : MInfo) : Bool :=
  let offs := (allLanes.map fun l => (effAddr s w n l).toNat).filter (· < 524288)
  let places := (offs.map spBank).dedup
  places.any fun a => places.any fun b => a.1 = b.1 && a.2.1 = b.2.1 && a.2.2 ≠ b.2.2

/-! ### Token holds (R48) -/

/-- A lane's access is token-gated: an FP64 Yard add, or a store, atomic or ZFILL to a SHARED_DET page, but no exact sum
(R48, R130, R302, R310). -/
def laneGated (s : State) (w : MWord) (n : MInfo) (l : Lane) : Bool :=
  w.op = 49 || (mWrites w.op && w.op ≠ 48 && (laneVas s w n l).any fun va =>
    match translated s s.issue.core s.iw.ctx va with
    | .page t => t.det
    | _ => false)

/-- The m slot performs a token-gated access under D1 or D2 in some of these lanes (R47, R48). -/
def tokenGated (s : State) (w : MWord) (n : MInfo) (m : Mask) : Bool :=
  s.iw.det ≠ 0 && (w.op = 49 || (lanesOf m).any fun l => laneGated s w n l)

/-- The wave's group holds the commit token (R48). -/
def holdsToken (s : State) (w : Wave) : Bool :=
  match s.group? w.group with
  | some g => (match s.grid? g.grid with | some d => d.token = g.no | none => false)
  | none => false

/-! ### The m slot's verdicts -/

/-- Slots of the window that a queue load takes (R308). -/
def qSlotsOf (f : MSlot) : Nat := if f.size = .b8 then 2 else 1

/-- Holds of an m slot before issue (R48, R75, R298, R302, R308); they apply whatever the enables (R296). -/
def mHolds (s : State) (w : MWord) (n : MInfo) : Verdict :=
  firstOf [
    holdIf (!queueReady s.iw s.issue.pops (sources' w n)) .queue,
    holdIf (w.op = 13 && s.is.slot? = none && 16 < (partnerWindow s).count + qSlotsOf w.f) .queue,
    holdIf (n.space = .window && !mWrites w.op && s.iw.ahead) .window,
    holdIf ((missingVa s w n).isSome) .translation,
    holdIf (tokenGated s w n s.is.mask && !holdsToken s s.iw) .token]
where
  sources' (w : MWord) (n : MInfo) : List (Src × Bool) :=
    (if n.a64 = none then [] else [(w.f.a, aWide n)]) ++ (if n.b = .none then [] else [(w.f.b, bWide n w.f.size)])

/-- Memory requests outstanding on a core: the lanes of its queued accesses that have not performed (R13; log entry 119,
DEDUCED). -/
def outstanding (c : Core) : Nat := (c.ops.map fun o => (lanesOf o.left).length).sum

/-- The core has no room for the requests of an m slot (R13). -/
def requestsFull (s : State) (w : MWord) : Bool :=
  4096 < outstanding (s.core s.issue.core) + (lanesOf (enabled s w.f.guard w.f.path)).length

/-- The m slot names a completion semaphore (R297, R316). -/
def mNamesSem (w : MWord) (n : MInfo) : Bool :=
  match n.sem with
  | .null => false
  | .completes => true
  | .bySize => w.f.size = .b2

/-- The lane faults of an m slot as a verdict. -/
def mFaultVerdict (s : State) (w : MWord) (n : MInfo) : Verdict :=
  match mFaults s w n with
  | [] => .go
  | l => .faults l

end Sys2Proof.Machine
end

