-- ==== Sys2Proof/Machine/Image.lean ====
section
/-!
DEFINITION. The Obman image as the dispatcher reads it at placement (R185-R192, R215): header, sections, records, and
every refusal the spec names. An image that is refused has no group placed (R397).
-/

namespace Sys2Proof.Machine

open Sys2Proof

/-! ### Reading bytes of an image -/

/-- n bytes of an image at an offset. -/
def imgBytes (s : State) (c : CtxId) (va : DWord) (off n : Nat) : Option (List Byte) :=
  match engineRead s c (va + BitVec.ofNat 64 off) n with
  | .ok l => some l
  | .error _ => none

/-- A little-endian field of a byte string (R3). -/
def fieldAt (l : List Byte) (off n : Nat) : Nat := leNat ((l.drop off).take n)

/-- Records of a size, in order. -/
def records (l : List Byte) (size count : Nat) : List (List Byte) :=
  (List.range count).map fun i => (l.drop (size * i)).take size

/-- A section: type, count, offset, length (R188). -/
structure Section where
  kind : Nat
  count : Nat
  off : Nat
  len : Nat
  deriving DecidableEq, Repr

def parseSection (l : List Byte) : Section := ⟨fieldAt l 0 2, fieldAt l 4 4, fieldAt l 8 4, fieldAt l 12 4⟩

/-- Record size of a section type (R188); a circuit plan's is counted by itself. -/
def sectionSize : Nat → Nat
  | 1 => 48 | 2 => 2 | 3 => 16 | 4 => 24 | 6 => 8 | 7 => 32 | 8 => 8 | _ => 0

/-- The greatest count of a section type, and the least (R188). -/
def sectionCountOk (x : Section) : Bool :=
  match x.kind with
  | 1 => 1 ≤ x.count && x.count ≤ 65535
  | 2 => 1 ≤ x.count && x.count ≤ 2 ^ 32 - 1
  | 3 | 7 => 1 ≤ x.count && x.count ≤ 256
  | _ => true

/-- Two byte ranges share a byte. -/
def spansMeet (a n b m : Nat) : Bool := a < b + m && b < a + n && 0 < n && 0 < m

/-- The section table is legal: types, numbers, alignment, no overlap (R188). -/
def sectionsOk (raw : List (List Byte)) (l : List Section) : Bool :=
  let header := 0x40 + 16 * l.length
  raw.all (fun r => fieldAt r 2 2 = 0)
    && l.all (fun x => 1 ≤ x.kind && x.kind ≤ 8 && x.off % 8 = 0 && x.len % 8 = 0 && sectionCountOk x
        && sectionSize x.kind * x.count ≤ x.len && !spansMeet 0 header x.off x.len)
    && [1, 2, 3].all (fun k => (l.filter fun x => x.kind = k).length = 1)
    && [4, 5, 6, 7, 8].all (fun k => (l.filter fun x => x.kind = k).length ≤ 1)
    && (List.range l.length).all fun i => (List.range i).all fun j =>
      match l[i]?, l[j]? with
      | some x, some y => !spansMeet x.off x.len y.off y.len
      | _, _ => true

/-! ### Records (R189-R192) -/

def regsOk (n : Nat) : Bool := 16 ≤ n && n ≤ 256 && n % 16 = 0

/-- The positions inside literal bundles (R194): after an escape, the units its header counts. -/
def literalPositions : List Half → Nat → Nat → List Nat
  | [], _, _ => []
  | _ :: rest, p, skip + 1 => p :: literalPositions rest (p + 1) skip
  | u :: rest, p, 0 =>
    let h := (headerFields (unitsOf (rest.take 4))).1
    literalPositions rest (p + 1) (if u = 0xFFFF && rest ≠ [] && litsOk h.slots h.lits.val then h.bits / 16 else 0)
where
  unitsOf (l : List Half) : Nat := l.foldr (fun u acc => u.toNat + 65536 * acc) 0

def parseEntry (l : List Byte) : Entry :=
  ⟨fieldAt l 0 4, fieldAt l 4 2, if fieldAt l 6 2 = 0xFFFF then none else some (fieldAt l 6 2)⟩

def entryOk (shadows : Nat) (l : List Byte) : Bool :=
  regsOk (fieldAt l 4 2) && fieldAt l 8 8 = 0 && (fieldAt l 6 2 = 0xFFFF || fieldAt l 6 2 < shadows)

def shadowOk (l : List Byte) : Bool := regsOk (fieldAt l 4 2) && fieldAt l 6 2 = 0

/-- A stint's signal words (R189): those that are enabled, in table order. -/
def stintSignals (l : List Byte) : List (Byte × BitVec 8) :=
  (List.range 4).filterMap fun i =>
    let w := fieldAt l (12 + 4 * i) 4
    if w.testBit 16 then some (BitVec.ofNat 8 w, BitVec.ofNat 8 (w / 256)) else none

def parseStint (l : List Byte) : Stint := ⟨fieldAt l 0 4, fieldAt l 4 2, fieldAt l 6 2, fieldAt l 8 4, stintSignals l⟩

def stintOk (l : List Byte) : Bool :=
  1 ≤ fieldAt l 4 2 && regsOk (fieldAt l 6 2) && 1 ≤ fieldAt l 8 4 && fieldAt l 28 4 = 0
    && (List.range 4).all (fun i => fieldAt l (12 + 4 * i) 4 < 2 ^ 17)
    && (stintSignals l).all fun g => g.1.toNat < 248

/-- A claim of a scratchpad-plan record (R190), before a group makes it. -/
def parseClaim (l : List Byte) : Claim := ⟨0, 0, fieldAt l 0 1, fieldAt l 1 1, fieldAt l 2 1, fieldAt l 3 1, fieldAt l 4 4, fieldAt l 8 4⟩

/-- A scratchpad record claims a bank word of the class-0 offsets 0x7_C000-0x7_FFFF (R190, R399). -/
def claimsReserved (c : Claim) : Bool :=
  c.kind = 0 && c.bankGroup = 1 && (List.range 2048).any fun i =>
    let a := 0x7C000 + 8 * i
    spansMeet c.off c.len a 8 && c.firstBank ≤ (spBank a).2.1 && (spBank a).2.1 < c.firstBank + c.bankCount

def claimOk (class0 : Bool) (l : List Byte) : Bool :=
  let c := parseClaim l
  c.kind ≤ 2 && c.bankGroup ≤ 1 && fieldAt l 20 4 = 0
    && (c.kind = 0 || (c.bankGroup = 0 && c.firstBank = 0 && c.bankCount = 0))
    && (class0 || !claimsReserved c)

def parseWindowReq (l : List Byte) : Nat × Nat × Nat × Bool := (fieldAt l 0 2, fieldAt l 2 1, fieldAt l 3 1, fieldAt l 4 1 = 1)

/-! ### Slot-table words and the circuit plan (R176-R178, R191, R378) -/

/-- A slot-table entry word is well formed (R378). -/
def slotWordOk (w : DWord) : Bool :=
  let out (o : Nat) : Option Nat := if bit w (4 * o + 3) then some (bits w (4 * o) 3) else none
  let l := (List.range 6).filterMap out
  bits w 32 32 = 0 && l.all (· < 6) && l.dedup.length = l.length
    && (List.range 6).all fun o => out o ≠ some o

/-- The slots reserved for class 0 (R176). -/
def slotReserved (n : Nat) : Bool := n % 64 = 0

def parseCircuit (l : List Byte) : Circuit := ⟨fieldAt l 0 1, fieldAt l 4 4, fieldAt l 8 4, fieldAt l 12 2, fieldAt l 16 32⟩

/-- A circuit record is legal: its number, its delay (R178), its groups, and its phases by class (R176). -/
def circuitOk (class0 : Bool) (groups : Nat) (l : List Byte) : Bool :=
  let c := parseCircuit l
  c.k < 64 && fieldAt l 3 1 = 0 && fieldAt l 14 2 = 0 && c.delay = 8 + 2 * fieldAt l 1 1 + 32 * fieldAt l 2 1
    && c.src < groups && c.dst < groups
    && (!class0 || (List.range 256).all fun i => !c.phases.testBit i || slotReserved i)

def parseRoute (l : List Byte) : Route := ⟨fieldAt l 0 1, fieldAt l 1 1, fieldAt l 2 1, BitVec.ofNat 64 (fieldAt l 8 8)⟩

/-- A route entry is legal (R176, R191, R378). -/
def routeOk (class0 : Bool) (l : List Byte) : Bool :=
  let r := parseRoute l
  r.die < 8 && r.tile < 32 && fieldAt l 3 5 = 0 && slotWordOk r.word && (class0 || !slotReserved r.slot)

def parsePlace (l : List Byte) : CoreId := mkCore (fieldAt l 0 4 / 512 % 8) (fieldAt l 0 4 / 16 % 32) (fieldAt l 0 4 % 16)

/-- What a slot-table entry connects an input port to: an output port (R378). -/
def slotOutput (w : DWord) (input : Nat) : Option Nat :=
  (List.range 6).find? fun o => bit w (4 * o + 3) && bits w (4 * o) 3 = input

/-- The cores that a slot-table entry's local ports serve: input 0's and output 0's (R378). -/
def slotSrc (w : DWord) : Nat := bits w 28 4
def slotDst (w : DWord) : Nat := bits w 24 4

/-- Core cycles that a flit takes from a router to the next: a hop within the die, or a crossing through the hub (R178). -/
def hopCycles (output : Nat) : Nat := if output = 5 then 32 else 2

/-- Where a flit ends that enters a router by an input port in a slot, under given slot-table words: the core, with the
hops and crossings on the way; none when no entry carries it on (R176, R178). -/
def traceFlit (word : Nat → Nat → Option DWord) : Nat → Nat → Nat → Nat → Nat × Nat → Option (CoreId × Nat × Nat)
  | 0, _, _, _, _ => none
  | fuel + 1, tile, input, slot, (h, x) =>
    (word tile slot).bind fun w => (slotOutput w input).bind fun o =>
      if o = 0 then some (Fin.ofNat 4096 (16 * tile + slotDst w), h, x)
      else (Config.routerLink tile o slot).bind fun n =>
        traceFlit word fuel n.1 n.2 ((slot + hopCycles o) % 256) (if o = 5 then (h, x + 1) else (h + 1, x))

/-- A circuit's flits reach its destination over the plan's route entries in each of its phases, with the hops and the
crossings that its record states (R178, R191). -/
def circuitCarried (cores : List CoreId) (routes : List Route) (h x : Nat) (c : Circuit) : Bool :=
  let word (tile slot : Nat) : Option DWord := (routes.find? fun r => 32 * r.die + r.tile = tile && r.slot = slot).map (·.word)
  match cores[c.src]?, cores[c.dst]? with
  | some a, some b => (List.range 256).all fun i => !c.phases.testBit i
      || ((word (a.val / 16) i).map slotSrc = some (a.val % 16) && traceFlit word (h + x + 1) (a.val / 16) 0 i (0, 0) = some (b, h, x))
  | _, _ => false

/-- A circuit plan; none when it is refused. -/
def parsePlan (class0 : Bool) (l : List Byte) : Option (List CoreId × List Circuit × List Route) :=
  let p := fieldAt l 0 4
  let c := fieldAt l 4 4
  let e := fieldAt l 8 4
  let ps := records (l.drop 12) 4 p
  let cs := records (l.drop (12 + 4 * p)) 48 c
  let es := records (l.drop (12 + 4 * p + 48 * c)) 16 e
  if 12 + 4 * p + 48 * c + 16 * e ≤ l.length && ps.all (fun r => fieldAt r 0 4 < 2 ^ 12) && cs.all (circuitOk class0 p)
      && es.all (routeOk class0) && (cs.map fun r => fieldAt r 0 1).dedup.length = c
      && cs.all fun r => circuitCarried (ps.map parsePlace) (es.map parseRoute) (fieldAt r 1 1) (fieldAt r 2 1) (parseCircuit r)
  then some (ps.map parsePlace, cs.map parseCircuit, es.map parseRoute) else none

/-! ### Stint blocks (R39) -/

/-- The bundle at a position of a stream, and the next position. -/
def bundleAt (dict : List Nat) (stream : List Half) (p : Nat) : Option (Bundle × Nat) :=
  match stream.drop p with
  | [] => none
  | u :: rest =>
    if u = 0xFFFF then
      let h := (headerFields (literalPositions.unitsOf (rest.take 4))).1
      let n := h.bits / 16
      if !litsOk h.slots h.lits.val || rest.length < n then none
      else match decodeBundle (literalPositions.unitsOf (rest.take n)) with
        | .ok b => some (b, p + 1 + n)
        | .error _ => none
    else match decodeBundle (dict.getD u.toNat 0) with
      | .ok b => some (b, p + 1)
      | .error _ => none

/-- A bundle holds something that R39 bars from a stint. -/
def barredBundle (b : Bundle) : Bool :=
  b.hdr.waitEn || b.hdr.sync
    || b.slots.any fun i =>
      (match vInfo i with | some (w, _) => w.unit = .xl && w.op ≠ 0 | none => false)
        || (match i with | .bar _ | .yield _ | .join _ | .launch _ | .stint _ | .tokenPass _ | .step _ => true | _ => false)
        || (match vInfo i, mInfo i with
          | some (w, _), _ => [w.f.a, w.f.b, w.f.c].any isQueue
          | _, some (w, _) => [w.f.a, w.f.b].any isQueue
          | _, _ => false)
where
  isQueue : Src → Bool
    | .peek _ | .pop => true
    | _ => false

/-- The position after an escape whose literal bundle does not decode: past its units where its literal count is legal, since
those are no positions of bundles (R194); the next one for anything else. -/
def afterIllegal (stream : List Half) (p : Nat) : Nat :=
  match stream.drop p with
  | 0xFFFF :: rest =>
    let h := (headerFields (literalPositions.unitsOf (rest.take 4))).1
    if rest ≠ [] && litsOk h.slots h.lits.val then p + 1 + h.bits / 16 else p + 1
  | _ => p + 1

/-- The positions of a stint block hold nothing barred, and at most 1,024 bundles; one that does not decode holds nothing
barred. -/
def stintBlockOk (dict : List Nat) (stream : List Half) (hi : Nat) : Nat → Nat → Nat → Bool
  | 0, _, _ => true
  | fuel + 1, p, n =>
    if hi ≤ p then n ≤ 1024
    else match bundleAt dict stream p with
      | some (b, q) => !barredBundle b && stintBlockOk dict stream hi fuel q (n + 1)
      | none => stintBlockOk dict stream hi fuel (afterIllegal stream p) (n + 1)

/-! ### The whole image -/

/-- The loader's rule on pinned entries (R195). -/
def residentOk (resident count : Nat) : Bool :=
  resident % 64 = 0 && (if count ≤ 4096 then resident = (count + 63) / 64 * 64 else resident ≤ 4032)

/-- Header checks (R185, R187). -/
def headerOk (mcRev : Nat) (h : List Byte) : Bool :=
  fieldAt h 0 4 = 0x0149424F && fieldAt h 4 2 = 1 && fieldAt h 6 2 = 1 && fieldAt h 8 2 = 1 && fieldAt h 10 2 ≤ mcRev
    && fieldAt h 12 4 < 4 && fieldAt h 16 8 < 0x1000 && 3 ≤ fieldAt h 0x1A 2 && fieldAt h 0x1A 2 ≤ 8 && fieldAt h 0x1C 4 = 0

/-- The bytes of a section; none for a section that is absent. -/
def sectionBytes (s : State) (c : CtxId) (va : DWord) (l : List Section) (kind : Nat) : Option (Section × List Byte) :=
  match l.find? fun x => x.kind = kind with
  | none => some (⟨kind, 0, 0, 0⟩, [])
  | some x => (imgBytes s c va x.off x.len).map fun b => (x, b)

/-- The end of an image, which its header does not give: the end of its last section, or of its header (R186; log entry 121,
DEDUCED). -/
def imageEnd (l : List Section) : Nat := l.foldl (fun e x => max e (x.off + x.len)) (0x40 + 16 * l.length)

/-- Reads and checks an image of a context (R185-R192); none when a byte of it cannot be read or it is refused (log entry 27,
DESIGN CHOICE). The 32 bytes of the stored hash hold its most significant byte first (log entry 122, PRESUMED). -/
def readImage (s : State) (c : CtxId) (handle : Word) (va : DWord) : Option Image := do
  let h ← imgBytes s c va 0 0x40
  if !headerOk s.mcRev h then none
  let n := fieldAt h 0x1A 2
  let tbl ← imgBytes s c va 0x40 (16 * n)
  let raw := records tbl 16 n
  let secs := raw.map parseSection
  if !sectionsOk raw secs then none
  let all ← imgBytes s c va 0 (imageEnd secs)
  if (Config.sm3 (all.take 0x20 ++ all.drop 0x40)).toNat ≠ leNat ((all.drop 0x20).take 32).reverse then none
  let class0 := fieldAt h 12 4 % 2 = 1
  let (d, dict) ← sectionBytes s c va secs 1
  let (x, idx) ← sectionBytes s c va secs 2
  let (e, ent) ← sectionBytes s c va secs 3
  let (p, pl) ← sectionBytes s c va secs 4
  let (q, circ) ← sectionBytes s c va secs 5
  let (w, sh) ← sectionBytes s c va secs 6
  let (t, st) ← sectionBytes s c va secs 7
  let (z, win) ← sectionBytes s c va secs 8
  let dicts := (records dict 48 d.count).map leNat
  let stream : List Half := (records idx 2 x.count).map fun b => BitVec.ofNat 16 (leNat b)
  let resident := fieldAt h 0x18 2
  if !residentOk resident d.count || (fieldAt h 12 4 / 2 = 1) ≠ secs.any (fun y => y.kind = 5) then none
  if !((records ent 16 e.count).all (entryOk w.count) && (records pl 24 p.count).all (claimOk class0)
      && (records sh 8 w.count).all shadowOk && (records st 32 t.count).all stintOk
      && (records win 8 z.count).all (fun r => fieldAt r 4 1 ≤ 1 && fieldAt r 5 3 = 0)) then none
  let stints := (records st 32 t.count).map parseStint
  if !stints.all (fun k => stintBlockOk dicts stream (k.pc + k.len) (k.len + 1) k.pc 0) then none
  let plan ← if q.len = 0 then some none else (parsePlan class0 circ).map some
  some {
    handle := handle, ctx := c, va := va, key := (h.drop 4).take 20 ++ (h.drop 0x20).take 32, class0 := class0, plan := plan,
    resident := resident, dict := dicts, dictOff := d.off, stream := stream, inside := literalPositions stream 0 0,
    entries := (records ent 16 e.count).map parseEntry, claims := (records pl 24 p.count).map parseClaim,
    shadows := (records sh 8 w.count).map (fun r => (fieldAt r 0 4, fieldAt r 4 2)), stints := stints,
    windows := (records win 8 z.count).map parseWindowReq }

/-- The image table of a context's area: the address of a handle (R364). -/
def imageVa (s : State) (c : CtxId) (h : Word) : Option DWord :=
  if h = 0 then none
  else match areaRead s c 0x1400 4096 with
    | none => none
    | some l => ((records l 16 256).find? fun r => fieldAt r 0 4 = h.toNat).map fun r => BitVec.ofNat 64 (fieldAt r 8 8)

/-- The image of a handle as it stands at a placement (R364): what groups already use, or read from memory. -/
def imageFor (s : State) (c : CtxId) (h : Word) : Option Image :=
  match imageVa s c h with
  | none => none
  | some va => match s.image? c h with
    | some im => if im.va = va then some im else readImage s c h va
    | none => readImage s c h va

/-- Keeps an image that is in use; one kept already keeps its place in the order of loading. -/
def keepImage (im : Image) (s : State) : State :=
  let same (x : Image) : Bool := x.handle = im.handle && x.ctx = im.ctx
  if s.images.any same then { s with images := s.images.map fun x => if same x then im else x } else { s with images := im :: s.images }

end Sys2Proof.Machine
end

