-- ==== Sys2Proof/Machine/Place.lean ====
section
/-!
DEFINITION. Room on a core (R25, R26, R113, R190, R195, R399, R417), the zeroing of claimed storage (R113), and the start
of a wave (R20, R34). Which wave contexts are the reserved ones is a choice of the model: 46 for class 0, 47 for handlers.
-/

namespace Sys2Proof.Machine

open Sys2Proof

/-! ### Claims -/

/-- The bank words a scratchpad claim's range touches within its bank group: first, and one past the last (R115, R190; log entry 29, DEDUCED). -/
def Claim.words (c : Claim) : Nat × Nat :=
  let lo := if c.off ≤ 262144 * c.bankGroup then 262144 * c.bankGroup else c.off
  (lo / 8, (min (c.off + c.len) (262144 * (c.bankGroup + 1)) + 7) / 8)

/-- The banks of a claim hold a bank. -/
def Claim.hasBank (c : Claim) (b : Nat) : Bool := c.firstBank ≤ b && b < c.firstBank + c.bankCount

/-- A claim covers a place: a scratchpad byte, a tile, an L1 byte (R190). -/
def Claim.covers (c : Claim) (kind a : Nat) : Bool :=
  c.kind = kind && c.off ≤ a && a < c.off + c.len
    && (kind ≠ 0 || (a < 524288 && (spBank a).1 = c.bankGroup && c.hasBank (spBank a).2.1))

/-- Two claims name a common bank word, tile or L1 byte (R190). -/
def Claim.meets (c d : Claim) : Bool :=
  if c.kind ≠ d.kind then false
  else if c.kind ≠ 0 then spansMeet c.off c.len d.off d.len
  else
    let lo := max c.words.1 d.words.1
    let hi := min c.words.2 d.words.2
    c.bankGroup = d.bankGroup && 0 < c.len && 0 < d.len &&
      (List.range (min 32 (hi - lo))).any fun i => c.hasBank ((lo + i) % 32) && d.hasBank ((lo + i) % 32)

/-- The context that last owned a place (R113). -/
def lastOwner (c : Core) (kind a : Nat) : Option CtxId := (c.owners.find? fun x => x.covers kind a).map (·.ctx)

/-- Storage passes to a context: places whose last owner was another are zeroed, and it becomes their owner (R113). -/
def claimStore (ctx : CtxId) (l : List Claim) (c : Core) : Core :=
  let keep (kind unit : Nat) (x : Host.Cell) : Bool :=
    !(l.any fun y => y.covers kind (x.1 / unit)) || lastOwner c kind (x.1 / unit) = some ctx
  let mine := l.map fun x => { x with ctx := ctx, group := 0 }
  { c with
    scratch := c.scratch.filter (keep 0 1)
    acc := c.acc.filter (keep 1 1024)
    l1 := c.l1.filter (keep 2 1)
    owners := mine ++ c.owners.filter fun x => !mine.contains x }

/-- No other group's claim on a core meets an image's (R26, R113). Claims that a context left there meet those of other
contexts only. -/
def claimsFit (c : Core) (ctx : CtxId) (l : List Claim) : Bool :=
  !(c.claims.any fun x => (x.group ≠ 0 || x.ctx ≠ ctx) && l.any fun y => x.meets y)

/-! ### Wave contexts, registers and flight frames (R25, R26, R399, R414, R417) -/

/-- The class-0 and the handler wave contexts (log entry 19, DESIGN CHOICE). -/
def class0Slot : SlotId := 46
def handlerSlot : SlotId := 47

/-- The wave contexts that no work holds back. -/
def openSlots : List SlotId := (idxs 48).filter fun w => w ≠ class0Slot && w ≠ handlerSlot

def Core.freeSlots (c : Core) : List SlotId := openSlots.filter fun w => !c.waves[w].live

/-- Registers per lane that waves in the open contexts hold. -/
def Core.regsHeld (c : Core) : Nat := (openSlots.map fun w => if c.waves[w].live then c.waves[w].nregs else 0).sum

/-- Free flight frames: 64, less those of resident waves and those kept for waves away (R417). -/
def Core.framesFree (c : Core) : Nat := 64 - c.liveWaves.length - (c.frames.map (·.2)).sum

/-- The contexts that waves of these register counts take, if there is room for classes 1-3: 1,760 registers per lane
(R26). -/
def Core.room (c : Core) (regs : List Nat) : Option (List SlotId) :=
  if regs.length ≤ c.freeSlots.length && c.regsHeld + regs.sum ≤ 1760 && regs.length ≤ c.framesFree
  then some (c.freeSlots.take regs.length) else none

/-- The same for class-0 work: within its reservation the reserved context and its 256 registers, while no other class-0
wave is resident (R183, R399); otherwise as the other classes. -/
def Core.room0 (c : Core) (within : Bool) (regs : List Nat) : Option (List SlotId) :=
  if within && regs.length = 1 && regs.sum ≤ 256 && !c.waves[class0Slot].live && 1 ≤ c.framesFree
      && !(c.liveWaves.any fun x => x.2.cls = 0 && x.2.kind = .compute)
  then some [class0Slot] else c.room regs

/-! ### Dictionary pages (R195, R196, R399) -/

/-- Pages of the pinned entries of an image. -/
def Image.pages (im : Image) : Nat := (min im.resident im.dict.length + 63) / 64

/-- The image has unpinned entries. -/
def Image.unpinned (im : Image) : Bool := im.resident < im.dict.length

/-- A group's waves are on its core. -/
def Group.onCore (g : Group) : Bool := g.state = .running || g.state = .retiring

/-- The handle and context of a group's image. -/
def groupImage (s : State) (g : Group) : Option (Word × CtxId) := (s.grid? g.grid).map fun d => (d.image, d.ctx)

/-- Handles of the images of the groups on a core. -/
def residentHandles (s : State) (k : CoreId) : List (Word × CtxId) :=
  ((s.groups.filter fun g => g.core = k && g.onCore).filterMap (groupImage s)).dedup

/-- The same image under the same handle. -/
def Image.same (x y : Image) : Bool := x.handle = y.handle && x.ctx = y.ctx

/-- The class-0 images of a partition whose pinned pages the four reserved pages of its cores hold: in the order in which they
were loaded, each that still fits (R399; log entry 133, DEDUCED). -/
def reserveOf (s : State) (part : BitVec 4) (l : List Image) : List Image :=
  l.foldl (fun r im =>
    if im.class0 && !im.unpinned && (s.ctx im.ctx).partition = part && ((im :: r).map Image.pages).sum ≤ 4 then im :: r else r) []

/-- The reserved pages hold an image, which is loaded or about to be. -/
def inReserve (s : State) (im : Image) : Bool :=
  (reserveOf s (s.ctx im.ctx).partition (s.images.reverse ++ if s.images.any im.same then [] else [im])).any im.same

/-- Images of the groups on a core whose pages are not in the reserved ones. -/
def openImages (s : State) (k : CoreId) : List Image :=
  ((((s.groups.filter fun g => g.core = k && g.onCore).filterMap (groupImage s)).dedup).filterMap fun h =>
    s.image? h.2 h.1).filter fun im => !inReserve s im

/-- The pinned pages of a core's images and a new one's fit (R195); four pages are held back for class 0, and hold the pages
of work within its reservation (R399). -/
def pagesFit (s : State) (k : CoreId) (im : Image) (within : Bool) : Bool :=
  let l := im :: (openImages s k).filter fun x => !x.same im
  (within && inReserve s im) || (l.map Image.pages).sum ≤ (if l.any Image.unpinned then 59 else 60)

/-- A page may be replaced: no group of its image on the core has it pinned, nor is it one of the reserved pages. -/
def replaceable (s : State) (k : CoreId) (p : DictPage) : Bool :=
  !(p.pinned && (((residentHandles s k).any fun h => h.1 = p.image) || s.images.any fun im => im.handle = p.image && inReserve s im))

/-- A page enters the dictionary RAM; when it is full, in place of the least recently fetched page that may go (R196). -/
def addPage (k : CoreId) (p : DictPage) (s : State) : State :=
  let l := ((s.core k).dict).filter fun q => !(q.image = p.image && q.page = p.page)
  let out : Option DictPage := if l.length < 64 then none else
    (l.filter (replaceable s k)).foldl (fun b q => match b with
      | none => some q
      | some r => if q.last < r.last then some q else some r) none
  onCore k (fun c => { c with dict := p :: (match out with | some r => l.erase r | none => l) }) s

/-- The entries of a page of an image. -/
def Image.pageEntries (im : Image) (page : Nat) : List Nat := (im.dict.drop (64 * page)).take 64

/-- The pinned pages of an image are loaded on a core before its first group issues there (R195). -/
def loadPinned (k : CoreId) (im : Image) (s : State) : State :=
  (List.range im.pages).foldl (fun s i =>
    if (pageIn (s.core k) im.handle i).isSome then s else addPage k ⟨im.handle, i, true, s.cycle, im.pageEntries i, false⟩ s) s

/-! ### Class-0 reservation (R183, R399) -/

/-- The semaphores below S248 that a bundle's fields name. -/
def bundleSems (b : Bundle) : List Nat :=
  let h := b.hdr
  ((if h.waitEn then [h.waitSem.toNat] else []) ++ (if h.sigEn then [h.sigSem.toNat] else [])
    ++ b.slots.flatMap fun i => match mInfo i, cInfo i with
      | some (w, n), _ => if n.sem = .null then [] else [w.f.sem.toNat]
      | _, some (f, n) => if n.sem = .none then [] else [f.sem.toNat]
      | _, _ => []).filter (· < 248)

/-- The bundles of an image: dictionary entries, and literal bundles of the stream. -/
def Image.bundles (im : Image) : List Bundle :=
  (im.dict.filterMap fun n => match decodeBundle n with | .ok b => some b | .error _ => none)
    ++ ((List.range im.stream.length).filter fun p => im.stream[p]? = some 0xFFFF && !im.inside.contains p).filterMap fun p =>
      (bundleAt im.dict im.stream p).map (·.1)

/-- The image's part of being within the class-0 reservation. -/
def imageWithin (im : Image) (regs : Nat) : Bool :=
  im.class0 && regs ≤ 256 && im.resident ≤ 256 && !im.unpinned
    && im.claims.all (fun c => c.kind ≠ 0 || (0x7C000 ≤ c.off && c.off + c.len ≤ 0x80000))
    && (im.bundles.flatMap bundleSems).dedup.length ≤ 16

/-! ### Starting waves (R20, R34) -/

/-- The split a wave starts with: every lane, at a position. -/
def startSplits (pc : Nat) (gap : Nat) : Vector Split 4 :=
  (Vector.replicate 4 Split.empty).set 0
    { Split.empty with state := .runnable, pc := BitVec.ofNat 32 pc, mask := fullMask, gap := gap }

/-- A wave of a group as it starts: every register zero but A1. -/
def newWave (g : Group) (d : Grid) (kind : WaveKind) (uid windex order nregs pc : Nat) : Wave :=
  { Wave.free with
    live := true, uid := uid, kind := kind, ctx := g.ctx, group := g.id, windex := windex, groupNo := g.no, serial := d.serial,
    depth := g.depth, seed := d.seed, epoch := d.epoch, cls := d.cls, order := order, det := d.det, image := d.image,
    nregs := nregs, a := (Vector.replicate 32 0).set 1 d.params, splits := startSplits pc 0, member := kind = .compute }

/-- S253 and S254 of a context on a core start when it first takes a wave context or a claim there (R365). -/
def seeCtx (ctx : CtxId) (c : Core) : Core :=
  if c.ctxSeen.contains ctx then c
  else { c with s253 := c.s253.set ctx 32, s254 := c.s254.set ctx 0, ctxSeen := ctx :: c.ctxSeen }

end Sys2Proof.Machine
end

