-- ==== Sys2Proof/Machine/ChecksX.lean ====
section
/-!
DEFINITION. What an x slot tests in its issue cycle (R320): slabs and bank rules (R325, R327, R335), tiles (R118), copy
lists (R339), circuits (R179, R180), and the busy sequencer (R321, R336).
-/

namespace Sys2Proof.Machine

open Sys2Proof

/-- Slab size in bytes (R323). -/
def fmtSlab : Fmt → Nat
  | .mx6e3 | .mx6e2 => 48
  | _ => 64

/-- K elements of one step (R323). -/
def fmtK : Fmt → Nat
  | .fp64 => 1
  | .fp32 | .fp16 | .bf16 => 2
  | .mx4 => 8
  | .bin => 32
  | _ => 4

/-- Bytes [a, a + n) lie in the scratchpad (R111). -/
def inScratch (a : Int) (n : Nat) : Bool := 0 ≤ a && a + n ≤ 524288

/-- Bytes [a, a + n) lie wholly in a bank group (R325). -/
def inGroup (g : Nat) (a : Int) (n : Nat) : Bool := 262144 * (g : Int) ≤ a && a + n ≤ 262144 * ((g : Int) + 1)

/-- The bank words of a range (R115). -/
def wordsOf (a n : Nat) : List (Nat × Nat × Nat) := if n = 0 then [] else (List.range ((a % 8 + n - 1) / 8 + 1)).map fun i => spBank (a / 8 * 8 + 8 * i)

/-- Two ranges hold different words of one bank in one group (R325). -/
def rangesClash (a n b m : Nat) : Bool :=
  (wordsOf a n).any fun x => (wordsOf b m).any fun y => x.1 = y.1 && x.2.1 = y.2.1 && x.2.2 ≠ y.2.2

/-- One slab of a step with its scale slab, if the step begins a block: the fault of R327, if any. -/
def slabFault (g : Nat) (slab : Nat) (p : Int) (scale : Option Int) : Option TrapCode :=
  let outside := !inScratch p slab || (match scale with | some q => !inScratch q 16 | none => false)
  let rules := inGroup g p slab && p % 16 = 0 && (match scale with
    | some q => inGroup g q 16 && q % 16 = 0 && !rangesClash p.toNat slab q.toNat 16
    | none => true)
  if outside then some .access else if !rules then some .bankMx else none

/-- The checks of MXL over its steps, in step order (R327). -/
def mxlFault (s : State) (f : XSlot) : Option TrapCode :=
  let (incA, incB, dispA, dispB) := mxlParams s f
  let pa0 : Int := (lo32 (s.iw.readA f.ra)).toNat
  let pb0 : Int := (lo32 (s.iw.readA f.rb)).toNat
  (List.range f.count.toNat).findSome? fun (q : Nat) =>
    let pa := pa0 + q * incA
    let pb := pb0 + q * incB
    let first := fmtMx f.fmt && q % fmtSpb f.fmt = 0
    match slabFault 0 (fmtSlab f.fmt) pa (if first then some (pa + dispA) else none) with
    | some .access => some .access
    | ea => match slabFault 1 (fmtSlab f.fmt) pb (if first then some (pb + dispB) else none) with
      | some .access => some .access
      | eb => if ea.isSome then ea else eb

/-- Slabs that an MXC writes (R334). -/
def mxcSlabs : Fmt → Nat
  | .fp64 | .fp16 | .bf16 | .mx8e4 | .mx8e5 | .mx6e3 | .mx6e2 => 8
  | .fp32 | .e4m3 | .e5m2 | .i8 | .mx4 => 4
  | .bin => 1

/-- One output slab's fault (R335). -/
def outFault (p : Int) (n : Nat) : Option TrapCode :=
  if !inScratch p n then some .access
  else if !((inGroup 0 p n || inGroup 1 p n) && p % 16 = 0) then some .bankMx else none

/-- The checks of MXC over its slabs and scale slab (R335). -/
def mxcFault (s : State) (f : XSlot) : Option TrapCode :=
  let p := mxcParams s f
  let a : Int := (lo32 (s.iw.readA f.ra)).toNat
  let slabs := (List.range (mxcSlabs f.fmt)).map fun (i : Nat) => outFault (a + i * p.inc) (fmtSlab f.fmt)
  let scale := if fmtMx f.fmt then [outFault (a + p.disp) 16] else []
  (slabs ++ scale).findSome? id

/-- Tiles a matrix instruction touches beyond 767 (R118, R334). -/
def tileFault (op : Nat) (f : XSlot) : Bool :=
  767 < f.tile.toNat || (op = 4 && 7 ≤ fmtCode f.fmt && 767 < f.tile.toNat + 1)

/-- The circuit of a plan, with the cores of its two groups (R177, R191). -/
def circuitOf (s : State) (w : Wave) (k : BitVec 6) : Option (Circuit × CoreId × CoreId) :=
  match s.group? w.group with
  | none => none
  | some g => match s.grid? g.grid with
    | none => none
    | some d => match (s.image? d.ctx d.image).bind (·.plan) with
      | none => none
      | some (cores, circuits, _) =>
        (circuits.find? fun c => c.k = k.toNat).bind fun c =>
          match cores[c.src]?, cores[c.dst]? with
          | some a, some b => some (c, a, b)
          | _, _ => none

/-- The checks of CSEND and CRECV in order: circuit and phase, alignment, lateness (R179, R180, R344; log entry 43, DEDUCED). -/
def circuitFault (s : State) (send : Bool) (f : XSlot) : Option (TrapCode × DWord) :=
  let w := s.iw
  let a := s.iw.readA f.ra
  let t := (w.readA f.rb).toNat
  let c := s.cycle - w.epoch
  let phaseOk := match circuitOf s w f.circuit with
    | none => false
    | some (x, src, dst) =>
      if send then src = s.issue.core && x.phases.testBit (t % 256)
      else dst = s.issue.core && x.phases.testBit ((t + 65536 - x.delay) % 256)
  let off := (lo32 a).toNat
  if !phaseOk || (off % 64 = 0 && 524288 ≤ off) then some (.access, a)
  else if off % 64 ≠ 0 then some (.align, a)
  else if t ≤ c || 256 < t - c then some (.circuitLate, 0)
  else none

/-- The x-slot checks in the issue cycle (R320). -/
def xVerdict (s : State) (w : XWord) : Verdict :=
  let of_ : Option TrapCode → Verdict := fun e => match e with | some c => .trap c 0 | none => .go
  match w.op with
  | 1 => if tileFault 1 w.f then .trap .access 0 else of_ (mxlFault s w.f)
  | 2 | 3 | 5 => trapIf (tileFault w.op w.f) .access
  | 4 => if tileFault 4 w.f then .trap .access 0 else of_ (mxcFault s w.f)
  | 6 =>
    let a := s.iw.readA w.f.ra
    let off := (lo32 a).toNat
    if off % 64 ≠ 0 then .trap .align a else if 524288 < off + 64 * w.f.count.toNat then .trap .access a else .go
  | 7 | 8 => match circuitFault s (w.op = 7) w.f with
    | some (c, a) => .trap c a
    | none => .go
  | _ => .go

/-! ### The busy sequencer (R321, R336) -/

/-- The owner of a matrix operation is on its core. -/
def mxPresent (c : Core) (m : MxOp) : Bool := c.waves[m.slot].live && c.waves[m.slot].uid = m.wave

/-- The tick until which an operation keeps the sequencer busy for an MXL, and for the others (R336). -/
def busyUntil (m : MxOp) (forMxl : Bool) : Nat :=
  match m.op with
  | 1 => if forMxl then m.n else m.n + 4
  | 2 => 1
  | 3 => 2
  | 4 => 3 + mxcSlabs m.fmt
  | _ => 1

/-- The sequencer is busy for a matrix-slot opcode (R321; log entry 112, DEDUCED). -/
def mxBusy (c : Core) (op : Nat) : Bool :=
  c.mx.any fun m => mxPresent c m && m.t < busyUntil m (op = 1)

/-- The last write of a matrix operation has performed at this tick (R322, R336). -/
def mxLastTick (m : MxOp) : Nat :=
  match m.op with
  | 1 => m.n + 4
  | 2 => 4
  | 3 => 2
  | 4 => if fmtMx m.fmt then 3 + mxcSlabs m.fmt else 2 + mxcSlabs m.fmt
  | _ => 1

end Sys2Proof.Machine
end

