-- ==== Sys2Proof/Machine/View.lean ====
section
/-!
DEFINITION. Which value a read returns (R134, R136): the wave's own pending stores, then the core's merge buffer, then
memory; exact-sum cells (R124-R126); and the writes of a store-queue entry.
-/

namespace Sys2Proof.Machine

open Sys2Proof

/-! ### Exact-sum cells (R124-R126) -/

/-- The 312-bit sum of a cell as an integer. -/
def cellSum (n : Nat) : Int :=
  let c : Nat := n % 2 ^ 312
  if 2 ^ 311 ≤ c then (c : Int) - 2 ^ 312 else c

/-- A cell from its sum and flags; bits [319:318] are left zero. -/
def cellMake (c : Int) (pos neg nan ovf any nmz : Bool) : Nat :=
  (BitVec.ofInt 312 c).toNat + pos.toNat * 2 ^ 312 + neg.toNat * 2 ^ 313 + nan.toNat * 2 ^ 314 + ovf.toNat * 2 ^ 315
    + any.toNat * 2 ^ 316 + nmz.toNat * 2 ^ 317

/-- x × 2^149 of a finite binary32, an integer (R125). -/
def cellScaled (x : Nat) : Int :=
  let m : Nat := if fieldExp .f32 x = 0 then fieldFrac .f32 x * 1 else (2 ^ 23 + fieldFrac .f32 x) * 2 ^ (fieldExp .f32 x - 1)
  if fieldNeg .f32 x then -(m : Int) else m

/-- FADD.X of a binary32 value into a cell (R125). The reserved bits stay. -/
def cellAdd (cell x : Nat) : Nat :=
  let f := cell.testBit
  let nmz := f 317 || x ≠ 0x80000000
  let keep := cell / 2 ^ 318 * 2 ^ 318
  if isNaN .f32 x then keep + cellMake (cellSum cell) (f 312) (f 313) true (f 315) true nmz
  else if x = 0x7F800000 then keep + cellMake (cellSum cell) true (f 313) (f 314) (f 315) true nmz
  else if x = 0xFF800000 then keep + cellMake (cellSum cell) (f 312) true (f 314) (f 315) true nmz
  else
    let c := cellSum cell + cellScaled x
    keep + cellMake c (f 312) (f 313) (f 314) (f 315 || c < -(2 ^ 311) || 2 ^ 311 ≤ c) true nmz

/-- What a 4-byte load of a cell returns (R126). -/
def cellRead (cell : Nat) : Nat :=
  let f := cell.testBit
  if f 314 || f 315 || (f 312 && f 313) then 0x7FC00000
  else if f 312 then 0x7F800000
  else if f 313 then 0xFF800000
  else
    let c := cellSum cell
    if c = 0 then (if f 316 && !f 317 then 0x80000000 else 0)
    else (roundTo .f32 .rne false (.fin (c < 0) c.natAbs (2 ^ 149))).1

/-! ### Writes of a store-queue entry -/

/-- The bytes a lane of a store writes (R302). A 4-byte store of a cell clears it and adds (R126). -/
def storeLaneBytes (op : MemOp) (l : Lane) : List ByteW :=
  let a := op.acc[l]
  if a.cell then
    let n := cellAdd 0 (op.data[l].toNat % 2 ^ 32)
    (byteWs a.pa (leBytes 40 n)).map fun w => if w.addr = a.pa + 39 then { w with keep := 0xC0 } else w
  else byteWs a.pa (leBytes (sizeBytes op.size) op.data[l].toNat)

/-- Whether a lane of a pending store or ZFILL writes an address, and the byte (R136). -/
def laneWrites (op : MemOp) (l : Lane) (a : Nat) : Option ByteW :=
  match op.kind with
  | .store => (storeLaneBytes op l).find? fun w => w.addr = a
  | .zfill => if op.zero.any fun z => z.1 = l && z.2.1 ≤ a && a < z.2.1 + z.2.2 then some ⟨a, 0, 0⟩ else none
  | _ => none

/-- The latest earlier store to an address still pending in a wave's store queue (R134, R136). -/
def forwardByte (c : Core) (uid id : Nat) (a : Nat) : Option ByteW :=
  (c.ops.filter fun o => o.wave = uid && o.id < id && !o.atG).foldl (fun b o =>
    (lanesOf o.left).foldl (fun b l => match laneWrites o l a with | some w => some w | none => b) b) none

/-- The latest merge-buffer entry of a core that writes an address (R133, R134). -/
def bufferByte (c : Core) (a : Nat) : Option (Nat × ByteW) :=
  c.merge.foldl (fun b e => match mergeByte e a with | some w => some (e.id, w) | none => b) none

/-- The byte that a wave's read numbered `id` returns, and the merge-buffer entry it comes from (R134). -/
def viewByte (s : State) (k : CoreId) (uid id : Nat) (a : Nat) : Byte × Option Nat :=
  let c := s.core k
  match forwardByte c uid id a, bufferByte c a with
  | some w, _ => ((memRead s.mem a &&& w.keep) ||| w.val, none)
  | none, some (i, w) => ((memRead s.mem a &&& w.keep) ||| w.val, some i)
  | none, none => (memRead s.mem a, none)

/-- n bytes as a wave's read returns them, with the merge-buffer entries they come from. -/
def viewBytes (s : State) (k : CoreId) (uid id a n : Nat) : List Byte × List Nat :=
  let l := (List.range n).map fun i => viewByte s k uid id (a + i)
  (l.map (·.1), (l.filterMap (·.2)).dedup)

end Sys2Proof.Machine
end

