-- ==== Sys2Proof/Machine/MemOrder.lean ====
section
/-!
DEFINITION. When a queued access may perform: the two queues (R135-R137), marks (R138, R139), acquire, release and fence
(R142-R147), the token port (R156), and what a wave has observed (R141, R145).
-/

namespace Sys2Proof.Machine

open Sys2Proof

/-- An entry that only orders: a mark, a fence, or the ordering part of an access without an enabled lane (R147). -/
def MKind.isOrder : MKind → Bool
  | .mark | .fence | .masked _ => true
  | _ => false

/-- The load queue's kinds (R135). -/
def MKind.loads : MKind → Bool
  | .load | .qload | .gather | .l1load | .ldc | .winLoad => true
  | _ => false

/-- The store queue's kinds (R135). -/
def MKind.stores : MKind → Bool
  | .store | .scatter | .zfill | .atom _ | .sumAdd | .fadd64 | .vupd | .winStore => true
  | _ => false

/-- Read-and-write kinds: atomics, exact sums, FP64 adds and vector updates (R132). -/
def MKind.updates : MKind → Bool
  | .atom _ | .sumAdd | .fadd64 | .vupd => true
  | _ => false

/-- Performed as R138 requires: a load by having read, a store at .g, an atomic or exact sum at .k (log entry 33, DEDUCED). -/
def MemOp.performed (o : MemOp) : Bool := o.left = 0 || (o.kind.stores && o.atG)

/-- Every access that a wave issued before an id has performed (R138, R141). -/
def issuedPerformed (c : Core) (uid : Nat) (slot : SlotId) (id : Nat) : Bool :=
  !(c.ops.any fun e => e.wave = uid && e.id < id && !e.kind.isOrder && !e.performed)
    && (c.waves[slot].uid ≠ uid || !(c.waves[slot].lins.any fun l => l.id < id))
    && !(c.mx.any fun m => m.wave = uid && m.id < id && m.t < mxLastTick m)
    && !(c.armed.any fun a => a.wave = uid && a.id < id)

/-- Every write that the wave issued before an id, and every write in a set it has read, has performed at a scope's
point (R140-R142). At .g each of them has, once it can be read. A window store counts once the owner's Barn has every
entry, not at its .k point, the boundary, which R163 has its STEP lead to (R133, R144, R159, R163; log entry 120, DEDUCED). -/
def observedPerformed (c : Core) (uid id : Nat) (obs : List Nat) : Scope → Bool
  | .w | .g => true
  | _ => !(c.ops.any fun e => e.wave = uid && e.id < id && !e.kind.isOrder && e.left ≠ 0)
      && !(c.merge.any fun e => obs.contains e.id)

/-- The conditions of a release or a fence (R142, R144). -/
def releaseReady (c : Core) (o : MemOp) : Bool :=
  issuedPerformed c o.wave o.slot o.id && observedPerformed c o.wave o.id o.obs o.scope

/-- Bytes of a lane's access: first and number. An LDC's lane reads a unit of 64 (R307). -/
def laneSpan (o : MemOp) (l : Lane) : Nat × Nat :=
  if o.kind = .ldc then (o.acc[l].pa, 64)
  else if o.acc[l].cell then (o.acc[l].pa, 40) else (o.acc[l].pa, sizeBytes o.size)

/-- Two accesses share bytes. -/
def sharesBytes (o e : MemOp) : Bool :=
  (lanesOf o.left).any fun l => (lanesOf e.left).any fun m =>
    let a := laneSpan o l
    let b := laneSpan e m
    a.1 < b.1 + b.2 && b.1 < a.1 + a.2

/-- The other wave of a pair, with its slot. -/
def partnerOf (c : Core) (slot : SlotId) : Option (SlotId × Wave) := (c.waves[slot].partner).map fun p => (p, c.waves[p])

/-- The accesses of the shadow that a popped mark names have performed (R139). -/
def markReady (c : Core) (slot : SlotId) (pair : Option Nat) : Bool :=
  match partnerOf c slot, pair with
  | some (p, x), some m => issuedPerformed c x.uid p m
  | _, _ => true

/-- The pair's order allows an access: a popped mark of the shadow (R139), or for a queue load the marks of its compute
wave. -/
def pairReady (c : Core) (o : MemOp) : Bool :=
  markReady c o.slot o.pair
    && (o.kind ≠ .qload || match partnerOf c o.slot with
      | none => true
      | some (p, x) => !(c.ops.any fun e => e.wave = x.uid && e.kind = .mark && e.pair.isSome && !issuedPerformed c x.uid p e.id))

/-- Earlier entries of the same wave (log entry 58, DEDUCED). -/
def earlierOps (c : Core) (o : MemOp) : List MemOp := c.ops.filter fun e => e.wave = o.wave && e.id < o.id

/-- An earlier entry of the wave without an enabled lane holds an entry of a queue back: later ones of its own queue, and
all of them behind an acquire (R142, R143, R147). -/
def maskedHolds (prev : List MemOp) (loads stores : Bool) : Bool :=
  prev.any fun e => match e.kind with
    | .masked st => e.acq || (if st then stores else loads)
    | _ => false

/-- An access may perform in this cycle (log entry 51, DEDUCED). -/
def opReady (s : State) (k : CoreId) (o : MemOp) : Bool :=
  let c := s.core k
  let prev := earlierOps c o
  o.due ≤ s.cycle && o.left ≠ 0
    && !(prev.any fun e => ((e.kind.loads && o.kind.loads) || (e.kind.stores && o.kind.stores)) && !e.performed)
    && !(prev.any fun e => e.kind = .mark && !issuedPerformed c o.wave o.slot e.id)
    && !(prev.any fun e => e.kind = .fence)
    && !(prev.any fun e => e.acq && e.left ≠ 0)
    && !maskedHolds prev o.kind.loads o.kind.stores
    && !(o.kind.loads && prev.any fun e => e.kind.updates && e.left ≠ 0 && sharesBytes o e)
    && ((o.kind ≠ .gather && o.kind ≠ .scatter) || c.waves[o.slot].uid ≠ o.wave || !(c.waves[o.slot].lins.any fun l => l.id < o.id))
    && (!(o.rel && o.kind.stores) || releaseReady c o)
    && (!o.token || !(c.ops.any fun e => e.token && e.group = o.group && e.id < o.id))
    && pairReady c o

/-- The ordering part of an access without an enabled lane has been met at its place in its queue (R142, R143, R147). -/
def maskedReady (s : State) (k : CoreId) (o : MemOp) : Bool :=
  let c := s.core k
  let prev := earlierOps c o
  o.due ≤ s.cycle && (match o.kind with
  | .masked st =>
    !(prev.any fun e => (if st then e.kind.stores else e.kind.loads) && !e.performed)
      && !(prev.any fun e => e.kind = .mark && !issuedPerformed c o.wave o.slot e.id)
      && !(prev.any fun e => e.kind = .fence) && !(prev.any fun e => e.acq && e.left ≠ 0)
      && !maskedHolds prev (!st) st && (!o.rel || releaseReady c o) && pairReady c o
  | _ => false)

/-- A fence may complete (R144). -/
def fenceReady (s : State) (k : CoreId) (o : MemOp) : Bool :=
  let c := s.core k
  o.due ≤ s.cycle && releaseReady c o && !((earlierOps c o).any fun e => e.kind = .fence) && pairReady c o

/-- An entry of a core's queues, by wave context and name. -/
def findOp (s : State) (k : CoreId) (w : SlotId) (id : Nat) : Option MemOp :=
  (s.core k).ops.find? fun o => o.id = id && o.slot = w

/-- Replaces or removes an entry. -/
def putOp (k : CoreId) (id : Nat) (o : Option MemOp) : State → State :=
  onCore k fun c => { c with ops := c.ops.filterMap fun e => if e.id = id then o else some e }

/-- The wave is on the core's context. -/
def waveHere (s : State) (k : CoreId) (w : SlotId) (uid : Nat) : Bool := (s.wave k w).live && (s.wave k w).uid = uid

/-- Changes a wave if it is still in its context. -/
def onUid (k : CoreId) (w : SlotId) (uid : Nat) (f : Wave → Wave) (s : State) : State :=
  if waveHere s k w uid then onWave k w f s else s

/-- Two lists of names joined. -/
def joinIds (a b : List Nat) : List Nat := a ++ b.filter fun x => !a.contains x

/-- A read numbered `id` of a wave has returned writes, or synchronised with a set of them: they join the wave's observed
set, and that of every release, fence, copy and STEP it issued later and that has not acted yet (R141). -/
def observe (k : CoreId) (w : SlotId) (uid id : Nat) (ids : List Nat) (s : State) : State :=
  if ids = [] then s
  else
    let s := onUid k w uid (fun x => { x with
      obs := joinIds x.obs ids
      arrived := x.arrived.map fun a => if id < a.1 then (a.1, joinIds a.2 ids) else a }) s
    let s := onCore k (fun c => { c with ops := c.ops.map fun o =>
      if o.wave = uid && id < o.id && (o.rel || o.kind = .fence) then { o with obs := joinIds o.obs ids } else o }) s
    { s with
      copies := s.copies.map fun c => if c.wave = uid && id < c.id && !c.started then { c with obs := joinIds c.obs ids } else c
      privOps := s.privOps.map fun p => if p.wave = uid && id < p.id && !p.started then { p with obs := joinIds p.obs ids } else p }

/-- The writes of a wave's observed set at an entry that are still short of .k: those it has read, and its own earlier
stores in the merge buffer (R141). -/
def obsNow (s : State) (k : CoreId) (o : MemOp) : List Nat :=
  ((s.core k).merge.filter fun e => o.obs.contains e.id || (e.wave = o.wave && e.op < o.id)).map (·.id)

/-- What a completion brings to a waiter that observes its semaphore (R152). -/
def noteSem (k : CoreId) (sem : Option (Fin 512)) (ids : List Nat) (s : State) : State :=
  match sem with
  | some p => if ids = [] then s else onCore k (fun c => { c with semObs := c.semObs ++ [(p, ids)] }) s
  | none => s

/-- Releases that a lane of an acquire synchronises with (R145): at .g, of its own core, every byte read by the lane and
none forwarded from its own stores. A window load synchronises with nothing (R159). -/
def laneSync (s : State) (k : CoreId) (o : MemOp) (l : Lane) : List Nat :=
  if !o.acq || o.scope = .w || o.kind = .winLoad then []
  else
    let a := laneSpan o l
    (s.releases.filter fun r => r.core = k && r.scope = .g && r.addrs.all fun x =>
      a.1 ≤ x && x < a.1 + a.2 && (forwardByte (s.core k) o.wave o.id x).isNone).flatMap (·.obs)

end Sys2Proof.Machine
end

