-- ==== Sys2Proof/Machine/ChecksC.lean ====
section
/-!
DEFINITION. What a c slot tests before it issues: levels (R209), operands of privileged instructions (R359, R360, R372),
their addresses (R373), the launch record (R235), the join counter (R239), and the holds of R218.
-/

namespace Sys2Proof.Machine

open Sys2Proof

/-! ### Control-register selectors (R360) -/

/-- A register's owner. -/
inductive CrTarget
  | ctx (c : CtxId)
  | core (k : CoreId)
  | tile (t : TileId)
  | die (d : DieId)
  | queue (q : QueueId)
  deriving DecidableEq, Repr

/-- The registers of a block (R361, R387). -/
def blockRegs : Nat → Nat
  | 0 => 14 | 1 => 4 | 2 => 4 | 3 => 3 | 4 => 7 | _ => 0

/-- A selector's register: target and index; none where it names nothing (R360). -/
def selector (k : CoreId) (c : CtxId) (sel : Word) : Option (CrTarget × Nat) :=
  let n := sel.toNat
  let self := n / 2 ^ 31 = 1
  let t := n / 2 ^ 16 % 2 ^ 12
  let block := n / 2 ^ 12 % 16
  let idx := n % 2 ^ 12
  if n / 2 ^ 28 % 8 ≠ 0 || blockRegs block ≤ idx then none
  else if self then
    if t ≠ 0 then none
    else match block with
      | 0 => some (.ctx c, idx)
      | 1 => some (.core k, idx)
      | 2 => some (.tile (coreTile k), idx)
      | 3 => some (.die (coreDie k), idx)
      | _ => none
  else match block with
    | 0 => if t < 64 then some (.ctx (Fin.ofNat 64 t), idx) else none
    | 1 => some (.core (Fin.ofNat 4096 t), idx)
    | 2 => if t < 256 then some (.tile (Fin.ofNat 256 t), idx) else none
    | 3 => if t < 8 then some (.die (Fin.ofNat 8 t), idx) else none
    | _ => if t < 64 then some (.queue (Fin.ofNat 64 t), idx) else none

/-- The contexts a supervisor may write, or name with an instruction: its own and the user contexts of its partition (R359). -/
def mayName (s : State) (c x : CtxId) : Bool :=
  (s.ctx c).level = 2 || x = c || ((s.ctx x).level = 0 && (s.ctx x).partition = (s.ctx c).partition)

/-- A register's target lies within a context's reach (R357, R359, R387). -/
def targetReach (s : State) (c : CtxId) : CrTarget → Bool
  | .ctx x => (s.ctx c).level = 2 || x = c || (s.ctx x).partition = (s.ctx c).partition
  | .core k => coreReach s c k
  | .tile t => dieReach s c (Fin.ofNat 8 (t.val / 32))
  | .die d => dieReach s c d
  | .queue q => (s.ctx c).level = 2 || (s.ctx (s.queues[q]).ctx).partition = (s.ctx c).partition

/-- A write of a register is of a kind a context's level permits (R359). -/
def mayWrite (s : State) (c : CtxId) : CrTarget → Bool
  | .ctx x => mayName s c x
  | .die _ => (s.ctx c).level = 2
  | _ => true

/-- The value an MTCR writes (R219; log entry 71, DEDUCED). -/
def mtcrValue (s : State) (src : Src) : DWord :=
  match src with
  | .a n => s.iw.readA n
  | .imm k => (BitVec.ofInt 32 (immInt k)).zeroExtend 64
  | .lit k => (litWord s k.val).zeroExtend 64
  | _ => 0

/-- ACCESS checks of a register write by its register (R361, R387, R446, R447, R483). -/
def writeRefused (s : State) (c : CtxId) (t : CrTarget) (idx : Nat) (v : DWord) : Bool :=
  let mach := (s.ctx c).level = 2
  match t, idx with
  | .ctx _, 0 => mach && (bits v 0 2 = 3 || 2 ^ s.layout.toNat ≤ bits v 16 4)
  | .die _, 1 => (idxs 64).any fun x => 2 ≤ x.val && (s.ctx x).state ≠ 0
  | .tile x, 0 => x.val % 32 = 0 && (bit v 8 || bits v 0 2 = 1 || bits v 0 2 = 2 || bits v 0 2 = 3)
  | .queue q, 2 =>
    let n : CtxId := Fin.ofNat 64 (bits v 0 6)
    !mach && !(s.queues[q]).enable && (s.ctx n).level = 1 && n ≠ (s.queues[q]).ctx
  | _, _ => false

/-! ### Operands of privileged instructions (R372) -/

/-- A context operand: bits [5:0] and the self flag; `extra` are the further bits that may be set (log entry 44, DEDUCED). -/
def ctxOperand (s : State) (x : DWord) (extra : Nat) : Option CtxId :=
  if bits x 7 57 &&& (2 ^ 57 - 1 - extra / 128) ≠ 0 then none
  else if bit x 6 then some s.iw.ctx else some (Fin.ofNat 64 (bits x 0 6))

/-- A wave operand: a slot of the issuing core and the context that occupies it. -/
def waveOperand (s : State) (x : DWord) : Option SlotId :=
  let n := bits x 0 6
  if bits x 6 10 ≠ 0 || bits x 22 42 ≠ 0 || 48 ≤ n then none
  else
    let slot : SlotId := Fin.ofNat 48 n
    let w := s.wave s.issue.core slot
    if w.live && w.ctx.val = bits x 16 6 && targetReach s s.iw.ctx (.ctx w.ctx) then some slot else none

/-- A semaphore-map element operand: context, entry, set flag and value (R475). -/
structure SemElem where
  ctx : CtxId
  entry : MapEntry
  set : Bool
  value : Word
  deriving DecidableEq, Repr

def semElem (s : State) (x : DWord) : Option SemElem :=
  let self := bit x 22
  if bits x 24 8 ≠ 0 || bits x 9 6 ≠ 0 || (self && bits x 16 6 ≠ 0) then none
  else some ⟨if self then s.iw.ctx else Fin.ofNat 64 (bits x 16 6), ⟨bit x 15, Fin.ofNat 512 (bits x 0 9)⟩, bit x 23, hi32 x⟩

/-- The value of the c slot's A-register source (R219). -/
def cSrcA (s : State) (f : CSlot) : DWord :=
  match f.src with
  | .a n => s.iw.readA n
  | _ => 0

/-- The context an instruction names, for the PRIV test of R359. -/
def namedCtx (s : State) : Instr → Option CtxId
  | .tlbinv f | .seedOpPush f | .seedOpPop f | .seedOpFork f => ctxOperand s (cSrcA s f) 0
  | .ctxSwout f => ctxOperand s (cSrcA s f) 0x1FF00
  | .ctxSwin f => ctxOperand s (cSrcA s f) 0xFF00
  | .semmapW f | .semmapR f => (semElem s (cSrcA s f)).map (·.ctx)
  | _ => none

/-- PRIV: the opcode's level, and accesses of a kind the level forbids (R209, R359). -/
def privVerdict (s : State) (i : Instr) : Verdict :=
  match cInfo i with
  | none => .go
  | some (f, n) =>
    let c := s.iw.ctx
    if (s.ctx c).level.toNat < cLevel n.code then .trap .priv 0
    else if (match namedCtx s i with | some x => !mayName s c x | none => false) then .trap .priv 0
    else match i with
      | .mtcr _ => match selector s.issue.core c (litWord s f.lit.toNat) with
        | some (t, _) => trapIf (!mayWrite s c t) .priv
        | none => .go
      | _ => .go

/-! ### Addresses of engine operations (R373) -/

/-- The address ranges a privileged engine instruction reads and writes: start, bytes, reads, writes. -/
def engineRanges (s : State) : Instr → List (DWord × Nat × Bool × Bool)
  | .huskSave f => [(s.iw.readA (Fin.ofNat 32 f.imm.toNat), 6144, false, true)]
  | .huskLoad f => [(s.iw.readA (Fin.ofNat 32 f.imm.toNat), 6144, true, false)]
  | .slotLd f => [(cSrcA s f, 16 * (litWord s f.lit.toNat).toNat, true, false)]
  | .winLd f => [(cSrcA s f, 64, true, false)]
  | .attest f => [(cSrcA s f, 32, true, false), (cSrcA s f + 32, 64, false, true)]
  | .mcload f => [(cSrcA s f, 128, true, false)]
  | _ => []

/-- One address in each 64 KiB page of a range. -/
def rangeVas (va : DWord) (n : Nat) : List DWord := rangePages va n

/-- The first fault of an engine range: XLATE, then ACCESS (R298, R373). -/
def rangeFault (s : State) (r : DWord × Nat × Bool × Bool) : Option (TrapCode × DWord) :=
  (rangeVas r.1 r.2.1).findSome? fun va => match translated s s.issue.core s.iw.ctx va with
    | .bad e a => some (e, a)
    | .page t => if t.kind = 2 || t.sumcell || !t.permits (s.ctx s.iw.ctx).level r.2.2.1 r.2.2.2 then some (.access, va) else none
    | .no => none

/-- The address checks of a privileged engine instruction: ALIGN to 64, then its pages (R373). -/
def engineVerdict (s : State) (i : Instr) : Verdict :=
  match engineRanges s i with
  | [] => .go
  | r :: rest =>
    if r.1.toNat % 64 ≠ 0 then .trap .align r.1
    else match (r :: rest).findSome? (rangeFault s) with
      | some (e, a) => .trap e a
      | none => .go

/-! ### The launch record and the join counter (R235-R239) -/

/-- The fields of a launch record that LAUNCH itself checks and copies (R236), with its join address. -/
def launchRecord (s : State) (off : Nat) : LaunchRec :=
  let m := (s.core s.issue.core).scratch
  { image := BitVec.ofNat 32 (memNat m off 4), entry := BitVec.ofNat 16 (memNat m (off + 4) 2), waves := memNat m (off + 6) 1,
    flags := BitVec.ofNat 8 (memNat m (off + 7) 1), groups := memNat m (off + 8) 4, params := BitVec.ofNat 64 (memNat m (off + 16) 8),
    join := BitVec.ofNat 64 (memNat m (off + 24) 8), f := 0, due := 0 }

/-- A zero field of the record is not zero (R236). -/
def launchZeros (s : State) (off : Nat) : Bool :=
  let m := (s.core s.issue.core).scratch
  memNat m (off + 12) 4 = 0 && memNat m (off + 32) 32 = 0

/-- The scratchpad offset LAUNCH reads at (R219). -/
def launchOff (s : State) (f : CSlot) : Nat := (lo32 (readSrc s 5 f.src false s.issue.pops 0 (lowLane s.is.mask))).toNat

/-- The checks of a join counter's address (R235, R239): a YARD page, no SUMCELL, read and write, a multiple of 4. -/
def joinFault (s : State) (va : DWord) : Option (TrapCode × DWord) :=
  match translated s s.issue.core s.iw.ctx va with
  | .bad e a => some (e, a)
  | .page t =>
    if t.kind ≠ 1 || t.sumcell || !t.permits (s.ctx s.iw.ctx).level true true then some (.access, va)
    else if va.toNat % 4 ≠ 0 then some (.align, va) else none
  | .no => none

/-- LAUNCH's record limits that the record and the issuing group decide (R235, R236). -/
def launchLimits (s : State) (off : Nat) : Bool :=
  let r := launchRecord s off
  let fl := r.flags.toNat
  let f := match s.group? s.iw.group with | some g => g.f | none => 0
  launchZeros s off && 1 ≤ r.waves && r.waves ≤ 32 && 1 ≤ r.groups && r.groups ≤ 2 ^ 31 && fl / 64 = 0 && fl / 16 % 4 ≤ 2
    && s.iw.cls ≤ fl / 4 % 4 && !(fl % 2 = 1 && 2 ^ 32 ≤ f)

/-- The checks of LAUNCH in order (R235). -/
def launchVerdict (s : State) (f : CSlot) : Verdict :=
  let off := launchOff s f
  if s.iw.depth = 10 then .trap .launchDepth 0
  else if 524288 ≤ off then .trap .access (BitVec.ofNat 64 off)
  else if off % 64 ≠ 0 then .trap .align (BitVec.ofNat 64 off)
  else if !launchLimits s off then .trap .access 0
  else match joinFault s (launchRecord s off).join with
    | some (e, a) => .trap e a
    | none => .go

/-- Addresses whose translation a c slot needs before it issues (R235, R239, R373). -/
def cVas (s : State) (i : Instr) : List DWord :=
  match i with
  | .join f => [cSrcA s f]
  | .launch f => if launchOff s f < 524288 && launchOff s f % 64 = 0 then [(launchRecord s (launchOff s f)).join] else []
  | _ => (engineRanges s i).flatMap fun r => rangeVas r.1 r.2.1

/-- The read of a join counter as an entry of the wave's load queue: an LD.ACQ.k (R239). -/
def joinRead (s : State) (pa : Nat) : MemOp :=
  { id := s.nextId, wave := s.iw.uid, slot := s.issue.slot, group := s.iw.group, kind := .load, ctx := s.iw.ctx, gen := 0, born := s.cycle,
    due := s.cycle, pc := s.issue.pc, size := .b4, en := 1, ea := Lanes.all 0, acc := Lanes.all ⟨pa, false, 0⟩, data := Lanes.all 0,
    len := Lanes.all 0, zero := [], acq := true, rel := false, scope := .k, dep := none, qslots := none, sem := none, token := false,
    tag := 0, seqN := 0, rank := 0, pair := s.iw.holdAfter, left := 1, failed := 0, atG := false, obs := [], sent := false, got := 0,
    pages := [] }

/-- The word of a join counter as the wave's read returns it, once its load queue lets the read perform (R135, R136, R239). -/
def joinCounter (s : State) (va : DWord) : Option Nat :=
  match translated s s.issue.core s.iw.ctx va with
  | .page t =>
    if opReady s s.issue.core (joinRead s (t.addr va)) then some (leNat (viewBytes s s.issue.core s.iw.uid s.nextId (t.addr va) 4).1)
    else none
  | _ => none

/-! ### Checks at issue of each c slot -/

/-- Wave contexts of a context on some dies, as core and slot. -/
def ctxWaves (s : State) (c : CtxId) (dies : List DieId) : List (CoreId × SlotId) :=
  (idxs 4096).flatMap fun k =>
    if dies.contains (coreDie k) then ((s.core k).liveWaves.filter fun x => x.2.ctx = c).map fun x => (k, x.1) else []

/-- The dies of a die mask. -/
def maskDies (n : Nat) : List DieId := (idxs 8).filter fun d => n.testBit d.val

/-- Bytes of the swap region (R363): area_len units of 64 KiB less the first. -/
def swapBytes (s : State) (c : CtxId) : Nat :=
  match areaRead s c 0 4 with
  | some l => leNat l * 65536 - 65536
  | none => 0

/-- The swap region holds the context's waves on the dies (R381). -/
def swapFits (s : State) (c : CtxId) (dies : List DieId) : Bool :=
  let ws := ctxWaves s c dies
  40960 * ws.length + 1024 * (ws.map (·.1)).dedup.length ≤ swapBytes s c

/-- The checks a privileged instruction makes at issue (R372-R385), and the c-slot checks of R220. -/
def cVerdict (s : State) (i : Instr) : Verdict :=
  let c := s.iw.ctx
  let k := s.issue.core
  match i with
  | .launch f => launchVerdict s f
  | .join f => match joinFault s (cSrcA s f) with
    | some (e, a) => .trap e a
    | none => .go
  | .mfcr f => match selector k c (litWord s f.lit.toNat) with
    | none => .trap .access 0
    | some (t, _) => trapIf (!targetReach s c t) .access
  | .mtcr f => match selector k c (litWord s f.lit.toNat) with
    | none => .trap .access 0
    | some (t, idx) => trapIf (!targetReach s c t || writeRefused s c t idx (mtcrValue s f.src)) .access
  | .huskSave f | .huskLoad f => match waveOperand s (cSrcA s f) with
    | none => .trap .access 0
    | some w =>
      if (s.wave k w).liveSplits.any fun x => x.2.state = .trapped || x.2.state = .parked then engineVerdict s i else .trap .access 0
  | .rte f => match waveOperand s (cSrcA s f) with
    | none => .trap .access 0
    | some w => trapIf (!(s.wave k w).liveSplits.any fun x => x.2.state = .trapped) .access
  | .preempt f | .park f | .unpark f => trapIf ((waveOperand s (cSrcA s f)).isNone) .access
  | .tlbinv f => trapIf ((ctxOperand s (cSrcA s f) 0).isNone) .access
  | .semmapW f => match semElem s (cSrcA s f) with
    | none => .trap .access 0
    | some e => trapIf (e.entry.valid && (s.ctx e.ctx).class0 ≠ (496 ≤ e.entry.phys.val)) .access
  | .semmapR f => trapIf ((semElem s (cSrcA s f)).isNone) .access
  -- a count of 0 lies outside the range that R378 gives (log entry 40, DEDUCED)
  | .slotLd f => if (litWord s f.lit.toNat) = 0 then .trap .access 0 else engineVerdict s i
  | .winLd _ | .attest _ => engineVerdict s i
  | .imgInv f => trapIf (!(imageTable s c).any fun e => e.1 = lo32 (cSrcA s f) && e.1 ≠ 0) .access
  | .ctxSwout f =>
    let x := cSrcA s f
    let dies := maskDies (bits x 8 8)
    match ctxOperand s x 0x1FF00 with
    | none => .trap .access 0
    | some y => trapIf (bit x 6 || !dies.all (dieReach s c) || !swapFits s y dies) .access
  | .ctxSwin f =>
    let x := cSrcA s f
    let dies := maskDies (bits x 8 8)
    match ctxOperand s x 0xFF00 with
    | none => .trap .access 0
    | some y => trapIf (!dies.all (dieReach s c) || !((s.ctx y).coreRecs.all fun r =>
        !dies.contains (coreDie r.core) || r.vals.all fun v => (semPhys s r.core y (BitVec.ofNat 8 v.1)).isSome)) .access
  | .seedOpPush f | .seedOpPop f | .seedOpFork f => trapIf ((ctxOperand s (cSrcA s f) 0).isNone) .access
  | .halt _ => trapIf ((s.core k).liveWaves.any fun x => x.1 ≠ s.issue.slot) .access
  -- every state but "not live" counts as live (log entry 124, DEDUCED)
  | .mcload _ =>
    if (idxs 64).any fun x => (s.ctx x).level = 0 && (s.ctx x).state ≠ 0 then .trap .access 0 else engineVerdict s i
  | _ => .go
where
  /-- The image table of a context's area: handle and address (R364). -/
  imageTable (s : State) (c : CtxId) : List (Word × DWord) :=
    match areaRead s c 0x1400 4096 with
    | none => []
    | some l => (List.range 256).map fun i =>
      (BitVec.ofNat 32 (leNat ((l.drop (16 * i)).take 4)), BitVec.ofNat 64 (leNat ((l.drop (16 * i + 8)).take 8)))

/-! ### Holds of c slots (R218) -/

/-- The semaphore a c slot names, with whether a completion names it (R365). -/
def cSem (i : Instr) : Option Byte :=
  match cInfo i with
  | none => none
  | some (f, n) => match i with
    | .semmapW _ | .semmapR _ => none
    | _ => if n.sem = .none then none else some f.sem

/-- Held collectives of a c slot: BAR until released, STEP until its wave has gathered and the boundary allows (R163, R230). -/
def cCollective (s : State) (i : Instr) : Verdict :=
  let w := s.iw
  match i with
  | .bar _ => holdIf (!s.is.released) .collective
  | .step _ =>
    match gatherVerdict s (~~~w.exited) true with
    | .go => holdIf (w.ahead && (s.ctx w.ctx).domain.isSome && w.member) .collective
    | v => v
  | _ => .go

/-- Every token-gated access that a group has issued has performed (R49). -/
def tokenClear (c : Core) (g : Nat) : Bool :=
  !(c.ops.any fun o => o.token && o.group = g) &&
    !(c.merge.any fun e => e.token && c.ops.any fun o => o.id = e.op && o.group = g)

/-- The JOIN hold: the counter does not read zero. Its address is checked first (R239). -/
def joinHold (s : State) (va : DWord) : Verdict := holdIf ((joinFault s va).isNone && joinCounter s va ≠ some 0) .join

/-- A write of a matrix instruction has still to perform: MXR writes lanes of other splits on their own clocks (R322, R330,
R336). -/
def mxWriting (m : MxOp) : Bool := m.t < mxLastTick m || (m.op = 2 && m.en ≠ 0)

/-- Holds of a c slot before issue besides collectives (R49, R218, R234, R239, R322, R373, R375). -/
def cHolds (s : State) (i : Instr) : Verdict :=
  let w := s.iw
  let c := s.core s.issue.core
  let tr := holdIf ((cVas s i).any fun va => translated s s.issue.core w.ctx va = .no) .translation
  match i with
  | .tokenPass _ => holdIf (w.det ≠ 0 && !(holdsToken s w && tokenClear c w.group)) .token
  | .stint _ => holdIf (c.s253[w.ctx] < 1) .stint
  | .join f => firstOf [tr, joinHold s (cSrcA s f)]
  | .rte f => match waveOperand s (cSrcA s f) with
    | some x => holdIf (s.privOps.any fun p => p.core = s.issue.core && match p.kind with
        | .huskSave y _ | .huskLoad y _ => y = x
        | _ => false) .husk
    | none => .go
  | .endLanes _ => holdIf (c.mx.any fun m => m.wave = w.uid && laneBit s.is.mask m.lane && mxWriting m) .endMatrix
  | _ => tr

/-- Live splits of a wave, on the stack or resident. -/
def Wave.splitCount (w : Wave) : Nat := w.liveSplits.length + w.stack.length

/-- The leaves that lanes of the split reach. -/
def leavesReached (leaf : Lanes (Fin 5)) (m : Mask) : List (Fin 5) :=
  (idxs 5).filter fun k => (lanesOf m).any fun l => leaf[l] = k

/-- SPLIT_OVER: the BR would make a thirteenth live split (R30). -/
def splitOverVerdict (s : State) (i : Instr) : Verdict :=
  match i with
  | .br _ => trapIf (12 < s.iw.splitCount + (leavesReached s.issue.leaf s.is.mask).length - 1) .splitOver
  | _ => .go

end Sys2Proof.Machine
end

