-- ==== Sys2Proof/Machine/Verdict.lean ====
section
/-!
DEFINITION. The order in which a bundle's checks and holds apply (R218, R298, R320, R411), for one slot and for a whole
bundle, and what each outcome does to the split.
-/

namespace Sys2Proof.Machine

open Sys2Proof

/-- The checks of a slot, in the order in which they apply: decode (group 3), collectives (4), PRIV, holds before issue, a
busy unit, sequencer or request store, which passes the split over (R13, R43, R62, R321), chain records, register banks,
scratchpad banks (5), completion semaphores (R365), x slot (6), m lanes (7), c slot (8), SPLIT_OVER. -/
def phase (s : State) (i : Instr) : Nat → Verdict
  | 0 => trapIf (!encOkSlot s i) .encIllegal
  | 1 => match vInfo i with
    | some (w, _) => collectiveVerdict s w
    | none => cCollective s i
  | 2 => privVerdict s i
  | 3 => match vInfo i, mInfo i with
    | some (_, _), _ => holdIf (!queueReady s.iw s.issue.pops (sources i)) .queue
    | _, some (w, n) => mHolds s w n
    | _, _ => cHolds s i
  | 4 => match vInfo i, mInfo i, xInfo i with
    | some (w, _), _, _ => if repeatBusy s w then .busy else .go
    | _, some (w, n), _ => if mNamesSem w n && requestsFull s w then .busy else .go
    | _, _, some w => if w.op ≤ 5 && mxBusy (s.core s.issue.core) w.op then .busy else .go
    | _, _, _ => .go
  | 5 => match vInfo i with
    | some (w, _) => chainVerdict s w
    | none => .go
  | 6 => trapIf (bankClash (sourceRegs i)) .bankRf
  | 7 => match mInfo i with
    | some (w, n) => trapIf ((w.op = 9 || w.op = 10) && bankSpFault s w n) .bankSp
    | none => .go
  | 8 => match mInfo i with
    | some (w, n) => trapIf (mNamesSem w n && (semPhys s s.issue.core s.iw.ctx w.f.sem).isNone) .access
    | none => (match cSem i with
      | some v => trapIf ((semValue s s.issue.core s.iw v).isNone) .access
      | none => (match i with
        | .stint f => trapIf (((stintConds s f.lit.toNat).filterMap stintCond).any fun c =>
            (semValue s s.issue.core s.iw c.1).isNone) .access
        | _ => .go))
  | 9 => match xInfo i with
    | some w => xVerdict s w
    | none => .go
  | 10 => match mInfo i with
    | some (w, n) => mFaultVerdict s w n
    | none => .go
  | 11 => cVerdict s i
  | _ => splitOverVerdict s i

def phases : List Nat := [0, 1, 2, 3, 4, 5, 6, 7, 8, 9, 10, 11, 12]

/-- The verdict on one slot (log entry 35, DEDUCED). -/
def slotVerdict (s : State) (i : Instr) : Verdict := firstOf (phases.map fun p => phase s i p)

/-- Checks of the whole bundle that stand beside its slots' ones: decode of the header, the tile barrier (R46), register
banks over all slots (R70), and the header's semaphores (R365). -/
def bundlePhase (s : State) (is : List Instr) : Nat → Verdict
  | 0 => trapIf (!encOkHeader s) .encIllegal
  | 1 => holdIf (s.issue.hdr.sync && !s.is.released) .collective
  | 3 => holdIf (!queueReady s.iw 0 (is.flatMap sources)) .queue
  | 6 => trapIf (bankClash (is.flatMap sourceRegs)) .bankRf
  | 8 => trapIf ((s.issue.hdr.waitEn && (semValue s s.issue.core s.iw s.issue.hdr.waitSem).isNone)
      || (s.issue.hdr.sigEn && (semPhys s s.issue.core s.iw.ctx s.issue.hdr.sigSem).isNone)) .access
  | _ => .go

/-- Queue slots that an instruction's specifiers pop (R58). -/
def slotPops (i : Instr) : Nat := ((sources i).map fun x => popsOf x.1 x.2).sum

/-- Each slot of a bundle with the state it reads its operands in: the pops of the slots before it have been made (R58). -/
def slotStates (s : State) : List Instr → List (State × Instr)
  | [] => []
  | i :: l => (s, i) :: slotStates (onIssue (fun x => { x with pops := x.pops + slotPops i }) s) l

/-- The verdict on a bundle with these slots. -/
def bundleVerdict (s : State) (is : List Instr) : Verdict :=
  let l := slotStates s is
  firstOf (phases.flatMap fun p => bundlePhase s is p :: l.map fun x => phase x.1 x.2 p)

/-- What is still to be checked once lanes of the m slot have split off: the bundle issues for the remaining ones, unless
its c slot traps (R298, R411). -/
def lateVerdict (s : State) (is : List Instr) : Verdict :=
  let l := slotStates s is
  firstOf ([11, 12].flatMap fun p => l.map fun x => phase x.1 x.2 p)

/-! ### What a verdict does -/

/-- The split is held at its bundle (R218): nothing of the bundle takes place. -/
def markHeld (k : HoldKind) (s : State) : State :=
  onIssue (fun i => { i with result := .held k }) (onIs (fun x => { x with hold := some k }) s)

/-- The bundle's unit or the sequencer is busy: the split stays due (R62, R321). -/
def markBusy (s : State) : State := onIssue (fun i => { i with result := .busy }) s

/-- An issue trap of the whole split (R410): the bundle has no effect. -/
def trapIssue (t : TrapInfo) (lanes : Mask) (s : State) : State :=
  onIssue (fun i => { i with result := .trapped }) (trapSplit s.issue.core s.issue.slot s.issue.split t lanes s)

/-- The lane words of faulting lanes record each lane's own code (R298). -/
def Wave.markFaults (w : Wave) (l : List (Lane × TrapCode × DWord)) : Wave :=
  { w with laneCode := l.foldl (fun v x => v.set x.1 x.2.1.code) w.laneCode }

/-- The lanes of a fault list. -/
def faultMask (l : List (Lane × TrapCode × DWord)) : Mask := maskOf fun x => l.any fun y => y.1 = x

/-- Faulting lanes of the m slot split off before the bundle issues, with the base register's value for the re-issue
(R295, R298, R412). Answers whether the bundle goes on: not when every enabled lane faults, nor when no record is free. -/
def faultLanes (l : List (Lane × TrapCode × DWord)) (en : Mask) (base : Option (Fin 32)) (s : State) : Bool × State :=
  let k := s.issue.core
  let w := s.issue.slot
  let r := s.issue.split
  let f := faultMask l
  let first := l.headD (0, .access, 0)
  let t : TrapInfo := { code := first.2.1, addr := first.2.2 }
  if f = en then (false, onIw (·.markFaults l) (trapIssue t f s))
  else
    let rec_ := s.iw.freeRec
    let (go, s') := trapLanes k w r t f s
    let s' := onIw (·.markFaults l) s'
    let s' := if go then onIssue (fun i => { i with off := rec_ }) s' else s'
    let s' := match go, rec_, base with
      | true, some q, some b => onSplit k w q (fun x => { x with apc := x.pc, abase := some (b, match s.is.base? with
          | some (n, v) => if n = b then v else s.iw.readA b
          | none => s.iw.readA b) }) s'
      | _, _, _ => s'
    (go, if go then s' else onIssue (fun i => { i with result := .trapped }) s')

/-- The enabled lanes and the base register of an m slot. -/
def mEnabled (s : State) (i : Instr) : Mask × Option (Fin 32) :=
  match mInfo i with
  | some (w, _) => (enabled s w.f.guard w.f.path, some w.f.base)
  | none => (0, none)

/-- An access no longer waits for walks: it has issued or trapped (R298). A failed walk that nothing waits for is dropped. -/
def dropAsks (who : Nat × RecId × Word) (s : State) : State :=
  onCore s.issue.core (fun c => { c with
    walks := (c.walks.map fun w => { w with askers := w.askers.erase who }).filter fun w => w.failed.isNone || w.askers ≠ [] }) s

/-- Acts on a slot: its effect when every check passes; a hold, a trap, or the faulting lanes' trap otherwise. The slots
of a bundle whose checks have all been made only have their effects. -/
def act (i : Instr) (eff : State → State) (s : State) : State :=
  if s.issue.checked then eff s
  else match slotVerdict s i with
  | .go => eff s
  | .hold k => markHeld k s
  | .busy => markBusy s
  | .trap c a => dropAsks s.asker (trapIssue { code := c, addr := a } s.is.mask s)
  | .faults l =>
    let (go, s') := faultLanes l (mEnabled s i).1 (mEnabled s i).2 s
    let s' := dropAsks s.asker s'
    if go then
      match lateVerdict s' [i] with
      | .go => eff s'
      | .hold k => markHeld k s'
      | .busy => markBusy s'
      | .trap c a => trapIssue { code := c, addr := a } s'.is.mask s'
      | .faults _ => s'
    else s'

end Sys2Proof.Machine
end

