-- ==== Sys2Proof/Machine/Trigger.lean ====
section
/-!
DEFINITION. Triggering a unit (R54, R62, R65, R76) and landing its results on the clock of the split that holds each
lane (R59-R61, R65-R69, R94).
-/

namespace Sys2Proof.Machine

open Sys2Proof

/-! ### Latencies (R62, R264) -/

/-- A 64-bit number type puts a conversion in the FP64 class (R264). -/
def cvtWide (t : Ty) : Bool := t = .f64 || t = .i64 || t = .n64

/-- The operation is of ALT-1's FP64 class (R62, R264-R266). -/
def fp64Class : Instr → Bool
  | .cvt d f | .cvtRna d f => cvtWide d || cvtWide f.ty
  | .cvtSr _ f => f.ty = .f64
  | i => match vInfo i with
    | some (w, _) => w.unit = .fma && w.f.ty = .f64
    | none => false

/-- ALT-1's latency in ticks (R62). -/
def vLatency (i : Instr) : Nat :=
  match vInfo i with
  | some (w, _) =>
    (match w.unit with
      | .ial => 1
      | .fma => if fp64Class i then 6 else 4
      | .xf => 12
      | .xl => 3
      | _ => if w.op = 7 then 8 else 6)
  | none => 0

/-- ALT-1's repeat interval in core cycles (R62). -/
def vInterval (i : Instr) : Nat :=
  match vInfo i with
  | some (w, _) =>
    (match w.unit with
      | .fma => if fp64Class i then 2 else 1
      | .xf => 4
      | .str => if w.op = 7 then 2 else 1
      | _ => 1)
  | none => 0

/-- The trigger counts against its unit's repeat interval, even with every lane masked off (R62, R69). -/
def occupy (i : Instr) (s : State) : State :=
  match vInfo i with
  | some (w, _) => onCore s.issue.core (fun c =>
    (match w.unit with
      | .fma => { c with fmaBusy := s.cycle + vInterval i }
      | .xf => { c with xfBusy := s.cycle + vInterval i }
      | .str => { c with strBusy := s.cycle + vInterval i }
      | _ => c)) s
  | none => s

/-! ### Triggers -/

/-- What a trigger computes, lane by lane. -/
structure VOut where
  val : Lanes DWord
  cond : Lanes Cond := Lanes.all 0
  chain : Option (Lanes W56) := none
  count : Option (Lanes Word) := none

/-- The values of `.a`, `.b` and `.t` of a unit in a lane. -/
def unitPorts (s : State) (u : VUnit) (l : Lane) : DWord × DWord × DWord :=
  ((s.iw.unit u).a[l], (s.iw.unit u).b[l], (s.iw.unit u).t[l])

/-- A result per enabled lane, from the ports and the lane. -/
def outOf (s : State) (w : VWord) (g : Lane → DWord → DWord → DWord → DWord × Cond) : VOut :=
  let en := enabled s w.f.guard w.f.path
  let r : Lanes (DWord × Cond) := Lanes.of fun l =>
    if laneBit en l then (let p := unitPorts s w.unit l; g l p.1 p.2.1 p.2.2) else (0, 0)
  { val := Lanes.of fun l => r[l].1, cond := Lanes.of fun l => r[l].2 }

/-- A result of a trigger goes into flight for the enabled lanes (R61, R65). -/
def launch (i : Instr) (w : VWord) (n : VInfo) (o : VOut) (s : State) : State :=
  let en := enabled s w.f.guard w.f.path
  let f : Flight :=
    { id := s.nextId, unit := w.unit, val := o.val, chain := o.chain, count := o.count, en := en, left := Lanes.all (vLatency i),
      dep := w.f.dep, wide := resBits w n = 64, cond := o.cond, enb := (s.ctx s.iw.ctx).fptrap, raised := 0 }
  (fresh (onIw (fun x => { x with flights := x.flights ++ [f] }) s)).2

/-- `Trigger` (R76): transports, then the operation's result on its way to the latch and the deposit. -/
def trigger (i : Instr) (g : State → VWord → VOut) (s : State) : State :=
  match vInfo i with
  | some (w, n) =>
    let s := transportV w n s
    launch i w n (g s w) (occupy i s)
  | none => s

/-- A lane-wise operation on the ports that raises no condition. -/
def lanewise (g : Ty → DWord → DWord → DWord → DWord) (s : State) (w : VWord) : VOut :=
  outOf s w fun _ a b c => (g w.f.ty a b c, condNone)

/-! ### Landings -/

/-- The lanes of a result whose landing tick is now: no tick to run and not kept back by a trap. -/
def Flight.due (f : Flight) : Mask := f.en &&& ~~~f.raised &&& maskOf fun l => f.left[l] = 0

/-- The lanes of a due result that raise an enabled condition (R94). -/
def Flight.faults (f : Flight) : Mask := f.due &&& maskOf fun l => condTrapping f.cond[l] f.enb

/-- A result reaches its latch and its deposit target in some lanes (R65, R67, R97, R269). -/
def Wave.land (x : Wave) (f : Flight) (m : Mask) : Wave :=
  let x := x.onUnit f.unit fun u => { u with q := Lanes.blend m f.val u.q }
  let x := if f.unit = .fma then
      (match f.chain with
        | some c => { x with w56 := Lanes.blend m c x.w56, w56ok := x.w56ok ||| m }
        | none => { x with w56ok := x.w56ok &&& ~~~m })
    else x
  let x := x.deposit f.dep f.wide m f.val
  match f.count, f.dep with
  | some n, .v d => if d = 0 then x else x.writeV (Fin.ofNat 256 (d.val - 1)) m n
  | _, _ => x

/-- Lands the due results triggered before an id, in the order of their triggers (R68). Lanes with an enabled condition
are kept back and answered (R94). -/
def Wave.landBefore (x : Wave) (id : Nat) : Mask × Wave :=
  x.flights.foldl (fun acc f =>
    let (bad, y) := acc
    if id ≤ f.id then (bad, { y with flights := y.flights ++ [f] })
    else
      let bad' := f.faults
      let ok := f.due &&& ~~~bad'
      let y := if ok = 0 then y else y.land f ok
      let f' := { f with en := f.en &&& ~~~ok, raised := f.raised ||| bad' }
      (bad ||| bad', if f'.en = 0 then y else { y with flights := y.flights ++ [f'] }))
    (0, { x with flights := [] })

/-- Recorded results land in lanes whose split has resumed (R94). -/
def Wave.landRaised (x : Wave) (m : Mask) : Wave :=
  x.flights.foldl (fun y f =>
    let ok := f.raised &&& f.en &&& m
    let y := if ok = 0 then y else y.land f ok
    let f' := { f with en := f.en &&& ~~~ok, raised := f.raised &&& ~~~ok }
    if f'.en = 0 then y else { y with flights := y.flights ++ [f'] })
    { x with flights := [] }

/-- One tick of the clock of the splits that hold some lanes (R61). -/
def tickLanes (m : Mask) (left : Lanes Nat) : Lanes Nat := Lanes.of fun l => if laneBit m l then left[l] - 1 else left[l]

/-- ARITH waits at the splits that hold the lanes of a mask (R94, R410). -/
def pendArith (k : CoreId) (w : SlotId) (m : Mask) (s : State) : State :=
  if m = 0 then s else onWave k w (Wave.pendSome ⟨.arith, 0, m, Lanes.all 0, 0xFFFFFFFF, none⟩) s

/-- Lands the results of a wave that were triggered before an id (log entry 113, DEDUCED). -/
def landWave (k : CoreId) (w : SlotId) (id : Nat) (s : State) : State :=
  let r := (s.wave k w).landBefore id
  pendArith k w r.1 (onWave k w (fun _ => r.2) s)

/-- The meaning of RESULT_LANDING: every due result of a wave lands at the start of the cycle (R61, R65). -/
def execResultLanding (k : CoreId) (w : SlotId) (s : State) : Host.Outcome State Fault Refusal :=
  .next (landWave k w s.nextId s)

end Sys2Proof.Machine
end

