-- ==== Sys2Proof/Machine/VInt.lean ====
section
/-!
DEFINITION. PSET (R55) and the integer and logic unit (R251-R257).
-/

namespace Sys2Proof.Machine

open Sys2Proof

/-- The low bits of a port at a type's width. -/
def low (t : Ty) (x : DWord) : Nat := x.toNat % 2 ^ tyBits t

/-- A port as an integer of a type (R247). -/
def portInt (t : Ty) (x : DWord) : Int := intOf (tySigned t) (tyBits t) x

/-- An exact integer operation, then `Fit` (R250, R251). -/
def intOp (g : Nat → Int → Int → Int → Int) (s : State) (w : VWord) : VOut :=
  lanewise (fun t a b c => fit t w.f.sat (g (tyBits t) (portInt t a) (portInt t b) (portInt t c))) s w

/-- An operation on bits of a type's width; the function is given the width. -/
def bitOp (g : Nat → Nat → Nat → Nat → Nat) (s : State) (w : VWord) : VOut :=
  lanewise (fun t a b c => BitVec.ofNat 64 (g (tyBits t) (low t a) (low t b) c.toNat)) s w

/-- A relation of two integers as 1 or 0 (R256). -/
def relOp (r : Int → Int → Bool) (s : State) (w : VWord) : VOut :=
  lanewise (fun t a b _ => if r (portInt t a) (portInt t b) then 1 else 0) s w

/-- The shift count, bits [7:0] of B (R252). -/
def shiftCount (b : Int) : Nat := (b % 256).toNat

/-- A rotated left by n in a width (R252). -/
def rotl (w a n : Nat) : Nat := a * 2 ^ (n % w) % 2 ^ w + a / 2 ^ (w - n % w)

/-- Number of 1 bits among the low w bits. -/
def popNat : Nat → Nat → Nat
  | 0, _ => 0
  | w + 1, a => a % 2 + popNat w (a / 2)

/-- Trailing zeros among the low w bits. -/
def ctzNat : Nat → Nat → Nat
  | 0, _ => 0
  | w + 1, a => if a % 2 = 1 then 0 else 1 + ctzNat w (a / 2)

/-- The low w bits reversed. -/
def brevNat : Nat → Nat → Nat
  | 0, _ => 0
  | w + 1, a => a % 2 * 2 ^ w + brevNat w (a / 2)

/-- BFX of a value (R253). -/
def bfxVal (signed : Bool) (w : Nat) (a : Int) (c : Nat) : Int :=
  let pos := c % 256
  let len := min (c / 256 % 256) w
  let field := a / 2 ^ pos % 2 ^ len
  if len = 0 then 0
  else if signed && 2 ^ (len - 1) ≤ field then field - 2 ^ len else field

/-- BFI of two words (R253). -/
def bfiVal (w a b c : Nat) : Nat :=
  let pos := c % 256
  let len := min (c / 256 % 256) w
  let m := (2 ^ len - 1) * 2 ^ pos % 2 ^ w
  (b &&& (2 ^ w - 1 - m)) ||| (a * 2 ^ pos &&& m)

/-- PERM of two words (R255). -/
def permVal (a b c : Nat) : Nat :=
  let pool := a + b * 2 ^ 32
  let one (i : Nat) : Nat :=
    let s := c / 16 ^ i % 16
    let x := pool / 256 ^ (s % 8) % 256
    (if s < 8 then x else if 128 ≤ x then 255 else 0) * 256 ^ i
  one 0 + one 1 + one 2 + one 3

/-- PLOG of two words under a truth table (R257): bit i is C[2 A(i) + B(i)]. -/
def plogVal (a b c : Nat) : Nat :=
  let m := 2 ^ 32 - 1
  let pick (k x : Nat) : Nat := if c / 2 ^ k % 2 = 1 then x else 0
  pick 0 (m - (a ||| b)) ||| pick 1 ((m - a) &&& b) ||| pick 2 (a &&& (m - b)) ||| pick 3 (a &&& b)

/-- PSET: transports alone (R55). -/
def execPset (u : VUnit) (f : VSlot) (s : State) : Host.Outcome State Fault Refusal :=
  .next (act (.pset u f) (fun s => match vInfo (.pset u f) with
    | some (w, n) => transportV w n s
    | none => s) s)

def execAdd (f : VSlot) (s : State) : Host.Outcome State Fault Refusal :=
  .next (act (.add f) (trigger (.add f) (intOp fun _ a b _ => a + b)) s)
def execSub (f : VSlot) (s : State) : Host.Outcome State Fault Refusal :=
  .next (act (.sub f) (trigger (.sub f) (intOp fun _ a b _ => a - b)) s)
def execMul (f : VSlot) (s : State) : Host.Outcome State Fault Refusal :=
  .next (act (.mul f) (trigger (.mul f) (intOp fun _ a b _ => a * b)) s)
def execMulhi (f : VSlot) (s : State) : Host.Outcome State Fault Refusal :=
  .next (act (.mulhi f) (trigger (.mulhi f) (intOp fun w a b _ => a * b / 2 ^ w)) s)
def execMad (f : VSlot) (s : State) : Host.Outcome State Fault Refusal :=
  .next (act (.mad f) (trigger (.mad f) (intOp fun _ a b c => a * b + c)) s)
def execAbs (f : VSlot) (s : State) : Host.Outcome State Fault Refusal :=
  .next (act (.abs f) (trigger (.abs f) (intOp fun _ a _ _ => (a.natAbs : Int))) s)
def execNeg (f : VSlot) (s : State) : Host.Outcome State Fault Refusal :=
  .next (act (.neg f) (trigger (.neg f) (intOp fun _ a _ _ => -a)) s)
def execMin (f : VSlot) (s : State) : Host.Outcome State Fault Refusal :=
  .next (act (.min f) (trigger (.min f) (intOp fun _ a b _ => min a b)) s)
def execMax (f : VSlot) (s : State) : Host.Outcome State Fault Refusal :=
  .next (act (.max f) (trigger (.max f) (intOp fun _ a b _ => max a b)) s)
def execAnd (f : VSlot) (s : State) : Host.Outcome State Fault Refusal :=
  .next (act (.and f) (trigger (.and f) (bitOp fun _ a b _ => a &&& b)) s)
def execOr (f : VSlot) (s : State) : Host.Outcome State Fault Refusal :=
  .next (act (.or f) (trigger (.or f) (bitOp fun _ a b _ => a ||| b)) s)
def execXor (f : VSlot) (s : State) : Host.Outcome State Fault Refusal :=
  .next (act (.xor f) (trigger (.xor f) (bitOp fun _ a b _ => a ^^^ b)) s)
def execNot (f : VSlot) (s : State) : Host.Outcome State Fault Refusal :=
  .next (act (.not f) (trigger (.not f) (bitOp fun w a _ _ => 2 ^ w - 1 - a)) s)
def execAndn (f : VSlot) (s : State) : Host.Outcome State Fault Refusal :=
  .next (act (.andn f) (trigger (.andn f) (bitOp fun w a b _ => a &&& (2 ^ w - 1 - b))) s)
def execShl (f : VSlot) (s : State) : Host.Outcome State Fault Refusal :=
  .next (act (.shl f) (trigger (.shl f) (intOp fun _ a b _ => a * 2 ^ shiftCount b)) s)
def execShr (f : VSlot) (s : State) : Host.Outcome State Fault Refusal :=
  .next (act (.shr f) (trigger (.shr f) (intOp fun _ a b _ => a / 2 ^ shiftCount b)) s)
def execRotl (f : VSlot) (s : State) : Host.Outcome State Fault Refusal :=
  .next (act (.rotl f) (trigger (.rotl f) (bitOp fun w a b _ => rotl w a (b % 256))) s)
def execRotr (f : VSlot) (s : State) : Host.Outcome State Fault Refusal :=
  .next (act (.rotr f) (trigger (.rotr f) (bitOp fun w a b _ => rotl w a (w - b % 256 % w))) s)
def execBfx (f : VSlot) (s : State) : Host.Outcome State Fault Refusal :=
  .next (act (.bfx f) (trigger (.bfx f) (lanewise fun t a _ c =>
    ofInt (tySigned t) (tyBits t) (bfxVal (tySigned t) (tyBits t) (portInt t a) c.toNat))) s)
def execBfi (f : VSlot) (s : State) : Host.Outcome State Fault Refusal :=
  .next (act (.bfi f) (trigger (.bfi f) (bitOp bfiVal)) s)
def execPopc (f : VSlot) (s : State) : Host.Outcome State Fault Refusal :=
  .next (act (.popc f) (trigger (.popc f) (bitOp fun w a _ _ => popNat w a)) s)
def execClz (f : VSlot) (s : State) : Host.Outcome State Fault Refusal :=
  .next (act (.clz f) (trigger (.clz f) (bitOp fun w a _ _ => if a = 0 then w else w - 1 - Nat.log2 a)) s)
def execCtz (f : VSlot) (s : State) : Host.Outcome State Fault Refusal :=
  .next (act (.ctz f) (trigger (.ctz f) (bitOp fun w a _ _ => ctzNat w a)) s)
def execBrev (f : VSlot) (s : State) : Host.Outcome State Fault Refusal :=
  .next (act (.brev f) (trigger (.brev f) (bitOp fun w a _ _ => brevNat w a)) s)
def execPerm (f : VSlot) (s : State) : Host.Outcome State Fault Refusal :=
  .next (act (.perm f) (trigger (.perm f) (bitOp fun _ a b c => permVal a b c)) s)
def execSeteq (f : VSlot) (s : State) : Host.Outcome State Fault Refusal :=
  .next (act (.seteq f) (trigger (.seteq f) (relOp fun a b => a = b)) s)
def execSetne (f : VSlot) (s : State) : Host.Outcome State Fault Refusal :=
  .next (act (.setne f) (trigger (.setne f) (relOp fun a b => a ≠ b)) s)
def execSetlt (f : VSlot) (s : State) : Host.Outcome State Fault Refusal :=
  .next (act (.setlt f) (trigger (.setlt f) (relOp fun a b => a < b)) s)
def execSetle (f : VSlot) (s : State) : Host.Outcome State Fault Refusal :=
  .next (act (.setle f) (trigger (.setle f) (relOp fun a b => a ≤ b)) s)
def execSetgt (f : VSlot) (s : State) : Host.Outcome State Fault Refusal :=
  .next (act (.setgt f) (trigger (.setgt f) (relOp fun a b => b < a)) s)
def execSetge (f : VSlot) (s : State) : Host.Outcome State Fault Refusal :=
  .next (act (.setge f) (trigger (.setge f) (relOp fun a b => b ≤ a)) s)
def execPlog (f : VSlot) (s : State) : Host.Outcome State Fault Refusal :=
  .next (act (.plog f) (trigger (.plog f) (bitOp fun _ a b c => plogVal a b c)) s)
def execSel (f : VSlot) (s : State) : Host.Outcome State Fault Refusal :=
  .next (act (.sel f) (trigger (.sel f) (bitOp fun _ a b c => if c % 2 = 1 then a else b)) s)
def execMov (f : VSlot) (s : State) : Host.Outcome State Fault Refusal :=
  .next (act (.mov f) (trigger (.mov f) (bitOp fun _ a _ _ => a)) s)

end Sys2Proof.Machine
end

