-- ==== Sys2Proof/Machine/VStr.lean ====
section
/-!
DEFINITION. The string unit (R284-R290) and DFA steps with their L1 read (R291, R292).
-/

namespace Sys2Proof.Machine

open Sys2Proof

/-- The bytes of a type's value, byte 0 first. -/
def bytesOf (t : Ty) (x : DWord) : List Nat := (List.range (tyBits t / 8)).map fun i => x.toNat / 256 ^ i % 256

/-- SCMP of two byte strings (R284). -/
def scmpBytes : List Nat → List Nat → Nat
  | a :: l, b :: m => if a = b then scmpBytes l m else if a < b then 0xFFFFFFFF else 1
  | _, _ => 0

/-- Number of leading bytes that agree (R286). -/
def agree : List Nat → List Nat → Nat
  | a :: l, b :: m => if a = b then 1 + agree l m else 0
  | _, _ => 0

/-- SPFX (R286). -/
def spfxVal (c : Nat) (a b : List Nat) : Nat :=
  if 2 ^ 31 ≤ c then c
  else
    let p := agree a b
    let r := min (c + p) (2 ^ 31 - 1)
    if p < a.length then r + 2 ^ 31 else r

/-- SFIND (R287): the lowest position from `from_` on that holds a byte. -/
def sfindVal (from_ byte : Nat) (a : List Nat) : Nat :=
  ((List.range a.length).find? fun i => from_ ≤ i && a.getD i 0 = byte).getD a.length

/-- One bit of the reflected CRC-32C remainder (R288). -/
def crcBit (crc : Nat) : Nat := if crc % 2 = 1 then crc / 2 ^^^ 0x82F63B78 else crc / 2

/-- One byte of it. -/
def crcByte (crc b : Nat) : Nat := crcBit (crcBit (crcBit (crcBit (crcBit (crcBit (crcBit (crcBit (crc ^^^ b))))))))

/-- HMIX (R289). -/
def hmixVal (t : Ty) (a b : Nat) : Nat :=
  if tyBits t = 64 then
    let h := (a ^^^ b) * 0x100000001B3 % 2 ^ 64
    h ^^^ (h / 2 ^ 29)
  else
    let h := (a ^^^ b) * 0x1000193 % 2 ^ 32
    h ^^^ (h / 2 ^ 15)

/-- FOLD of one byte (R290). -/
def foldByte (b : Nat) : Nat := if 0x41 ≤ b && b ≤ 0x5A then b + 0x20 else b

/-- A number from bytes, byte 0 lowest. -/
def ofBytes : List Nat → Nat
  | [] => 0
  | b :: l => b + 256 * ofBytes l

/-- The string operations as functions of the ports. -/
def strOp (g : Ty → DWord → DWord → Nat → Nat) (s : State) (w : VWord) : VOut :=
  lanewise (fun t a b c => BitVec.ofNat 64 (g t a b (lo32 c).toNat)) s w

def execScmp (f : VSlot) (s : State) : Host.Outcome State Fault Refusal :=
  .next (act (.scmp f) (trigger (.scmp f) (strOp fun t a b c => if c = 0 then scmpBytes (bytesOf t a) (bytesOf t b) else c)) s)
def execSeq (f : VSlot) (s : State) : Host.Outcome State Fault Refusal :=
  .next (act (.seq f) (trigger (.seq f) (strOp fun t a b c =>
    if (bytesOf t a).take (c % 16) = (bytesOf t b).take (c % 16) then 1 else 0)) s)
def execSpfx (f : VSlot) (s : State) : Host.Outcome State Fault Refusal :=
  .next (act (.spfx f) (trigger (.spfx f) (strOp fun t a b c => spfxVal c (bytesOf t a) (bytesOf t b))) s)
def execSfind (f : VSlot) (s : State) : Host.Outcome State Fault Refusal :=
  .next (act (.sfind f) (trigger (.sfind f) (strOp fun t a b c => sfindVal (b.toNat % 16) (c % 256) (bytesOf t a))) s)
def execCrc32c (f : VSlot) (s : State) : Host.Outcome State Fault Refusal :=
  .next (act (.crc32c f) (trigger (.crc32c f) (strOp fun t a b _ => (bytesOf t a).foldl crcByte (lo32 b).toNat)) s)
def execHmix (f : VSlot) (s : State) : Host.Outcome State Fault Refusal :=
  .next (act (.hmix f) (trigger (.hmix f) (strOp fun t a b _ => hmixVal t (low t a) (low t b))) s)
def execFold (f : VSlot) (s : State) : Host.Outcome State Fault Refusal :=
  .next (act (.fold f) (trigger (.fold f) (strOp fun t a _ _ => ofBytes ((bytesOf t a).map foldByte))) s)

/-! ### DFA (R291, R292) -/

/-- The L1 offset of a step's table entry. -/
def dfaOff (a b c : Nat) : Nat := (c % 65536 + a % 32768 * 512 + b % 256 * 2) % 65536

/-- A step's result from its table entry. -/
def dfaResult (accept : Bool) (entry : Nat) : Nat :=
  entry % 32768 + (if accept || 32768 ≤ entry then 2 ^ 31 else 0)

/-- A DFA step issues: transports now, the L1 read one tick later. -/
def dfaIssue (f : VSlot) (s : State) : State :=
  match vInfo (.dfa f) with
  | some (w, n) =>
    let s := occupy (.dfa f) (transportV w n s)
    let p (l : Lane) := unitPorts s .str l
    let o : DfaOp :=
      { id := s.nextId, off := Lanes.of fun l => BitVec.ofNat 32 (dfaOff (p l).1.toNat (p l).2.1.toNat (p l).2.2.toNat),
        acc := maskOf fun l => (p l).1.getLsbD 31, en := enabled s f.guard f.path, left := Lanes.all 1, dep := f.dep }
    (fresh (onIw (fun x => { x with dfas := x.dfas ++ [o] }) s)).2
  | none => s

def execDfa (f : VSlot) (s : State) : Host.Outcome State Fault Refusal :=
  .next (act (.dfa f) (dfaIssue f) s)

/-- A result in flight enters the list in the order of its trigger (R68). -/
def Wave.addFlight (x : Wave) (f : Flight) : Wave :=
  { x with flights := (x.flights.filter fun g => g.id < f.id) ++ [f] ++ x.flights.filter fun g => f.id ≤ g.id }

/-- The L1 read of a step in the lanes whose tick it is: its result lands seven ticks later (R62, R292). -/
def Wave.dfaRead (read : Lane → Nat → Byte) (x : Wave) (o : DfaOp) : Wave :=
  let m := o.en &&& maskOf fun l => o.left[l] = 0
  let rest := o.en &&& ~~~m
  let entry (l : Lane) : Nat :=
    (read l o.off[l].toNat).toNat + 256 * (read l ((o.off[l].toNat + 1) % 65536)).toNat
  let f : Flight :=
    { id := o.id, unit := .str, val := Lanes.of fun l => if laneBit m l then BitVec.ofNat 64 (dfaResult (laneBit o.acc l) (entry l)) else 0,
      chain := none, count := none, en := m, left := Lanes.all 7, dep := o.dep, wide := false, cond := Lanes.all 0, enb := 0, raised := 0 }
  let x := if rest = 0 then x else { x with dfas := x.dfas ++ [{ o with en := rest }] }
  if m = 0 then x else x.addFlight f

end Sys2Proof.Machine
end

