-- ==== Sys2Proof/Machine/MSlot.lean ====
section
/-!
DEFINITION. The m slot in its issue cycle (R293-R316): transports, the queue entry of a variable-latency access, `.lin`
accesses, queue loads, marks, fences and prefetch. What the entries do later stands in Machine/MemEvents.lean.
-/

namespace Sys2Proof.Machine

open Sys2Proof

/-! ### Windows: step tags, source ranks and sequences (R165) -/

/-- The step that tags a wave's window writes (R165). -/
def winTag (s : State) (w : Wave) : Word := (s.ctx w.ctx).step + (if w.ahead then 1 else 0)

/-- A participant's context slot on a core: one for each context, in the order of their first window writes there (R165; log
entry 125, DEDUCED). -/
def ctxSlot (c : Core) (x : CtxId) : Nat := c.ctxSlots.idxOf x

/-- A context takes its slot on a core. -/
def takeSlot (x : CtxId) (c : Core) : Core := if c.ctxSlots.contains x then c else { c with ctxSlots := c.ctxSlots ++ [x] }

/-- Source rank of a participant's waves on a core (R165). -/
def winRank (s : State) (k : CoreId) (c : CtxId) : BitVec 28 :=
  BitVec.ofNat 28 (((s.ctx c).domain.map (·.rank)).getD 0 * 2 ^ 18 + k.val * 64 + ctxSlot (s.core k) c)

/-- Window stores and KICKs that a source has counted for a step (R165). -/
def winCount (s : State) (c : CtxId) (rank : BitVec 28) (tag : Word) : Nat :=
  (((s.ctx c).counts.find? fun x => x.1 = rank && x.2.1 = tag).map (·.2.2)).getD 0

/-- Takes the next n of a source and step. -/
def takeSeq (k : CoreId) (c : CtxId) (rank : BitVec 28) (tag : Word) (s : State) : State :=
  let n := winCount s c rank tag
  let s := onCore k (takeSlot c) s
  onCtx c (fun x => { x with counts := (rank, tag, n + 1) :: x.counts.filter fun y => !(y.1 = rank && y.2.1 = tag) }) s

/-! ### Queue entries -/

/-- What an m opcode puts into the queues. -/
def mKind : Nat → MKind
  | 1 | 3 | 14 | 16 => .load
  | 2 | 4 | 15 | 17 => .store
  | 5 | 18 => .winLoad
  | 6 | 19 => .winStore
  | 7 => .l1load
  | 8 => .ldc
  | 11 => .gather
  | 12 => .scatter
  | 13 => .qload
  | 48 => .sumAdd
  | 49 => .fadd64
  | 50 => .vupd
  | 51 => .zfill
  | 53 | 54 => .mark
  | 55 => .fence
  | n => .atom (Fin.ofNat 8 n)

/-- Where a lane's access goes: the place its translation at issue gives (R298, R444). -/
def laneAccess (s : State) (w : MWord) (n : MInfo) (l : Lane) : LaneAcc :=
  let ea := effAddr s w n l
  match n.space with
  | .none | .l1 | .scratch => ⟨ea.toNat, false, 0⟩
  | _ => match translated s s.issue.core s.iw.ctx ea with
    | .page t => ⟨if t.sumcell then t.cellAddr ea else t.addr ea, t.sumcell, t.win⟩
    | _ => ⟨0, false, 0⟩

/-- The 32-bit b operand of a lane: an L1 offset or a length. -/
def laneLen (s : State) (w : MWord) (n : MInfo) (l : Lane) : Nat := (lo32 ((mOperandB s w n l).setWidth 64)).toNat

/-- The physical ranges of a ZFILL lane, one for each 64 KiB page it touches (R313). -/
def zeroRanges (s : State) (w : MWord) (n : MInfo) (l : Lane) : List (Lane × Nat × Nat) :=
  let a := (effAddr s w n l).toNat
  let e := a + laneLen s w n l
  (rangePages (effAddr s w n l) (laneLen s w n l)).filterMap fun p =>
    let lo := max a p.toNat
    let hi := min e (p.toNat + 65536)
    match translated s s.issue.core s.iw.ctx p with
    | .page t => some (l, t.addr (BitVec.ofNat 64 lo), hi - lo)
    | _ => none

/-! ### Class 0 at a Yard bank (R122, R123, R183, R184) -/

/-- The bank of a Yard address, by its number in the package (R122). -/
def yardBank (pa : Nat) : Option Nat :=
  if yardBase ≤ pa then some ((pa - yardBase) / yardStride * 256 + (pa - yardBase) % yardStride / 64 % 256) else none

/-- The banks to which the lanes of an entry send requests. -/
def MemOp.banks (o : MemOp) : List Nat := (lanesOf o.en).filterMap fun l => yardBank o.acc[l].pa

/-- Core cycles that eight L2 cycles last at least, and at most (R17, R149). -/
def eightL2 (s : State) : Nat × Nat := (8 * s.clockKhz / 1500000, (8 * s.clockKhz + 1499999) / 1500000)

/-- A class-0 wave's Yard requests keep to one per eight L2 cycles to a bank, counted over the package (R183). -/
def yardWithin (s : State) (o : MemOp) : Bool :=
  s.iw.cls = 0 && o.banks ≠ [] && o.banks.dedup.length = o.banks.length
    && !(s.yard0.any fun x => o.banks.contains x.1 && s.cycle < x.2 + (eightL2 s).2)
    && ((s.image? s.iw.ctx s.iw.image).map fun im => imageWithin im s.iw.nregs) = some true && s.iw.partner.isNone

/-- An entry's access begins a free time after its issue: that of its way, and that of its wait at the bank, which the
reserved bank cycle bounds for class-0 work within its reservation (R123, R184). -/
def memDue (s : State) (o : MemOp) : Nat :=
  let wait := Config.latency (s.free + 1)
  s.cycle + Config.latency s.free + (if yardWithin s o then wait % ((eightL2 s).1 + 1) else wait)

/-- The Yard banks that a class-0 wave has sent requests to (R183). -/
def noteBanks (o : MemOp) (s : State) : State :=
  if s.iw.cls ≠ 0 || o.banks = [] then s
  else { s with yard0 := o.banks.map (fun b => (b, s.cycle)) ++ s.yard0.filter fun x => !o.banks.contains x.1 }

/-- The queue entry of an m slot, from the state before its transports. -/
def memOp (s : State) (w : MWord) (n : MInfo) : MemOp :=
  let x := s.iw
  let f := w.f
  let kind := mKind w.op
  let en := if kind.isOrder then 0 else enabled s f.guard f.path
  { id := s.nextId, wave := x.uid, slot := s.issue.slot, group := x.group, kind := kind, ctx := x.ctx,
    gen := (s.ctx x.ctx).gen, born := s.cycle, due := s.cycle, pc := s.issue.pc, size := f.size,
    en := en, ea := Lanes.of fun l => effAddr s w n l, acc := Lanes.of fun l => if laneBit en l then laneAccess s w n l else ⟨0, false, 0⟩,
    data := Lanes.of fun l => mOperandB s w n l,
    len := Lanes.of fun l => if kind = .ldc then laneLen s w n l else 0,
    zero := if kind = .zfill then (lanesOf en).flatMap fun l => zeroRanges s w n l else [],
    acq := [14, 16, 18].contains w.op || f.order = .acq || f.order = .ar,
    rel := [15, 17, 19].contains w.op || f.order = .rel || f.order = .ar,
    scope := f.scope, dep := f.dep, qslots := none,
    sem := if mNamesSem w n then semPhys s s.issue.core x.ctx f.sem else none,
    token := tokenGated s w n en, tag := winTag s x, seqN := 0, rank := winRank s s.issue.core x.ctx,
    pair := x.holdAfter, left := en, failed := 0, atG := false, obs := x.obs, sent := false, got := 0, pages := [] }

/-- The entry's place at the end of its queue. -/
def queueOp (op : MemOp) : State → State := fun s => onCore s.issue.core (fun c => { c with ops := c.ops ++ [op] }) s

/-- Enters an entry in its queue. One without enabled lanes completes in its issue cycle and adds 1, or 0 for an LDC, in
the next (R297); what it orders stays in the queue (R147). -/
def enqueue (op : MemOp) (s : State) : State :=
  let op := { op with due := memDue s op }
  let s := { s with nextId := s.nextId + 1, free := s.free + 2 }
  if op.en = 0 && !op.kind.isOrder then
    let s := if op.kind = .ldc then s else complete s.issue.core op.sem 1 s
    if op.acq || op.rel then queueOp { op with kind := .masked op.kind.stores } s else s
  else queueOp op (noteBanks op s)

/-- An m slot issues: its entry, then its transports (R293). -/
def issueMem (i : Instr) (prep : State → MWord → MemOp → MemOp × State) (s : State) : State :=
  match mInfo i with
  | some (w, n) =>
    let r := prep s w (memOp s w n)
    enqueue r.1 (transportM w n r.2)
  | none => s

/-- No preparation. -/
def plainOp (s : State) (_ : MWord) (op : MemOp) : MemOp × State := (op, s)

/-- A window store takes its n whether or not a lane is enabled (R165). -/
def winStoreOp (s : State) (_ : MWord) (op : MemOp) : MemOp × State :=
  ({ op with seqN := winCount s op.ctx op.rank op.tag }, takeSeq s.issue.core op.ctx op.rank op.tag s)

/-! ### Queue loads (R308, R426) -/

/-- Writes lanes of a slot (log entry 114, DEDUCED). -/
def QSlot.fill (m : Mask) (v : Lanes Word) (x : QSlot) : QSlot :=
  { x with val := Lanes.blend m v x.val, got := x.got ||| m, full := x.got ||| m = fullMask }

/-- Changes n slots of a window from one on. -/
def QWindow.onSlots (x : QWindow) (q : Fin 16) (n : Nat) (f : Nat → QSlot → QSlot) : QWindow :=
  (List.range n).foldl (fun (x : QWindow) i =>
    { x with slots := vset x.slots (Fin.ofNat 16 (q.val + i)) (f i) }) x

/-- The tail of a window. -/
def QWindow.tail (x : QWindow) : Fin 16 := Fin.ofNat 16 (x.head.val + x.count)

/-- A slot is allocated and not popped. -/
def QWindow.holds (x : QWindow) (q : Fin 16) : Bool := (q.val + 16 - x.head.val) % 16 < x.count

def onWindow (k : CoreId) (w : SlotId) (f : QWindow → QWindow) : State → State :=
  onWave k w fun x => { x with window := f x.window }

/-- The slots that a queue load fills, numbered. -/
def loadSlots (o : MemOp) : List (Nat × Fin 16) :=
  match o.qslots with
  | some q => (List.range (if o.size = .b8 then 2 else 1)).map fun i => (i, Fin.ofNat 16 (q.val + i))
  | none => []

/-- Those of them that the window still holds for it: allocated, and not popped. -/
def QWindow.heldBy (x : QWindow) (o : MemOp) : List (Nat × Fin 16) :=
  (loadSlots o).filter fun p => x.holds p.2 && x.slots[p.2].load = o.seqN

/-- Allocates slots at the tail for an entry: lanes that are masked off hold zero, faulting lanes stay unfilled. -/
def QWindow.alloc (x : QWindow) (n : Nat) (en off : Mask) (id : Nat) (mark : Option Nat) : QWindow :=
  let got : Mask := ~~~(en ||| off)
  { x.onSlots x.tail n (fun i _ => ⟨Lanes.all 0, got = fullMask, got, id, if i = 0 then mark else none⟩) with
    count := x.count + n, nextSeq := x.nextSeq + BitVec.ofNat 32 n }

/-- A queue load allocates its slots at issue, for the whole wave; a re-issue after a lane fault fills the slots that its
trap record holds (R308, R426). -/
def queueLoadOp (s : State) (w : MWord) (op : MemOp) : MemOp × State :=
  match s.iw.partner with
  | none => (op, s)
  | some p =>
    let k := s.issue.core
    let n := qSlotsOf w.f
    let x := (s.wave k p).window
    let off : Mask := match s.issue.off with
      | some r => s.iw.splits[r].mask
      | none => 0
    let q := s.is.slot?.getD x.tail
    let s' := match s.issue.off with
      | some r => onSplit k s.issue.slot r (fun y => { y with qslot := some q, apc := y.pc }) s
      | none => s
    match s.is.slot? with
    | some q =>
      ({ op with qslots := some q, seqN := x.slots[q].load },
       onWindow k p (fun y => y.onSlots q n fun _ z => z.fill (s.is.mask &&& ~~~op.en) (Lanes.all 0)) s')
    | none =>
      ({ op with qslots := some q, seqN := op.id },
       onIw (fun y => { y with markNext := none })
         (onWindow k p (fun y => y.alloc n op.en off op.id s.iw.markNext) s'))

/-! ### MARK.PAIR (R139) -/

/-- A MARK.PAIR of a compute wave holds its shadow's queue loads back; one of a shadow goes with the next slot it
allocates. Without a partner it is a MARK (log entry 50, DEDUCED). -/
def markPairOp (s : State) (_ : MWord) (op : MemOp) : MemOp × State :=
  match s.iw.kind, s.iw.partner with
  | .shadow, _ => ({ op with pair := none }, onIw (fun x => { x with markNext := some op.id }) s)
  | .compute, some _ => ({ op with pair := some op.id }, s)
  | _, _ => ({ op with pair := none }, s)

/-- A mark or a fence holds no pair order of its own. -/
def orderOp (s : State) (_ : MWord) (op : MemOp) : MemOp × State := ({ op with pair := none }, s)

/-- The slots that the shadow has allocated and the compute wave has not popped are filled again after a MARK.PAIR of
the compute wave: their loads perform again, and no semaphore is added to twice (R139). -/
def reperform (s : State) : State :=
  match s.iw.kind, s.iw.partner with
  | .compute, some p =>
    let k := s.issue.core
    let sh := s.wave k p
    let x := s.iw.window
    let again (o : MemOp) : Bool := o.kind = .qload && o.wave = sh.uid && x.heldBy o ≠ []
    let ops := (s.core k).ops
    let s := onCore k (fun c => { c with ops := c.ops.map fun o => if again o then { o with left := o.en } else o }) s
    let refill (y : QWindow) (o : MemOp) : QWindow := (y.heldBy o).foldl (fun (y : QWindow) p =>
      { y with slots := vset y.slots p.2 fun z => { z with got := z.got &&& ~~~o.en, full := false } }) y
    onIw (fun y => { y with window := (ops.filter again).foldl refill y.window }) s
  | _, _ => s

/-! ### `.lin` accesses (R117, R304) -/

/-- A `.lin` access issues: seven ticks to its bank cycle. -/
def issueLin (i : Instr) (store : Bool) (s : State) : State :=
  match mInfo i with
  | some (w, n) =>
    let en := enabled s w.f.guard w.f.path
    let o : LinOp :=
      { id := s.nextId, store := store, off := Lanes.of fun l => lo32 (effAddr s w n l),
        data := Lanes.of fun l => (mOperandB s w n l).setWidth 64, size := w.f.size, en := en, left := Lanes.all 7,
        dep := match w.f.dep with | some r => .v r | none => .none }
    (fresh (onIw (fun x => { x with lins := x.lins ++ [o] }) (transportM w n s))).2
  | none => s

/-- A prefetch only transports (R314; log entry 30, DEDUCED). -/
def issuePref (i : Instr) (s : State) : State :=
  match mInfo i with
  | some (w, n) => transportM w n s
  | none => s

/-! ### Meanings -/

def execLdG (f : MSlot) (s : State) : Host.Outcome State Fault Refusal := .next (act (.ldG f) (issueMem (.ldG f) plainOp) s)
def execStG (f : MSlot) (s : State) : Host.Outcome State Fault Refusal := .next (act (.stG f) (issueMem (.stG f) plainOp) s)
def execLdY (f : MSlot) (s : State) : Host.Outcome State Fault Refusal := .next (act (.ldY f) (issueMem (.ldY f) plainOp) s)
def execStY (f : MSlot) (s : State) : Host.Outcome State Fault Refusal := .next (act (.stY f) (issueMem (.stY f) plainOp) s)
def execLdW (f : MSlot) (s : State) : Host.Outcome State Fault Refusal := .next (act (.ldW f) (issueMem (.ldW f) plainOp) s)
def execStW (f : MSlot) (s : State) : Host.Outcome State Fault Refusal := .next (act (.stW f) (issueMem (.stW f) winStoreOp) s)
def execLdAcqG (f : MSlot) (s : State) : Host.Outcome State Fault Refusal := .next (act (.ldAcqG f) (issueMem (.ldAcqG f) plainOp) s)
def execStRelG (f : MSlot) (s : State) : Host.Outcome State Fault Refusal := .next (act (.stRelG f) (issueMem (.stRelG f) plainOp) s)
def execLdAcqY (f : MSlot) (s : State) : Host.Outcome State Fault Refusal := .next (act (.ldAcqY f) (issueMem (.ldAcqY f) plainOp) s)
def execStRelY (f : MSlot) (s : State) : Host.Outcome State Fault Refusal := .next (act (.stRelY f) (issueMem (.stRelY f) plainOp) s)
def execLdAcqW (f : MSlot) (s : State) : Host.Outcome State Fault Refusal := .next (act (.ldAcqW f) (issueMem (.ldAcqW f) plainOp) s)
def execStRelW (f : MSlot) (s : State) : Host.Outcome State Fault Refusal := .next (act (.stRelW f) (issueMem (.stRelW f) winStoreOp) s)
def execLdL1 (f : MSlot) (s : State) : Host.Outcome State Fault Refusal := .next (act (.ldL1 f) (issueMem (.ldL1 f) plainOp) s)
def execLdc (f : MSlot) (s : State) : Host.Outcome State Fault Refusal := .next (act (.ldc f) (issueMem (.ldc f) plainOp) s)
def execLdSLin (f : MSlot) (s : State) : Host.Outcome State Fault Refusal := .next (act (.ldSLin f) (issueLin (.ldSLin f) false) s)
def execStSLin (f : MSlot) (s : State) : Host.Outcome State Fault Refusal := .next (act (.stSLin f) (issueLin (.stSLin f) true) s)
def execLdS (f : MSlot) (s : State) : Host.Outcome State Fault Refusal := .next (act (.ldS f) (issueMem (.ldS f) plainOp) s)
def execStS (f : MSlot) (s : State) : Host.Outcome State Fault Refusal := .next (act (.stS f) (issueMem (.stS f) plainOp) s)
def execLdQ (f : MSlot) (s : State) : Host.Outcome State Fault Refusal := .next (act (.ldQ f) (issueMem (.ldQ f) queueLoadOp) s)
def execAtomGAdd (f : MSlot) (s : State) : Host.Outcome State Fault Refusal := .next (act (.atomGAdd f) (issueMem (.atomGAdd f) plainOp) s)
def execAtomGMin (f : MSlot) (s : State) : Host.Outcome State Fault Refusal := .next (act (.atomGMin f) (issueMem (.atomGMin f) plainOp) s)
def execAtomGMax (f : MSlot) (s : State) : Host.Outcome State Fault Refusal := .next (act (.atomGMax f) (issueMem (.atomGMax f) plainOp) s)
def execAtomGAnd (f : MSlot) (s : State) : Host.Outcome State Fault Refusal := .next (act (.atomGAnd f) (issueMem (.atomGAnd f) plainOp) s)
def execAtomGOr (f : MSlot) (s : State) : Host.Outcome State Fault Refusal := .next (act (.atomGOr f) (issueMem (.atomGOr f) plainOp) s)
def execAtomGXor (f : MSlot) (s : State) : Host.Outcome State Fault Refusal := .next (act (.atomGXor f) (issueMem (.atomGXor f) plainOp) s)
def execAtomGXchg (f : MSlot) (s : State) : Host.Outcome State Fault Refusal := .next (act (.atomGXchg f) (issueMem (.atomGXchg f) plainOp) s)
def execAtomGCas (f : MSlot) (s : State) : Host.Outcome State Fault Refusal := .next (act (.atomGCas f) (issueMem (.atomGCas f) plainOp) s)
def execAtomYAdd (f : MSlot) (s : State) : Host.Outcome State Fault Refusal := .next (act (.atomYAdd f) (issueMem (.atomYAdd f) plainOp) s)
def execAtomYMin (f : MSlot) (s : State) : Host.Outcome State Fault Refusal := .next (act (.atomYMin f) (issueMem (.atomYMin f) plainOp) s)
def execAtomYMax (f : MSlot) (s : State) : Host.Outcome State Fault Refusal := .next (act (.atomYMax f) (issueMem (.atomYMax f) plainOp) s)
def execAtomYAnd (f : MSlot) (s : State) : Host.Outcome State Fault Refusal := .next (act (.atomYAnd f) (issueMem (.atomYAnd f) plainOp) s)
def execAtomYOr (f : MSlot) (s : State) : Host.Outcome State Fault Refusal := .next (act (.atomYOr f) (issueMem (.atomYOr f) plainOp) s)
def execAtomYXor (f : MSlot) (s : State) : Host.Outcome State Fault Refusal := .next (act (.atomYXor f) (issueMem (.atomYXor f) plainOp) s)
def execAtomYXchg (f : MSlot) (s : State) : Host.Outcome State Fault Refusal := .next (act (.atomYXchg f) (issueMem (.atomYXchg f) plainOp) s)
def execAtomYCas (f : MSlot) (s : State) : Host.Outcome State Fault Refusal := .next (act (.atomYCas f) (issueMem (.atomYCas f) plainOp) s)
def execFaddX (f : MSlot) (s : State) : Host.Outcome State Fault Refusal := .next (act (.faddX f) (issueMem (.faddX f) plainOp) s)
def execFaddY64 (f : MSlot) (s : State) : Host.Outcome State Fault Refusal := .next (act (.faddY64 f) (issueMem (.faddY64 f) plainOp) s)
def execVupd (f : MSlot) (s : State) : Host.Outcome State Fault Refusal := .next (act (.vupd f) (issueMem (.vupd f) plainOp) s)
def execZfill (f : MSlot) (s : State) : Host.Outcome State Fault Refusal := .next (act (.zfill f) (issueMem (.zfill f) plainOp) s)
def execPref (f : MSlot) (s : State) : Host.Outcome State Fault Refusal := .next (act (.pref f) (issuePref (.pref f)) s)
def execMark (f : MSlot) (s : State) : Host.Outcome State Fault Refusal := .next (act (.mark f) (issueMem (.mark f) orderOp) s)
def execMarkPair (f : MSlot) (s : State) : Host.Outcome State Fault Refusal :=
  .next (act (.markPair f) (fun s => reperform (issueMem (.markPair f) markPairOp s)) s)
def execFence (f : MSlot) (s : State) : Host.Outcome State Fault Refusal := .next (act (.fence f) (issueMem (.fence f) orderOp) s)

end Sys2Proof.Machine
end

