-- ==== Sys2Proof/Machine/Mbohus.lean ====
section
/-!
DEFINITION. Packets that leave on a UALink station: the path table (R462), and Mbohus messages, which stay with the hub
until they are acknowledged (R462, R463, R468).
-/

namespace Sys2Proof.Machine

open Sys2Proof

/-- A time in ns as core cycles (log entry 108, DEDUCED). -/
def nsCycles (s : State) (ns : Nat) : Nat := ns * s.clockKhz / 1000000

/-- The time after which an unacknowledged packet is sent again: 16 µs (R462). -/
def retryTime (s : State) : Nat := nsCycles s 16000

/-- The path-table entry of a module (R462). -/
def pathEntry (s : State) (dst : BitVec 10) : List Byte :=
  ((s.hub.paths.find? fun x => x.1 = dst.toNat).map (·.2)).getD (List.replicate 48 0)

/-- The path of a packet: station and route word (R462); none when the module is unreachable. -/
def pathFor (s : State) (dst : BitVec 10) (flow : Byte) (attempt : Nat) : Option (Nat × DWord) :=
  let e := pathEntry s dst
  let n := (e.getD 0 0).toNat
  if n = 0 then none
  else
    let i := (flow.toNat + attempt) % n
    some ((e.getD (4 + i) 0).toNat, BitVec.ofNat 64 (leNat ((e.drop (8 + 8 * i)).take 8)))

/-- Changes the directory row of a domain. -/
def onRow (d : Word) (f : DomainRow → DomainRow) : State → State :=
  onHub fun h => { h with rows := h.rows.map fun r => if r.domain = d then f r else r }

/-- The directory row of a domain (R464). -/
def State.row? (s : State) (d : Word) : Option DomainRow := s.hub.rows.find? fun r => r.domain = d

/-- A message to a module has failed: the domain's heartbeat duty reports it (R468). -/
def markLost (dst : BitVec 10) (domain : Option Word) (s : State) : State :=
  match domain with
  | some d => onRow d (fun r => { r with lost := if r.lost.contains dst then r.lost else dst :: r.lost }) s
  | none => s

/-- The number that the next message to a module takes (R463). -/
def messageSeq (s : State) (dst : BitVec 10) : Word := ((s.hub.msgSeq.find? fun x => x.1 = dst).map (·.2)).getD 0

/-- The context bound to a domain on this module. -/
def boundCtx (s : State) (d : Word) : Option CtxId := (idxs 64).find? fun x => ((s.ctx x).domain.map (·.id)) = some d

/-- The header of a packet to a module (R460). -/
def packetHdr (s : State) (route : DWord) (dst : BitVec 10) (ctx : CtxId) (flow : Byte) (kind : Nat) (seq : Word) : PktHdr :=
  ⟨route, s.hub.module, dst, ctx, flow, kind, seq⟩

/-- Kinds of packets: a copy's data, the Mbohus messages of R464-R469, an acknowledgement (log entry 128, DESIGN CHOICE). -/
def pktData : Nat := 0
def msgForm : Nat := 1
def msgWrite : Nat := 2
def msgWack : Nat := 3
def msgRead : Nat := 4
def msgReadData : Nat := 5
def msgArrive : Nat := 6
def msgApply : Nat := 7
def msgConflict : Nat := 8
def msgApplied : Nat := 9
def msgRelease : Nat := 10
def msgHeartbeat : Nat := 11
def msgFail : Nat := 12
def msgDelayReq : Nat := 13
def pktAck : Nat := 14

/-- Sends a message to another module; without a path it fails at once (R462). -/
def podSend (dst : BitVec 10) (domain : Option Word) (kind : Nat) (fields : List Nat) (s : State) : State :=
  let seq := messageSeq s dst
  let ctx := (domain.bind (boundCtx s)).getD 0
  match pathFor s dst 0 0 with
  | none => markLost dst domain s
  | some (station, route) =>
    let x : SentPacket := ⟨dst, ctx, 0, seq, 0, none, domain, 0, [], (kind, fields), s.cycle + retryTime s⟩
    emit (.mbohus station (packetHdr s route dst ctx 0 kind seq) fields) (onHub (fun h => { h with
      msgSeq := (dst, seq + 1) :: h.msgSeq.filter fun y => y.1 ≠ dst, sent := h.sent ++ [x] }) s)

/-- An acknowledgement of a packet goes back to its source (R462, R463). -/
def podAck (src : BitVec 10) (ctx : CtxId) (flow : Byte) (seq : Word) (cause : Nat) (s : State) : State :=
  match pathFor s src flow 0 with
  | some (station, route) => emit (.ack station (packetHdr s route src ctx flow pktAck seq) cause) s
  | none => s

/-- The module of a rank in a domain's row. -/
def rankModule (s : State) (d : Word) (rank : Nat) : Option (BitVec 10) := (s.row? d).bind fun r => (r.ids[rank]?).map (·.setWidth 10)

end Sys2Proof.Machine
end

