-- ==== Sys2Proof/Machine/VFloat.lean ====
section
/-!
DEFINITION. The floating-point unit (R258-R269), chains (R96-R99) and the Hazel generator (R273) with the random bits of
stochastic rounding (R90).
-/

namespace Sys2Proof.Machine

open Sys2Proof

/-! ### Hazel and the bits of SR -/

/-- A 64-bit number rotated left (R273). -/
def rotL64 (v n : Nat) : Nat := v * 2 ^ n % 2 ^ 64 + v / 2 ^ (64 - n)

/-- One round of the generator on (x, y) (R273). -/
def hazelRound (kl kh round : Nat) (p : Nat × Nat) : Nat × Nat :=
  let x := (p.1 + kl + round) % 2 ^ 64 * 9 % 2 ^ 64
  let y := ((p.2 ^^^ rotL64 x 32) + kh) % 2 ^ 64
  (x ^^^ rotL64 y 8, y)

/-- `Hazel(key, ctr)` (R273). -/
def hazel (key ctr : Nat) : Nat :=
  let kl := key % 2 ^ 64
  let kh := key / 2 ^ 64 % 2 ^ 64
  let p := hazelRound kl kh 3 (hazelRound kl kh 2 (hazelRound kl kh 1 (hazelRound kl kh 0 (ctr % 2 ^ 64, ctr / 2 ^ 64 % 2 ^ 64))))
  p.1 ^^^ p.2

/-- `SRBits()` of element 0 in a lane, for a stream word (R90). -/
def srBits (w : Wave) (l : Lane) (stream : Nat) : Nat :=
  hazel w.seed.toNat (2 ^ 127 + w.groupNo * 2 ^ 96 + w.windex * 2 ^ 91 + l.val * 2 ^ 86 + stream % 2 ^ 32 * 2 ^ 32) % 2 ^ 32

/-! ### Operands and shapes -/

/-- A port as an encoding of a floating type. -/
def portCode (t : Ty) (x : DWord) : Nat := x.toNat % 2 ^ tyBits t

/-- An operand with its invalid condition for a signalling NaN (R92). -/
structure FArg where
  v : Val
  snan : Bool := false

def argOf (t : Ty) (x : DWord) : FArg := ⟨decodeF (fmtOfTy t) (portCode t x), isSNaN (fmtOfTy t) (portCode t x)⟩

/-- The exact value of an operation of R258 under a mode, with its conditions. -/
abbrev FShape := RMode → Val → Val → Val → Val × Cond

def shapeAdd : FShape := fun m a b _ => Val.add m a b
def shapeSub : FShape := fun m a b _ => Val.add m a b.neg
def shapeMul : FShape := fun _ a b _ => Val.mul a b
def shapeFma : FShape := fun m a b c => fmaVal m false false a b c
def shapeFms : FShape := fun m a b c => fmaVal m false true a b c
def shapeFnma : FShape := fun m a b c => fmaVal m true false a b c
def shapeFnms : FShape := fun m a b c => fmaVal m true true a b c

/-- The condition of a signalling operand among those an operation reads. -/
def sCond (l : List FArg) : Cond := invalidIf (l.any fun x => x.snan)

/-! ### Chains -/

/-- The slot is a continue or close step (R96). -/
def chainReads (w : VWord) : Bool := w.f.chain = .cont || w.f.chain = .close

/-- An operand of a chain step: the lane's full W56 value where the source names FMA.q (R97). FMA.q.hi there, of which neither
R97 nor R98 speaks, reads bits 63:32 as R98 has them elsewhere (log entry 127, DEDUCED). -/
def chainArg (s : State) (w : VWord) (src : Src) (l : Lane) (x : DWord) : FArg :=
  if chainReads w && src = .latch .fma false && laneBit s.iw.w56ok l then ⟨w56Decode s.iw.w56[l], false⟩ else argOf w.f.ty x

/-- What a step lands: port value, W56 value and conditions (R97, R99). -/
structure StepOut where
  val : DWord
  w56 : W56
  cond : Cond

/-- A step that keeps its value as W56 with one RNE rounding (R97). -/
def stepFused (x : Val × Cond) : StepOut :=
  let w := w56Encode x.1
  ⟨w56Read w, w, x.2 ||| (roundTo .w56 .rne false x.1).2⟩

/-- A step that rounds as unfused code and holds the result exactly in W56 (R99). -/
def stepRounded (t : Ty) (mode : RMode) (sat : Bool) (x : Val × Cond) : StepOut :=
  let r := roundTo (fmtOfTy t) mode sat x.1
  let w := w56Encode (decodeF (fmtOfTy t) r.1)
  ⟨w56Read w, w, x.2 ||| r.2⟩

/-- A rounded result at the slot's type (R89, R91, R258). -/
def plainOut (t : Ty) (mode : RMode) (sat : Bool) (x : Val × Cond) : DWord × Cond :=
  let r := roundTo (fmtOfTy t) mode sat x.1
  (BitVec.ofNat 64 r.1, x.2 ||| r.2)

/-- The three operands of the arithmetic family in a lane; `three` is whether c is read. -/
def fArgs (s : State) (w : VWord) (l : Lane) : FArg × FArg × FArg :=
  let p := unitPorts s w.unit l
  (chainArg s w w.f.a l p.1, chainArg s w w.f.b l p.2.1, chainArg s w w.f.c l p.2.2)

/-- The arithmetic family of R258, inside and outside chains. `n` is how many operands the operation reads. -/
def arith (g : FShape) (n : Nat) (s : State) (w : VWord) : VOut :=
  let mode := rmode w.f.rnd
  let en := enabled s w.f.guard w.f.path
  let exact (m : RMode) (l : Lane) : Val × Cond :=
    let (a, b, c) := fArgs s w l
    let r := g m a.v b.v c.v
    (r.1, r.2 ||| sCond ([a, b, c].take n))
  match w.f.chain with
  | .none | .close => outOf s w fun l _ _ _ => plainOut w.f.ty mode w.f.sat (exact mode l)
  | _ =>
    let step (l : Lane) : StepOut :=
      if (s.ctx s.iw.ctx).stepRound then stepRounded w.f.ty mode w.f.sat (exact mode l) else stepFused (exact .rne l)
    let r : Lanes (DWord × W56 × Cond) := Lanes.of fun l => if laneBit en l then (let x := step l; (x.val, x.w56, x.cond)) else (0, 0, 0)
    { val := Lanes.of fun l => r[l].1, cond := Lanes.of fun l => r[l].2.2, chain := some (Lanes.of fun l => r[l].2.1) }

/-- The chain records after a slot issues: every lane of the split, whatever the guards (R96). -/
def chainRecords (w : VWord) (s : State) : State :=
  match w.f.chain with
  | .opn => onIw (fun x => { x with chainOpen := x.chainOpen ||| s.is.mask, chainTy := Lanes.blend s.is.mask (Lanes.all w.f.ty) x.chainTy }) s
  | .close => onIw (fun x => { x with chainOpen := x.chainOpen &&& ~~~s.is.mask }) s
  | _ => s

/-- An arithmetic slot: its trigger, then its chain control. -/
def arithSlot (i : Instr) (g : FShape) (n : Nat) (s : State) : State :=
  match vInfo i with
  | some (w, _) => chainRecords w (trigger i (arith g n) s)
  | none => s

/-! ### Operations on encodings -/

/-- An operation on encodings of the slot's type. -/
def codeOp (g : FFmt → Nat → Nat → Nat × Cond) (s : State) (w : VWord) : VOut :=
  outOf s w fun _ a b _ => portF (g (fmtOfTy w.f.ty) (portCode w.f.ty a) (portCode w.f.ty b))

/-- A compare (R260): the relation over an exact order, none for unordered; `quiet` compares signal for signalling NaNs
only. -/
def fRel (quiet : Bool) (r : Option Ordering → Bool) (t : FFmt) (a b : Nat) : Nat × Cond :=
  (if r (Val.cmp (decodeF t a) (decodeF t b)) then 1 else 0,
   invalidIf (if quiet then sNaNAny t [a, b] else isNaN t a || isNaN t b))

/-- A scale count beyond which no rounded result changes any more: every finite value has then passed the range. -/
def clampScale (k : Int) : Int := max (-8192) (min 8192 k)

/-- FSCALE (R262). -/
def fscale (t : FFmt) (mode : RMode) (sat : Bool) (a : Nat) (k : Int) : Nat × Cond :=
  let r := roundTo t mode sat ((decodeF t a).scale (clampScale k))
  (r.1, r.2 ||| invalidIf (isSNaN t a))

/-- FRND (R263). -/
def frnd (t : FFmt) (mode : RMode) (sat : Bool) (a : Nat) : Nat × Cond :=
  ((roundTo t .rne sat (integralVal mode (decodeF t a))).1, invalidIf (isSNaN t a))

/-! ### Conversions (R264-R266) -/

/-- A conversion between types under a mode. -/
def convert (dst src : Ty) (mode : RMode) (sat : Bool) (a : DWord) : DWord × Cond :=
  if tyFloat src then
    let x := argOf src a
    if tyFloat dst then plainOut dst mode sat (x.v, invalidIf x.snan)
    else
      let r := roundToInt (tySigned dst) (tyBits dst) mode x.v
      (ofInt (tySigned dst) (tyBits dst) r.1, r.2)
  else if tyFloat dst then plainOut dst mode sat (Val.ofInt (portInt src a), condNone)
  else (fit dst sat (portInt src a), condNone)

/-! ### Welford operations (R267-R269) -/

/-- What a Welford operation lands: mean and M2 in the latch, the count beside them. -/
def welfordOut (s : State) (w : VWord) (g : DWord → DWord → DWord → Welford × Cond) : VOut :=
  let en := enabled s w.f.guard w.f.path
  let r : Lanes (Welford × Cond) := Lanes.of fun l =>
    if laneBit en l then (let p := unitPorts s w.unit l; g p.1 p.2.1 p.2.2) else (⟨0, 0, 0⟩, 0)
  { val := Lanes.of fun l => mk64 (BitVec.ofNat 32 r[l].1.mean) (BitVec.ofNat 32 r[l].1.m2)
    cond := Lanes.of fun l => r[l].2
    count := some (Lanes.of fun l => BitVec.ofNat 32 r[l].1.n) }

def wupd (s : State) (w : VWord) : VOut :=
  welfordOut s w fun a b c => welfordUpdate (rmode w.f.rnd) ⟨(lo32 c).toNat, (lo32 a).toNat, (hi32 a).toNat⟩ (lo32 b).toNat

def wmrg (s : State) (w : VWord) : VOut :=
  welfordOut s w fun a b c => welfordMerge (rmode w.f.rnd) ⟨(lo32 c).toNat, (lo32 a).toNat, (hi32 a).toNat⟩
    ⟨(hi32 c).toNat, (lo32 b).toNat, (hi32 b).toNat⟩

/-! ### Meanings -/

def execFadd (f : VSlot) (s : State) : Host.Outcome State Fault Refusal :=
  .next (act (.fadd f) (arithSlot (.fadd f) shapeAdd 2) s)
def execFsub (f : VSlot) (s : State) : Host.Outcome State Fault Refusal :=
  .next (act (.fsub f) (arithSlot (.fsub f) shapeSub 2) s)
def execFmul (f : VSlot) (s : State) : Host.Outcome State Fault Refusal :=
  .next (act (.fmul f) (arithSlot (.fmul f) shapeMul 2) s)
def execFma (f : VSlot) (s : State) : Host.Outcome State Fault Refusal :=
  .next (act (.fma f) (arithSlot (.fma f) shapeFma 3) s)
def execFms (f : VSlot) (s : State) : Host.Outcome State Fault Refusal :=
  .next (act (.fms f) (arithSlot (.fms f) shapeFms 3) s)
def execFnma (f : VSlot) (s : State) : Host.Outcome State Fault Refusal :=
  .next (act (.fnma f) (arithSlot (.fnma f) shapeFnma 3) s)
def execFnms (f : VSlot) (s : State) : Host.Outcome State Fault Refusal :=
  .next (act (.fnms f) (arithSlot (.fnms f) shapeFnms 3) s)
def execFmin (f : VSlot) (s : State) : Host.Outcome State Fault Refusal :=
  .next (act (.fmin f) (trigger (.fmin f) (codeOp fun t a b => minMaxF t false a b)) s)
def execFmax (f : VSlot) (s : State) : Host.Outcome State Fault Refusal :=
  .next (act (.fmax f) (trigger (.fmax f) (codeOp fun t a b => minMaxF t true a b)) s)
def execFabs (f : VSlot) (s : State) : Host.Outcome State Fault Refusal :=
  .next (act (.fabs f) (trigger (.fabs f) (codeOp fun t a _ => (fSigned t false (a % 2 ^ (fBits t - 1)), condNone))) s)
def execFneg (f : VSlot) (s : State) : Host.Outcome State Fault Refusal :=
  .next (act (.fneg f) (trigger (.fneg f) (codeOp fun t a _ => (fSigned t (!fieldNeg t a) (a % 2 ^ (fBits t - 1)), condNone))) s)
def execFcps (f : VSlot) (s : State) : Host.Outcome State Fault Refusal :=
  .next (act (.fcps f) (trigger (.fcps f) (codeOp fun t a b => (fSigned t (fieldNeg t b) (a % 2 ^ (fBits t - 1)), condNone))) s)
def execFseteq (f : VSlot) (s : State) : Host.Outcome State Fault Refusal :=
  .next (act (.fseteq f) (trigger (.fseteq f) (codeOp (fRel true fun o => o = some .eq))) s)
def execFsetne (f : VSlot) (s : State) : Host.Outcome State Fault Refusal :=
  .next (act (.fsetne f) (trigger (.fsetne f) (codeOp (fRel true fun o => o ≠ some .eq))) s)
def execFsetlt (f : VSlot) (s : State) : Host.Outcome State Fault Refusal :=
  .next (act (.fsetlt f) (trigger (.fsetlt f) (codeOp (fRel false fun o => o = some .lt))) s)
def execFsetle (f : VSlot) (s : State) : Host.Outcome State Fault Refusal :=
  .next (act (.fsetle f) (trigger (.fsetle f) (codeOp (fRel false fun o => o = some .lt || o = some .eq))) s)
def execFsetun (f : VSlot) (s : State) : Host.Outcome State Fault Refusal :=
  .next (act (.fsetun f) (trigger (.fsetun f) (codeOp (fRel true fun o => o = none))) s)
def execFclass (f : VSlot) (s : State) : Host.Outcome State Fault Refusal :=
  .next (act (.fclass f) (trigger (.fclass f) (codeOp fun t a _ => (classF t a, condNone))) s)
def execFscale (f : VSlot) (s : State) : Host.Outcome State Fault Refusal :=
  .next (act (.fscale f) (trigger (.fscale f) (fun s w => outOf s w fun _ a b _ =>
    portF (fscale (fmtOfTy f.ty) (rmode f.rnd) f.sat (portCode f.ty a) (lo32 b).toInt))) s)
def execFrnd (f : VSlot) (s : State) : Host.Outcome State Fault Refusal :=
  .next (act (.frnd f) (trigger (.frnd f) (codeOp fun t a _ => frnd t (rmode f.rnd) f.sat a)) s)
def execCvt (d : Ty) (f : VSlot) (s : State) : Host.Outcome State Fault Refusal :=
  .next (act (.cvt d f) (trigger (.cvt d f) (fun s w => outOf s w fun _ a _ _ => convert d f.ty (rmode f.rnd) f.sat a)) s)
def execCvtRna (d : Ty) (f : VSlot) (s : State) : Host.Outcome State Fault Refusal :=
  .next (act (.cvtRna d f) (trigger (.cvtRna d f) (fun s w => outOf s w fun _ a _ _ => convert d f.ty .rna f.sat a)) s)
def execCvtSr (d : Ty) (f : VSlot) (s : State) : Host.Outcome State Fault Refusal :=
  .next (act (.cvtSr d f) (trigger (.cvtSr d f) (fun s w => outOf s w fun l a _ c =>
    convert d f.ty (.sr (srBits s.iw l c.toNat)) f.sat a)) s)
def execWupd (f : VSlot) (s : State) : Host.Outcome State Fault Refusal :=
  .next (act (.wupd f) (trigger (.wupd f) wupd) s)
def execWmrg (f : VSlot) (s : State) : Host.Outcome State Fault Refusal :=
  .next (act (.wmrg f) (trigger (.wmrg f) wmrg) s)

end Sys2Proof.Machine
end

