-- ==== Sys2Proof/Machine/MemEvents.lean ====
section
/-!
DEFINITION. The memory system's own steps: arrivals, merge-buffer entries and merge steps, atomics and Yard updates,
fences, LDC fills, scratchpad accesses, and window writes on their way to a Barn. An event whose condition does not hold
changes nothing (log entry 16).
-/

namespace Sys2Proof.Machine

open Sys2Proof

/-! ### Completion -/

/-- An entry has performed in every lane: it adds to its semaphore and leaves its queue (R151). One with uncorrectable
lanes stays for the handler and adds nothing (R299). A queue load stays while a slot it fills may be filled again. -/
def finish (k : CoreId) (o : MemOp) (s : State) : State :=
  if o.failed ≠ 0 then putOp k o.id (some { o with left := 0 }) s
  else if o.kind = .qload then
    putOp k o.id (some { o with left := 0, atG := true }) (if o.atG then s else complete k o.sem 1 s)
  else putOp k o.id none (complete k o.sem 1 s)

/-- Lanes of an access fail: those of live splits wait for the handler, and the access is given up in the others, which
leaves its semaphore as it is (R299, R425; log entry 52, DEDUCED). -/
def MemOp.fail (m live : Mask) (o : MemOp) : MemOp :=
  if m &&& ~~~live = 0 then { o with failed := o.failed ||| m }
  else { o with failed := o.failed ||| (m &&& live), en := o.en &&& ~~~(m &&& ~~~live), sem := if o.kind = .ldc then o.sem else none }

/-- The splits that hold failed lanes trap before their next issue, and the record names the instruction's PC (R299, R410). -/
def pendFailed (k : CoreId) (o : MemOp) (code : TrapCode) (m : Mask) (s : State) : State :=
  if m = 0 then s
  else onWaveOf k o.slot o.wave (Wave.pendSome ⟨code, 0, m, o.ea, 0xFFFFFFFF, some o.pc⟩) s

/-- Lanes whose data proved uncorrectable trap with ECC_UNCORR (R299, R410). -/
def pendEcc (k : CoreId) (o : MemOp) (m : Mask) (s : State) : State := pendFailed k o .eccUncorr m s

/-- An access that has performed in all but its failed lanes leaves its queue or waits for the handler. -/
def finishBut (k : CoreId) (o : MemOp) (bad : Mask) (s : State) : State :=
  if bad = 0 then finish k o s
  else pendEcc k o bad (finish k (o.fail bad (uidLanes s k o.slot o.wave)) s)

/-! ### What lanes read -/

/-- A lane's data with the pending writes it comes from, or none where they are uncorrectable. -/
structure LaneRead where
  val : Nat
  from_ : List Nat
  bad : Bool
  deriving DecidableEq, Repr

/-- A byte comes from memory and its word is uncorrectable (R480; log entry 85, DEDUCED). -/
def byteBad (s : State) (k : CoreId) (uid id a : Nat) : Bool :=
  s.badAt a && (forwardByte (s.core k) uid id a).isNone && (bufferByte (s.core k) a).isNone

/-- A lane of a load from HBM or the Yard (R126, R134, R302). -/
def readTranslated (s : State) (k : CoreId) (o : MemOp) (l : Lane) : LaneRead :=
  let a := laneSpan o l
  let r := viewBytes s k o.wave o.id a.1 a.2
  let n := leNat r.1
  ⟨if o.acc[l].cell then cellRead n else n, r.2, (List.range a.2).any fun i => byteBad s k o.wave o.id (a.1 + i)⟩

/-- A scratchpad byte as a gather reads it: an earlier scatter still pending comes first (R136, R305). -/
def gatherByte (c : Core) (o : MemOp) (a : Nat) : Byte :=
  let hit (e : MemOp) (l : Lane) : Option Byte :=
    if e.acc[l].pa ≤ a && a < e.acc[l].pa + sizeBytes e.size then (leBytes 16 e.data[l].toNat)[a - e.acc[l].pa]? else none
  ((c.ops.filter fun e => e.wave = o.wave && e.id < o.id && e.kind = .scatter).foldl (fun b e =>
    (lanesOf e.left).foldl (fun b l => match hit e l with | some x => some x | none => b) b) none).getD (memRead c.scratch a)

/-- A lane of a gather. -/
def readGather (s : State) (k : CoreId) (o : MemOp) (l : Lane) : LaneRead :=
  let c := s.core k
  let a := o.acc[l].pa
  let n := sizeBytes o.size
  ⟨leNat ((List.range n).map fun i => gatherByte c o (a + i)), [], (List.range n).any fun i => c.eccSp.contains ((a + i) / 8)⟩

/-- An L1 byte as a lane reads it. Of every fill of it that is open to the reader, the read takes the byte that stands
there or the other one of the two, the old byte or the fill's, by an unspecified choice for each byte of each lane (R119,
R292). -/
def l1Byte (s : State) (k : CoreId) (open_ : L1Fill → Bool) (l : Lane) (a : Nat) : Byte :=
  let c := s.core k
  let pick := Config.choice (s.free + 1 + 65536 * l.val + a)
  c.l1Fills.zipIdx.foldl (fun b f =>
    if f.1.off ≤ a && a < f.1.off + 64 && open_ f.1 && pick / 2 ^ f.2 % 2 = 1
    then (if f.1.old = [] then f.1.new else f.1.old).getD (a - f.1.off) 0 else b) (memRead c.l1 a)

/-- A wave has not observed a fill through a header wait, so that its DFA steps see it either way (R292). -/
def unseen (uid : Nat) (f : L1Fill) : Bool := !f.seen.contains uid

/-- The lanes of a DFA step that read the L1 in this cycle. -/
def DfaOp.due (o : DfaOp) : Mask := o.en &&& maskOf fun l => o.left[l] = 0

/-- A fatal ECC_UNCORR of a wave, recorded for its lowest split (R416, R480). -/
def fatalWave (k : CoreId) (w : SlotId) (s : State) : State :=
  match (s.wave k w).liveSplits.head? with
  | some (r, _) => fatalTrap k w r TrapCode.eccUncorr.code 0 0 s
  | none => fatalLane k w (s.wave k w).group 0 .eccUncorr s

/-- The meaning of DFA_L1_READ: the wave's steps read their L1 bytes in the lanes whose clock has reached the tick (R292). An
uncorrectable one is fatal to the group (R480). -/
def execDfaL1Read (k : CoreId) (w : SlotId) (s : State) : Host.Outcome State Fault Refusal :=
  let x := s.wave k w
  .next (if (s.core k).eccL1 ≠ [] && x.dfas.any fun o => (lanesOf o.due).any fun l =>
        (s.core k).eccL1.contains (o.off[l].toNat / 8) || (s.core k).eccL1.contains ((o.off[l].toNat + 1) % 65536 / 8)
    then fatalWave k w s
    else onWave k w (fun x => x.dfas.foldl (fun y o => y.dfaRead (l1Byte s k (unseen x.uid)) o) { x with dfas := [] })
      { s with free := s.free + 1 + 2 ^ 22 })

/-- A lane of an L1 load: the fills of an LDC that has not completed are open to it (R119). -/
def readL1 (s : State) (k : CoreId) (o : MemOp) (l : Lane) : LaneRead :=
  let c := s.core k
  let l1 := (List.range (sizeBytes o.size)).map fun i => l1Byte s k (fun f => c.ops.any fun e => e.id = f.op) l (o.acc[l].pa + i)
  ⟨leNat l1, [], (List.range (sizeBytes o.size)).any fun i => c.eccL1.contains ((o.acc[l].pa + i) / 8)⟩

/-! ### Uncorrectable words of an SRAM (R479, R480) -/

/-- The uncorrectable 8-byte words of an SRAM that stay so when ranges of its bytes, each a first byte and a number, are
written: a word replaced whole is cured (R480). -/
def stillBad (l : List (Nat × Nat)) (ecc : List Nat) : List Nat :=
  ecc.filter fun x => !((List.range 8).all fun i => l.any fun r => r.1 ≤ 8 * x + i && 8 * x + i < r.1 + r.2)

/-- Ranges of bytes touch an uncorrectable word. -/
def meetsBad (ecc : List Nat) (l : List (Nat × Nat)) : Bool := ecc.any fun x => l.any fun r => r.1 < 8 * x + 8 && 8 * x < r.1 + r.2

/-- Writes of ranges leave part of an uncorrectable word, which they therefore read (R480). -/
def partlyBad (ecc : List Nat) (l : List (Nat × Nat)) : Bool := meetsBad (stillBad l ecc) l

/-! ### Windows (R164-R167, R450) -/

/-- The context owns a window: it names the context's rank, or no domain is bound. -/
def ownsWindow (s : State) (c : CtxId) (d : Win) : Bool :=
  match (s.ctx c).domain with
  | none => true
  | some b => b.rank = d.owner

/-- The wave's own latest write to a byte tagged with a step: still queued, or already sent (R167). -/
def ownByte (s : State) (k : CoreId) (o : MemOp) (win : Fin 256) (off : Nat) : Option Byte :=
  let hit (e : MemOp) (l : Lane) : Option Byte :=
    if e.acc[l].win = win && e.acc[l].pa ≤ off && off < e.acc[l].pa + sizeBytes e.size
    then (leBytes 16 e.data[l].toNat)[off - e.acc[l].pa]? else none
  let queued := ((s.core k).ops.filter fun e => e.wave = o.wave && e.id < o.id && e.kind = .winStore && e.tag = o.tag && !e.sent).foldl
    (fun b e => (lanesOf e.left).foldl (fun b l => match hit e l with | some x => some x | none => b) b) none
  match queued with
  | some x => some x
  | none => ((s.ctx o.ctx).ownWrites.find? fun x => x.1 = o.wave && x.2.1 = o.tag && x.2.2.1 = win && x.2.2.2.1 = off).map (·.2.2.2.2)

/-- A byte that a window load returns: the wave's own, the owner's committed one, or what a remote owner has answered (R167,
R450, R465). -/
def windowByte (s : State) (k : CoreId) (o : MemOp) (l : Lane) (i : Nat) : Byte :=
  let off := o.acc[l].pa + i
  match ownByte s k o o.acc[l].win off, (s.ctx o.ctx).windows[o.acc[l].win] with
  | some b, _ => b
  | none, some d => if ownsWindow s o.ctx d then memRead s.mem (d.committed + off) else BitVec.ofNat 8 (o.data[l].toNat / 256 ^ i)
  | none, none => BitVec.ofNat 8 (Config.choice s.free / 256 ^ i)

def readWindow (s : State) (k : CoreId) (o : MemOp) (l : Lane) : LaneRead :=
  let n := sizeBytes o.size
  let bad := match (s.ctx o.ctx).windows[o.acc[l].win] with
    | some d => ownsWindow s o.ctx d && (List.range n).any fun i =>
        s.badAt (d.committed + o.acc[l].pa + i) && (ownByte s k o o.acc[l].win (o.acc[l].pa + i)).isNone
    | none => false
  ⟨leNat ((List.range n).map fun i => windowByte s k o l i), [], bad⟩

/-- The window of a lane, when its owner is another module. -/
def remoteWin (s : State) (o : MemOp) (l : Lane) : Option Win :=
  ((s.ctx o.ctx).windows[o.acc[l].win]).bind fun d => if ownsWindow s o.ctx d then none else some d

/-- Lanes of a window load that wait for a remote owner's answer (R465). -/
def remoteLanes (s : State) (o : MemOp) : Mask :=
  if o.kind ≠ .winLoad then 0 else (o.left &&& ~~~o.got) &&& maskOf fun l => (remoteWin s o l).isSome

/-- A window load sends a READ for each lane of a remote owner: window, offset, number of bytes, step, and the lane's tag (R465). -/
def sendReads (k : CoreId) (o : MemOp) (s : State) : State :=
  let dom := ((s.ctx o.ctx).domain.map (·.id)).getD 0
  (lanesOf (remoteLanes s o)).foldl (fun s l =>
    match (remoteWin s o l).bind fun d => rankModule s dom d.owner with
    | some m => podSend m (some dom) msgRead
        [dom.toNat, o.acc[l].win.val, o.acc[l].pa, sizeBytes o.size, o.tag.toNat, o.id * 32 + l.val] s
    | none => s) (putOp k o.id (some { o with sent := true }) s)

/-- What a lane of a load reads. -/
def laneRead (s : State) (k : CoreId) (o : MemOp) (l : Lane) : LaneRead :=
  match o.kind with
  | .gather => readGather s k o l
  | .l1load => readL1 s k o l
  | .winLoad => readWindow s k o l
  | _ => readTranslated s k o l

/-! ### Arrival of load data (R63, R151, R300) -/

/-- Writes loaded values to their deposit registers (R294), which a reader sees either way until a header wait has observed
the access's semaphore; its addition performs in the cycle after this one (R63, R151). -/
def depositLoad (o : MemOp) (cycle : Nat) (d : Fin 256) (m : Mask) (v : Lanes Nat) (w : Wave) : Wave :=
  let word (i : Nat) : Lanes Word := Lanes.of fun l => BitVec.ofNat 32 (v[l] / 2 ^ (32 * i))
  let n := if sizeCode o.size ≤ 2 then 1 else sizeBytes o.size / 4
  (List.range n).foldl (fun (w : Wave) i =>
    let r : Fin 256 := Fin.ofNat 256 (d.val + i)
    { w with v := w.v.set r (Lanes.blend m (word i) w.v[r]), unsettled := w.unsettled ++ [⟨o.id, o.sem, r, m, w.v[r], cycle + 1⟩] }) w

/-- Fills a queue load's slots in some lanes, if the window still holds them (R35, R308). -/
def fillSlots (k : CoreId) (o : MemOp) (m : Mask) (v : Lanes Nat) (s : State) : State :=
  match partnerOf (s.core k) o.slot with
  | some (p, _) =>
    if waveHere s k o.slot o.wave then
      onWindow k p (fun y => (y.heldBy o).foldl (fun (y : QWindow) i =>
        { y with slots := vset y.slots i.2 fun z => z.fill m (Lanes.of fun l => BitVec.ofNat 32 (v[l] / 2 ^ (32 * i.1))) }) y) s
    else s
  | none => s

/-- A load's data arrive in every lane that has not performed (R63, R151; log entry 31, DEDUCED). -/
def arriveLoad (k : CoreId) (o : MemOp) (s : State) : State :=
  let r : Lanes LaneRead := Lanes.of fun l => if laneBit o.left l then laneRead s k o l else ⟨0, [], false⟩
  let bad := o.left &&& maskOf fun l => r[l].bad
  let ok := o.left &&& ~~~bad
  let vals : Lanes Nat := Lanes.of fun l => r[l].val
  let ids := (lanesOf ok).flatMap fun l => r[l].from_ ++ laneSync s k o l
  let s1 := match o.kind, o.dep with
    | .qload, _ => fillSlots k o ok vals s
    | _, some d => onUid k o.slot o.wave (depositLoad o s.cycle d ok vals) s
    | _, none => s
  finishBut k o bad (observe k o.slot o.wave o.id ids { s1 with free := s1.free + 1 + (if o.kind = .l1load then 2 ^ 22 else 0) })

/-- The meaning of LOAD_DATA_ARRIVAL. A window load of a remote owner asks it first, and its data arrive with the answers
(R465). -/
def execLoadDataArrival (k : CoreId) (w : SlotId) (id : Nat) (s : State) : Host.Outcome State Fault Refusal :=
  .next (match findOp s k w id with
    | some o =>
      if !(o.kind.loads && o.kind ≠ .ldc && opReady s k o) then s
      else if remoteLanes s o = 0 then arriveLoad k o s
      else if o.sent then s
      else sendReads k o s
    | none => s)

/-- A remote owner's answer reaches the lane that asked: its bytes wait with the load (R465). -/
def answerRead (tag : Nat) (data : List Byte) (s : State) : State :=
  let hit (o : MemOp) : Bool := o.id = tag / 32 && o.kind = .winLoad && o.sent
  match (idxs 4096).find? fun k => (s.core k).ops.any hit with
  | none => s
  | some k =>
    let l : Lane := Fin.ofNat 32 tag
    onCore k (fun c => { c with ops := c.ops.map fun o => if hit o
      then { o with got := o.got ||| oneLane l, data := o.data.set l (BitVec.ofNat 128 (leNat data)) } else o }) s

/-! ### Window writes leave the core (R164-R166, R451, R465) -/

/-- The Barn entries of one write of a window: its elements in order, all under one tag (R165, R451). -/
def barnWrites (d : Win) (win : Fin 256) (off size : Nat) (x : Nat) (tag : Word) (rank : BitVec 28) (seq order : Nat) : List BarnWrite :=
  if d.elem = 0 then []
  else (List.range (size / d.elem)).map fun j =>
    { window := win, elem := off / d.elem + j, value := BitVec.ofNat 64 (x / 2 ^ (8 * d.elem * j) % 2 ^ (8 * d.elem)),
      step := tag, rank := rank, seq := BitVec.ofNat 32 seq, order := order }

/-- A write is refused: the boundary of its step will overflow, and the wave traps with STEP_OVERFLOW at its STEP for
that step, or before its next issue once that STEP has issued (R173). A wave that has ended gets a kind-4 record (log entry 67, DEDUCED). -/
def refuseWrite (c : CtxId) (k : CoreId) (w : SlotId) (uid : Nat) (tag : Word) (addr : DWord) (s : State) : State :=
  let s := onCtx c (fun x => { x with refusedStep := (uid, tag) :: x.refusedStep.filter fun y => y ≠ (uid, tag) }) s
  let issued := if waveHere s k w uid then (s.wave k w).ahead
    else s.groups.any fun g => g.away.any fun a => a.2.1.uid = uid && a.2.1.ahead
  if uidLives s k w uid then
    (if issued && tag = (s.ctx c).step then
      pendUid k w uid ⟨.stepOverflow, 0, 0, Lanes.all 0, 0xFFFFFFFF, none⟩ s
    else s)
  else (recordFault c { kind := 4, code := TrapCode.stepOverflow.code.toNat, core := k.val, slot := w.val, d0 := tag.toNat,
                        d1 := addr.toNat } s).2

/-- The core of a source rank (R165). -/
def rankCore (r : BitVec 28) : CoreId := Fin.ofNat 4096 (r.toNat / 64)

/-- The address of a window's element. -/
def elemAddr (s : State) (c : CtxId) (win : Fin 256) (elem : Nat) : DWord :=
  match (s.ctx c).windows[win] with
  | some d => d.base + BitVec.ofNat 64 (d.elem * elem)
  | none => 0

/-- The oldest bytes of a copy's request that are not acknowledged are: written at their destination, which counts them, and
adds them to the semaphore of a request that has not failed (R342, R343). -/
def ackReq (id i : Nat) (s : State) : State :=
  match s.copies.find? fun c => c.id = id with
  | none => s
  | some c => match c.reqs[i]? with
    | none => s
    | some r =>
      let n := r.acks.headD 0
      let s : State := { s with copies := s.copies.map fun d => if d.id ≠ id then d else
        { d with reqs := d.reqs.mapIdx fun j r => if j = i then { r with acks := r.acks.tail, done := r.done + n } else r } }
      if r.failed.isNone then complete c.core r.sem n s else s

/-- A window write that is not a store's is acknowledged: the copy that made it counts its bytes (R166, R465). -/
def ackCopy (ctx : CtxId) (e : BarnWrite) (s : State) : State :=
  match s.copies.find? fun c => c.ctx = ctx && c.rank = e.rank && c.tag = e.step && c.seqN = e.seq.toNat / 32 with
  | none => s
  | some c => ackReq c.id (e.order / 2 ^ 31) s

/-- One entry is acknowledged (R166, R465). A store completes when every entry of its lanes has been. -/
def ackStore (ctx : CtxId) (e : BarnWrite) (refused : Bool) (s : State) : State :=
  let k := rankCore e.rank
  let addr := elemAddr s ctx e.window e.elem
  match (s.core k).ops.find? fun o => o.kind = .winStore && o.sent && o.ctx = ctx && o.rank = e.rank && o.tag = e.step
      && o.seqN = e.seq.toNat / 32 with
  | none =>
    let s := ackCopy ctx e (onCtx ctx (fun c => { c with unacked := c.unacked - 1 }) s)
    (match ((s.ctx ctx).writers.find? fun x => x.source = e.rank && x.step = e.step && x.window = e.window && x.elem = e.elem), refused with
      | some x, true => refuseWrite ctx k x.slot x.wave e.step addr s
      | _, _ => s)
  | some o =>
    let l : Lane := Fin.ofNat 32 e.seq.toNat
    let o := { o with len := o.len.set l (o.len[l] - 1) }
    let s := if refused then refuseWrite ctx k o.slot o.wave e.step addr s else s
    if allLanes.all fun l => o.len[l] = 0 then finish k { o with left := 0 } s else putOp k o.id (some o) s

/-- Entries of a Barn's SRAM (R451). -/
def barnSize : Nat := 1048576

/-- An entry at the owner: the SRAM of the window's home die, then the context's overflow area, which must still lie in HBM of its
partition; else the write is refused, true (R173, R447, R451; log entry 134, DEDUCED). -/
def placeEntry (c : CtxId) (e : BarnWrite) (s : State) : Bool × State :=
  match (s.ctx c).windows[e.window], (s.ctx c).domain with
  | some d, some b =>
    let used := ((s.dies[d.home]).barn.filter fun x => !x.overflow).length
    let spill := (s.dies.toList.flatMap fun x => x.barn.filter fun y => y.overflow && y.ctx = c).length
    let put (spilt : Bool) : State := onDie d.home (fun x => { x with barn := x.barn ++ [⟨c, e, d.home, spilt, false⟩] }) s
    if used < barnSize then (false, put false)
    else if b.ovfLen / 16 ≤ spill then (true, s)
    else match ringAddr s c (b.ovfBase + BitVec.ofNat 64 (16 * spill)) true true with
      | .ok _ => (false, put true)
      | .error _ => (true, areaFault c 0 s)
  | _, _ => (true, s)

/-- A buffered write reaches its owner, which acknowledges it: to its own core, or with WACK (R465). -/
def enterBarn (c : CtxId) (e : BarnWrite) (s : State) : State :=
  let (refused, s) := placeEntry c e s
  match (s.ctx c).domain with
  | none => s
  | some b =>
    let r := e.rank.toNat / 2 ^ 18
    if r = b.rank then ackStore c e refused s
    else match rankModule s b.id r with
      | some m => podSend m (some b.id) msgWack [b.id.toNat, e.window.val, e.elem, e.rank.toNat, e.step.toNat, e.seq.toNat, e.order, refused.toNat] s
      | none => s

/-- The meaning of BARN_ENTRY. -/
def execBarnEntry (ctx : CtxId) (e : BarnWrite) (s : State) : Host.Outcome State Fault Refusal := .next (enterBarn ctx e s)

/-- Sends entries to their owner: its Barn on this module, or a WRITE message (R451, R465). -/
def sendEntries (c : CtxId) (d : Win) (l : List BarnWrite) (s : State) : State :=
  if ownsWindow s c d then l.foldl (fun s e => enterBarn c e s) s
  else
    let dom := ((s.ctx c).domain.map (·.id)).getD 0
    match rankModule s dom d.owner with
    | some m => podSend m (some dom) msgWrite (dom.toNat :: l.flatMap fun e =>
        [e.window.val, e.elem, e.value.toNat, e.step.toNat, e.rank.toNat, e.seq.toNat, e.order]) s
    | none => s

/-- A window store leaves its store queue: its entries go out, its bytes can be read back, and it waits for their
acknowledgements (R165-R167). -/
def sendWindowStore (k : CoreId) (o : MemOp) (s : State) : State :=
  let table := (s.ctx o.ctx).windows
  let size := sizeBytes o.size
  let lane (l : Lane) : Option Win × List BarnWrite :=
    match table[o.acc[l].win] with
    | some d => (some d, barnWrites d o.acc[l].win o.acc[l].pa size o.data[l].toNat o.tag o.rank (o.seqN * 32 + l.val) 0)
    | none => (none, [])
  if 2 ^ 27 ≤ o.seqN then finish k o (refuseWrite o.ctx k o.slot o.wave o.tag o.ea[lowLane o.left] s)
  else
    let ls := lanesOf o.left
    let s := onCtx o.ctx (fun c => { c with
      ownWrites := (ls.flatMap fun l => (List.range size).map fun i =>
        (o.wave, o.tag, o.acc[l].win, o.acc[l].pa + i, BitVec.ofNat 8 (o.data[l].toNat / 256 ^ i))).reverse ++ c.ownWrites
      writers := (ls.flatMap fun l => (lane l).2.map fun e => ⟨o.rank, o.tag, o.wave, o.slot, e.window, e.elem⟩) ++ c.writers }) s
    let n := (ls.map fun l => (lane l).2.length).sum
    if n = 0 then finish k { o with left := 0 } s
    else
      let s := putOp k o.id (some { o with sent := true, len := Lanes.of fun l => if laneBit o.left l then (lane l).2.length else 0 }) s
      ls.foldl (fun s l => match (lane l).1 with
        | some d => sendEntries o.ctx d (lane l).2 s
        | none => s) s

/-! ### The merge buffer (R133, R149) -/

/-- The entries a store or ZFILL makes: one for each lane, or for each range of a lane (R302, R313). -/
def storeEntries (s : State) (o : MemOp) : List MergeE :=
  let e (l : Lane) : MergeE :=
    { id := 0, op := o.id, wave := o.wave, slot := o.slot, lane := l, bytes := [], zeros := none, due := 0, token := o.token,
      gen := o.gen, ctx := o.ctx }
  let l := if o.kind = .zfill then o.zero.map fun z => { e z.1 with zeros := some (z.2.1, z.2.2) }
    else (lanesOf o.left).map fun l => { e l with bytes := storeLaneBytes o l }
  l.mapIdx fun i x => { x with id := s.nextId + i, due := s.cycle + Config.latency (s.free + i) }

/-- The bytes an entry writes. -/
def entryHits (e : MergeE) (a : Nat) : Bool := (mergeByte e a).isSome

/-- A store enters the merge buffer: it performs at .g (R133). A release at .w or .g completes there (R151), and one at
.g can be read with its observed set (R145). -/
def enterMerge (k : CoreId) (o : MemOp) (s : State) : State :=
  let l := storeEntries s o
  let obs := obsNow s k o
  let s := { s with nextId := s.nextId + l.length, free := s.free + l.length
                    releases := s.releases.filter fun r => !(r.core = k && l.any fun e => r.addrs.any (entryHits e)) }
  let s := onCore k (fun c => { c with
    merge := c.merge ++ l, lastG := (o.wave, s.cycle) :: c.lastG.filter fun x => x.1 ≠ o.wave }) s
  let early := o.rel && (o.scope = .w || o.scope = .g)
  let s := if o.rel && o.scope = .g then
      { s with releases := s.releases ++ l.map fun e => ⟨e.id, o.wave, k, .g, e.bytes.map (·.addr), obs⟩ }
    else s
  let s := if early then noteSem k o.sem (obs ++ l.map (·.id)) (complete k o.sem 1 s) else s
  let o := { o with atG := true, sem := if early then none else o.sem }
  if l = [] then finish k { o with left := 0 } s else putOp k o.id (some o) s

/-- The merge buffer accepts a store of the wave in this cycle (R149). -/
def mergeAccepts (s : State) (k : CoreId) (uid : Nat) : Bool := !(s.core k).lastG.any fun x => x.1 = uid && x.2 = s.cycle

/-- The meaning of MERGE_BUFFER_ENTRY: a store performs at .g; a window store goes to its owners. -/
def execMergeBufferEntry (k : CoreId) (w : SlotId) (id : Nat) (s : State) : Host.Outcome State Fault Refusal :=
  .next (match findOp s k w id with
    | some o =>
      if !opReady s k o || o.atG || o.sent then s
      else if o.kind = .winStore then sendWindowStore k o s
      else if (o.kind = .store || o.kind = .zfill) && mergeAccepts s k o.wave then enterMerge k o s
      else s
    | none => s)

/-- Stores of a core whose entries have all reached .k complete (R151). -/
def sweepStores (k : CoreId) (s : State) : State :=
  ((s.core k).ops.filter fun o => (o.kind = .store || o.kind = .zfill) && o.atG && o.left ≠ 0
    && !((s.core k).merge.any fun e => e.op = o.id)).foldl (fun s o => finish k { o with left := 0 } s) s

/-- Two entries write a common byte. -/
def entriesShare (e f : MergeE) : Bool :=
  match e.zeros, f.zeros with
  | some (a, n), some (b, m) => a < b + m && b < a + n
  | some _, none => f.bytes.any fun w => entryHits e w.addr
  | none, _ => e.bytes.any fun w => entryHits f w.addr

/-- The order of writes within a merge step (R149): core, context slot, then age. -/
def stepBefore (e f : CoreId × MergeE) : Bool :=
  e.1.val < f.1.val || (e.1 = f.1 && (e.2.slot.val < f.2.slot.val || (e.2.slot = f.2.slot && e.2.id ≤ f.2.id)))

def insertStep (x : CoreId × MergeE) : List (CoreId × MergeE) → List (CoreId × MergeE)
  | [] => [x]
  | y :: l => if stepBefore x y then x :: y :: l else y :: insertStep x l

/-- The merge-buffer entries with their cores. -/
def allEntries (s : State) : List (CoreId × MergeE) := (idxs 4096).flatMap fun k => (s.core k).merge.map fun e => (k, e)

/-- An entry may be part of a merge step of these entries: older entries that share a byte go first or with it, and no
older one of its core with a higher context slot goes with it, which would come after it (R134, R149). -/
def stepAllows (all : List (CoreId × MergeE)) (ids : List Nat) (cycle : Nat) (x : CoreId × MergeE) : Bool :=
  x.2.due ≤ cycle && all.all fun y => !(y.2.id < x.2.id && entriesShare y.2 x.2)
    || (ids.contains y.2.id && !(x.1 = y.1 && x.2.slot.val < y.2.slot.val))

/-- The meaning of MERGE_STEP: the writes that arrived in one L2 cycle reach .k together (R149). -/
def execMergeStep (ids : List Nat) (s : State) : Host.Outcome State Fault Refusal :=
  let all := allEntries s
  let go := (all.filter fun x => ids.contains x.2.id && stepAllows all ids s.cycle x).foldr insertStep []
  .next (if go.length = ids.length && ids ≠ [] then
      let s := kEntries (go.map (·.2)) s
      ((go.map (·.1)).dedup).foldl (fun s k => sweepStores k s) s
    else s)

/-! ### Atomics and Yard updates (R309-R312) -/

/-- A w-bit number as a signed one. -/
def signedNat (bits n : Nat) : Int := if 2 ^ (bits - 1) ≤ n then (n : Int) - 2 ^ bits else n

/-- The element an atomic leaves; none when it writes nothing (R309). -/
def atomNew (fn : Fin 8) (z : Size) (old : Nat) (b : Nat) : Option Nat :=
  let n := 8 * sizeBytes z
  let x := b % 2 ^ n
  match fn with
  | 0 => some ((old + x) % 2 ^ n)
  | 1 => some (if signedNat n old ≤ signedNat n x then old else x)
  | 2 => some (if signedNat n x ≤ signedNat n old then old else x)
  | 3 => some (old &&& x)
  | 4 => some (old ||| x)
  | 5 => some (old ^^^ x)
  | 6 => some x
  | 7 => if old = x then some (b / 2 ^ n % 2 ^ n) else none

/-- What a lane of an update deposits and writes, from the bytes it finds (R309-R312). -/
def updateLane (o : MemOp) (l : Lane) (old : Nat) : Nat × Option Nat :=
  let b := o.data[l].toNat
  match o.kind with
  | .atom fn => (old, atomNew fn o.size old b)
  | .sumAdd => (cellRead old, some (cellAdd old (b % 2 ^ 32)))
  | .fadd64 => (old, some (roundTo .f64 .rne false (Val.add .rne (decodeF .f64 old) (decodeF .f64 (b % 2 ^ 64))).1).1)
  | _ => (old, some ((old + b) % 2 ^ (8 * sizeBytes o.size)))

/-- Bytes written by an update: a release whose exact bytes it replaces stays readable through it (R145). -/
def kUpdate (ws : List ByteW) (s : State) : State :=
  let keep := s.releases.filter fun r => r.addrs = ws.map (·.addr)
  let t := kBytes ws s
  { t with releases := t.releases ++ keep.filter fun r => !t.releases.contains r }

/-- One lane of an update performs at its L2 or bank; answers the old value, or none where the word is uncorrectable, and
the observed sets of the releases that its read synchronises with (R145). -/
def performLane (k : CoreId) (o : MemOp) (obs : List Nat) (l : Lane) (s : State) : Option Nat × List Nat × State :=
  let a := laneSpan o l
  let sync := laneSync s k o l
  if s.badIn a.1 a.2 then (none, [], s)
  else
    let r := updateLane o l (memNat s.mem a.1 a.2)
    match r.2 with
    | none => (some r.1, sync, s)
    | some n =>
      let s := kUpdate (byteWs a.1 (leBytes a.2 n)) s
      let s := if o.rel && o.scope = .g then
          { s with nextId := s.nextId + 1
                   releases := s.releases ++ [⟨s.nextId, o.wave, k, .g, (List.range a.2).map fun i => a.1 + i, obs⟩] }
        else s
      (some r.1, sync, s)

/-- An update performs in every lane, in ascending order, after the older stores to its bytes (R134, R136, R155). -/
def performUpdate (k : CoreId) (o : MemOp) (s : State) : State :=
  let obs := obsNow s k o
  let s := drain (fun a => (lanesOf o.left).any fun l => (laneSpan o l).1 ≤ a && a < (laneSpan o l).1 + (laneSpan o l).2) s
  let r := (lanesOf o.left).foldl (fun (x : List (Lane × Option Nat) × List Nat × State) l =>
    let y := performLane k o obs l x.2.2
    (x.1 ++ [(l, y.1)], x.2.1 ++ y.2.1, y.2.2)) ([], [], s)
  let got (l : Lane) : Option Nat := (r.1.find? fun x => x.1 = l).bind (·.2)
  let bad := o.left &&& maskOf fun l => (got l).isNone
  let s := match o.dep with
    | some d => onUid k o.slot o.wave (depositLoad o s.cycle d (o.left &&& ~~~bad) (Lanes.of fun l => (got l).getD 0)) r.2.2
    | none => r.2.2
  finishBut k { o with left := 0 } bad (observe k o.slot o.wave o.id r.2.1 s)

/-- The meaning of ATOMIC_PERFORM. -/
def execAtomicPerform (k : CoreId) (w : SlotId) (id : Nat) (s : State) : Host.Outcome State Fault Refusal :=
  .next (match findOp s k w id with
    | some o => if o.kind.updates && opReady s k o then performUpdate k o s else s
    | none => s)

/-! ### Fences (R144) -/

/-- The meaning of FENCE_COMPLETION: with a semaphore it adds 1, and a waiter imports the observed set (R152). -/
def execFenceCompletion (k : CoreId) (w : SlotId) (id : Nat) (s : State) : Host.Outcome State Fault Refusal :=
  .next (match findOp s k w id with
    | some o =>
      if o.kind = .fence && fenceReady s k o then putOp k id none (noteSem k o.sem (obsNow s k o) (complete k o.sem 1 s)) else s
    | none => s)

/-! ### LDC (R307, R154) -/

/-- A higher-numbered enabled lane of the LDC names the same L1 unit (R307). -/
def unitDropped (o : MemOp) (l : Lane) : Bool := (lanesOf o.en).any fun m => l.val < m.val && o.len[m] = o.len[l]

/-- The translation that the engine of an LDC uses for a lane: the one it holds of the page, or one it obtains as it first
reaches the page (R444). -/
def ldcPage (s : State) (k : CoreId) (o : MemOp) (l : Lane) : Except TrapCode Tlb :=
  let va := o.ea[l]
  let t : Except (TrapCode × DWord) Tlb := match (o.pages.find? fun t => t.2.covers o.ctx va).map (·.2) with
    | some t => .ok t
    | none => match tlbFind (s.core k) o.ctx va with
      | some t => .ok t
      | none => walk s o.ctx va
  match t with
  | .error e => .error e.1
  | .ok t => if t.kind = 0 && t.permits (s.ctx o.ctx).level true false then .ok t else .error .access

/-- The access with a lane's page reached. -/
def MemOp.reach (l : Lane) (t : Tlb) (o : MemOp) : MemOp :=
  { o with acc := o.acc.set l ⟨t.addr o.ea[l], false, 0⟩
           pages := if o.pages.any fun p => p.2 = t then o.pages else o.pages ++ [(false, t)] }

/-- A lane of an LDC is over: it adds 64, and the access leaves its queue after the last one (R307). -/
def unitOver (k : CoreId) (o : MemOp) (l : Lane) (s : State) : State :=
  let o := { o with left := o.left &&& ~~~oneLane l }
  complete k o.sem 64 (putOp k o.id (if o.left = 0 && o.failed = 0 then none else some o) s)

/-- A lane of an LDC fails at its read, or at its page (R299, R440; log entry 129, DEDUCED). -/
def unitFails (k : CoreId) (o : MemOp) (l : Lane) (code : TrapCode) (s : State) : State :=
  let o := MemOp.fail (oneLane l) (uidLanes s k o.slot o.wave) { o with left := o.left &&& ~~~oneLane l }
  pendFailed k o code (oneLane l) (putOp k o.id (if o.left = 0 && o.failed = 0 then none else some o) s)

/-- A unit's bytes are read as a load of the wave's load queue (R154). They are written to the L1 a free time later; a
dropped lane's are not (R307). -/
def captureUnit (k : CoreId) (o : MemOp) (l : Lane) (s : State) : State :=
  let r := viewBytes s k o.wave o.id o.acc[l].pa 64
  if (List.range 64).any fun i => byteBad s k o.wave o.id (o.acc[l].pa + i) then unitFails k o l .eccUncorr s
  else
    let s := observe k o.slot o.wave o.id r.2 s
    if unitDropped o l then unitOver k o l s
    else
      let f : L1Fill := ⟨o.id, o.group, o.sem, l, s.cycle + 1 + Config.latency s.free, o.len[l], r.1, [], 0, []⟩
      putOp k o.id (some o) (onCore k (fun c => { c with l1Fills := c.l1Fills ++ [f] }) { s with free := s.free + 1 })

/-- A captured unit is written to the L1: it takes the place of earlier fills of the unit, and cures its words (R119, R480). -/
def writeUnit (cycle : Nat) (f : L1Fill) (c : Core) : Core :=
  let g := { f with old := memBytes c.l1 f.off 64, since := cycle + 1 }
  { c with
    l1 := memStore c.l1 f.off f.new
    l1Fills := (c.l1Fills.filter fun x => !(x.off = f.off && x.old ≠ [])).map fun x => if x = f then g else x
    eccL1 := stillBad [(f.off, 64)] c.eccL1 }

/-- The unit of a lane that an LDC has read and not yet written. -/
def unitFill (c : Core) (o : MemOp) (l : Lane) : Option L1Fill := c.l1Fills.find? fun f => f.op = o.id && f.lane = l && f.old = []

/-- The meaning of LDC_UNIT_FILL: one unit is read, or what has been read is written to the L1. -/
def execLdcUnitFill (k : CoreId) (w : SlotId) (id : Nat) (l : Lane) (s : State) : Host.Outcome State Fault Refusal :=
  .next (match findOp s k w id with
    | some o =>
      if o.kind ≠ .ldc || !laneBit o.left l then s
      else match unitFill (s.core k) o l with
        | some f => if f.due ≤ s.cycle then unitOver k o l (onCore k (writeUnit s.cycle f) s) else s
        | none => match ldcPage s k o l with
          | .error e => if opReady s k o then unitFails k o l e s else s
          | .ok t => if opReady s k (o.reach l t) then captureUnit k (o.reach l t) l s else s
    | none => s)

/-! ### The scratchpad (R116, R117, R304, R305) -/

/-- Writes scratchpad bytes. -/
def scratchStore (c : Core) (off : Nat) (l : List Byte) : Core :=
  { c with scratch := memStore c.scratch off l, eccSp := stillBad [(off, l.length)] c.eccSp }

/-- The meaning of SCRATCHPAD_SCATTER_WRITE: lanes ascending, so the higher-numbered lane's byte stays. -/
def execScratchpadScatterWrite (k : CoreId) (w : SlotId) (id : Nat) (s : State) : Host.Outcome State Fault Refusal :=
  .next (match findOp s k w id with
    | some o =>
      if o.kind = .scatter && opReady s k o then
        finish k { o with left := 0 } (onCore k (fun c =>
          (lanesOf o.left).foldl (fun c l => scratchStore c o.acc[l].pa (leBytes (sizeBytes o.size) o.data[l].toNat)) c) s)
      else s
    | none => s)

/-- The lanes of a `.lin` access whose bank cycle is this one (log entry 57, DEDUCED). -/
def LinOp.due (o : LinOp) : Mask := o.en &&& maskOf fun l => o.left[l] = 0

/-- A wave has `.lin` stores, or loads, in their bank cycle. -/
def Wave.linDue (x : Wave) (store : Bool) : Bool := x.lins.any fun o => o.store = store && o.due ≠ 0

/-- The `.lin` stores of a wave write their banks (log entry 56, DEDUCED). -/
def linStores (k : CoreId) (w : SlotId) (s : State) : State :=
  let x := s.wave k w
  let put (c : Core) (o : LinOp) : Core := if o.store then
      (lanesOf o.due).foldl (fun c l => scratchStore c o.off[l].toNat (leBytes (sizeBytes o.size) o.data[l].toNat)) c else c
  onWave k w (fun x => { x with lins := (x.lins.map fun o => if o.store then { o with en := o.en &&& ~~~o.due } else o).filter fun o => o.en ≠ 0 })
    (onCore k (fun c => x.lins.foldl put c) s)

/-- A `.lin` load reads in its due lanes; the value lands one tick later (R117, R304). -/
def linRead (m : Mem) (x : Wave) (o : LinOp) : Wave :=
  let d := o.due
  let f : Flight :=
    { id := o.id, unit := .lsu, val := Lanes.of fun l => if laneBit d l then BitVec.ofNat 64 (memNat m o.off[l].toNat (sizeBytes o.size)) else 0,
      chain := none, count := none, en := d, left := Lanes.all 1, dep := o.dep, wide := o.size = .b8, cond := Lanes.all 0, enb := 0, raised := 0 }
  let x := if o.en &&& ~~~d = 0 then x else { x with lins := x.lins ++ [{ o with en := o.en &&& ~~~d }] }
  if d = 0 then x else x.addFlight f

/-- The `.lin` loads of a wave read their banks. -/
def linLoads (k : CoreId) (w : SlotId) (s : State) : State :=
  let m := (s.core k).scratch
  onWave k w (fun x => (x.lins.filter fun o => !o.store).foldl (linRead m) { x with lins := x.lins.filter fun o => o.store }) s

/-- The bytes of a wave's `.lin` stores, or loads, of this bank cycle. -/
def Wave.linBytes (x : Wave) (store : Bool) : List (Nat × Nat) :=
  x.lins.flatMap fun o => if o.store = store then (lanesOf o.due).map fun l => (o.off[l].toNat, sizeBytes o.size) else []

/-- The meaning of LIN_BANK_ACCESS: a wave's stores of this bank cycle; or its loads, once no store of the core is left
to the cycle (R116). An uncorrectable word that a load reads, or a store in part replaces, is fatal to the group (R480). -/
def execLinBankAccess (k : CoreId) (w : SlotId) (s : State) : Host.Outcome State Fault Refusal :=
  let x := s.wave k w
  let ecc := (s.core k).eccSp
  .next (if x.linDue true then (if ecc ≠ [] && partlyBad ecc (x.linBytes true) then fatalWave k w s else linStores k w s)
    else if (s.core k).liveWaves.any fun y => y.2.linDue true then s
    else if ecc ≠ [] && meetsBad ecc (x.linBytes false) then fatalWave k w s
    else linLoads k w s)

end Sys2Proof.Machine
end

