-- ==== Sys2Proof/Machine/Matrix.lean ====
section
/-!
DEFINITION. The matrix sequencer (R318-R338): MXL, MXR, MXW, MXC and MXZ, from issue through their steps on the owner
lane's clock; tiles (R118), slabs (R323, R324) and the arithmetic of a step (R100-R103).
-/

namespace Sys2Proof.Machine

open Sys2Proof

/-! ### Formats (R323) -/

/-- Rows and columns of a format's tile. -/
def fmtDim (t : Fmt) : Nat := if fmtCode t ≤ 1 then 8 else 16

/-- Bytes of a cell. -/
def fmtCell (t : Fmt) : Nat := if t = .fp64 then 8 else 4

/-- Slice size s of a slab in bytes. -/
def fmtSlice (t : Fmt) : Nat := if fmtCode t ≤ 1 then 8 else if t = .mx6e3 || t = .mx6e2 then 3 else 4

/-- Element width w in bits. -/
def fmtWidth : Fmt → Nat
  | .fp64 => 64 | .fp32 => 32 | .fp16 | .bf16 => 16 | .mx6e3 | .mx6e2 => 6 | .mx4 => 4 | .bin => 1 | _ => 8

/-- Element format of the floating formats. -/
def fmtElem : Fmt → FFmt
  | .fp64 => .f64 | .fp32 => .f32 | .fp16 => .f16 | .bf16 => .bf16 | .e4m3 | .mx8e4 => .e4m3 | .mx6e3 => .e3m2
  | .mx6e2 => .e2m3 | .mx4 => .e2m1 | _ => .e5m2

/-- Integer formats: INT8 and binary. -/
def fmtIsInt (t : Fmt) : Bool := t = .i8 || t = .bin

/-! ### Tiles (R118, R337) -/

/-- Byte of a cell within a tile. -/
def cellOff (t : Fmt) (i j : Nat) : Nat := if t = .fp64 then (8 * i + j) * 8 else (16 * i + j) * 4

/-- The cells of a layout, row by row. -/
def tileCells (t : Fmt) : List (Nat × Nat) :=
  (List.range (fmtDim t)).flatMap fun i => (List.range (fmtDim t)).map fun j => (i, j)

/-- The cells of a tile. -/
def readTile (m : Mem) (t : Fmt) (tile : Nat) : List Nat :=
  (tileCells t).map fun x => memNat m (1024 * tile + cellOff t x.1 x.2) (fmtCell t)

/-- The bytes of a tile's cells, as ranges: row by row. -/
def tileRanges (t : Fmt) (tile : Nat) : List (Nat × Nat) :=
  (List.range (fmtDim t)).map fun i => (1024 * tile + cellOff t i 0, fmtDim t * fmtCell t)

/-- Writes the cells of a tile; its other bytes stay (R118). -/
def writeTile (m : Mem) (t : Fmt) (tile : Nat) (cells : List Nat) : Mem :=
  ((tileCells t).zip cells).foldl (fun m x => memStore m (1024 * tile + cellOff t x.1.1 x.1.2) (leBytes (fmtCell t) x.2)) m

/-- An MXL's latch with every result that its steps so far bring it (R323). -/
def MxOp.newest (m : MxOp) : List Nat := (m.results.getLast?.map (·.2)).getD m.latch

/-- The accumulator store as the matrix instructions issued before an id leave it: an MXL whose steps are done counts
before its write (R337). One with a step still to read, for a BANK_MX or with its owner away, does not: the spec says
nothing of the reads that an instruction then makes (log entry 130, DESIGN CHOICE). -/
def accView (c : Core) (id : Nat) : Mem :=
  (c.mx.filter fun m => m.op = 1 && m.id < id && m.next = m.n).foldl (fun a m => writeTile a m.fmt m.tile m.newest) c.acc

/-- A tile's cells are written: words replaced whole are cured (R480). -/
def storeTile (t : Fmt) (tile : Nat) (cells : List Nat) (c : Core) : Core :=
  { c with acc := writeTile c.acc t tile cells, eccAcc := stillBad (tileRanges t tile) c.eccAcc }

/-! ### Slabs -/

/-- Element e of row i of a slab at an offset (R323). -/
def slabElem (m : Mem) (t : Fmt) (off i e : Nat) : Nat :=
  memNat m (off + fmtSlice t * i) (fmtSlice t) / 2 ^ (fmtWidth t * e) % 2 ^ fmtWidth t

/-- The elements of row i. -/
def slabRow (m : Mem) (t : Fmt) (off i : Nat) : List Nat := (List.range (fmtK t)).map fun e => slabElem m t off i e

/-- The exact sum of products added to a latch cell: all before one rounding (R101). -/
def dotVal (c : Val) (l : List (Val × Val)) : Val := l.foldl (fun acc x => (Val.add .rne acc (Val.mul x.1 x.2).1).1) c

/-- An I8 element (R323). -/
def i8Int (n : Nat) : Int := if 128 ≤ n then (n : Int) - 256 else n

/-- Number of ones among k bits. -/
def onesIn (k n : Nat) : Nat := ((List.range k).filter fun i => n.testBit i).length

/-- A latch cell after a step (R100-R102): row and column elements, with the block scales of an MX format (R84). -/
def stepCell (t : Fmt) (mode : MxMode) (sa sb : Nat) (c : Nat) (a b : List Nat) : Nat :=
  match t with
  | .i8 => (BitVec.ofInt 32 ((c : Int) + ((a.zip b).map fun x => i8Int x.1 * i8Int x.2).sum)).toNat
  | .bin =>
    let g (x : Nat × Nat) : Nat := if mode = .xorPop then x.1 ^^^ x.2 else x.1 &&& x.2
    (c + ((a.zip b).map fun x => onesIn 1 (g x)).sum) % 2 ^ 32
  | .fp64 => (roundTo .f64 .rne false (dotVal (decodeF .f64 c) ((a.zip b).map fun x => (decodeF .f64 x.1, decodeF .f64 x.2)))).1
  | _ =>
    let v (s n : Nat) : Val := if fmtMx t then mxValue (fmtElem t) s n else decodeF (fmtElem t) n
    (roundTo .f32 .rne false (dotVal (decodeF .f32 c) ((a.zip b).map fun x => (v sa x.1, v sb x.2)))).1

/-- The cell that a zero-initial MXL starts from (R103). -/
def zeroCell (t : Fmt) : Nat := if fmtIsInt t then 0 else if t = .fp64 then 2 ^ 63 else 2 ^ 31

/-! ### Issue -/

/-- A matrix operation as it issues. -/
def mxNew (s : State) (op : Nat) (f : XSlot) : MxOp :=
  { id := s.nextId, op := op, wave := s.iw.uid, slot := s.issue.slot, lane := lowLane s.is.mask, t := 0, fmt := f.fmt,
    mode := f.mode, init := f.init, tile := f.tile.toNat, n := 0, pa := (lo32 (s.iw.readA f.ra)).toNat,
    pb := (lo32 (s.iw.readA f.rb)).toNat, incA := 0, incB := 0, dispA := 0, dispB := 0, latch := [], results := [], scaleA := [],
    scaleB := [], next := 0, src := [], read := false, regs := 0, left := Lanes.all 0, en := 0, rnd := .rne, sat := false,
    col := false, exp := 0, late := false, failed := false }

/-- A matrix operation issues. -/
def mxIssue (m : MxOp) (s : State) : State :=
  (fresh (onCore s.issue.core (fun c => { c with mx := c.mx ++ [m] }) s)).2

/-- Parts that an MXR or MXW moves: part number and first register (R329). -/
def partRegs (f : XSlot) : List (Nat × Nat) :=
  let g := if f.fmt = .fp64 then 2 else 1
  if mxPart f = 8 then (List.range (fmtParts f.fmt)).map fun m => (m, mxReg f + m * g) else [(mxPart f, mxReg f)]

/-- Index, among a tile's cells, of the element that lane l of part p holds (R329). -/
def partIndex (_ : Fmt) (p : Nat) (l : Lane) : Nat := 32 * p + l.val

/-- A V register in a lane by number, as an MXW reads it. -/
def vreg (s : State) (n : Nat) (l : Lane) : Word := readV s 6 (Fin.ofNat 256 n) l

/-- The registers of an MXW as parts and lane values (R331). -/
def mxwSource (s : State) (f : XSlot) : List Nat :=
  (partRegs f).flatMap fun x => allLanes.map fun l =>
    (vreg s x.2 l).toNat + (if f.fmt = .fp64 then (vreg s (x.2 + 1) l).toNat * 2 ^ 32 else 0)

def issueMxl (f : XSlot) (s : State) : State :=
  let (incA, incB, dispA, dispB) := mxlParams s f
  mxIssue { mxNew s 1 f with n := f.count.toNat, incA := incA, incB := incB, dispA := dispA, dispB := dispB,
                             latch := (tileCells f.fmt).map fun _ => zeroCell f.fmt } s

def issueMxr (f : XSlot) (s : State) : State :=
  mxIssue { mxNew s 2 f with n := mxPart f, regs := Fin.ofNat 256 (mxReg f), left := Lanes.all 4, en := fullMask } s

def issueMxw (f : XSlot) (s : State) : State :=
  mxIssue { mxNew s 3 f with n := mxPart f, regs := Fin.ofNat 256 (mxReg f), src := mxwSource s f, read := true } s

def issueMxc (f : XSlot) (s : State) : State :=
  let p := mxcParams s f
  mxIssue { mxNew s 4 f with n := mxcSlabs f.fmt, incA := p.inc, dispA := p.disp, rnd := p.mode, sat := p.sat, col := p.col,
                             exp := p.exp } s

def issueMxz (f : XSlot) (s : State) : State := mxIssue { mxNew s 5 f with n := f.count.toNat } s

def execMxl (f : XSlot) (s : State) : Host.Outcome State Fault Refusal := .next (act (.mxl f) (issueMxl f) s)
def execMxr (f : XSlot) (s : State) : Host.Outcome State Fault Refusal := .next (act (.mxr f) (issueMxr f) s)
def execMxw (f : XSlot) (s : State) : Host.Outcome State Fault Refusal := .next (act (.mxw f) (issueMxw f) s)
def execMxc (f : XSlot) (s : State) : Host.Outcome State Fault Refusal := .next (act (.mxc f) (issueMxc f) s)
def execMxz (f : XSlot) (s : State) : Host.Outcome State Fault Refusal := .next (act (.mxz f) (issueMxz f) s)

/-! ### Steps on the owner's clock -/

/-- An operation's due events perform: also in the cycle in which its owner stops (R471), but for a step that has met
BANK_MX until the owner runs again (R328). -/
def mxRuns (c : Core) (m : MxOp) : Bool := mxPresent c m && !m.failed

/-- A failed step is tried again when the owner's split runs and its BANK_MX has been taken (R328; log entry 111, DEDUCED). -/
def mxRetry (w : Wave) (m : MxOp) : MxOp :=
  if m.failed then
    match w.recOf m.lane with
    | some r =>
      let x := w.splits[r]
      { m with failed := x.state ≠ .runnable || x.pend.any fun p => p.code = .bankMx }
    | none => m
  else m

/-- The slabs an operation reaches in this cycle: first byte and number (R323, R324, R334). -/
def mxRanges (m : MxOp) : List (Nat × Nat) :=
  let at_ (a : Nat) (q : Nat) (inc : Int) : Int := (a : Int) + q * inc
  if m.op = 1 then
    let scale := if fmtMx m.fmt && m.next % fmtSpb m.fmt = 0
      then [((at_ m.pa m.next m.incA + m.dispA).toNat, 16), ((at_ m.pb m.next m.incB + m.dispB).toNat, 16)] else []
    [((at_ m.pa m.next m.incA).toNat, fmtSlab m.fmt), ((at_ m.pb m.next m.incB).toNat, fmtSlab m.fmt)] ++ scale
  else if m.next < m.n then [((at_ m.pa m.next m.incA).toNat, fmtSlab m.fmt)]
  else [(((m.pa : Int) + m.dispA).toNat, 16)]

/-- An armed transfer acts: its context is on the die and its grid is not torn down (R181). -/
def armedActs (s : State) (k : CoreId) (a : Armed) : Bool :=
  !(s.ctx a.ctx).outCores.contains k && (match s.grid? a.grid with | some d => !d.failed | none => false)

/-- Two ranges lie in one bank. -/
def banksMeet (a b : Nat × Nat) : Bool :=
  (wordsOf a.1 a.2).any fun x => (wordsOf b.1 b.2).any fun y => x.1 = y.1 && x.2.1 = y.2.1

/-- Circuit traffic takes the engine port of a bank of these ranges in this cycle (R116, R180, R328). -/
def circuitTakes (s : State) (k : CoreId) (l : List (Nat × Nat)) : Bool :=
  (s.core k).armed.any fun a => a.cycle = s.cycle && armedActs s k a && l.any fun r => banksMeet (a.off, 64) r

/-- A word of the ranges is uncorrectable (R480). -/
def slabBad (c : Core) (l : List (Nat × Nat)) : Bool := meetsBad c.eccSp l

/-- Replaces or removes a matrix operation. -/
def putMx (k : CoreId) (id : Nat) (m : Option MxOp) : State → State :=
  onCore k fun c => { c with mx := c.mx.filterMap fun x => if x.id = id then m else some x }

/-- BANK_MX at a tick waits at the owner's split (R328, R410). -/
def pendBank (k : CoreId) (m : MxOp) (s : State) : State :=
  let s := onCore k (fun c => { c with mx := c.mx.map fun x => if x.id = m.id then { x with failed := true } else x }) s
  match (s.wave k m.slot).recOf m.lane with
  | some r =>
    let x := (s.wave k m.slot).splits[r]
    if x.pend.any fun p => p.code = .bankMx then s
    else pendAt k m.slot r ⟨.bankMx, 1, x.mask, Lanes.all 0, 0xFFFFFFFF, none⟩ s
  | none => s

/-- An uncorrectable slab or tile is fatal to the owner's group (R480). -/
def fatalOwner (k : CoreId) (m : MxOp) (s : State) : State :=
  fatalLane k m.slot (s.wave k m.slot).group m.lane .eccUncorr s

/-- The operation of a kind whose next part is due on this core. -/
def mxDue (c : Core) (f : MxOp → Bool) : Option MxOp := c.mx.find? fun m => f m && mxRuns c m

/-- An MXL step is due: bank cycle at tick t + 1 + q (R327). -/
def mxlStepDue (m : MxOp) : Bool := m.op = 1 && m.next < m.n && m.next + 1 ≤ m.t
/-- An MXC write is due: slab s at tick t + 3 + s, the scale slab at t + 3 + S (R335). -/
def mxcWriteDue (m : MxOp) : Bool :=
  m.op = 4 && m.read && m.next + 3 ≤ m.t && (m.next < m.n || (fmtMx m.fmt && m.next = m.n))

/-- One step: slabs read, block scales read at a block's first step. The step's result reaches the latch at tick t + 4 + q
(R327, R473; log entry 115, DEDUCED). -/
def mxlRead (c : Core) (m : MxOp) : MxOp :=
  let q := m.next
  let pa := ((m.pa : Int) + q * m.incA).toNat
  let pb := ((m.pb : Int) + q * m.incB).toNat
  let latch := if q = 0 && m.init then readTile (accView c m.id) m.fmt m.tile else m.newest
  let first := fmtMx m.fmt && q % fmtSpb m.fmt = 0
  let scale (p : Nat) (d : Int) (old : List Nat) : List Nat :=
    if first then (List.range 16).map fun i => (memRead c.scratch (((p : Int) + d).toNat + i)).toNat else old
  let sa := scale pa m.dispA m.scaleA
  let sb := scale pb m.dispB m.scaleB
  let cell (x : (Nat × Nat) × Nat) : Nat :=
    stepCell m.fmt m.mode (sa.getD x.1.1 0) (sb.getD x.1.2 0) x.2 (slabRow c.scratch m.fmt pa x.1.1) (slabRow c.scratch m.fmt pb x.1.2)
  { m with latch := if q = 0 then latch else m.latch, results := m.results ++ [(q + 4, ((tileCells m.fmt).zip latch).map cell)],
           scaleA := sa, scaleB := sb, next := q + 1 }

/-- The step results whose tick the owner's clock has reached are in the latch (R322, R471). -/
def MxOp.settle (m : MxOp) : MxOp :=
  match (m.results.filter fun x => x.1 ≤ m.t).getLast? with
  | some x => { m with latch := x.2, results := m.results.filter fun x => m.t < x.1 }
  | none => m

/-- The first step of a load-initial MXL reads its tile too. -/
def mxlTiles (m : MxOp) : List (Nat × Nat) := if m.next = 0 && m.init then tileRanges m.fmt m.tile else []

/-- The meaning of MXL_STEP. A step whose banks circuit traffic takes does not read, and its owner traps (R328). -/
def execMxlStep (k : CoreId) (s : State) : Host.Outcome State Fault Refusal :=
  let c := s.core k
  .next (match mxDue c mxlStepDue with
    | none => s
    | some m =>
      if circuitTakes s k (mxRanges m) then pendBank k m s
      else if slabBad c (mxRanges m) || meetsBad c.eccAcc (mxlTiles m) then fatalOwner k m s
      else putMx k m.id (some (mxlRead c m)) s)

/-- The meaning of MXL_TILE_WRITE: the finished latch is written at tick t + n + 4 (R327). -/
def execMxlTileWrite (k : CoreId) (s : State) : Host.Outcome State Fault Refusal :=
  .next (match mxDue (s.core k) fun m => m.op = 1 && m.next = m.n && m.n + 4 ≤ m.t with
    | none => s
    | some m => putMx k m.id none (onCore k (storeTile m.fmt m.tile m.newest) s))

/-- The meaning of MXR_TILE_READ: at tick t + 1 (R330). -/
def execMxrTileRead (k : CoreId) (s : State) : Host.Outcome State Fault Refusal :=
  .next (match mxDue (s.core k) fun m => m.op = 2 && !m.read && 1 ≤ m.t with
    | none => s
    | some m => if meetsBad (s.core k).eccAcc (tileRanges m.fmt m.tile) then fatalOwner k m s
      else putMx k m.id (some { m with src := readTile (accView (s.core k) m.id) m.fmt m.tile, read := true, late := 4 ≤ m.t }) s)

/-- Lanes of an MXR whose write is due: the lane's clock has advanced 4 ticks, or the owner's for an exited lane (R330). -/
def mxrDue (c : Core) (m : MxOp) : Mask :=
  if m.op = 2 && m.read && mxPresent c m then
    m.en &&& maskOf fun l => if laneBit c.waves[m.slot].exited l then 4 ≤ m.t else m.left[l] = 0
  else 0

/-- Writes an MXR's elements to its registers in some lanes (R329). -/
def mxrWrite (m : MxOp) (d : Mask) (w : Wave) : Wave :=
  let parts := if m.n = 8 then List.range (fmtParts m.fmt) else [m.n]
  let g := if m.fmt = .fp64 then 2 else 1
  (parts.mapIdx fun i p => (i, p)).foldl (fun w x =>
    let v (l : Lane) : Nat := m.src.getD (partIndex m.fmt x.2 l) 0
    let r := m.regs.val + x.1 * g
    let w := w.writeV (Fin.ofNat 256 r) d (Lanes.of fun l => BitVec.ofNat 32 (v l))
    if g = 2 then w.writeV (Fin.ofNat 256 (r + 1)) d (Lanes.of fun l => BitVec.ofNat 32 (v l / 2 ^ 32)) else w) w

/-- One MXR's due lanes land, after the results triggered before it (R65, R68, R330). -/
def landMxr (k : CoreId) (m : MxOp) (s : State) : State :=
  let d := mxrDue (s.core k) m
  if d = 0 then s
  else
    let s := landWave k m.slot m.id s
    let m' := { m with en := m.en &&& ~~~d }
    putMx k m.id (if m'.en = 0 then none else some m') (onWave k m.slot (mxrWrite m d) s)

/-- The meaning of MXR_REGISTER_WRITE. -/
def execMxrRegisterWrite (k : CoreId) (s : State) : Host.Outcome State Fault Refusal :=
  .next ((s.core k).mx.foldl (fun s m => landMxr k m s) s)

/-- The meaning of MXW_TILE_WRITE: at tick t + 2 (R331). -/
def execMxwTileWrite (k : CoreId) (s : State) : Host.Outcome State Fault Refusal :=
  .next (match mxDue (s.core k) fun m => m.op = 3 && 2 ≤ m.t with
    | none => s
    | some m =>
      let parts := if m.n = 8 then List.range (fmtParts m.fmt) else [m.n]
      let cells := parts.flatMap fun p => allLanes.map fun l => partIndex m.fmt p l
      let put (acc : Mem) (x : Nat × Nat) : Mem :=
        memStore acc (1024 * m.tile + cellOff m.fmt (x.1 / fmtDim m.fmt) (x.1 % fmtDim m.fmt)) (leBytes (fmtCell m.fmt) x.2)
      let ranges := cells.map fun x => (1024 * m.tile + cellOff m.fmt (x / fmtDim m.fmt) (x % fmtDim m.fmt), fmtCell m.fmt)
      putMx k m.id none (onCore k (fun c => { c with acc := (cells.zip m.src).foldl put c.acc, eccAcc := stillBad ranges c.eccAcc }) s))

/-- The meaning of MXZ_TILE_WRITE: at tick t + 1 (R332). -/
def execMxzTileWrite (k : CoreId) (s : State) : Host.Outcome State Fault Refusal :=
  .next (match mxDue (s.core k) fun m => m.op = 5 && 1 ≤ m.t with
    | none => s
    | some m => putMx k m.id none (onCore k (fun c => { c with
        acc := c.acc.filter (fun x => !(1024 * m.tile ≤ x.1 && x.1 < 1024 * (m.tile + m.n)))
        eccAcc := stillBad [(1024 * m.tile, 1024 * m.n)] c.eccAcc }) s))

/-! ### MXC (R333-R335) -/

/-- The tile layout that MXC reads for an output format (R334). -/
def mxcLayout : Fmt → Fmt
  | .fp64 => .fp64 | .fp32 => .fp32 | .i8 => .i8 | _ => .fp16

/-- The source of an MXC: one tile's cells, or two tiles' (R334). -/
def mxcSource (c : Core) (m : MxOp) : List Nat :=
  let t := mxcLayout m.fmt
  let v := accView c m.id
  if 7 ≤ fmtCode m.fmt then readTile v t m.tile ++ readTile v t (m.tile + 1) else readTile v t m.tile

/-- The bytes of an MXC's source. -/
def mxcTiles (m : MxOp) : List (Nat × Nat) :=
  let t := mxcLayout m.fmt
  if 7 ≤ fmtCode m.fmt then tileRanges t m.tile ++ tileRanges t (m.tile + 1) else tileRanges t m.tile

/-- The meaning of MXC_TILE_READ: at tick t + 1 (R335). -/
def execMxcTileRead (k : CoreId) (s : State) : Host.Outcome State Fault Refusal :=
  .next (match mxDue (s.core k) fun m => m.op = 4 && !m.read && 1 ≤ m.t with
    | none => s
    | some m => if meetsBad (s.core k).eccAcc (mxcTiles m) then fatalOwner k m s
      else putMx k m.id (some { m with src := mxcSource (s.core k) m, read := true }) s)

/-- Source value at outer index r (a row of an A slab, a column of a B slab) and K index q (R334). -/
def mxcAt (m : MxOp) (r q : Nat) : Nat :=
  let d := fmtDim m.fmt
  let i := if m.col then q else r
  let j := if m.col then r else q
  if 7 ≤ fmtCode m.fmt then
    (if m.col then m.src.getD (256 * (i / 16) + 16 * (i % 16) + j) 0 else m.src.getD (256 * (j / 16) + 16 * i + j % 16) 0)
  else m.src.getD (d * i + j) 0

/-- The scaled value of a source element. -/
def mxcVal (m : MxOp) (r q : Nat) : Val :=
  let n := mxcAt m r q
  let v := if m.fmt = .i8 then Val.ofInt (BitVec.ofNat 32 n).toInt else decodeF (if m.fmt = .fp64 then .f64 else .f32) n
  v.scale m.exp

/-- The encoded block of one outer index of an MX format (R334, R85). -/
def mxcBlock (m : MxOp) (r : Nat) : Nat × List Nat :=
  mxEncode (fmtElem m.fmt) (rmode m.rnd) ((List.range 32).map fun q => mxcVal m r q)

/-- The element code at an outer index and K index (R334). -/
def mxcElem (m : MxOp) (r q : Nat) : Nat :=
  if fmtMx m.fmt then (mxcBlock m r).2.getD q 0
  else match m.fmt with
    | .bin =>
      let n := mxcAt m r q
      if n < 2 ^ 31 && !isNaN .f32 n then 1 else 0
    | .i8 =>
      let x := roundInt (rmode m.rnd) (mxcVal m r q)
      (BitVec.ofInt 8 (if m.sat then clampInt true 8 x else x)).toNat
    | _ => (roundTo (fmtElem m.fmt) (rmode m.rnd) m.sat (mxcVal m r q)).1

/-- The bytes of output slab s (R323, R334). -/
def mxcSlab (m : MxOp) (sl : Nat) : List Byte :=
  (List.range (fmtDim m.fmt)).flatMap fun r =>
    leBytes (fmtSlice m.fmt) (((List.range (fmtK m.fmt)).map fun e => mxcElem m r (sl * fmtK m.fmt + e) * 2 ^ (fmtWidth m.fmt * e)).sum)

/-- An MXC whose slabs are written leaves the sequencer at tick t + 3 + S (R336). -/
def mxcOver (m : MxOp) : Bool := m.op = 4 && m.n ≤ m.next && m.n + 3 ≤ m.t && (!fmtMx m.fmt || m.n < m.next)

/-- The meaning of MXC_SLAB_WRITE: the slab or scale slab of this tick; BANK_MX where circuit traffic takes a bank (R335). -/
def execMxcSlabWrite (k : CoreId) (s : State) : Host.Outcome State Fault Refusal :=
  let c := s.core k
  .next (match mxDue c mxcWriteDue with
    | none => s
    | some m =>
      if circuitTakes s k (mxRanges m) then pendBank k m s
      else
        let bytes := if m.next < m.n then mxcSlab m m.next
          else (List.range 16).map fun r => BitVec.ofNat 8 (mxcBlock m r).1
        let off := (mxRanges m).headD (0, 0)
        let m' := { m with next := m.next + 1 }
        putMx k m.id (if mxcOver m' then none else some m') (onCore k (fun c => scratchStore c off.1 bytes) s))

end Sys2Proof.Machine
end

