-- ==== Sys2Proof/Machine/Copy.lean ====
section
/-!
DEFINITION. KICK and the copy engines (R153, R339-R343), CSEND, CRECV and flits (R176-R182, R344).
-/

namespace Sys2Proof.Machine

open Sys2Proof

/-! ### KICK (R153, R165, R339) -/

/-- KICK hands its list to the store queue and takes one n of its source and step (R165). -/
def issueKick (f : XSlot) (s : State) : State :=
  let x := s.iw
  let k := s.issue.core
  let tag := winTag s x
  let rank := winRank s k x.ctx
  let c : CopyList :=
    { id := s.nextId, core := k, ctx := x.ctx, wave := x.uid, slot := s.issue.slot, lane := lowLane s.is.mask, group := x.group,
      off := (lo32 (x.readA f.ra)).toNat, count := f.count.toNat, started := false, startSeq := 0, tag := tag,
      seqN := winCount s x.ctx rank tag, rank := rank, pair := x.holdAfter, due := s.cycle + Config.latency s.free, reqs := [], obs := x.obs, pages := [] }
  takeSeq k x.ctx rank tag { s with copies := s.copies ++ [c], nextId := s.nextId + 1, free := s.free + 1 }

def execKick (f : XSlot) (s : State) : Host.Outcome State Fault Refusal := .next (act (.kick f) (issueKick f) s)

/-! ### Copy requests (R340, R341) -/

/-- A signed 32-bit field. -/
def int32 (n : Nat) : Int := (BitVec.ofNat 32 n).toInt

/-- The request at a scratchpad offset. -/
def parseReq (m : Mem) (o : Nat) : CopyReq :=
  let f (at_ n : Nat) : Nat := memNat m (o + at_) n
  let src := f 0 8
  let dst := f 8 8
  let node (kind node addr : Nat) : Bool := match kind with
    | 0 => node ≠ 0
    | 1 => 4096 ≤ node || 2 ^ 32 ≤ addr
    | 2 => 1024 ≤ node
    | _ => true
  { src := BitVec.ofNat 64 src, dst := BitVec.ofNat 64 dst, length := f 0x10 4, rows := f 0x14 2,
    flow := BitVec.ofNat 8 (f 0x16 1), ordered := f 0x17 1 % 2 = 1, srcStride := int32 (f 0x18 4), dstStride := int32 (f 0x1C 4),
    srcNode := f 0x20 2, dstNode := f 0x22 2, srcKind := f 0x24 1, dstKind := f 0x25 1, vsem := BitVec.ofNat 8 (f 0x26 1),
    bad := f 0x10 4 = 0 || 0x1000000 < f 0x10 4 || f 0x14 2 = 0 || 0x7FFFFFFF < f 0x10 4 * f 0x14 2 || 2 ≤ f 0x17 1
      || 248 ≤ f 0x26 1 || f 0x27 25 ≠ 0 || node (f 0x24 1) (f 0x20 2) src || node (f 0x25 1) (f 0x22 2) dst,
    sem := none, pos := 0, written := [], acks := [], done := 0, failed := none, ecc := false }

/-- Bytes of a request. -/
def CopyReq.total (r : CopyReq) : Nat := r.length * r.rows

/-- Bytes a request has written. -/
def CopyReq.count (r : CopyReq) : Nat := if r.ordered then r.pos else r.written.length

/-- Nothing of a request remains to be written. -/
def CopyReq.over (r : CopyReq) : Bool := r.failed.isSome || r.total ≤ r.count

/-- Address of a position of a request, from its first address and stride (R342). -/
def copyAddr (base : DWord) (stride : Int) (length p : Nat) : DWord :=
  base + BitVec.ofInt 64 ((p / length : Nat) * stride) + BitVec.ofNat 64 (p % length)

/-! ### Start (R153) -/

def State.copy? (s : State) (id : Nat) : Option CopyList := s.copies.find? fun c => c.id = id
def onCopy (id : Nat) (f : CopyList → CopyList) (s : State) : State :=
  { s with copies := s.copies.map fun c => if c.id = id then f c else c }

/-- The pair's mark and the ordering parts of earlier accesses let a list's KICK act (R135, R139, R147, R153). -/
def kickReady (s : State) (x : CopyList) : Bool :=
  let c := s.core x.core
  markReady c x.slot x.pair && !maskedHolds (c.ops.filter fun o => o.wave = x.wave && o.id < x.id) false true

/-- Every access issued before an id, and every write observed, has performed at .k (R153, R373; log entry 49, DEDUCED). -/
def kReady (s : State) (k : CoreId) (uid : Nat) (slot : SlotId) (id : Nat) (obs : List Nat) : Bool :=
  let c := s.core k
  issuedPerformed c uid slot id && observedPerformed c uid id obs .k && !(c.ops.any fun o => o.wave = uid && o.id < id && o.kind = .fence)

/-- The die of a core has a copy engine in service (R481). -/
def engineFree (s : State) (k : CoreId) : Bool := (s.dies[coreDie k]).enginesOut.length < 16

/-- A request fails (R343): a kind-3 record, and COPY_ERROR at the owner's wave before its next issue. Later requests of
the same ordered flow in the list write nothing more. -/
def failReq (id i : Nat) (cause : Nat) (s : State) : State :=
  match s.copy? id with
  | none => s
  | some c =>
    let r := c.reqs[i]?
    let s := onCopy id (fun c => { c with reqs := c.reqs.mapIdx fun j x =>
      if j = i then { x with failed := some cause }
      else match r with
        | some y => if i < j && x.ordered && y.ordered && x.flow = y.flow && !x.over then { x with failed := some 0 } else x
        | none => x }) s
    let g := s.group? c.group
    let rec_ : FaultRec :=
      { kind := 3, code := TrapCode.copyError.code.toNat, core := c.core.val, slot := c.slot.val,
        grid := ((g.bind fun g => s.grid? g.grid).map (·.serial.toNat)).getD 0, group := (g.map (·.no)).getD 0,
        lanes := (oneLane c.lane).toNat, d0 := c.off, d1 := i, d2 := ((r.map (·.done)).getD 0) + cause * 2 ^ 32 }
    let (n, s) := recordFault c.ctx rec_ s
    if uidLives s c.core c.slot c.wave then
      pendUid c.core c.slot c.wave ⟨.copyError, 0, 0, Lanes.all 0, n, none⟩ s
    else s

/-- A list whose requests are over, with nothing left to be acknowledged, leaves its engine. -/
def dropCopies (s : State) : State :=
  { s with copies := s.copies.filter fun c => !(c.started && c.reqs.all fun r => r.over && r.acks = []) }

/-- The engine reads the list and each request's semaphore entry (R339, R343). -/
def startCopy (c : CopyList) (s : State) : State :=
  let m := (s.core c.core).scratch
  let reqs := (List.range c.count).map fun i =>
    let r := parseReq m (c.off + 64 * i)
    { r with sem := semPhys s c.core c.ctx r.vsem }
  let s := { onCopy c.id (fun c => { c with started := true, startSeq := s.copyStarts, reqs := reqs }) s with copyStarts := s.copyStarts + 1 }
  dropCopies ((List.range c.count).foldl (fun s i => match reqs[i]? with
    | some r => if r.bad then failReq c.id i 1 s else if r.sem.isNone then failReq c.id i 3 s else s
    | none => s) s)

/-- The meaning of COPY_ENGINE_START. -/
def execCopyEngineStart (id : Nat) (s : State) : Host.Outcome State Fault Refusal :=
  .next (match s.copy? id with
    | some c =>
      if !c.started && c.due ≤ s.cycle && engineFree s c.core && kickReady s c
          && kReady s c.core c.wave c.slot c.id c.obs then startCopy c s else s
    | none => s)

/-! ### Bytes (R342, R343) -/

/-- The page of a copy's address: the one the engine holds, or a walk when it first reaches the page (R444). -/
def copyPage (s : State) (c : CopyList) (va : DWord) : Except Nat Tlb :=
  match c.pages.find? fun p => p.2.covers c.ctx va with
  | some p => .ok p.2
  | none => match walk s c.ctx va with
    | .ok t => .ok t
    | .error (.eccUncorr, _) => .error 5
    | .error _ => .error 2

/-- Notes the pages a copy has reached. -/
def notePages (id : Nat) (l : List Tlb) (s : State) : State :=
  onCopy id (fun c => { c with pages := c.pages ++ (l.filter fun x => !c.pages.any fun y => y.2 = x).map fun x => (false, x) }) s

/-- A scratchpad byte lies in a bank that a context claims on a core of its partition (R113, R190, R341, R447). -/
def claimsByte (s : State) (k : CoreId) (c : CtxId) (a : Nat) : Bool :=
  coreReach s c k && a < 524288 && (s.core k).claims.any fun x => x.ctx = c && x.kind = 0 && x.off ≤ a && a < x.off + x.len
    && (spBank a).1 = x.bankGroup && x.firstBank ≤ (spBank a).2.1 && (spBank a).2.1 < x.firstBank + x.bankCount

/-- A window page is one that a copy may reach (R450). -/
def copyWindowOk (s : State) (c : CtxId) (t : Tlb) (wr : Bool) : Option Win :=
  match (s.ctx c).windows[t.win] with
  | none => none
  | some d => if t.pa + t.size ≤ d.length && (!wr || (s.ctx c).domain.isSome) then some d else none

/-- The module of a rank of a context's domain (R464). -/
def peerModule (s : State) (c : CtxId) (rank : Nat) : Option (BitVec 10) :=
  ((s.ctx c).domain.bind fun d => s.hub.rows.find? fun r => r.domain = d.id).bind fun r => (r.ids[rank]?).map (·.setWidth 10)

/-- A pod peer that can be reached: its module, and the station and route word of the flow's path (R341, R462). -/
def peerPath (s : State) (c : CtxId) (rank : Nat) (flow : Byte) : Option (BitVec 10 × Nat × DWord) :=
  (peerModule s c rank).bind fun m => (pathFor s m flow 0).map fun x => (m, x)

/-- The source byte of a position, or the cause of its failure; n numbers the draw for a remote byte (log entry 59, DEDUCED; log entry 60, DEDUCED). -/
def copyByte (s : State) (c : CopyList) (r : CopyReq) (p : Nat) : Except Nat Byte :=
  let a := copyAddr r.src r.srcStride r.length p
  match r.srcKind with
  | 0 => match copyPage s c a with
    | .error e => .error e
    | .ok t =>
      if !t.permits (s.ctx c.ctx).level true false then .error 3
      else if t.kind = 2 then
        match copyWindowOk s c.ctx t false with
        | none => .error 3
        | some d => if ownsWindow s c.ctx d then
            (if s.badAt (d.committed + t.addr a) then .error 5 else .ok (memRead s.mem (d.committed + t.addr a)))
          else .ok (Config.remoteByte s.free 0 (p % 65536))
      else if t.sumcell then
        let pa := t.pa + 40 * ((a.toNat - t.page) / 4)
        if s.badIn pa 40 then .error 5
        else .ok (BitVec.ofNat 8 (cellRead (leNat (viewBytes s c.core 0 0 pa 40).1) / 256 ^ (a.toNat % 4)))
      else if s.badAt (t.addr a) then .error 5
      else .ok (viewByte s c.core 0 0 (t.addr a)).1
  | 1 =>
    let k : CoreId := Fin.ofNat 4096 r.srcNode
    if !claimsByte s k c.ctx a.toNat then .error 3
    else if (s.core k).eccSp.contains (a.toNat / 8) then .error 5
    else .ok (memRead (s.core k).scratch a.toNat)
  | _ => match peerPath s c.ctx r.srcNode r.flow with
    | none => .error 4
    | some _ => .ok (Config.remoteByte s.free 0 (p % 65536))

/-- Source bytes of consecutive positions. -/
def copyBytes (s : State) (c : CopyList) (r : CopyReq) (p : Nat) : Nat → Except Nat (List Byte)
  | 0 => .ok []
  | n + 1 => match copyByte s c r p, copyBytes s c r (p + 1) n with
    | .ok b, .ok l => .ok (b :: l)
    | .error e, _ => .error e
    | _, .error e => .error e

/-- Positions of a row that a destination unit of u bytes holds: first position and number. -/
def copyUnit (r : CopyReq) (u p : Nat) : Nat × Nat :=
  let a := (copyAddr r.dst r.dstStride r.length p).toNat
  let i := p % r.length
  let back := min i (a % u)
  (p - back, min (back + (u - a % u)) (r.length - (i - back)))

/-- Bytes at positions of a request are written: it counts them and adds them to its semaphore (R151, R342). -/
def wroteBytes (id i p n : Nat) (ack : Bool) (s : State) : State :=
  match s.copy? id with
  | none => s
  | some c =>
    let s := onCopy id (fun c => { c with reqs := c.reqs.mapIdx fun j x => if j ≠ i then x else
      { x with pos := x.pos + n, written := if x.ordered then x.written else x.written ++ (List.range n).map (p + ·),
               acks := if ack then x.acks ++ [n] else x.acks, done := if ack then x.done else x.done + n } }) s
    if ack then s else complete c.core ((c.reqs[i]?).bind (·.sem)) n s

/-- Writes a unit to a translated destination. -/
def copyStore (c : CopyList) (i p n : Nat) (r : CopyReq) (t : Tlb) (l : List Byte) (s : State) : State :=
  let a := copyAddr r.dst r.dstStride r.length p
  if t.sumcell then
    let pa := t.pa + 40 * ((a.toNat - t.page) / 4)
    let old := cellRead (memNat s.mem pa 40)
    let v := leNat ((List.range 4).map fun j => if a.toNat % 4 ≤ j && j < a.toNat % 4 + n then l.getD (j - a.toNat % 4) 0 else BitVec.ofNat 8 (old / 256 ^ j))
    let ws := (byteWs pa (leBytes 40 (cellAdd 0 v))).map fun w => if w.addr = pa + 39 then { w with keep := 0xC0 } else w
    wroteBytes c.id i p n false (storeBytes ws s)
  else wroteBytes c.id i p n false (storeBytes (byteWs (t.addr a) l) s)

/-- Writes a unit to a window (R165, R341): an entry tagged with the KICK's step, rank and sequence. -/
def copyWindow (c : CopyList) (i p n : Nat) (r : CopyReq) (d : Win) (t : Tlb) (l : List Byte) (s : State) : State :=
  let a := copyAddr r.dst r.dstStride r.length p
  let es := barnWrites d t.win (t.addr a) n (leNat l) c.tag c.rank (c.seqN * 32 + c.lane.val) (i * 2 ^ 31 + p)
  let s := onCtx c.ctx (fun x => { x with writers := es.map (fun e => ⟨c.rank, c.tag, c.wave, c.slot, e.window, e.elem⟩) ++ x.writers }) s
  if 2 ^ 27 ≤ c.seqN then wroteBytes c.id i p n false (refuseWrite c.ctx c.core c.slot c.wave c.tag a s)
  else sendEntries c.ctx d es (onCtx c.ctx (fun x => { x with unacked := x.unacked + es.length }) (wroteBytes c.id i p n true s))

/-- The sequence number that a flow's next packet takes (R463). -/
def flowSeq (s : State) (dst : BitVec 10) (c : CtxId) (flow : Byte) : Word :=
  ((s.hub.outSeq.find? fun x => x.1 = dst && x.2.1 = c && x.2.2.1 = flow).map (·.2.2.2)).getD 0

/-- Takes it. -/
def bumpSeq (dst : BitVec 10) (c : CtxId) (flow : Byte) (s : State) : State :=
  let n := flowSeq s dst c flow
  onHub (fun h => { h with outSeq := (dst, c, flow, n + 1) :: h.outSeq.filter fun x => !(x.1 = dst && x.2.1 = c && x.2.2.1 = flow) }) s

/-- Sends a byte to a pod peer as a packet of its flow (R341, R460-R463). An unreachable peer fails the request (log entry 62, DESIGN CHOICE). -/
def copyPacket (c : CopyList) (i p : Nat) (r : CopyReq) (b : Byte) (s : State) : State :=
  match peerPath s c.ctx r.dstNode r.flow with
  | none => failReq c.id i 4 s
  | some (m, station, route) =>
    let seq := flowSeq s m c.ctx r.flow
    let a := copyAddr r.dst r.dstStride r.length p
    let x : SentPacket := ⟨m, c.ctx, r.flow, seq, 0, some (c.id, i), none, a, [b], (0, []), s.cycle + retryTime s⟩
    emit (.packet station (packetHdr s route m c.ctx r.flow pktData seq) a [b])
      (wroteBytes c.id i p 1 true (onHub (fun h => { h with sent := h.sent ++ [x] }) (bumpSeq m c.ctx r.flow s)))

/-- An ordered request's turn: every earlier request of its flow is over (R342). -/
def flowTurn (s : State) (c : CopyList) (i : Nat) (r : CopyReq) : Bool :=
  !r.ordered || s.copies.all fun d => !d.started || d.ctx ≠ c.ctx || (List.range d.reqs.length).all fun j =>
    match d.reqs[j]? with
    | some x => !(x.ordered && x.flow = r.flow && !x.over && (d.startSeq < c.startSeq || (d.startSeq = c.startSeq && j < i)))
    | none => true

/-- At most 256 packets of an ordered flow are outstanding (R463). -/
def flowRoom (s : State) (c : CopyList) (r : CopyReq) : Bool :=
  r.dstKind ≠ 2 || !r.ordered || (s.hub.sent.filter fun x =>
    some x.dst = peerModule s c.ctx r.dstNode && x.ctx = c.ctx && x.flow = r.flow && x.copy.isSome).length < 256

/-- The matrix sequencer, an MXC or circuit traffic takes the engine port of a bank of these bytes in this cycle (R116). -/
def engineBusy (s : State) (k : CoreId) (b : Nat × Nat) : Bool :=
  let c := s.core k
  circuitTakes s k [b] || c.mx.any fun m => mxRuns c m && (mxlStepDue m || mxcWriteDue m) && (mxRanges m).any (banksMeet b)

/-- The positions that move with one: an element of a window, a word of an exact-sum cell, else a byte. -/
def unitOf (s : State) (c : CopyList) (r : CopyReq) (p : Nat) : Nat × Nat :=
  match r.dstKind, copyPage s c (copyAddr r.dst r.dstStride r.length p) with
  | 0, .ok t =>
    if t.kind = 2 then (match copyWindowOk s c.ctx t true with
      | some d => copyUnit r d.elem p
      | none => (p, 1))
    else if t.sumcell then copyUnit r 4 p else (p, 1)
  | _, _ => (p, 1)

/-- A copy engine takes a bank's engine port only in a cycle that no other user of it needs (R116). -/
def portFree (s : State) (c : CopyList) (r : CopyReq) (p : Nat) : Bool :=
  let u := unitOf s c r p
  !(r.srcKind = 1 && engineBusy s (Fin.ofNat 4096 r.srcNode) ((copyAddr r.src r.srcStride r.length u.1).toNat, u.2))
    && !(r.dstKind = 1 && engineBusy s (Fin.ofNat 4096 r.dstNode) ((copyAddr r.dst r.dstStride r.length p).toNat, 1))

/-- The position a request writes next: in order, or an unspecified one of those left (R153, R342; log entry 61, DESIGN CHOICE). -/
def nextPos (s : State) (r : CopyReq) : Nat :=
  if r.ordered then r.pos
  else
    let left := (List.range r.total).filter fun p => !r.written.contains p
    left.getD (Config.choice s.free % left.length) 0

/-- One unit of a request: read at the source, written at the destination. -/
def moveUnit (c : CopyList) (i : Nat) (r : CopyReq) (s : State) : State :=
  let p := nextPos s r
  let a := copyAddr r.dst r.dstStride r.length p
  let s' : State := { s with free := s.free + 1 }
  let src := copyAddr r.src r.srcStride r.length p
  let seen (t : DWord × Nat) : List Tlb := if t.2 ≠ 0 then [] else match copyPage s c t.1 with
    | .ok x => [x]
    | .error _ => []
  let s' := notePages c.id (seen (src, r.srcKind) ++ seen (a, r.dstKind)) s'
  let u := unitOf s c r p
  if r.ecc then failReq c.id i 5 s' else
  match r.dstKind with
  | 0 => match copyPage s c a with
    | .error e => failReq c.id i e s'
    | .ok t =>
      if !t.permits (s.ctx c.ctx).level false true then failReq c.id i 3 s'
      else if t.kind = 2 then
        match copyWindowOk s c.ctx t true with
        | none => failReq c.id i 3 s'
        | some d =>
          let row := copyAddr r.dst r.dstStride r.length (p / r.length * r.length)
          if row.toNat % d.elem ≠ 0 || r.length % d.elem ≠ 0 then failReq c.id i 3 s'
          else
            (match copyBytes s c r u.1 u.2 with
              | .error e => failReq c.id i e s'
              | .ok l => copyWindow c i u.1 u.2 r d t l s')
      else
        (match copyBytes s c r u.1 u.2 with
          | .error e => failReq c.id i e s'
          | .ok l => copyStore c i u.1 u.2 r t l s')
  | 1 =>
    let k : CoreId := Fin.ofNat 4096 r.dstNode
    if !claimsByte s k c.ctx a.toNat then failReq c.id i 3 s'
    else (match copyByte s c r p with
      | .error e => failReq c.id i e s'
      | .ok b => wroteBytes c.id i p 1 false (onCore k (fun x => scratchStore x a.toNat [b]) s'))
  | _ => match copyByte s c r p with
    | .error e => failReq c.id i e s'
    | .ok b => copyPacket c i p r b s'

/-- The meaning of COPY_BYTE_WRITE: one byte of a request, or one element of a window or exact-sum cell. -/
def execCopyByteWrite (id : Nat) (req : Nat) (s : State) : Host.Outcome State Fault Refusal :=
  .next (match s.copy? id with
    | some c => (match c.reqs[req]? with
      | some r => if c.started && !r.over && flowTurn s c req r && flowRoom s c r && portFree s c r (nextPos s r) then dropCopies (moveUnit c req r s) else s
      | none => s)
    | none => s)

/-! ### Circuits (R176-R182, R344) -/

/-- CSEND and CRECV arm a transfer at a launch-relative cycle. -/
def issueCircuit (send : Bool) (f : XSlot) (s : State) : State :=
  let x := s.iw
  let g := s.group? x.group
  let a : Armed :=
    { id := s.nextId, wave := x.uid, send := send, circuit := f.circuit, off := (lo32 (x.readA f.ra)).toNat,
      cycle := x.epoch + (x.readA f.rb).toNat, group := x.group, grid := (g.map (·.grid)).getD 0, ctx := x.ctx }
  (fresh (onCore s.issue.core (fun c => { c with armed := c.armed ++ [a] }) s)).2

def execCsend (f : XSlot) (s : State) : Host.Outcome State Fault Refusal := .next (act (.csend f) (issueCircuit true f) s)
def execCrecv (f : XSlot) (s : State) : Host.Outcome State Fault Refusal := .next (act (.crecv f) (issueCircuit false f) s)

/-- The armed transfers of a circuit in this cycle. -/
def armedNow (s : State) (k : CoreId) (circuit : BitVec 6) (send : Bool) : List Armed :=
  (s.core k).armed.filter fun a => a.send = send && a.circuit = circuit && a.cycle = s.cycle && armedActs s k a

/-- One armed send: 64 bytes after the cycle's writes, injected as a flit at input 0 of the tile's router (R176, R179). An
uncorrectable word is fatal to the group, and nothing is injected (R480). -/
def sendFlit (k : CoreId) (s : State) (a : Armed) : State :=
  if meetsBad (s.core k).eccSp [(a.off, 64)]
  then fatalLane k ((((s.core k).find a.wave).map (·.1)).getD 0) a.group 0 .eccUncorr s
  else { s with flits := s.flits ++ [⟨a.grid, a.circuit, some (coreTile k, 0), k, s.cycle, memBytes (s.core k).scratch a.off 64⟩] }

/-- A flit passes the router at which it stands in a cycle, as the router's slot-table entry for the cycle connects its input
port: to a core of the tile, which it reaches eight cycles later, or to the next router (R176, R178, R378). At its source
the entry must take input 0 from the core that sent it. One that no entry carries on is lost, also where the entry is
uncorrectable (R479; log entry 27, DESIGN CHOICE). -/
def passRouter (s : State) (f : Flit) : Option Flit :=
  match f.hop with
  | none => some f
  | some (t, input) =>
    let slot := s.cycle % 256
    let w := (s.tiles[t]).slots[Fin.ofNat 256 slot]
    if s.cycle < f.cycle then some f
    else if (s.tiles[t]).eccSlots.contains slot || (input = 0 && slotSrc w ≠ f.dst.val % 16) then none
    else (slotOutput w input).bind fun o =>
      if o = 0 then some { f with hop := none, dst := Fin.ofNat 4096 (16 * t.val + slotDst w), cycle := f.cycle + 8 }
      else (Config.routerLink t.val o slot).map fun n =>
        { f with hop := some (Fin.ofNat 256 n.1, n.2), cycle := f.cycle + hopCycles o }

/-- Every flit that stands at a router passes it, at the end of the cycle. -/
def moveFlits (s : State) : State := if s.flits = [] then s else { s with flits := s.flits.filterMap (passRouter s) }

/-- The meaning of CIRCUIT_SEND. -/
def execCircuitSend (k : CoreId) (circuit : BitVec 6) (s : State) : Host.Outcome State Fault Refusal :=
  .next ((armedNow s k circuit true).foldl (sendFlit k) s)

/-- A flit arrives at a core in this cycle for a circuit of a grid. -/
def flitHere (s : State) (k : CoreId) (grid : Nat) (circuit : BitVec 6) (f : Flit) : Bool :=
  f.hop = none && f.dst = k && f.cycle = s.cycle && f.circuit = circuit && f.grid = grid

/-- The meaning of CIRCUIT_RECEIVE: an armed receive writes the flit that arrives (R180). -/
def execCircuitReceive (k : CoreId) (circuit : BitVec 6) (s : State) : Host.Outcome State Fault Refusal :=
  .next ((armedNow s k circuit false).foldl (fun s a =>
    match s.flits.find? (flitHere s k a.grid circuit) with
    | none => s
    | some f => { onCore k (fun c => scratchStore c a.off f.data) s with flits := s.flits.erase f }) s)

/-- The meaning of FLIT_DISCARD: a flit that no armed receive takes is dropped (R181). -/
def execFlitDiscard (k : CoreId) (circuit : BitVec 6) (s : State) : Host.Outcome State Fault Refusal :=
  .next { s with flits := s.flits.filter fun f =>
    !(f.hop = none && f.dst = k && f.circuit = circuit && f.cycle = s.cycle && !((armedNow s k circuit false).any fun a => a.grid = f.grid)) }

end Sys2Proof.Machine
end

