-- ==== Sys2Proof/Machine/Control.lean ====
section
/-!
DEFINITION. The user level of the c slot (R216-R247): flow of control, hints, barriers, semaphores, stints, nested launch,
JOIN, the commit token, STEP, TRAP, CONV and BRK; and the releases of barriers and the start and overrun of stints.
-/

namespace Sys2Proof.Machine

open Sys2Proof

/-! ### Closing the issuing split (R59, R61, R217) -/

/-- The split after its bundle: its gap runs, it has issued, its hold and what a trap kept for the re-issue are over. -/
def Split.close (x : Split) (gap : Nat) : Split :=
  { x with gap := gap, issued := true, age := 0, released := false, hold := none, held := 0, syncAt := none, abase := none, qslot := none }

/-- The next PC of a split: a position, or a step out of range, which leaves the PC at the bundle (R194, R217). -/
def Split.goTo (x : Split) (t : Option Word) : Split :=
  match t with
  | some p => { x with pc := p, lost := false }
  | none => { x with lost := true }

/-- The issuing split closes and goes on at a target; no other next PC is set. -/
def sendTo (t : Option Word) (s : State) : State :=
  onIssue (fun i => { i with flow := true }) (onIs (fun x => (x.close s.issue.hdr.gap.val).goTo t) s)

/-- A position at an offset from the issuing bundle (R211, R226). -/
def branchTarget (pc : Word) (off : Int) : Option Word :=
  let t := (pc.toNat : Int) + off
  if 0 ≤ t && t < 2 ^ 32 then some (BitVec.ofInt 32 t) else none

/-! ### NOP, BR, JMP, CALL, RET, END -/

def execNop (f : CSlot) (s : State) : Host.Outcome State Fault Refusal := .next (act (.nop f) (fun s => s) s)

/-- A bundle without slots: its header's wait, signal, gap and sync, which the issue performs for every bundle (R198). -/
def execHeaderOnlyBundle (s : State) : Host.Outcome State Fault Refusal := .next (act .headerOnlyBundle (fun s => s) s)

/-- Where a leaf of a BR goes (R211, R225). -/
def leafTarget (s : State) (f : CSlot) (k : Fin 5) : Option Word :=
  let a := litWord s f.lit.toNat
  let b := litWord s (f.lit.toNat + 1)
  match k with
  | 0 => s.issue.next
  | 1 => branchTarget s.issue.pc (half0 a)
  | 2 => branchTarget s.issue.pc (half1 a)
  | 3 => branchTarget s.issue.pc (half0 b)
  | 4 => branchTarget s.issue.pc (half1 b)

/-- The lanes of the issuing split that reach a leaf. -/
def leafLanes (s : State) (k : Fin 5) : Mask := s.is.mask &&& maskOf fun l => s.issue.leaf[l] = k

/-- The splits of a BR besides that of its lowest leaf, each with the BR's gap (R29). -/
def newSplits (s : State) (f : CSlot) (ks : List (Fin 5)) : List Split :=
  ks.map fun k => ({ s.is with mask := leafLanes s k, pend := [], after := .none }.close s.issue.hdr.gap.val).goTo (leafTarget s f k)

/-- BR: one split for each leaf that a lane reaches; the lowest keeps the record, the others take records or go to the
stack (R29, R225). -/
def branch (f : CSlot) (s : State) : State :=
  match leavesReached s.issue.leaf s.is.mask with
  | [] => sendTo s.issue.next s
  | k :: ks =>
    let new := newSplits s f ks
    let s' := onIs (fun x => { x with mask := leafLanes s k }) (sendTo (leafTarget s f k) s)
    onIw (fun w => w.place new 13) s'

def execBr (f : CSlot) (s : State) : Host.Outcome State Fault Refusal := .next (act (.br f) (branch f) s)

/-- The target of JMP and CALL. -/
def jumpTarget (s : State) (f : CSlot) : Option Word := branchTarget s.issue.pc (litWord s f.lit.toNat).toInt

def execJmp (f : CSlot) (s : State) : Host.Outcome State Fault Refusal := .next (act (.jmp f) (fun s => sendTo (jumpTarget s f) s) s)

/-- The A register that a c slot's src names. -/
def cReg (f : CSlot) : Fin 32 :=
  match f.src with
  | .a n => n
  | _ => 0

/-- The c slot writes an A register, which no post-increment of the bundle then writes (R216). -/
def cWriteA (n : Fin 32) (x : DWord) (s : State) : State :=
  onIssue (fun i => { i with cdest := some n }) (onIw (fun w => w.writeA n x) s)

/-- The position after the bundle as a number; past the range it is 2^32 (R193, R227; log entry 26, DEDUCED). -/
def returnPosition (s : State) : DWord :=
  match s.issue.next with
  | some p => p.zeroExtend 64
  | none => 0x100000000

def execCall (f : CSlot) (s : State) : Host.Outcome State Fault Refusal :=
  .next (act (.call f) (fun s => sendTo (jumpTarget s f) (cWriteA (cReg f) (returnPosition s) s)) s)

/-- RET's target: bits [31:0], out of range when a higher bit is set (R227). -/
def returnTarget (x : DWord) : Option Word := if hi32 x = 0 then some (lo32 x) else none

def execRet (f : CSlot) (s : State) : Host.Outcome State Fault Refusal :=
  .next (act (.ret f) (fun s => sendTo (returnTarget (cSrcA s f)) s) s)

/-- The role of a COROUTINE group's current wave passes when one of its splits issues YIELD or END, or reaches a BAR (R44, R406). -/
def issuePass (s : State) : State :=
  let w := s.iw
  if w.det = 2 && w.kind = .compute then passRole w.group w.windex s else s

/-- END: the lanes of the issuing split end (R228). -/
def endSplit (s : State) : State :=
  endLanes s.issue.core s.issue.slot s.is.mask true (issuePass (onIssue (fun i => { i with flow := true }) s))

def execEndLanes (f : CSlot) (s : State) : Host.Outcome State Fault Refusal := .next (act (.endLanes f) endSplit s)

/-! ### YIELD, BAR -/

/-- YIELD: the role passes under D2; else the wave stands back for 16 cycles (R229; log entry 23, DEDUCED). -/
def yieldWave (s : State) : State :=
  if s.iw.det = 2 then issuePass s else onIw (fun w => { w with yieldTo := s.cycle + 16 }) s

def execYield (f : CSlot) (s : State) : Host.Outcome State Fault Refusal := .next (act (.yield f) yieldWave s)

/-- BAR: the barrier has released the split; the COROUTINE role passed when the split reached the bundle (Select.lean). -/
def execBar (f : CSlot) (s : State) : Host.Outcome State Fault Refusal := .next (act (.bar f) (fun s => s) s)

/-! ### WAIT and SIG -/

/-- The threshold of a WAIT: its src at 32 bits in the split's lowest lane, signed (R232). -/
def waitThreshold (s : State) (f : CSlot) : Word := lo32 (readSrc s 5 f.src false s.issue.pops 0 (lowLane s.is.mask))

def execWait (f : CSlot) (s : State) : Host.Outcome State Fault Refusal :=
  .next (act (.wait f) (fun s => onIs (fun x => { x with after := .wait f.sem (waitThreshold s f) }) s) s)

/-- A stint notes the signals it performs (R427). -/
def noteSignal (v : Byte) (n : BitVec 8) : State → State :=
  onIw fun w => { w with stint := w.stint.map fun r => { r with done := r.done ++ [(v, n)] } }

/-- A signal of the issuing wave to one of its semaphores (R73, R233). -/
def signal (v : Byte) (n : BitVec 8) (s : State) : State :=
  match semPhys s s.issue.core s.iw.ctx v with
  | some p => noteSignal v n (addNow s.issue.core (.phys p) n.toInt s)
  | none => s

def execSig (f : CSlot) (s : State) : Host.Outcome State Fault Refusal := .next (act (.sig f) (signal f.sem f.imm) s)

/-! ### STINT (R234) -/

/-- The conditions of a STINT. -/
def conditions (s : State) (f : CSlot) : List (Byte × Nat) := (stintConds s f.lit.toNat).filterMap stintCond

/-- STINT enters the stint queue and takes one of its free entries. -/
def enqueueStint (f : CSlot) (s : State) : State :=
  let w := s.iw
  let e : StintEntry := ⟨w.ctx, w.image, f.imm.toNat, cSrcA s f, conditions s f, w⟩
  addNow s.issue.core (.s253 w.ctx) (-1) (onCore s.issue.core (fun c => { c with stints := c.stints ++ [e] }) s)

def execStint (f : CSlot) (s : State) : Host.Outcome State Fault Refusal := .next (act (.stint f) (enqueueStint f) s)

/-! ### LAUNCH and JOIN (R235-R239) -/

/-- The c slot writes a predicate in the lanes of a mask at the end of the cycle (R216). -/
def cWriteP (n : Fin 8) (val lanes : Mask) : State → State :=
  onIssue fun i => { i with preds := i.preds ++ [(n, val, lanes)] }

/-- LAUNCH enters its record in the group's queue when an entry is free; its predicate says whether it did. -/
def launchChild (f : CSlot) (s : State) : State :=
  let g := s.iw.group
  match s.group? g with
  | some x =>
    if 1 ≤ x.s255 then
      let r := { launchRecord s (launchOff s f) with f := x.f, due := s.cycle + Config.latency s.free }
      let s := { s with free := s.free + 1 }
      cWriteP f.pred s.is.mask s.is.mask (onGroup g (fun y => { y with
        launchQ := y.launchQ ++ [r], s255 := y.s255 - 1, f := y.f + (if r.flags.getLsbD 0 then 1 else 0) }) s)
    else cWriteP f.pred 0 s.is.mask s
  | none => cWriteP f.pred 0 s.is.mask s

def execLaunch (f : CSlot) (s : State) : Host.Outcome State Fault Refusal := .next (act (.launch f) (launchChild f) s)

/-- JOIN has read a counter of zero with an LD.ACQ.k: the writes its bytes come from join the observed set (R239). What the
children had observed when they decremented it, a release at .k, has performed at .k by then (R142, R238). -/
def joinObserve (f : CSlot) (s : State) : State :=
  match translated s s.issue.core s.iw.ctx (cSrcA s f) with
  | .page t => observe s.issue.core s.issue.slot s.iw.uid s.nextId
      (viewBytes s s.issue.core s.iw.uid s.nextId (t.addr (cSrcA s f)) 4).2 s
  | _ => s

def execJoin (f : CSlot) (s : State) : Host.Outcome State Fault Refusal := .next (act (.join f) (joinObserve f) s)

/-! ### The commit token (R48, R49, R242) -/

/-- The group that the token visits after one: the next in order that has not retired, wrapping (R48). -/
def nextToken (d : Grid) : Nat :=
  let after := (List.range (d.g - d.token - 1)).map fun i => d.token + 1 + i
  ((after ++ List.range (d.token + 1)).find? fun n => !d.retired.contains n).getD d.token

/-- A holding group passes the token. -/
def passToken (grid no : Nat) : State → State :=
  onGrid grid fun d => if d.token = no then { d with token := nextToken d, passing := false } else d

/-- TOKEN.PASS under D1 and D2; under D0 it has no effect. A token-gated access of its own bundle goes first: the token is
handed on once that has performed (R49, R158). -/
def tokenPass (s : State) : State :=
  if s.iw.det = 0 then s
  else match s.group? s.iw.group with
    | some g => if tokenClear (s.core s.issue.core) g.id then passToken g.grid g.no s else onGrid g.grid (fun d => { d with passing := true }) s
    | none => s

/-- The tokens that wait to be handed on are, where the holding group's accesses have performed. -/
def passDuties (s : State) : State :=
  (s.grids.filter (·.passing)).foldl (fun s d =>
    match s.groups.find? fun g => g.grid = d.id && g.no = d.token with
    | some g => if tokenClear (s.core g.core) g.id then passToken d.id g.no s else s
    | none => s) s

def execTokenPass (f : CSlot) (s : State) : Host.Outcome State Fault Refusal := .next (act (.tokenPass f) tokenPass s)

/-! ### STEP (R159, R163, R173, R243) -/

/-- The FENCE.k of a STEP. -/
def fenceOp (s : State) : MemOp :=
  let x := s.iw
  { id := s.nextId, wave := x.uid, slot := s.issue.slot, group := x.group, kind := .fence, ctx := x.ctx, gen := (s.ctx x.ctx).gen,
    born := s.cycle, due := s.cycle, pc := s.issue.pc, size := .b1, en := 0, ea := Lanes.all 0, acc := Lanes.all ⟨0, false, 0⟩,
    data := Lanes.all 0, len := Lanes.all 0, zero := [], acq := false, rel := false, scope := .k, dep := none, qslots := none,
    sem := none, token := false, tag := winTag s x, seqN := 0, rank := winRank s s.issue.core x.ctx,
    pair := none, left := 0, failed := 0, atG := false, obs := x.obs, sent := false, got := 0, pages := [] }

/-- The outcome that a STEP writes to its predicate: true at step 0, after an applied boundary, and without a domain. -/
def stepPred (c : Ctx) : Bool := c.domain.isNone || c.step = 0 || c.outcome = 0

/-- STEP: the effect of FENCE.k, the outcome of the last boundary, and the arrival. A refused write of the wave that has
been reported by now traps it with the PC after the STEP (R173). -/
def stepArrive (f : CSlot) (s : State) : State :=
  let w := s.iw
  let c := s.ctx w.ctx
  let k := s.issue.core
  let op := fenceOp s
  let s1 := onCore k (fun x => { x with ops := x.ops ++ [op] }) { s with nextId := s.nextId + 1 }
  let s1 := if f.pred = 0 then s1 else cWriteP f.pred (if stepPred c then fullMask else 0) s.is.mask s1
  if c.domain.isNone || !w.member then s1
  else
    let s1 := onIw (fun x => { x with ahead := true, arrived := some (op.id, x.obs) }) s1
    if c.refusedStep.contains (w.uid, c.step) then
      pendWave k s.issue.slot ⟨.stepOverflow, 0, 0, Lanes.all 0, 0xFFFFFFFF, none⟩ s1
    else s1

def execStep (f : CSlot) (s : State) : Host.Outcome State Fault Refusal := .next (act (.step f) (stepArrive f) s)

/-! ### TRAP, BRK, CONV -/

/-- The split traps with DEBUG_BREAK before its next issue (R244). -/
def debugBreak (arg : Byte) (s : State) : State :=
  pendAt s.issue.core s.issue.slot s.issue.split
    ⟨.debugBreak, arg, s.is.mask, Lanes.all 0, 0xFFFFFFFF, none⟩ s

def execTrap (f : CSlot) (s : State) : Host.Outcome State Fault Refusal := .next (act (.trap f) (debugBreak f.imm) s)

def execBrk (f : CSlot) (s : State) : Host.Outcome State Fault Refusal :=
  .next (act (.brk f) (fun s => if (s.ctx s.iw.ctx).dbgBrk then debugBreak 0xFF s else s) s)

def execConvHold (f : CSlot) (s : State) : Host.Outcome State Fault Refusal :=
  .next (act (.convHold f) (fun s => onIs (fun x => { x with after := .conv }) s) s)

/-! ### A split that is due, and the hold it stands at (R42, R59, R218) -/

/-- The threshold of a header wait (R72). -/
def headerThr (b : Bundle) : Int := if b.hdr.waitLit then (b.lits.getD 0 0).toInt else b.hdr.waitThr.toNat

/-- A header wait is satisfied. A semaphore without a valid entry does not hold the bundle: it raises ACCESS (R365). -/
def headerReady (s : State) (k : CoreId) (w : Wave) (b : Bundle) : Bool :=
  !b.hdr.waitEn || (match semValue s k w b.hdr.waitSem with
    | some v => headerThr b ≤ v
    | none => true)

/-- A CONV hold ends: every live lane of the wave is at the split's PC; or no other split can run, each being held at a
collective, trapped, parked, at CONV, or on the stack (R246; log entry 22, DEDUCED). -/
def convReleased (w : Wave) (r : RecId) : Bool :=
  let pc := w.splits[r].pc
  let others := w.liveSplits.filter fun x => x.1 ≠ r
  (others.all (fun x => x.2.pc = pc) && w.stack.all fun x => x.pc = pc)
    || others.all fun x => x.2.state ≠ .runnable || x.2.hold = some .collective || x.2.hold = some .token || x.2.after = .conv

/-- The hold after issue that keeps a split from becoming due, if any (R218, R232, R246, R362, R371). -/
def afterHold (s : State) (k : CoreId) (w : Wave) (r : RecId) : Option HoldKind :=
  match w.splits[r].after with
  | .none => none
  | .wait v thr => (match semValue s k w v with
    | some x => if thr.toInt ≤ x then none else some .wait
    | none => some .wait)
  | .conv => if convReleased w r then none else some .convergence
  | .reg n => if n ≤ s.cycle then none else some .register
  | .done id => if s.privOps.any fun p => p.id = id then some .register else none

/-- A WAIT of a split is satisfied (R232). -/
def waitOver (s : State) (k : CoreId) (w : Wave) (r : RecId) : Option Byte :=
  match w.splits[r].after with
  | .wait v thr => (match semValue s k w v with
    | some x => if thr.toInt ≤ x then some v else none
    | none => none)
  | _ => none

/-- A wave has observed semaphores of its core: the deposits and L1 fills whose additions had performed before this cycle
stand settled for it (R63, R152, R292). -/
def observeSems (k : CoreId) (w : SlotId) (phys : List (Fin 512)) (s : State) : State :=
  let done (sem : Option (Fin 512)) (since : Nat) : Bool := since < s.cycle && match sem with
    | some p => phys.contains p
    | none => false
  if phys = [] then s
  else onCore k (fun c => { c with
    l1Fills := c.l1Fills.map fun f => if f.old ≠ [] && done f.sem f.since then { f with seen := c.waves[w].uid :: f.seen } else f
    waves := vset c.waves w fun x => { x with unsettled := x.unsettled.filter fun u => !done u.sem u.since } }) s

/-- The state in which a split of a wave stands at a bundle: what its WAIT and the bundle's header wait have observed is
settled. -/
def standAt (s : State) (k : CoreId) (w : SlotId) (r : RecId) (b : Bundle) (next : Option Word) : State :=
  let x := s.wave k w
  let sems := (if b.hdr.waitEn && headerReady s k x b then [b.hdr.waitSem] else []) ++ (waitOver s k x r).toList
  let s := observeSems k w (sems.filterMap fun v => semPhys s k x.ctx v) s
  { s with issue := { issueAt k w r (s.wave k w) b next with draw := s.free } }

/-- The bundle of a split whose gap has elapsed, whose hold after issue has ended, and which fetches it without a fault. -/
def bundleDue (s : State) (k : CoreId) (w : SlotId) (r : RecId) : Option (Bundle × Option Word) :=
  let x := s.wave k w
  let y := x.splits[r]
  if !x.live || y.state ≠ .runnable || y.gap ≠ 0 || y.pend ≠ [] || (afterHold s k x r).isSome then none
  else match fetch s k x y with
    | .ok b n => some (b, n)
    | _ => none

/-- The bundle at which a split is held with a collective hold. -/
def heldCollective (s : State) (k : CoreId) (w : SlotId) (r : RecId) : Option Bundle :=
  match bundleDue s k w r with
  | some (b, n) =>
    if headerReady s k (s.wave k w) b && bundleVerdict (standAt s k w r b n) b.slots = .hold .collective then some b else none
  | none => none

/-- The split is held at a BAR (log entry 41, DEDUCED). -/
def heldAtBar (s : State) (k : CoreId) (w : SlotId) (r : RecId) : Bool :=
  match heldCollective s k w r with
  | some b => (match b.c with | some (.bar _) => true | _ => false)
  | none => false

/-- The core mask of the tile barrier at which a split is held (R45). -/
def heldAtSync (s : State) (k : CoreId) (w : SlotId) (r : RecId) : Option Nat :=
  match heldCollective s k w r with
  | some b => if b.hdr.sync then (b.lits.getLast?).map (·.toNat) else none
  | none => none

/-- The records of a wave that hold splits. -/
def liveRecs (w : Wave) : List RecId := w.liveSplits.map (·.1)

/-- A split that is due stands at a bundle with a BAR. -/
def standsAtBar (s : State) (k : CoreId) (w : SlotId) (r : RecId) : Bool :=
  match bundleDue s k w r with
  | some (b, _) => (match b.c with | some (.bar _) => true | _ => false)
  | none => false

/-- The split is held at a member-mask collective or at STEP, which does not let it issue whatever else its bundle holds (R230). -/
def heldAtGather (s : State) (k : CoreId) (w : SlotId) (r : RecId) : Bool :=
  match heldCollective s k w r, bundleDue s k w r with
  | some b, some (_, n) =>
    let st := standAt s k w r b n
    b.slots.any fun i => (match vInfo i with | some (x, _) => collectiveVerdict st x = .hold .collective | none => false)
      || (match i with | .step _ => cCollective st i = .hold .collective | _ => false)
  | _, _ => false

/-! ### Barrier releases (R46, R230, R231) -/

/-- The compute waves of a group that are on its core (log entry 25, DEDUCED). -/
def groupWaves (s : State) (g : Group) : List (SlotId × Wave) :=
  g.slots.filterMap fun w =>
    let x := s.wave g.core w
    if x.live && x.group = g.id && x.kind ≠ .stint then some (w, x) else none

/-- Every live lane of a wave is held at a BAR, and the wave's arrival, a FENCE.g, has completed. -/
def waveAtBar (s : State) (k : CoreId) (w : SlotId) (x : Wave) : Bool :=
  x.ended || (x.stack = [] && (liveRecs x).all (heldAtBar s k w) && issuedPerformed (s.core k) x.uid w s.nextId)

/-- What a wave has observed at its arrival: its observed set and its own stores short of .k. -/
def arrivalObs (s : State) (k : CoreId) (x : Wave) : List Nat :=
  joinIds x.obs (((s.core k).merge.filter fun e => e.wave = x.uid).map (·.id))

/-- Every split of a group that holds live lanes is held at a BAR or a collective, and one at a member-mask collective or at
STEP: COLL_MISMATCH in each (R230). -/
def barMismatch (s : State) (g : Group) : Bool :=
  let ws := (groupWaves s g).filter fun x => x.2.kind ≠ .shadow && !x.2.ended
  ws ≠ []
    && ws.all (fun x => x.2.stack = [] && (liveRecs x.2).all fun r => heldAtBar s g.core x.1 r || heldAtGather s g.core x.1 r)
    && ws.any (fun x => (liveRecs x.2).any fun r => heldAtGather s g.core x.1 r)
    && ws.any fun x => (liveRecs x.2).any fun r => heldAtBar s g.core x.1 r

/-- The meaning of BARRIER_RELEASE: every split of the group held at a BAR becomes ready, and each wave's observed set
gains those of all. The COROUTINE role passes at a BAR reached in this very cycle too (R44, R406). -/
def execBarrierRelease (g : Nat) (s : State) : Host.Outcome State Fault Refusal :=
  .next (match s.group? g with
    | none => s
    | some x =>
      let ws := groupWaves s x
      let main := ws.filter fun y => y.2.kind ≠ .shadow
      let held := ws.flatMap fun y => ((liveRecs y.2).filter (heldAtBar s x.core y.1)).map fun r => (y.1, r)
      if held ≠ [] && main.all fun y => waveAtBar s x.core y.1 y.2 then
        let obs := main.foldl (fun l y => joinIds l (arrivalObs s x.core y.2)) []
        let s := held.foldl (fun s y =>
          let w := s.wave x.core y.1
          let s := if w.det = 2 && w.kind = .compute && (w.splits[y.2]).hold ≠ some .collective then passRole w.group w.windex s else s
          onSplit x.core y.1 y.2 (fun z => { z with released := true }) s) s
        main.foldl (fun s y => onWave x.core y.1 (fun w => { w with obs := joinIds w.obs obs }) s) s
      else s)

/-- The split records of a core. -/
def coreRecs (s : State) (k : CoreId) : List (SlotId × RecId) :=
  (s.core k).liveWaves.flatMap fun x => (liveRecs x.2).map fun r => (x.1, r)

/-- Whether a core's tile-barrier line is up in this cycle, and since when (R46). -/
def lineNow (s : State) (k : CoreId) : Option Nat :=
  if (coreRecs s k).any fun x => (heldAtSync s k x.1 x.2).isSome then some ((s.core k).line.getD s.cycle) else none

/-- The cycle in which the last of the lines that a core mask names rose, while they are all up. -/
def linesUp (s : State) (t : TileId) (mask : Nat) : Option Nat :=
  ((idxs 16).filter fun i => mask.testBit i.val).foldl (fun b i =>
    match b, (s.core (Fin.ofNat 4096 (t.val * 16 + i.val))).line with
    | some m, some c => some (max m c)
    | _, _ => none) (some 0)

/-- A held split whose lines are all up at one time is released four cycles after the last of them rose, whatever they do
in between. -/
def noteSync (s : State) (k : CoreId) (w : SlotId) (r : RecId) (y : Split) : Split :=
  match heldAtSync s k w r with
  | some m => { y with syncAt := y.syncAt.or ((linesUp s (coreTile k) m).map (· + 4)) }
  | none => { y with syncAt := none }

/-- The meaning of TILE_BARRIER_RELEASE: the splits whose release is due become ready on every core of the tile, and a line
that no split holds up any more falls. -/
def execTileBarrierRelease (t : TileId) (s : State) : Host.Outcome State Fault Refusal :=
  let free (k : CoreId) (x : SlotId × RecId) : Bool :=
    match heldAtSync s k x.1 x.2, ((s.wave k x.1).splits[x.2]).syncAt with
    | some _, some c => c ≤ s.cycle
    | _, _ => false
  let s' := (tileCores t).foldl (fun s' k => ((coreRecs s k).filter (free k)).foldl (fun s' x =>
    onSplit k x.1 x.2 (fun y => { y with released := true }) s') s') s
  .next ((tileCores t).foldl (fun u k => onCore k (fun c => { c with line := lineNow s' k }) u) s')

/-! ### Stints (R37, R38, R407, R427) -/

/-- A stint runs on a core. -/
def stintRuns (c : Core) : Bool := c.liveWaves.any fun x => x.2.kind = .stint

/-- A queued stint's conditions hold. A semaphore without a valid entry does not satisfy one. -/
def stintReady (s : State) (k : CoreId) (e : StintEntry) : Bool :=
  e.conds.all fun c => match semValue s k e.wave c.1 with
    | some v => (c.2 : Int) ≤ v
    | none => false

/-- What the semaphores of a list bring to a waiter (R152). -/
def semGain (s : State) (k : CoreId) (ctx : CtxId) (l : List Byte) : List Nat :=
  let c := s.core k
  let phys := l.filterMap fun v => semPhys s k ctx v
  (c.semObs.filter fun x => phys.contains x.1).flatMap (·.2)

/-- The wave of a stint as it starts: every register zero but A1; its first bundle is due in the next cycle. -/
def stintWave (s : State) (k : CoreId) (e : StintEntry) (t : Stint) : Wave :=
  { Wave.free with
    live := true, uid := s.nextId, kind := .stint, ctx := e.ctx, group := e.wave.group, windex := e.wave.windex,
    groupNo := e.wave.groupNo, serial := e.wave.serial, depth := e.wave.depth, seed := e.wave.seed, epoch := e.wave.epoch,
    cls := e.wave.cls, det := e.wave.det, image := e.image, nregs := t.regs, a := (Vector.replicate 32 0).set 1 e.arg,
    splits := startSplits t.pc 1, obs := semGain s k e.ctx (e.conds.map (·.1)),
    stint := some ⟨e.index, e.arg, s.cycle + 1 + t.cycles, t.signals, [], t.pc, t.pc + t.len⟩ }

/-- A requested switch-out concerns a core. -/
def Swout.concerns (o : Swout) (k : CoreId) : Bool :=
  match o.oneCore with
  | some x => x = k
  | none => o.dies.contains (coreDie k)

/-- No stint of a context starts on a core that its switch-out concerns (R381) or that is halted (R383), nor on a fenced
tile (R483). -/
def stintBarred (s : State) (k : CoreId) (ctx : CtxId) : Bool :=
  (s.ctx ctx).outCores.contains k || (s.tiles[coreTile k]).fence || (s.core k).halted
    || (s.ctx ctx).swout.any fun o => o.stopping && o.concerns k

/-- The entry of the image's stint table that a queued stint names. -/
def stintEntry (s : State) (e : StintEntry) : Option Stint := (s.image? e.ctx e.image).bind fun im => im.stints[e.index]?

/-- The meaning of STINT_START: the oldest startable stint of a context starts when no stint runs and it fits (R407). -/
def execStintStart (k : CoreId) (ctx : CtxId) (s : State) : Host.Outcome State Fault Refusal :=
  let c := s.core k
  .next (match c.stints.find? fun e => e.ctx = ctx && stintReady s k e with
    | none => s
    | some e => match stintEntry s e with
      | none => s
      | some t => match c.room0 (e.wave.cls = 0) [t.regs] with
        | some (w :: _) =>
          if stintRuns c || stintBarred s k e.ctx then s
          else
            let x := stintWave s k e t
            addNow k (.s253 ctx) 1 { onWave k w (fun _ => x) (onCore k (fun c => { c with stints := c.stints.erase e }) s) with
              nextId := s.nextId + 1 }
        | _ => s)

/-- The meaning of STINT_OVERRUN: a stint whose declared cycles have run out ends with WATCHDOG (R38, R427). -/
def execStintOverrun (k : CoreId) (w : SlotId) (s : State) : Host.Outcome State Fault Refusal :=
  let x := s.wave k w
  .next (match x.kind, x.stint with
    | .stint, some r =>
      if x.live && r.deadline ≤ s.cycle then stintFail k w ((liveRecs x).headD 0) { code := .watchdog } s else s
    | _, _ => s)

end Sys2Proof.Machine
end

