-- ==== Sys2Proof/Machine/Husk.lean ====
section
/-!
DEFINITION. The Husk (R417-R422, R432): the 6,144-byte image of a wave, what HUSK.LOAD takes from one, resuming trapped
splits (R423-R425), and the records of the swap region (R436).
-/

namespace Sys2Proof.Machine

open Sys2Proof

/-! ### The arrays of the image (R418, R419) -/

inductive Port
  | a | b | t | q
  deriving DecidableEq, Repr

def UnitRegs.get (u : UnitRegs) : Port → Lanes DWord
  | .a => u.a | .b => u.b | .t => u.t | .q => u.q

def UnitRegs.put (u : UnitRegs) (x : Lanes DWord) : Port → UnitRegs
  | .a => { u with a := x } | .b => { u with b := x } | .t => { u with t := x } | .q => { u with q := x }

/-- The nineteen 64-bit arrays, in order from 0x380. -/
def wideArrays : List (VUnit × Port) :=
  [(.ial, .a), (.ial, .b), (.ial, .t), (.ial, .q), (.fma, .a), (.fma, .b), (.fma, .t), (.fma, .q), (.xf, .a), (.xf, .b),
   (.xf, .q), (.xl, .a), (.xl, .q), (.str, .a), (.str, .b), (.str, .q), (.lsu, .a), (.lsu, .b), (.lsu, .q)]

/-- The 32-bit arrays, in order from 0x1680. -/
def narrowArrays : List (VUnit × Port) := [(.xl, .b), (.xl, .t), (.str, .t)]

/-- The result that an ARITH trap of a unit keeps back in a lane (R94, R421). -/
def raisedIn (w : Wave) (u : VUnit) (l : Lane) : Option Flight := w.flights.find? fun f => f.unit = u && laneBit (f.raised &&& f.en) l

/-- A field of the image: the port or latch; a recorded result in a lane with an ARITH condition of the unit (R421). -/
def huskField (w : Wave) (u : VUnit) (p : Port) (l : Lane) : DWord :=
  match p, raisedIn w u l with
  | .q, some f => f.val[l]
  | _, _ => ((w.unit u).get p)[l]

/-- The code of a chain type (R421). -/
def chainCode : Ty → Nat
  | .f64 => 1 | .f16 => 2 | .bf16 => 3 | _ => 0

def chainTypeOf : Nat → Ty
  | 1 => .f64 | 2 => .f16 | 3 => .bf16 | _ => .f32

/-- The conditions recorded for a unit in a lane (R421). -/
def arithMask (w : Wave) (u : VUnit) (l : Lane) : Nat := ((raisedIn w u l).map fun f => f.cond[l].toNat).getD 0

/-- A lane word (R421; log entry 53, DEDUCED). -/
def laneWord (w : Wave) (l : Lane) : Nat :=
  let p := ((List.range 7).map fun i => if laneBit w.p[Fin.ofNat 8 (i + 1)] l then 2 ^ i else 0).sum
  w.laneCode[l].toNat + arithMask w .fma l * 2 ^ 8 + arithMask w .xf l * 2 ^ 11 + arithMask w .xl l * 2 ^ 14
    + (if laneBit w.chainOpen l then 2 ^ 17 else 0) + chainCode w.chainTy[l] * 2 ^ 18
    + (if laneBit w.exited l then 2 ^ 20 else 0) + p * 2 ^ 21

/-! ### Split records and the stack (R28, R420) -/

/-- The state field of a split record (R28). -/
def stateCode (x : Split) : Nat :=
  match x.state, x.hold with
  | .free, _ => 0
  | .trapped, _ => 4
  | .parked, _ => 5
  | .resuming, _ => 1
  | .runnable, some .collective => 2
  | .runnable, some .queue => 3
  | .runnable, _ => 1

/-- The deposit field of a unit's recorded ARITH result in a split; 0x1FF for none. -/
def arithDep (w : Wave) (x : Split) (u : VUnit) : Nat :=
  match w.flights.find? fun f => f.unit = u && f.raised &&& f.en &&& x.mask ≠ 0 with
  | some f => depCode f.dep
  | none => 0x1FF

/-- A split record of the image. -/
def splitBytes (w : Wave) (x : Split) : List Byte :=
  if x.state = .free then List.replicate 48 0
  else
    leBytes 4 x.pc.toNat ++ leBytes 4 x.mask.toNat ++ leBytes 4 (x.gap % 16 + stateCode x * 16 + x.age % 64 * 128)
      ++ leBytes 4 (x.code.toNat + x.arg.toNat * 256 + x.resolve.toNat * 65536) ++ leBytes 8 x.tau
      ++ leBytes 8 ((x.abase.map (·.2.toNat)).getD 0)
      ++ leBytes 4 ((match x.abase with | some (n, _) => n.val + 32 | none => 0)
          + (match x.qslot with | some q => q.val * 64 + 1024 | none => 0))
      ++ leBytes 2 (arithDep w x .fma) ++ leBytes 2 (arithDep w x .xf) ++ leBytes 2 (arithDep w x .xl) ++ leBytes 2 0
      ++ leBytes 4 x.record.toNat

def stackBytes (x : Option StackSplit) : List Byte :=
  match x with
  | some y => leBytes 4 y.pc.toNat ++ leBytes 4 y.mask.toNat ++ leBytes 8 y.tau
  | none => List.replicate 16 0

def stackGapBytes (x : Option StackSplit) : List Byte :=
  match x with
  | some y => leBytes 2 (y.gap % 16 + y.age % 64 * 16)
  | none => [0, 0]

/-! ### The sequencer record (R432) -/

/-- The matrix operation of a wave that is still in progress. -/
def mxInProgress (c : Core) (uid : Nat) : Option MxOp := c.mx.find? fun m => m.wave = uid && m.t < mxLastTick m

/-- Ticks from the owner's clock to the next step or write of an operation. -/
def mxNextTick (m : MxOp) : Nat :=
  (match m.op with
    | 1 => if m.next < m.n then m.next + 1 else m.n + 4
    | 2 => if m.read then 4 else 1
    | 3 => 2
    | 4 => if m.read then m.next + 3 else 1
    | _ => 1) - m.t

def int16Bytes (x : Int) : List Byte := leBytes 2 (BitVec.ofInt 16 x).toNat

/-- The sequencer record: zero when no operation of the wave is in progress. -/
def sequencerBytes (c : Core) (uid : Nat) : List Byte :=
  match mxInProgress c uid with
  | none => List.replicate 64 0
  | some m =>
    leBytes 4 (1 + m.op * 2 + fmtCode m.fmt * 2 ^ 7 + mxModeCode m.mode * 2 ^ 11 + m.init.toNat * 2 ^ 13)
      ++ leBytes 4 (if m.op = 1 || m.op = 4 then m.n - m.next else 0)
      ++ leBytes 4 (if m.op = 1 || m.op = 4 then ((m.pa : Int) + m.next * m.incA).toNat else 0)
      ++ leBytes 4 (if m.op = 1 then ((m.pb : Int) + m.next * m.incB).toNat else 0)
      ++ int16Bytes m.incA ++ int16Bytes m.incB ++ int16Bytes m.dispA ++ int16Bytes m.dispB
      ++ leBytes 2 m.tile ++ leBytes 1 (mxNextTick m) ++ List.replicate 5 0
      ++ (List.range 16).map (fun i => BitVec.ofNat 8 (m.scaleA.getD i 0)) ++ (List.range 16).map fun i => BitVec.ofNat 8 (m.scaleB.getD i 0)

/-! ### The image (R418, R419) -/

/-- The flight frame of a wave is not empty: results in flight, `.lin` accesses, matrix writes, failed accesses (R417). -/
def frameFull (c : Core) (w : Wave) : Bool :=
  w.flights ≠ [] || w.lins ≠ [] || w.dfas ≠ [] || (c.mx.any fun m => m.wave = w.uid) || c.ops.any fun o => o.wave = w.uid && o.failed ≠ 0

/-- The window that the queue fields of a wave's image describe: the pair's. -/
def pairWindow (c : Core) (w : Wave) : QWindow :=
  match w.kind, w.partner with
  | .shadow, some p => c.waves[p].window
  | _, _ => w.window

/-- The header (R419). -/
def headerBytes (s : State) (k : CoreId) (slot : SlotId) : List Byte :=
  let w := s.wave k slot
  let q := pairWindow (s.core k) w
  let current : Bool := w.det = 2 && w.kind = .compute && (match s.group? w.group with | some g => g.cur = w.windex | none => false)
  leBytes 2 1 ++ leBytes 2 0 ++ leBytes 2 k.val ++ leBytes 1 slot.val ++ leBytes 1 w.ctx.val ++ leBytes 4 w.groupNo
    ++ leBytes 1 w.windex
    ++ leBytes 1 ((if w.kind = .shadow then 1 else 0) + (if w.partner.isSome then 2 else 0) + (if current then 4 else 0))
    ++ leBytes 1 w.stack.length ++ leBytes 1 0 ++ leBytes 4 w.exited.toNat
    ++ leBytes 4 (q.head.val + q.tail.val * 16 + q.count * 256) ++ leBytes 4 q.headSeq.toNat ++ leBytes 4 q.nextSeq.toNat
    ++ leBytes 4 ((if frameFull (s.core k) w then 1 else 0) + (if (mxInProgress (s.core k) w.uid).isSome then 2 else 0))
    ++ List.replicate 28 0

/-- The Husk image of a wave: 6,144 bytes. -/
def huskImage (s : State) (k : CoreId) (slot : SlotId) : List Byte :=
  let w := s.wave k slot
  headerBytes s k slot ++ w.splits.toList.flatMap (splitBytes w)
    ++ (List.range 8).flatMap (fun i => stackBytes w.stack[i]?) ++ sequencerBytes (s.core k) w.uid
    ++ allLanes.flatMap (fun l => leBytes 4 (laneWord w l))
    ++ (List.range 31).flatMap (fun i => leBytes 8 (w.a[Fin.ofNat 32 (i + 1)]).toNat)
    ++ (List.range 8).flatMap (fun i => stackGapBytes w.stack[i]?) ++ List.replicate 56 0
    ++ wideArrays.flatMap (fun x => allLanes.flatMap fun l => leBytes 8 (huskField w x.1 x.2 l).toNat)
    ++ narrowArrays.flatMap fun x => allLanes.flatMap fun l => leBytes 4 (huskField w x.1 x.2 l).toNat

/-! ### Loading an image (R422) -/

/-- A split record takes pc, mask, trap word and resolve from the image when it is trapped or parked. -/
def loadSplit (b : List Byte) (r : RecId) (x : Split) : Split :=
  if x.state = .trapped || x.state = .parked then
    let o := 0x40 + 48 * r.val
    let t := fieldAt b (o + 12) 4
    { x with pc := BitVec.ofNat 32 (fieldAt b o 4), mask := BitVec.ofNat 32 (fieldAt b (o + 4) 4), code := BitVec.ofNat 8 t,
             arg := BitVec.ofNat 8 (t / 256), resolve := t.testBit 16, lost := false }
  else x

/-- The lanes of trapped and parked splits, as they were at their traps (log entry 55, DEDUCED). -/
def frozenLanes (w : Wave) : Mask :=
  (w.liveSplits.filter fun x => x.2.state = .trapped || x.2.state = .parked).foldl (fun m x => m ||| x.2.mask0) 0

/-- Changes a unit's recorded result and conditions in a lane (log entry 54, DEDUCED). -/
def editRaised (u : VUnit) (l : Lane) (g : Flight → Flight) (w : Wave) : Wave :=
  { w with flights := w.flights.map fun f => if f.unit = u && laneBit (f.raised &&& f.en) l then g f else f }

/-- A recorded result takes a loaded value in a lane; an open chain's keeps its W56 value when that reads as the loaded one
(R94, R422). -/
def Flight.setResult (l : Lane) (x : DWord) (f : Flight) : Flight :=
  { f with val := f.val.set l x,
           chain := f.chain.map fun y => if w56Read y[l] = x then y else y.set l (w56Encode (decodeF .f64 x.toNat)) }

/-- A latch or port field of a lane comes from the image. The FMA latch of an open chain keeps its W56 value when the field
holds what HUSK.SAVE writes for it, and takes the loaded binary64 otherwise. -/
def loadField (l : Lane) (x : DWord) (u : VUnit) (p : Port) (w : Wave) : Wave :=
  match p, raisedIn w u l with
  | .q, some _ => editRaised u l (Flight.setResult l x) w
  | _, _ =>
    let w' := w.onUnit u fun y => y.put ((y.get p).set l x) p
    if u = .fma && p = .q && laneBit (w.chainOpen &&& w.w56ok) l && w56Read w.w56[l] ≠ x
    then { w' with w56 := w'.w56.set l (w56Encode (decodeF .f64 x.toNat)) } else w'

/-- A lane word: code, conditions, chain record, predicates. -/
def loadLaneWord (l : Lane) (x : Nat) (w : Wave) : Wave :=
  let w := { w with laneCode := w.laneCode.set l (BitVec.ofNat 8 x), chainTy := w.chainTy.set l (chainTypeOf (x / 2 ^ 18 % 4)),
                    chainOpen := if x.testBit 17 then w.chainOpen ||| oneLane l else w.chainOpen &&& ~~~oneLane l }
  let w := (List.range 7).foldl (fun w i =>
    w.writeP (Fin.ofNat 8 (i + 1)) (oneLane l) (if x.testBit (21 + i) then oneLane l else 0)) w
  let set (u : VUnit) (lo : Nat) : Wave → Wave :=
    editRaised u l fun f => { f with cond := f.cond.set l (BitVec.ofNat 3 (x / 2 ^ lo)) }
  set .xl 14 (set .xf 11 (set .fma 8 w))

/-- What HUSK.LOAD takes from an image. -/
def huskApply (b : List Byte) (w : Wave) : Wave :=
  let lanes := lanesOf (frozenLanes w)
  let stopped : Bool := w.stack = [] && w.liveSplits.all fun x => x.2.state = .trapped || x.2.state = .parked
  let w := (wideArrays.mapIdx fun i x => (i, x)).foldl (fun w x =>
    lanes.foldl (fun w l => loadField l (BitVec.ofNat 64 (fieldAt b (0x380 + 256 * x.1 + 8 * l.val) 8)) x.2.1 x.2.2 w) w) w
  let w := (narrowArrays.mapIdx fun i x => (i, x)).foldl (fun w x =>
    lanes.foldl (fun w l => loadField l (BitVec.ofNat 64 (fieldAt b (0x1680 + 128 * x.1 + 4 * l.val) 4)) x.2.1 x.2.2 w) w) w
  let w := lanes.foldl (fun w l => loadLaneWord l (fieldAt b (0x1C0 + 4 * l.val) 4) w) w
  let w := if stopped then (List.range 31).foldl (fun w i =>
    w.writeA (Fin.ofNat 32 (i + 1)) (BitVec.ofNat 64 (fieldAt b (0x240 + 8 * i) 8))) w else w
  { w with splits := (idxs 4).foldl (fun v r => vset v r (loadSplit b r)) w.splits }

/-! ### Resuming (R423-R425, R94) -/

/-- The lanes that belong to a split: of one that has trapped, those it had at the trap, whatever its record now says. -/
def Split.owns (x : Split) : Mask := if x.state = .trapped || x.state = .parked then x.mask0 else x.mask

/-- Lanes that a split may not take: exited, or of another split, besides its own at the trap. -/
def overlaps (w : Wave) (r : RecId) : Bool :=
  let x := w.splits[r]
  let others := ((idxs 4).filter fun q => q ≠ r && w.splits[q].state ≠ .free).foldl (fun m q => m ||| w.splits[q].owns) 0
  let held := w.stack.foldl (fun m y => m ||| y.mask) others
  x.mask &&& ~~~x.mask0 &&& (w.exited ||| held) ≠ 0

/-- The failed accesses of some lanes perform again, or are discarded when their split is resolved (R425). -/
def retryFailed (k : CoreId) (uid : Nat) (m : Mask) (resolve : Bool) : State → State :=
  let again (o : MemOp) : Option MemOp :=
    if o.wave ≠ uid || o.failed &&& m = 0 then some o
    else if resolve then o.abandon m
    else some { o with failed := o.failed &&& ~~~m, left := o.left ||| (o.failed &&& m) }
  onCore k fun c => { c with ops := c.ops.filterMap again }

/-- One trapped split that fails: SPLIT_OVERLAP, and the trap queue again with its edits kept (R423). -/
def resumeFails (k : CoreId) (w : SlotId) (r : RecId) (s : State) : State :=
  queueTrap k w r (onSplit k w r (fun x => { x with code := TrapCode.splitOverlap.code, arg := 0 }) s)

/-- One trapped split that passes: lanes left out end, all of them when resolve is set; recorded results land where no ARITH
still waits to be taken (R94, R411); the rest runs from the next cycle. -/
def resumeSplit (k : CoreId) (w : SlotId) (r : RecId) (s : State) : State :=
  let x := (s.wave k w).splits[r]
  let uid := (s.wave k w).uid
  let gone := if x.resolve then x.mask0 ||| x.mask else x.mask0 &&& ~~~x.mask
  let go := x.mask &&& ~~~gone
  let still := x.pend.foldl (fun m p => if p.code = .arith then m ||| p.lanes else m) 0
  let s := onCore k (dropTraps fun t => t.wave = uid && t.split = r) s
  let s := retryFailed k uid (x.mask0 ||| x.mask) x.resolve s
  let s := onWave k w (fun y => { (y.landRaised (go &&& ~~~still)) with laneCode := Lanes.of fun l => if laneBit (x.mask0 ||| x.mask) l then 0 else y.laneCode[l] }) s
  let s := onSplit k w r (fun y => { y with
    state := .resuming, mask := x.mask ||| gone, code := 0, arg := 0, resolve := false, addr := 0, record := 0xFFFFFFFF,
    mask0 := 0, epc := none, issued := false }) s
  if gone = 0 then s else endLanes k w gone true s

/-- The trapped splits of a wave. -/
def trappedRecs (w : Wave) : List RecId := (idxs 4).filter fun r => w.splits[r].state = .trapped

/-- RTE on a wave: every check before any split resumes (R423). -/
def resume (k : CoreId) (w : SlotId) (s : State) : State :=
  let x := s.wave k w
  let rs := trappedRecs x
  let bad := rs.filter (overlaps x)
  let s := bad.foldl (fun s r => resumeFails k w r s) s
  (rs.filter fun r => !bad.contains r).foldl (fun s r => resumeSplit k w r s) s

/-! ### Records of the swap region (R436) -/

/-- A wave record: registers, Husk image, and the queue window of a compute wave with a shadow. -/
def waveRecord (s : State) (k : CoreId) (slot : SlotId) : List Byte :=
  let w := s.wave k slot
  let reg (v : Nat) (l : Lane) : Nat := if v < w.nregs then (w.v[Fin.ofNat 256 v])[l].toNat else 0
  (List.range 256).flatMap (fun v => allLanes.flatMap fun l => leBytes 4 (reg v l))
    ++ huskImage s k slot
    ++ (if w.kind = .compute && w.partner.isSome
      then (idxs 16).flatMap fun q => allLanes.flatMap fun l => leBytes 4 (w.window.slots[q].val[l]).toNat
      else List.replicate 2048 0)

/-- A core record: semaphore values, core number, wave records written, S253 and S254. -/
def coreRecord (s : State) (k : CoreId) (c : CtxId) (waves : Nat) : List Byte :=
  (List.range 248).flatMap (fun v => leBytes 4 (match semPhys s k c (BitVec.ofNat 8 v) with
    | some p => ((s.core k).sems[p]).toNat
    | none => 0))
    ++ leBytes 4 k.val ++ leBytes 4 waves ++ leBytes 4 (BitVec.ofInt 32 (s.core k).s253[c]).toNat
    ++ leBytes 4 (BitVec.ofInt 32 (s.core k).s254[c]).toNat ++ List.replicate 16 0

end Sys2Proof.Machine
end

