-- ==== Sys2Proof/Machine/Regs.lean ====
section
/-!
DEFINITION. The control registers (R361, R362, R387, R437, R446, R483): what a read returns and what a write does; the
life of a context that CTX.AREA governs; tile power (R483-R485); submission-queue registers (R387, R391).
-/

namespace Sys2Proof.Machine

open Sys2Proof

/-! ### Contexts made live and torn down -/

/-- Taken packets of the queues that serve a context finish with a status. -/
def finishPackets (c : CtxId) (status : Half) (f : Packet → Bool) (s : State) : State :=
  { s with queues := vmap (fun q => if q.ctx ≠ c then q else
      { q with taken := q.taken.map fun p => if p.state ≠ .done && f p then { p with state := .done, status := status } else p }) s.queues }

/-- The running stints of a context end at once, as under a trap: without their signals (R427; log entry 18, DEDUCED). -/
def endStints (c : CtxId) (s : State) : State :=
  (idxs 4096).foldl (fun s k => (s.core k).liveWaves.foldl (fun s x =>
    if x.2.kind = .stint && x.2.ctx = c then freeWave k x.1 (donePreempt k x.1 s) else s) s) s

/-- Every group of a context ends as under a fatal trap, its stints end, and its unplaced grids leave the dispatcher. -/
def endContext (c : CtxId) (s : State) : State :=
  let s := endStints c ((s.groups.filter fun g => g.ctx = c).foldl (fun s g => killGroup g.id s) s)
  { s with grids := s.grids.map fun d => if d.ctx = c then { d with failed := true } else d }

/-- The queued stints of a context are discarded, with one kind-8 record (R427). -/
def dropStints (c : CtxId) (s : State) : State :=
  let n := (s.cores.toList.map fun k => (k.stints.filter fun e => e.ctx = c).length).sum
  let s := if n = 0 then s else (recordFault c { kind := 8, code := 8, d0 := n } s).2
  { s with cores := vmap (fun k => { k with stints := k.stints.filter fun e => e.ctx ≠ c, ctxSeen := k.ctxSeen.filter (· ≠ c) }) s.cores }

/-- Frees the Barn entries of a context that a test picks (R451). -/
def dropBarn (c : CtxId) (f : BarnWrite → Bool) (s : State) : State :=
  { s with dies := vmap (fun x => { x with barn := x.barn.filter fun e => !(e.ctx = c && f e.w) }) s.dies }

/-- A context is torn down (R392, R427, R449): its grids end, its launches complete with TORN, its binding ends and its Barn
entries with it. -/
def tearDown (c : CtxId) (s : State) : State :=
  let s := dropBarn c (fun _ => true) (finishPackets c 8 (fun _ => true) (endContext c (dropStints c s)))
  onCtx c (fun x => { x with
    state := 0, seedDepth := 1, domain := none, windows := Vector.replicate 256 none, pendWins := [], pendOvf := [], step := 0,
    outcome := 0, started := false, arrivedSent := false, refusedStep := [], unacked := 0, counts := [], writers := [],
    ownWrites := [], conflicts := [], staged := [], swout := [], outDies := [], outCores := [], coreRecs := [] }) s

/-- A context is made live: a seed stack of depth 1 with seed 0 (R369; log entry 17, DEDUCED). -/
def makeLive (c : CtxId) (s : State) : State :=
  areaWrite c 0x40 (List.replicate 32 0) (onCtx c (fun x => { x with state := 1, seedDepth := 1 }) s)

/-- The fields of CTX.AREA and CTX.PTROOT that hold a value. -/
def areaMask : DWord := 0x01FFFFFFFFFF0000
def ptrootMask : DWord := 0x0000FFFFFFFFF001

/-- A write of CTX.AREA: a base where there was none makes the context live, none where there was one tears it down. -/
def writeArea (c : CtxId) (v : DWord) (s : State) : State :=
  let v := v &&& areaMask
  let old := (s.ctx c).area
  let set (s : State) : State := onCtx c (fun x => { x with area := v }) s
  if v = 0 then (if old = 0 then s else set (tearDown c s))
  else if old = 0 then makeLive c (set s) else set s

/-! ### Context registers (R361) -/

def readCtx (x : Ctx) : Nat → DWord
  | 0 => BitVec.ofNat 64 (x.level.toNat + x.class0.toNat * 4 + x.dbgBrk.toNat * 256 + x.partition.toNat * 65536)
  | 1 => x.area
  | 2 => x.ptroot
  | 3 => x.gen.zeroExtend 64
  | 4 => x.fptrap.zeroExtend 64
  | 5 => BitVec.ofNat 64 x.stepRound.toNat
  | 6 => x.joinSwap.zeroExtend 64
  | 7 => x.preemptLimit.zeroExtend 64
  | 8 => x.parkPct.zeroExtend 64
  | 9 => x.handler
  | 10 => x.watchdog.zeroExtend 64
  | 11 => BitVec.ofNat 64 x.seedDepth
  | 12 => BitVec.ofNat 64 x.state
  | _ => x.faultCnt.zeroExtend 64

/-- A write of a context register; level and partition change at machine level only (R359). -/
def writeCtx (machine : Bool) (c : CtxId) (idx : Nat) (v : DWord) : State → State :=
  match idx with
  | 0 => onCtx c fun x => { x with
      class0 := bit v 2, dbgBrk := bit v 8, level := if machine then BitVec.ofNat 2 (bits v 0 2) else x.level,
      partition := if machine then BitVec.ofNat 4 (bits v 16 4) else x.partition }
  | 1 => writeArea c v
  | 2 => onCtx c fun x => { x with ptroot := v &&& ptrootMask }
  | 4 => onCtx c fun x => { x with fptrap := BitVec.ofNat 3 v.toNat }
  | 5 => onCtx c fun x => { x with stepRound := bit v 0 }
  | 6 => onCtx c fun x => { x with joinSwap := lo32 v }
  | 7 => onCtx c fun x => { x with preemptLimit := lo32 v }
  | 8 => onCtx c fun x => { x with parkPct := lo32 v &&& 0x7F }
  | 9 => onCtx c fun x => { x with handler := v &&& 0xFFFFFFFF0000FFFF }
  | 10 => onCtx c fun x => { x with watchdog := lo32 v }
  | _ => id

/-! ### Core registers -/

/-- A wave context with a parked split. -/
def Wave.hasParked (w : Wave) : Bool := w.liveSplits.any fun x => x.2.state = .parked

def readCore (s : State) (k : CoreId) (idx : Nat) : DWord :=
  let c := s.core k
  let on : Bool := (s.tiles[coreTile k]).state = .running
  match idx with
  | 0 => BitVec.ofNat 64 (k.val + (if isSteward s k then 4096 else 0))
  | 1 => if !on then 0 else BitVec.ofNat 64 (((idxs 64).map fun x =>
      if (c.liveWaves.any fun w => w.2.ctx = x) || (c.claims.any fun y => y.ctx = x) then 2 ^ x.val else 0).sum)
  | 2 => if !on then 0 else BitVec.ofNat 64 (c.liveWaves.length + (c.liveWaves.filter fun w => w.2.hasParked).length * 256)
  | _ => if on then BitVec.ofNat 64 s.cycle else 0

/-! ### Tile power (R483-R485) -/

/-- Slot-table entries of resident grids that a router carries. -/
def routerUsed (s : State) (t : TileId) : Bool :=
  s.grids.any fun d => (d.state = .placing || d.state = .placed) &&
    match (s.image? d.ctx d.image).bind (·.plan) with
    | some p => p.2.2.any fun r => r.die * 32 + r.tile = t.val
    | none => false

/-- A core holds no wave context, flight frame, trap-queue entry or outstanding request. -/
def coreIdle (s : State) (k : CoreId) : Bool :=
  let c := s.core k
  c.liveWaves = [] && (c.frames.map (·.2)).sum = 0 && c.trapQ = [] && c.trapWait = [] && c.ops = [] && c.merge = [] && c.mx = [] && c.armed = []
    && c.walks = [] && c.overlays = [] && c.stints = [] && !(s.copies.any fun x => x.core = k) && !s.privOps.any fun p => p.core = k

/-- TILE.PWR_ACK.drained. -/
def drained (s : State) (t : TileId) : Bool := (s.tiles[t]).fence && (tileCores t).all (coreIdle s) && !routerUsed s t

/-- A class-0 image holds pinned pages on a core (R399). -/
def pinned0 (s : State) (k : CoreId) : Bool :=
  (s.core k).dict.any fun p => p.pinned && s.images.any fun im => im.handle = p.image && im.class0

/-- A request to retain or to switch off a tile is refused (R484). -/
def pwrRefused (s : State) (t : TileId) (req : Nat) : Bool :=
  let keep := (s.tiles[t]).keep
  let claims := (tileCores t).flatMap fun k => (s.core k).claims
  let pins := (tileCores t).any (pinned0 s)
  if req = 1 then !drained s t || claims.any (fun c => !keep.getLsbD c.kind) || (pins && !keep.getLsbD 3)
  else claims ≠ [] || pins || ((s.tiles[t]).state = .running && !drained s t)

/-- The cycles of a bounded change: an unspecified number within a time in ns (R484, R485; log entry 68, DESIGN CHOICE). -/
def boundedCycles (s : State) (ns : Nat) : Nat := Config.latency s.free % (ns * s.clockKhz / 1000000 + 1)

/-- A tile's state begins to change. -/
def beginChange (t : TileId) (target ns : Nat) (s : State) : State :=
  let now := match (s.tiles[t]).state with
    | .retained => 1
    | .off => 2
    | _ => 0
  onTile t (fun x => { x with state := .changing target, from_ := now, due := s.cycle + 1 + boundedCycles s ns }) { s with free := s.free + 1 }

/-- A write of TILE.PWR_REQ; during a change it waits for its end (R484). -/
def writePwrReq (t : TileId) (v : DWord) (s : State) : State :=
  let x := s.tiles[t]
  match x.state with
  | .changing _ => onTile t (fun x => { x with reqHeld := some v }) s
  | st =>
    let r := bits v 0 2
    let s := onTile t (fun x => { x with fence := bit v 8, refused := false, req := if r = 3 then x.req else BitVec.ofNat 2 r }) s
    let moves : Bool := (st = .running && (r = 1 || r = 2)) || (st = .retained && r = 2)
    if !moves then s
    else if pwrRefused s t r then onTile t (fun x => { x with refused := true }) s
    else beginChange t r 4000 s

/-- A write of TILE.WAKE with its bit set (R485). -/
def writeWake (t : TileId) (s : State) : State :=
  match (s.tiles[t]).state with
  | .running | .changing 0 => s
  | .changing _ => onTile t (fun x => { x with wakeHeld := true }) s
  | .retained => beginChange t 0 10000 s
  | .off => beginChange t 0 60000 s

/-- A PWR_REQ write that waited for a change acts, then a wake that waited (log entry 69, DEDUCED). -/
def heldWrites (t : TileId) (s : State) : State :=
  let x := s.tiles[t]
  let s := onTile t (fun x => { x with reqHeld := none, wakeHeld := false }) s
  let s := match x.reqHeld with
    | some v => writePwrReq t v s
    | none => s
  if x.wakeHeld then writeWake t s else s

/-- The meaning of TILE_POWER_CHANGE_DONE. -/
def execTilePowerChangeDone (t : TileId) (s : State) : Host.Outcome State Fault Refusal :=
  .next (match (s.tiles[t]).state with
    | .changing 1 => if (s.tiles[t]).due ≤ s.cycle then heldWrites t (onTile t (fun x => { x with state := .retained }) s) else s
    | .changing 2 => if (s.tiles[t]).due ≤ s.cycle then heldWrites t (onTile t (fun x => { x with state := .off }) s) else s
    | _ => s)

/-- The arrays of a core after a wake: what was not kept is zero, and its dictionary pages have lost their tags;
the zeroed words are intact (R479, R485). -/
def wakeCore (keep : BitVec 4) (retained : Bool) (c : Core) : Core :=
  { c with
    scratch := if retained && keep.getLsbD 0 then c.scratch else []
    eccSp := if retained && keep.getLsbD 0 then c.eccSp else []
    acc := if retained && keep.getLsbD 1 then c.acc else []
    eccAcc := if retained && keep.getLsbD 1 then c.eccAcc else []
    l1 := if retained && keep.getLsbD 2 then c.l1 else []
    eccL1 := if retained && keep.getLsbD 2 then c.eccL1 else []
    dict := if retained && keep.getLsbD 3 then c.dict else [] }

/-- The meaning of TILE_WAKE_DONE. -/
def execTileWakeDone (t : TileId) (s : State) : Host.Outcome State Fault Refusal :=
  let x := s.tiles[t]
  .next (match x.state with
    | .changing 0 =>
      if x.due ≤ s.cycle then
        let s := (tileCores t).foldl (fun s k => onCore k (wakeCore x.keep (x.from_ = 1)) s) s
        heldWrites t (onTile t (fun x => { x with state := .running, req := 0 }) s)
      else s
    | _ => s)

def readTile' (s : State) (t : TileId) (idx : Nat) : DWord :=
  let x := s.tiles[t]
  let st := match x.state with
    | .running => 0
    | .retained => 1
    | .off => 2
    | .changing _ => 3
  match idx with
  | 0 => BitVec.ofNat 64 (x.req.toNat + x.fence.toNat * 256)
  | 1 => BitVec.ofNat 64 (st + (drained s t).toNat * 256 + x.refused.toNat * 1024)
  | 2 => x.keep.zeroExtend 64
  | _ => 0

def writeTile' (t : TileId) (idx : Nat) (v : DWord) : State → State :=
  match idx with
  | 0 => writePwrReq t v
  | 2 => onTile t fun x => { x with keep := BitVec.ofNat 4 v.toNat }
  | 3 => if bit v 0 then writeWake t else id
  | _ => id

/-! ### Rows of their own for tile registers: the fields not named keep their values -/

/-- The value of TILE.PWR_REQ with another req. -/
def pwrValue (s : State) (t : TileId) (req : Nat) : DWord := BitVec.ofNat 64 (req + (s.tiles[t]).fence.toNat * 256)

def execTilePwrReqRun (t : TileId) (s : State) : Host.Outcome State Fault Refusal := .next (writePwrReq t (pwrValue s t 0) s)
def execTilePwrReqRetain (t : TileId) (s : State) : Host.Outcome State Fault Refusal := .next (writePwrReq t (pwrValue s t 1) s)
def execTilePwrReqOff (t : TileId) (s : State) : Host.Outcome State Fault Refusal := .next (writePwrReq t (pwrValue s t 2) s)
def execTilePwrReqFence (t : TileId) (on : Bool) (s : State) : Host.Outcome State Fault Refusal :=
  .next (writePwrReq t (BitVec.ofNat 64 ((s.tiles[t]).req.toNat + on.toNat * 256)) s)
def execTileWake (t : TileId) (s : State) : Host.Outcome State Fault Refusal := .next (writeWake t s)

/-! ### Die registers -/

/-- DIE.PTP_TIME (R469). -/
def readDie (s : State) (d : DieId) (idx : Nat) : DWord :=
  match idx with
  | 0 => BitVec.ofNat 64 d.val
  | 1 => BitVec.ofNat 64 (diePartition s d + s.layout.toNat * 16)
  | _ => BitVec.ofNat 64 s.hub.ptp

/-- A write of DIE.PART sets the layout of every die, unless a context besides 0 and 1 is in use (R446). -/
def writePart (layout : BitVec 2) (s : State) : State :=
  if (idxs 64).any fun x => 2 ≤ x.val && (s.ctx x).state ≠ 0 then s else { s with layout := layout }

def execDiePartWrite (layout : BitVec 2) (s : State) : Host.Outcome State Fault Refusal := .next (writePart layout s)

/-! ### Queue registers (R387, R390, R391) -/

/-- HOSTQ.STATUS.cfg_err. -/
def cfgErr (s : State) (q : HostQ) : Bool := q.enable && (q.sizeLog2 < 4 || 14 < q.sizeLog2 || (s.ctx q.ctx).level = 2)

/-- The sequence number the dispatcher expects (R390). -/
def HostQ.expect (q : HostQ) : Word := q.consumed + 1

/-- The expected packet lies more than one ring ahead of DONE_SEQ. -/
def HostQ.waits (q : HostQ) : Bool := 2 ^ q.sizeLog2 < (q.expect - q.doneSeq).toNat

/-- An earlier packet of the queue has not completed. -/
def HostQ.fenced (q : HostQ) (p : Packet) : Bool := p.pflags.getLsbD 0 && (q.taken.head?).any fun x => x.seq ≠ p.seq

/-- A seed packet. -/
def Packet.seeds (p : Packet) : Bool := 2 ≤ p.op && p.op ≤ 4

/-- Packets of a queue before one. -/
def HostQ.before (q : HostQ) (p : Packet) : List Packet := q.taken.takeWhile fun x => x.seq ≠ p.seq

/-- A packet of the queue before another that a test picks has not performed. -/
def HostQ.waitsFor (q : HostQ) (p : Packet) (f : Packet → Bool) : Bool := (q.before p).any fun x => f x && !x.performed && x.state ≠ .done

/-- An earlier seed packet has not performed; or, for a seed packet, an earlier LAUNCH has not fixed its seed (R393). -/
def HostQ.seedWait (q : HostQ) (p : Packet) : Bool := q.waitsFor p Packet.seeds || (p.seeds && q.waitsFor p fun x => x.op = 1)

/-- A taken packet waits on a fence, a dependence or an earlier seed packet. -/
def HostQ.holds (s : State) (q : HostQ) : Bool :=
  q.taken.any fun p => (p.state = .taken && (q.fenced p || q.waitsFor p Packet.seeds))
    || (p.state = .started && p.pflags.getLsbD 1 && !p.performed
      && (p.op ≠ 1 || s.grids.any fun d => d.id = p.grid && d.state = .waiting && d.eligible.isNone))

def readQueue (s : State) (q : HostQ) : Nat → DWord
  | 0 => q.base
  | 1 => q.cpl
  | 2 => BitVec.ofNat 64 (q.ctx.val + q.classMin * 2 ^ 8 + q.sizeLog2 * 2 ^ 16 + q.enable.toNat * 2 ^ 24)
  | 4 => q.consumed.zeroExtend 64
  | 5 => q.doneSeq.zeroExtend 64
  | 6 => BitVec.ofNat 64 ((q.enable && !cfgErr s q).toNat + (HostQ.holds s q).toNat * 2 + q.waits.toNat * 4 + (cfgErr s q).toNat * 8
      + q.seqErr.toNat * 16)
  | _ => 0

/-- A doorbell write (R390, R391). -/
def ring (v : Word) (q : HostQ) : HostQ :=
  { q with limit := if (v - q.consumed).toNat ≤ 2 ^ q.sizeLog2 then v else q.consumed, seqErr := false }

/-- The reset field of HOSTQ.CFG: it acts while enable is 0, and the doorbell limit becomes 0 too (R387, R391; log entry 73, DEDUCED). -/
def resetQueue (q : HostQ) : HostQ := if q.enable then q else { q with consumed := 0, doneSeq := 0, limit := 0 }

/-- A write of HOSTQ.CFG: fields other than enable and reset only while enable is 0. -/
def writeCfg (v : DWord) (q : HostQ) : HostQ :=
  let q := if bit v 25 then resetQueue q else q
  let q := if q.enable then q
    else { q with sizeLog2 := bits v 16 4, classMin := bits v 8 2, ctx := Fin.ofNat 64 (bits v 0 6) }
  { q with enable := bit v 24 }

/-- (Log entry 70, DEDUCED.) -/
def writeQueue (idx : Nat) (v : DWord) (q : HostQ) : HostQ :=
  match idx with
  | 0 => if q.enable then q else { q with base := v }
  | 1 => if q.enable then q else { q with cpl := v }
  | 2 => writeCfg v q
  | 3 => ring (lo32 v) q
  | _ => q

/-- The module has a device on a link: one in mode x16, one on each link in mode x8+x8 (R456). -/
def linkUp (s : State) (link : Fin 2) : Bool := link = 0 || s.hub.x8

/-- A doorbell write from the host, on a link that has a device (R456, R458, R459). -/
def hostRing (q : QueueId) (v : Word) (link : Fin 2) (s : State) : State :=
  if linkUp s link then onQueue q (fun x => { ring v x with link := link }) s else s

def execHostqDoorbell (q : QueueId) (v : Word) (link : Fin 2) (s : State) : Host.Outcome State Fault Refusal := .next (hostRing q v link s)
def execHostqCfgEnable (q : QueueId) (on : Bool) (s : State) : Host.Outcome State Fault Refusal :=
  .next (onQueue q (fun x => { x with enable := on }) s)
def execHostqCfgReset (q : QueueId) (s : State) : Host.Outcome State Fault Refusal := .next (onQueue q resetQueue s)

/-! ### All registers -/

/-- What a read of a register returns. -/
def readReg (s : State) (t : CrTarget) (idx : Nat) : DWord :=
  match t with
  | .ctx c => readCtx (s.ctx c) idx
  | .core k => readCore s k idx
  | .tile x => readTile' s x idx
  | .die d => readDie s d idx
  | .queue q => readQueue s (s.queues[q]) idx

/-- What a write of a register does; a write of a read-only register changes nothing (R6, R362). -/
def writeReg (machine : Bool) (t : CrTarget) (idx : Nat) (v : DWord) : State → State :=
  match t with
  | .ctx c => writeCtx machine c idx v
  | .core _ => id
  | .tile x => writeTile' x idx v
  | .die _ => if idx = 1 then writePart (BitVec.ofNat 2 (bits v 4 2)) else id
  | .queue q => onQueue q (writeQueue idx v)

end Sys2Proof.Machine
end

