-- ==== Sys2Proof/Machine/Pod.lean ====
section
/-!
DEFINITION. Step domains (R161-R175, R449, R464-R468, R487): forming, arrival, apply, release, failure. A message to the
module itself is handled at once by the function that its arrival calls.
-/

namespace Sys2Proof.Machine

open Sys2Proof

/-! ### The bound context -/

/-- The context bound to a domain, with its binding. -/
def bound (s : State) (d : Word) : Option (CtxId × Domain) := (boundCtx s d).bind fun c => (s.ctx c).domain.map fun b => (c, b)

/-- Changes a context's binding. -/
def onDomain (c : CtxId) (f : Domain → Domain) : State → State := onCtx c fun x => { x with domain := x.domain.map f }

/-- Changes every wave of a context, on a core or away. -/
def onCtxWaves (c : CtxId) (f : Wave → Wave) (s : State) : State :=
  { s with
    cores := vmap (fun k => if k.liveWaves.any fun x => x.2.ctx = c
      then { k with waves := vmap (fun w => if w.live && w.ctx = c then f w else w) k.waves } else k) s.cores
    groups := s.groups.map fun g => if g.ctx = c then { g with away := g.away.map fun a => (a.1, f a.2.1, a.2.2) } else g }

/-- Where a wave stands; any place when it is not on a core. -/
def placeOf (s : State) (uid : Nat) : CoreId × SlotId :=
  ((idxs 4096).findSome? fun k => ((s.core k).find uid).map fun x => (k, x.1)).getD (0, 0)

/-! ### Release (R162, R168, R172, R175, R379, R449) -/

/-- STEP_CONFLICT of a wave, before its next issue; or a kind-4 record when it has ended (R171, R467). -/
def conflictTrap (c : CtxId) (x : WinConflict) (s : State) : State :=
  let p := placeOf s x.wave
  if uidLives s p.1 p.2 x.wave then pendUid p.1 p.2 x.wave ⟨.stepConflict, 0, 0, Lanes.all x.addr, 0xFFFFFFFF, none⟩ s
  else
    let r : FaultRec :=
      { kind := 4, code := TrapCode.stepConflict.code.toNat, core := (rankCore x.source).val, slot := x.slot.val, d0 := x.step.toNat,
        d1 := x.addr.toNat }
    (recordFault c r s).2

/-- A window descriptor governs, and its WIN.LD completes (R379). -/
def governWin (c : CtxId) (x : Nat × Option Win × SemTo) (s : State) : State :=
  complete x.2.2.core x.2.2.sem 1 (onCtx c (fun y => { y with windows := y.windows.set (Fin.ofNat 256 x.1) x.2.1 }) s)

/-- An overflow area governs, and its WIN.LD completes (R379, R449). -/
def governOvf (c : CtxId) (x : DWord × Nat × SemTo) (s : State) : State :=
  complete x.2.2.core x.2.2.sem 1 (onDomain c (fun d => { d with ovfBase := x.1, ovfLen := x.2.1 }) s)

/-- A participant's step advances. -/
def advanceStep (c : CtxId) (outcome : BitVec 2) (stamp : DWord) (s : State) : State :=
  onCtx c (fun x => { x with
    step := x.step + 1, outcome := outcome, arrivedSent := false, staged := [], pendWins := [], pendOvf := [],
    ownWrites := x.ownWrites.filter fun y => y.2.1 ≠ x.step, writers := x.writers.filter fun y => y.step ≠ x.step,
    counts := x.counts.filter fun y => y.2.1 ≠ x.step, refusedStep := x.refusedStep.filter fun y => y.2 ≠ x.step,
    conflicts := x.conflicts.filter fun y => y.step ≠ x.step,
    swout := x.swout.map fun o => match o.instant with
      | some i => if i ≤ stamp.toNat then { o with stopping := true } else o
      | none => o }) s

/-- The release of a boundary reaches a participant. -/
def releaseAt (d step : Word) (outcome : BitVec 2) (stamp : DWord) (s : State) : State :=
  match bound s d with
  | none => s
  | some (c, b) =>
    let x := s.ctx c
    if !b.formed || b.stopped || x.step ≠ step then s
    else
      let s := storeBytes (x.staged.map fun y => ⟨y.1, y.2, 0⟩) s
      let s := onCtxWaves c (fun w => { w with ahead := false, arrived := none }) s
      let s := (x.conflicts.filter fun y => y.step = step).foldl (fun s y => conflictTrap c y s) s
      let s := x.pendWins.foldl (fun s y => governWin c y s) s
      let s := x.pendOvf.foldl (fun s y => governOvf c y s) s
      advanceStep c outcome stamp s

/-- The coordinator releases a boundary: one stamp for every participant (R466). -/
def sendRelease (d step : Word) (outcome : BitVec 2) (s : State) : State :=
  match s.row? d, bound s d with
  | some r, some (_, b) =>
    let stamp : DWord := BitVec.ofNat 64 s.hub.ptp
    let s := onRow d (fun r => { r with arrives := r.arrives.filter fun x => x.2.1 ≠ step, applied := r.applied.filter fun x => x.2.1 ≠ step,
                                        applySent := none }) s
    let s := (List.range b.p).foldl (fun s i => if i = b.rank then s else match r.ids[i]? with
      | some m => podSend (m.setWidth 10) (some d) msgRelease [d.toNat, step.toNat, outcome.toNat, stamp.toNat] s
      | none => s) s
    releaseAt d step outcome stamp s
  | _, _ => s

/-! ### Failure (R468, R487) -/

/-- What a stopped domain discards with its open steps (R174): window accesses that wait for another module, unacknowledged
window bytes of copies, and messages still out, but for FAIL. -/
def dropWindowWork (c : CtxId) (d : Word) (s : State) : State :=
  let quiet (r : CopyReq) : CopyReq := if r.dstKind = 0 && r.acks ≠ [] then { r with acks := [], failed := some (r.failed.getD 0) } else r
  { s with
    cores := vmap (fun k => if k.ops.any fun o => o.ctx = c && o.sent
      then { k with ops := k.ops.filter fun o => !(o.ctx = c && o.sent) } else k) s.cores
    copies := (s.copies.map fun x => if x.ctx = c then { x with reqs := x.reqs.map quiet } else x)
    hub := { s.hub with sent := s.hub.sent.filter fun x => !(x.domain = some d && x.msg.1 ≠ msgFail) } }

/-- A participant stops its domain: its waves end as under a fatal trap, launches complete with TORN, and the state of the
open steps is discarded. Binding, window table, committed bytes and step stay (log entry 83, DEDUCED). -/
def failAt (d : Word) (rank : Nat) (s : State) : State :=
  match bound s d with
  | none => s
  | some (c, b) =>
    if b.stopped then s
    else
      let step := (s.ctx c).step
      let s := finishPackets c 8 (fun p => p.op = 1) (endContext c s)
      let s := dropBarn c (fun _ => true) s
      let s := onDomain c (fun x => { x with formed := false, stopped := true }) s
      let s := dropWindowWork c d s
      let s := onCtx c (fun x => { x with staged := [], arrivedSent := false, started := false, refusedStep := [], unacked := 0,
                                          counts := [], writers := [], ownWrites := [], conflicts := [] }) s
      let s := onRow d (fun r => { r with forms := [], arrives := [], applied := [], applySent := none, peers := [], lost := [], owed := none }) s
      (recordFault 0 { kind := 11, d0 := d.toNat, d1 := step.toNat, d2 := rank } s).2

/-- A module reports a failed peer to every participant. -/
def sendFail (d : Word) (s : State) : State :=
  match s.row? d, bound s d with
  | some r, some (c, b) =>
    let step := (s.ctx c).step
    let s := (List.range b.p).foldl (fun s i => if i = b.rank then s else match r.ids[i]? with
      | some m => podSend (m.setWidth 10) (some d) msgFail [d.toNat, step.toNat, b.rank] s
      | none => s) s
    failAt d b.rank s
  | _, _ => s

/-! ### Applied (R466) -/

/-- The coordinator holds an APPLIED; when it holds all of them it releases. -/
def appliedAt (d : Word) (rank : Nat) (step : Word) (conflict : Bool) (s : State) : State :=
  match bound s d with
  | none => s
  | some (c, b) =>
    if b.rank ≠ 0 || !b.formed || (s.ctx c).step ≠ step then s
    else
      let s := onRow d (fun r => { r with applied := (rank, step, conflict) :: r.applied.filter fun x => !(x.1 = rank && x.2.1 = step) }) s
      match s.row? d with
      | none => s
      | some r =>
        let l := r.applied.filter fun x => x.2.1 = step
        if (List.range b.p).all fun i => l.any fun x => x.1 = i then
          let over_ := r.arrives.any fun x => x.2.1 = step && x.2.2
          sendRelease d step (if over_ then 2 else if l.any fun x => x.2.2 then 1 else 0) s
        else s

/-- An owner reports the end of its apply (log entry 79, DEDUCED). -/
def sendApplied (d step : Word) (conflict : Bool) (s : State) : State :=
  match bound s d with
  | none => s
  | some (_, b) =>
    if b.rank = 0 then appliedAt d 0 step conflict s
    else match rankModule s d 0 with
      | some m => podSend m (some d) msgApplied [d.toNat, b.rank, step.toNat, conflict.toNat] s
      | none => s

/-! ### Apply (R168-R171, R173) -/

/-- Order of Barn entries of one element: source rank, sequence, the copy's byte order (R165, R170). -/
def writeBefore (e f : BarnWrite) : Bool :=
  e.rank.toNat < f.rank.toNat || (e.rank = f.rank && (e.seq.toNat < f.seq.toNat || (e.seq = f.seq && e.order ≤ f.order)))

def insertWrite (e : BarnWrite) : List BarnWrite → List BarnWrite
  | [] => [e]
  | x :: l => if writeBefore e x then e :: x :: l else x :: insertWrite e l

/-- An element's value as its window compares it. -/
def elemInt (d : Win) (n : Nat) : Int := if d.signed then signedNat (8 * d.elem) n else n

/-- The final write of a source among sorted writes (R170). -/
def finalWrite (l : List BarnWrite) (rank : BitVec 28) : Nat := ((l.filter fun e => e.rank = rank).getLast?.map (·.value.toNat)).getD 0

/-- The value that a rule gives an element from its committed value and its writes, sorted and not empty (R170). -/
def applyRule (d : Win) (v : Nat) (l : List BarnWrite) : Nat :=
  let xs := l.map (·.value.toNat)
  match d.rule with
  | 1 => ((l.getLast?).map (·.value.toNat)).getD v
  | 3 => (v + xs.sum) % 2 ^ (8 * d.elem)
  | 4 => xs.foldl (fun a x => if elemInt d a ≤ elemInt d x then a else x) v
  | 5 => xs.foldl (fun a x => if elemInt d x ≤ elemInt d a then a else x) v
  | 6 => xs.foldl (fun a x => a ||| x) v
  | _ => ((l.head?).map fun e => finalWrite l e.rank).getD v

/-- Two or more sources wrote the element under ERROR (R171). -/
def elemConflict (d : Win) (l : List BarnWrite) : Bool := d.rule = 0 && 2 ≤ (l.map (·.rank)).dedup.length

/-- The writes of an element, sorted. -/
def elemWrites (l : List BarnWrite) (win : Fin 256) (elem : Nat) : List BarnWrite :=
  (l.filter fun e => e.window = win && e.elem = elem).foldr insertWrite []

/-- The bytes an element is to hold at the release: physical address and value. -/
def applyElem (s : State) (c : CtxId) (l : List BarnWrite) (x : Fin 256 × Nat) : List (Nat × Byte) :=
  match (s.ctx c).windows[x.1] with
  | none => []
  | some d =>
    let a := d.committed + d.elem * x.2
    let n := applyRule d (memNat s.mem a d.elem) (elemWrites l x.1 x.2)
    (leBytes d.elem n).mapIdx fun i b => (a + i, b)

/-- The conflicts of a step's writes: source and element address. -/
def elemConflicts (s : State) (c : CtxId) (l : List BarnWrite) (x : Fin 256 × Nat) : List (BitVec 28 × DWord) :=
  match (s.ctx c).windows[x.1] with
  | none => []
  | some d =>
    let ws := elemWrites l x.1 x.2
    if elemConflict d ws then (ws.map (·.rank)).dedup.map fun r => (r, d.base + BitVec.ofNat 64 (d.elem * x.2)) else []

/-- The window and element of an address of a context (log entry 65, DEDUCED). -/
def elemAt (s : State) (c : CtxId) (addr : DWord) : Option (Fin 256 × Nat) :=
  (idxs 256).findSome? fun i => match (s.ctx c).windows[i] with
    | some d => if d.base ≤ addr && addr.toNat < d.base.toNat + d.length && d.elem ≠ 0
        then some (i, (addr.toNat - d.base.toNat) / d.elem) else none
    | none => none

/-- A CONFLICT reaches a source: it is pending until the release at each of the source's waves that wrote the element, or goes
into the fault record when that wave has ended (R171, R467; log entry 65, DEDUCED). -/
def conflictAt (c : CtxId) (rank : BitVec 28) (step : Word) (addr : DWord) (s : State) : State :=
  match elemAt s c addr with
  | none => s
  | some (w, e) =>
    let by_ := (s.ctx c).writers.filter fun x => x.source = rank && x.step = step && x.window = w && x.elem = e
    ((by_.map fun x => (x.wave, x.slot)).dedup).foldl (fun s x =>
      let p := placeOf s x.1
      let y : WinConflict := ⟨rank, x.1, x.2, step, addr⟩
      if uidLives s p.1 p.2 x.1 then onCtx c (fun z => { z with conflicts := z.conflicts ++ [y] }) s else conflictTrap c y s) s

/-- A CONFLICT to its source's module. -/
def sendConflict (d : Word) (c : CtxId) (b : Domain) (step : Word) (s : State) (x : BitVec 28 × DWord) : State :=
  let r := x.1.toNat / 2 ^ 18
  if r = b.rank then conflictAt c x.1 step x.2 s
  else match rankModule s d r with
    | some m => podSend m (some d) msgConflict [d.toNat, x.1.toNat, step.toNat, x.2.toNat] s
    | none => s

/-- A CONFLICT of a domain still waits for its acknowledgement; for ever, where a message of the domain could not be sent, since
FAIL then stops it (R466, R468). -/
def conflictsOut (s : State) (d : Word) : Bool :=
  (s.hub.sent.any fun x => x.domain = some d && x.msg.1 = msgConflict) || ((s.row? d).map fun r => decide (r.lost ≠ [])).getD false

/-- The Barn entries of a context and step. -/
def barnEntries (s : State) (c : CtxId) (step : Word) : List BarnEntry :=
  (s.dies.toList.flatMap (·.barn)).filter fun e => e.ctx = c && e.w.step = step

/-- The writes they hold. -/
def barnOf (s : State) (c : CtxId) (step : Word) : List BarnWrite := (barnEntries s c step).map (·.w)

/-- An element's committed bytes meet an uncorrectable word. -/
def elemBad (s : State) (c : CtxId) (x : Fin 256 × Nat) : Bool :=
  match (s.ctx c).windows[x.1] with
  | none => false
  | some d => s.badIn (d.committed + d.elem * x.2) d.elem

/-- An owner receives APPLY: it applies the writes of the step, or frees them when a write was refused (R173, R466; log entry
78, DEDUCED). Uncorrectable data that the apply meets make it send FAIL (R480). -/
def applyAt (d step : Word) (discard : Bool) (s : State) : State :=
  match bound s d with
  | none => s
  | some (c, b) =>
    if !b.formed || (s.ctx c).step ≠ step then s
    else
      let l := barnOf s c step
      let bad := (barnEntries s c step).any (·.bad)
      let s := dropBarn c (fun e => e.step = step) s
      if discard then sendApplied d step false s
      else
        let es := (l.map fun e => (e.window, e.elem)).dedup
        if bad || es.any (elemBad s c) then sendFail d s else
        let cs := es.flatMap (elemConflicts s c l)
        let s := onCtx c (fun x => { x with staged := es.flatMap (applyElem s c l) }) s
        let s := cs.foldl (sendConflict d c b step) s
        if conflictsOut s d then onRow d (fun r => { r with owed := some (step, cs ≠ []) }) s else sendApplied d step (cs ≠ []) s

/-- An APPLIED that waited for acknowledgements goes out (R466). -/
def payApplied (d : Word) (s : State) : State :=
  match (s.row? d).bind (·.owed) with
  | some (step, k) => if conflictsOut s d then s else sendApplied d step k (onRow d (fun r => { r with owed := none }) s)
  | none => s

/-! ### Arrival (R161, R163, R466) -/

/-- The coordinator of a formed domain that holds every ARRIVE of its step sends APPLY to every participant. -/
def closeStep (d : Word) (s : State) : State :=
  match bound s d, s.row? d with
  | some (c, b), some r =>
    let step := (s.ctx c).step
    let l := r.arrives.filter fun x => x.2.1 = step
    if b.rank = 0 && b.formed && r.applySent ≠ some step && (List.range (max 1 b.p)).all (fun i => l.any fun x => x.1 = i) then
      let discard := l.any fun x => x.2.2
      let s := onRow d (fun r => { r with applySent := some step }) s
      let s := (List.range b.p).foldl (fun s i => if i = 0 then s else match r.ids[i]? with
        | some m => podSend (m.setWidth 10) (some d) msgApply [d.toNat, step.toNat, discard.toNat] s
        | none => s) s
      applyAt d step discard s
    else s
  | _, _ => s

/-- The coordinator holds an ARRIVE, also one that reaches it before its own FORMs have. -/
def arriveAt (d : Word) (rank : Nat) (step : Word) (refused : Bool) (s : State) : State :=
  match bound s d with
  | none => s
  | some (_, b) =>
    if b.rank ≠ 0 then s
    else closeStep d
      (onRow d (fun r => { r with arrives := (rank, step, refused) :: r.arrives.filter fun x => !(x.1 = rank && x.2.1 = step) }) s)

/-- A wave has arrived: its STEP has issued and the STEP's fence has performed (R163). -/
def waveArrived (c : Core) (w : Wave) : Bool :=
  w.ahead && match w.arrived with
    | some a => !c.ops.any fun o => o.id = a.1
    | none => true

/-- Live member waves of a context, each with its core. -/
def memberWaves (s : State) (c : CtxId) : List (CoreId × Wave) :=
  (idxs 4096).flatMap (fun k => ((s.core k).liveWaves.filter fun x => x.2.ctx = c && x.2.member && !x.2.ended).map fun x => (k, x.2))
    ++ s.groups.flatMap fun g => if g.ctx ≠ c then [] else (g.away.filter fun a => a.2.1.member && !a.2.1.ended).map fun a => (g.core, a.2.1)

/-- The bytes of a row of a request that lie in one 64 KiB page of its destination: first position and number. -/
def rowPiece (r : CopyReq) (row page : Nat) : Nat × Nat :=
  let a := (copyAddr r.dst r.dstStride r.length (row * r.length)).toNat
  let lo := max a (page * 65536)
  (row * r.length + (lo - a), min (a + r.length) ((page + 1) * 65536) - lo)

/-- A request has bytes of a WINDOW page still to write, or to see acknowledged (R163, R341). -/
def reqDirected (s : State) (c : CopyList) (r : CopyReq) : Bool :=
  r.dstKind = 0 && (r.acks ≠ [] || (!r.over && (List.range r.rows).any fun i =>
    let a := (copyAddr r.dst r.dstStride r.length (i * r.length)).toNat
    (List.range (r.length / 65536 + 2)).any fun j =>
      let x := rowPiece r i (a / 65536 + j)
      (match copyPage s c (copyAddr r.dst r.dstStride r.length x.1) with
        | .ok t => t.kind = 2
        | .error _ => false)
        && (List.range x.2).any fun p => if r.ordered then r.pos ≤ x.1 + p else !r.written.contains (x.1 + p)))

/-- A copy list has window-directed writes left. One that has not started is read as it stands once its list is settled, and
counts until then (R153, R163; log entry 80, DEDUCED). -/
def windowDirected (s : State) (c : CopyList) : Bool :=
  if c.started then c.reqs.any (reqDirected s c)
  else if !kReady s c.core c.wave c.slot c.id c.obs then true
  else (List.range c.count).any fun i =>
    let r := parseReq (s.core c.core).scratch (c.off + 64 * i)
    !r.bad && reqDirected s c r

/-- The participant is switched out, in whole or in part, or its waves are stopping for it (R175, R381). -/
def switchedOut (s : State) (c : CtxId) : Bool :=
  let x := s.ctx c
  x.state = 3 || x.state = 4 || x.swout.any (·.stopping) || x.outCores ≠ []
    || s.groups.any fun g => g.ctx = c && g.state = .out

/-- A participant's arrival at its current boundary is complete: every member wave has arrived or ended, and every window
write tagged with the step has entered its owner's Barn. One that is switched out arrives at none (R175). A member wave that
starts after the ARRIVE has gone does not take it back: the spec leaves it open (R161; log entry 131, DESIGN CHOICE). -/
def arrivalReady (s : State) (c : CtxId) : Bool :=
  let x := s.ctx c
  match x.domain with
  | none => false
  | some b =>
    b.formed && !b.stopped && x.started && !x.arrivedSent && !switchedOut s c
      && (memberWaves s c).all (fun w => waveArrived (s.core w.1) w.2)
      && !(s.cores.toList.any fun k => k.ops.any fun o => o.ctx = c && o.kind = .winStore && o.tag = x.step)
      && !(s.copies.any fun y => y.ctx = c && y.tag = x.step && windowDirected s y)

/-- A participant sends its ARRIVE. -/
def sendArrive (c : CtxId) (s : State) : State :=
  match (s.ctx c).domain with
  | none => s
  | some b =>
    let step := (s.ctx c).step
    let refused := (s.ctx c).refusedStep.any fun x => x.2 = step
    let s := onCtx c (fun x => { x with arrivedSent := true }) s
    if b.rank = 0 then arriveAt b.id 0 step refused s
    else match rankModule s b.id 0 with
      | some m => podSend m (some b.id) msgArrive [b.id.toNat, b.rank, step.toNat, refused.toNat] s
      | none => s

/-- Every participant of this module whose arrival is complete sends ARRIVE. -/
def sendArrives (s : State) : State := (idxs 64).foldl (fun s c => if arrivalReady s c then sendArrive c s else s) s

/-! ### Forming (R449, R464, R487) -/

/-- The domain is formed once FORMs of every rank match its row; the step is the one they carry. -/
def tryForm (d : Word) (s : State) : State :=
  match s.row? d, bound s d with
  | some r, some (c, b) =>
    if !b.formed && (List.range r.p).all fun i => r.forms.any fun f => f.2.1 = i then
      let step := r.forms.foldl (fun n f => max n f.2.2.2.toNat) 0
      let peers := (r.ids.map fun m => m.setWidth 10).filter fun m => m ≠ s.hub.module
      let s := onRow d (fun r => { r with peers := peers.map fun m => (m, s.cycle), lost := [] }) s
      closeStep d (onCtx c (fun x => { x with step := BitVec.ofNat 32 step }) (onDomain c (fun b => { b with formed := true, stopped := false }) s))
    else s
  | _, _ => s

/-- A FORM is received: it counts when it agrees with the row, and is discarded and counted otherwise. -/
def formAt (d : Word) (p rank : Nat) (src : BitVec 10) (step : Word) (s : State) : State :=
  match s.row? d with
  | none => s
  | some r =>
    if r.p = p && rank < p && (r.ids[rank]?).map (·.setWidth 10) = some src then
      tryForm d (onRow d (fun r => { r with forms := (p, rank, src, step) :: r.forms.filter fun f => f.2.1 ≠ rank }) s)
    else onRow d (fun r => { r with mismatched := r.mismatched + 1 }) s

/-- A hub sends FORM to every module of the row (log entry 82, DEDUCED). -/
def sendForms (c : CtxId) (s : State) : State :=
  match (s.ctx c).domain with
  | none => s
  | some b => match s.row? b.id with
    | none => s
    | some r =>
      let step := (s.ctx c).step
      let s := (r.ids.filter fun m => m.setWidth 10 ≠ s.hub.module).foldl (fun s m =>
        podSend (m.setWidth 10) (some b.id) msgForm [b.id.toNat, b.p, b.rank, step.toNat] s) s
      if r.ids.any fun m => m.setWidth 10 = s.hub.module then formAt b.id b.p b.rank s.hub.module step s else s

/-! ### Heartbeats (R468) -/

/-- The heartbeat interval: 65,536 ns (R468). -/
def beat (s : State) : Nat := max 1 (nsCycles s 65536)

/-- Something has been received from a module: every domain that it is a peer of notes the cycle. -/
def heard (m : BitVec 10) (s : State) : State :=
  onHub (fun h => { h with rows := h.rows.map fun r => { r with peers := r.peers.map fun x => if x.1 = m then (m, s.cycle) else x } }) s

/-- The module has heard nothing from a peer for eight intervals, or a message to it has failed. -/
def peerSilent (s : State) (d : Word) (m : BitVec 10) : Bool :=
  match s.row? d, bound s d with
  | some r, some (_, b) => b.formed && ((r.peers.any fun x => x.1 = m && x.2 + 8 * beat s ≤ s.cycle) || r.lost.contains m)
  | _, _ => false

/-- The hub's duties towards its domains in a cycle: heartbeats, and FAIL for a silent peer. -/
def domainDuties (s : State) : State :=
  (s.hub.rows.map (·.domain)).foldl (fun s d =>
    match s.row? d, bound s d with
    | some r, some (_, b) =>
      if !b.formed then s
      else
        let s := if s.cycle % beat s = 0 then r.peers.foldl (fun s x => podSend x.1 (some d) msgHeartbeat [d.toNat] s) s else s
        if r.peers.any fun x => peerSilent s d x.1 then sendFail d s else s
    | _, _ => s) s

/-! ### PTP (R469) -/

/-- The clock is corrected by its measured offset, a negative one when the hub is ahead: forward corrections step the time,
backward ones slew it. -/
def correctClock (offset : Int) (h : Hub) : Hub :=
  let h := { h with locked := decide (offset.natAbs ≤ 100) }
  if 0 ≤ offset then { h with ptp := h.ptp + offset.toNat, slew := 0, slewGap := 0 } else { h with slew := offset.natAbs, slewGap := 0 }

/-- The grandmaster's module. -/
def masterModule (h : Hub) : BitVec 10 := h.grandmaster.setWidth 10

/-- A PTP message is the clock's: from the grandmaster, of its domain, on the station that its path-table entry names. -/
def ptpMine (s : State) (src : BitVec 10) (station : Fin 16) (dom : Byte) : Bool :=
  src = masterModule s.hub && dom = s.hub.ptpDomain && (pathFor s src 0 0).map (·.1) = some station.val

/-- Two-step delay request-response: Sync takes the hub's time, Follow_Up brings the grandmaster's and has a Delay_Req sent,
Delay_Resp brings the time at which that arrived (log entry 104, DEDUCED). -/
def ptpMessage (m : PtpMsg) (s : State) : State :=
  let now := s.hub.ptp
  match m with
  | .sync => onHub (fun h => { h with ptpSync := some now, ptpFollow := none, ptpReq := none }) s
  | .followUp t1 =>
    if s.hub.ptpSync.isNone || s.hub.ptpFollow.isSome then s
    else podSend (masterModule s.hub) none msgDelayReq [s.hub.ptpDomain.toNat]
      (onHub (fun h => { h with ptpFollow := some t1, ptpReq := some now }) s)
  | .delayResp t4 =>
    match s.hub.ptpSync, s.hub.ptpFollow, s.hub.ptpReq with
    | some t2, some t1, some t3 =>
      onHub (fun h => { correctClock ((((t1 : Int) - t2) + ((t4 : Int) - t3)) / 2) h with ptpSync := none, ptpFollow := none, ptpReq := none }) s
    | _, _, _ => s

/-! ### What arrives (R463-R468) -/

/-- WRITE: its entries, sixteen bytes each and at most 256 in all, reach the owner's Barn (R460, R465). -/
def writeAt (domain : Word) (entries : List BarnWrite) (s : State) : State :=
  match bound s domain with
  | some (c, b) => if b.stopped || 16 < entries.length then s else entries.foldl (fun s e => enterBarn c e s) s
  | none => s

/-- A committed byte as a reader in a step sees it: what an apply has staged belongs to the steps after this one. -/
def committedByte (s : State) (c : CtxId) (step : Word) (a : Nat) : Byte :=
  if (s.ctx c).step.toNat < step.toNat then (((s.ctx c).staged.find? fun x => x.1 = a).map (·.2)).getD (memRead s.mem a) else memRead s.mem a

/-- READ: the owner returns committed bytes to its requester, whose load takes them (R465). -/
def readAt (domain : Word) (src : BitVec 10) (m : ReadMsg) (s : State) : State :=
  match m with
  | .answer tag data => answerRead tag data s
  | .request window offset n step tag =>
    match bound s domain with
    | some (c, _) => (match (s.ctx c).windows[window] with
      | some w => podSend src (some domain) msgReadData (domain.toNat :: window.val :: offset :: n :: tag ::
          (List.range n).map fun i => (committedByte s c step (w.committed + offset + i)).toNat) s
      | none => s)
    | none => s

/-- What a message does when it is delivered. -/
def deliverMsg (src : BitVec 10) (m : PodMsg) (s : State) : State :=
  match m with
  | .form d p rank step => formAt d p.toNat rank.toNat src step s
  | .write d entries => writeAt d entries s
  | .wack c e refused => ackStore c e refused s
  | .read d m => readAt d src m s
  | .arrive d rank step refused => arriveAt d rank.toNat step refused s
  | .apply d step discard => applyAt d step discard s
  | .conflict c rank step addr => conflictAt c rank step addr s
  | .applied d rank step conflict => appliedAt d rank.toNat step conflict s
  | .release d step outcome stamp => releaseAt d step outcome stamp s
  | .heartbeat => s
  | .fail d rank => failAt d rank.toNat s
  | .ptp station dom m => if ptpMine s src station dom then ptpMessage m s else s

/-- The number of the next message to deliver from a module (R463). -/
def nextMessage (s : State) (src : BitVec 10) : Word := ((s.hub.inSeq.find? fun x => x.1 = src).map (·.2)).getD 0

/-- Messages held from a module are delivered and acknowledged in sequence, as far as their numbers go on without a gap
(R463). A CONFLICT's effect is made before its acknowledgement (R467). -/
def deliverHeld (src : BitVec 10) : Nat → State → State
  | 0, s => s
  | n + 1, s =>
    let next := nextMessage s src
    match s.hub.heldMsgs.find? fun x => x.1 = src && x.2.1 = next with
    | none => s
    | some x =>
      let s := onHub (fun h => { h with heldMsgs := h.heldMsgs.erase x, inSeq := (src, next + 1) :: h.inSeq.filter fun y => y.1 ≠ src }) s
      deliverHeld src n (podAck src 0 0 next 1 (deliverMsg src x.2.2 s))

/-- A message arrives (R463, R468): delivered in its turn; one already delivered is only acknowledged again (log entry 132,
DESIGN CHOICE). -/
def receiveMsg (h : MsgHead) (m : PodMsg) (s : State) : State :=
  let s := heard h.src s
  if 2 ^ 31 ≤ (h.seq - nextMessage s h.src).toNat then podAck h.src 0 0 h.seq 1 s
  else if s.hub.heldMsgs.any fun x => x.1 = h.src && x.2.1 = h.seq then s
  else
    let s := onHub (fun x => { x with heldMsgs := x.heldMsgs ++ [(h.src, h.seq, m)] }) s
    deliverHeld h.src s.hub.heldMsgs.length s

def execForm (h : MsgHead) (domain : Word) (p rank : BitVec 16) (step : Word) (s : State) : Host.Outcome State Fault Refusal :=
  .next (receiveMsg h (.form domain p rank step) s)
def execWrite (h : MsgHead) (domain : Word) (entries : List BarnWrite) (s : State) : Host.Outcome State Fault Refusal :=
  .next (receiveMsg h (.write domain entries) s)
def execWack (h : MsgHead) (ctx : CtxId) (a : BarnAnswer) (s : State) : Host.Outcome State Fault Refusal :=
  .next (receiveMsg h (.wack ctx a.entry a.refused) s)
/-- A READ as it is delivered: an answer is known by its tag. -/
def readMsg (window : Fin 256) (offset n : Nat) : ReadBody → ReadMsg
  | .request step tag => .request window offset n step tag
  | .answer tag data => .answer tag data
def execRead (h : MsgHead) (domain : Word) (window : Fin 256) (offset n : Nat) (body : ReadBody) (s : State) :
    Host.Outcome State Fault Refusal :=
  .next (receiveMsg h (.read domain (readMsg window offset n body)) s)
def execArrive (h : MsgHead) (d : DomainStep) (rank : BitVec 16) (refused : Bool) (s : State) : Host.Outcome State Fault Refusal :=
  .next (receiveMsg h (.arrive d.domain rank d.step refused) s)
def execApply (h : MsgHead) (d : DomainStep) (discard : Bool) (s : State) : Host.Outcome State Fault Refusal :=
  .next (receiveMsg h (.apply d.domain d.step discard) s)
def execConflict (h : MsgHead) (ctx : CtxId) (rank : BitVec 28) (at_ : StepElement) (s : State) : Host.Outcome State Fault Refusal :=
  .next (receiveMsg h (.conflict ctx rank at_.step at_.addr) s)
def execApplied (h : MsgHead) (d : DomainStep) (rank : BitVec 16) (conflict : Bool) (s : State) : Host.Outcome State Fault Refusal :=
  .next (receiveMsg h (.applied d.domain rank d.step conflict) s)
def execRelease (h : MsgHead) (d : DomainStep) (outcome : BitVec 2) (stamp : DWord) (s : State) : Host.Outcome State Fault Refusal :=
  .next (receiveMsg h (.release d.domain d.step outcome stamp) s)
def execHeartbeat (h : MsgHead) (_domain : Word) (s : State) : Host.Outcome State Fault Refusal := .next (receiveMsg h .heartbeat s)
def execHeartbeatLoss (domain : Word) (peer : BitVec 10) (s : State) : Host.Outcome State Fault Refusal :=
  .next (if peerSilent s domain peer then sendFail domain s else s)
def execFail (h : MsgHead) (d : DomainStep) (rank : BitVec 16) (s : State) : Host.Outcome State Fault Refusal :=
  .next (receiveMsg h (.fail d.domain rank) s)

/-- The meaning of PTP_EVENT_MESSAGE. -/
def execPtpEventMessage (p : PtpPacket) (s : State) : Host.Outcome State Fault Refusal :=
  .next (receiveMsg p.head (.ptp p.station p.dom p.msg) s)

end Sys2Proof.Machine
end

