-- ==== Sys2Proof/Machine/Priv.lean ====
section
/-!
DEFINITION. The privileged instructions (R362, R370-R380, R383-R385): what each does at its issue, the operations that go
on after it, and the events that complete them. CTX.SWOUT and CTX.SWIN stand in Swap.lean.
-/

namespace Sys2Proof.Machine

open Sys2Proof

/-! ### Operations that go on after issue (R371, R373) -/

/-- The free values that an operation reserves: its own, and one for each core. -/
def privDraws : Nat := 4097

/-- An operation begins; it acts no earlier than the given cycle. -/
def startPriv (kind : PrivKind) (sem : Option Byte) (due : Nat) (s : State) : State :=
  let x := s.iw
  let k := s.issue.core
  let p : PrivOp :=
    { id := s.nextId, core := k, slot := s.issue.slot, wave := x.uid, lanes := s.is.mask, ctx := x.ctx, group := x.group, kind := kind, started := false,
      due := due, sem := sem.bind (semPhys s k x.ctx), obs := x.obs, draw := s.free, slotsLeft := [] }
  { s with privOps := s.privOps ++ [p], nextId := s.nextId + 1, free := s.free + privDraws }

/-- The same after an unspecified latency. -/
def startLater (kind : PrivKind) (sem : Option Byte) (s : State) : State :=
  startPriv kind sem (s.cycle + Config.latency s.free) s

/-- An operation that holds its split after issue until it has performed (R362, R371, R385). -/
def startHeld (kind : PrivKind) (s : State) : State :=
  onIs (fun x => { x with after := .done s.nextId }) (startLater kind none s)

def State.priv? (s : State) (id : Nat) : Option PrivOp := s.privOps.find? fun p => p.id = id

/-- An operation is over. -/
def dropPriv (id : Nat) (s : State) : State := { s with privOps := s.privOps.filter fun p => p.id ≠ id }

/-- It is over and adds to its semaphore (R373). -/
def donePriv (p : PrivOp) (s : State) : State := complete p.core p.sem 1 (dropPriv p.id s)

/-- Changes an operation. -/
def onPriv (id : Nat) (f : PrivOp → PrivOp) (s : State) : State :=
  { s with privOps := s.privOps.map fun p => if p.id = id then f p else p }

/-- An operation is refused or faults when its engine acts: the lanes of its split trap before their next issue, and it
adds to no semaphore (log entry 72, DEDUCED). -/
def failPriv (p : PrivOp) (code : TrapCode) (addr : DWord) (s : State) : State :=
  onWaveOf p.core p.slot p.wave (Wave.pendSome ⟨code, 0, p.lanes, Lanes.all addr, 0xFFFFFFFF, none⟩) (dropPriv p.id s)

/-! ### MFCR and MTCR (R360-R362) -/

/-- MFCR reads this register in its issue cycle: every CTX and HOSTQ register, and those of the issuing core, tile and die. -/
def readsNow (k : CoreId) : CrTarget → Bool
  | .ctx _ | .queue _ => true
  | .core x => x = k
  | .tile t => t = coreTile k
  | .die d => d = coreDie k

/-- MTCR to this register takes effect in the next cycle: those of the issuing core, tile and die. -/
def writesNow (k : CoreId) : CrTarget → Bool
  | .ctx _ | .queue _ => false
  | t => readsNow k t

/-- The A register that a privileged instruction's imm names. -/
def immReg (f : CSlot) : Fin 32 := Fin.ofNat 32 f.imm.toNat

/-- The selector of an MFCR or MTCR. -/
def selWord (s : State) (f : CSlot) : Word := litWord s f.lit.toNat

def readControl (f : CSlot) (s : State) : State :=
  match selector s.issue.core s.iw.ctx (selWord s f) with
  | some (t, idx) => if readsNow s.issue.core t then cWriteA (immReg f) (readReg s t idx) s else startHeld (.mfcr (selWord s f) (immReg f)) s
  | none => s

def execMfcr (f : CSlot) (s : State) : Host.Outcome State Fault Refusal := .next (act (.mfcr f) (readControl f) s)

def writeControl (f : CSlot) (s : State) : State :=
  let kind : PrivKind := .mtcr (selWord s f) (mtcrValue s f.src)
  match selector s.issue.core s.iw.ctx (selWord s f) with
  | some (t, _) => if writesNow s.issue.core t then startPriv kind none s.cycle s else startHeld kind s
  | none => s

def execMtcr (f : CSlot) (s : State) : Host.Outcome State Fault Refusal := .next (act (.mtcr f) (writeControl f) s)

/-- A read that a hold has waited for writes its A register. -/
def performRead (p : PrivOp) (sel : Word) (d : Fin 32) (s : State) : State :=
  match selector p.core p.ctx sel with
  | some (t, idx) => onUid p.core p.slot p.wave (fun w => w.writeA d (readReg s t idx)) s
  | none => s

/-- A register write takes effect. -/
def performWrite (p : PrivOp) (sel : Word) (v : DWord) (s : State) : State :=
  match selector p.core p.ctx sel with
  | some (t, idx) => writeReg ((s.ctx p.ctx).level = 2) t idx v s
  | none => s

/-! ### The seed stack (R369-R371) -/

/-- The context-area offset of an entry. -/
def seedOff (i : Nat) : Nat := 0x40 + 32 * i

/-- An entry's bytes. -/
def seedBytes (seed count : Nat) : List Byte := leBytes 16 seed ++ leBytes 4 count ++ List.replicate 12 0

/-- Writes an entry; whether the area could be reached. -/
def writeSeed (c : CtxId) (i seed count : Nat) (s : State) : Bool × State :=
  match areaAddr s c (seedOff i) true with
  | .error _ => (false, areaFault c (seedOff i) s)
  | .ok pa => (true, storeBytes (byteWs pa (seedBytes seed count)) s)

/-- An entry's seed and fork count; none when the area cannot be reached. -/
def readSeed (s : State) (c : CtxId) (i : Nat) : Option (Nat × Nat) :=
  (areaRead s c (seedOff i) 20).map fun l => (fieldAt l 0 16, fieldAt l 16 4)

/-- Pushes a new entry. -/
def pushEntry (c : CtxId) (seed : Nat) (s : State) : Bool × State :=
  let n := (s.ctx c).seedDepth
  match writeSeed c n seed 0 s with
  | (true, s) => (true, onCtx c (fun x => { x with seedDepth := n + 1 }) s)
  | r => r

/-- The seed that a fork of a seed gives: for SEED.OP (x = 4) and for launches (R51, R370). -/
def forkedSeed (seed ctr x : Nat) : Nat := hazel seed (ctr + x) + hazel seed (ctr + x + 1) * 2 ^ 64

/-- SEED.OP: 0 push, 1 pop, 2 fork (R370); the result says whether it was done. -/
def seedOperation (k : Nat) (c : CtxId) (seed : Nat) (s : State) : Bool × State :=
  let n := (s.ctx c).seedDepth
  if (s.ctx c).area = 0 then (false, areaFault c (seedOff 0) s)
  else match k with
    | 0 => if n = 16 then (false, s) else pushEntry c seed s
    | 1 => if n = 1 then (false, s) else (true, onCtx c (fun x => { x with seedDepth := n - 1 }) s)
    | _ =>
      if n = 16 then (false, s)
      else match readSeed s c (n - 1) with
        | none => (false, areaFault c (seedOff (n - 1)) s)
        | some (p, count) =>
          if count = 0xFFFFFFFF then (false, s)
          else match writeSeed c (n - 1) p (count + 1) s with
            | (true, s) => pushEntry c (forkedSeed p (2 ^ 127 + count * 2 ^ 64) 4) s
            | r => r

/-- The seed that a push names: four literal words. -/
def pushSeed (s : State) (f : CSlot) : QWord :=
  BitVec.ofNat 128 (((List.range 4).map fun i => (litWord s (f.lit.toNat + i)).toNat * 2 ^ (32 * i)).sum)

/-- The context that a context operand names. -/
def operandCtx (s : State) (f : CSlot) : CtxId := (ctxOperand s (cSrcA s f) 0).getD s.iw.ctx

/-- SEED.OP holds its split until its operation has performed. -/
def startSeedOp (k : Nat) (f : CSlot) (s : State) : State :=
  startHeld (.seedOp k (operandCtx s f) (if k = 0 then pushSeed s f else 0) f.pred) s

def execSeedOpPush (f : CSlot) (s : State) : Host.Outcome State Fault Refusal := .next (act (.seedOpPush f) (startSeedOp 0 f) s)
def execSeedOpPop (f : CSlot) (s : State) : Host.Outcome State Fault Refusal := .next (act (.seedOpPop f) (startSeedOp 1 f) s)
def execSeedOpFork (f : CSlot) (s : State) : Host.Outcome State Fault Refusal := .next (act (.seedOpFork f) (startSeedOp 2 f) s)

/-- The result of a held operation goes to a predicate in every lane of its split. -/
def resultPred (p : PrivOp) (d : Fin 8) (ok : Bool) (s : State) : State :=
  onUid p.core p.slot p.wave (fun w => w.writeP d p.lanes (if ok then p.lanes else 0)) s

def performSeedOp (p : PrivOp) (k : Nat) (c : CtxId) (seed : QWord) (d : Fin 8) (s : State) : State :=
  let r := seedOperation k c seed.toNat s
  resultPred p d r.1 r.2

/-! ### MCLOAD (R385, R490) -/

/-- The big-endian number of a byte string (R384). -/
def beNat (l : List Byte) : Nat := leNat l.reverse

/-- A big-endian byte string of a number. -/
def beBytes (n x : Nat) : List Byte := (leBytes n x).reverse

/-- The revision of a microcode image that verifies and is newer than the installed one. -/
def microcode (s : State) (c : CtxId) (va : DWord) : Option Nat :=
  match engineRead s c va 0x80 with
  | .error _ => none
  | .ok h =>
    match engineRead s c va (0x80 + fieldAt h 8 4) with
    | .error _ => none
    | .ok l =>
      let hash := Config.sm3 (l.take 16 ++ l.drop 0x80)
      let good := fieldAt h 0 4 = 0x4D424B41 && fieldAt h 4 2 = 2 && fieldAt h 8 4 % 64 = 0 && fieldAt h 12 4 = 0 && fieldAt h 0x70 16 = 0
        && hash.toNat = beNat ((h.drop 0x10).take 32)
        && Config.sm2Verify (Config.sm3 (Config.firmwareZ ++ beBytes 32 hash.toNat)) (BitVec.ofNat 512 (beNat ((h.drop 0x30).take 64)))
        && s.mcRev < fieldAt h 6 2
      if good then some (fieldAt h 6 2) else none

def execMcload (f : CSlot) (s : State) : Host.Outcome State Fault Refusal :=
  .next (act (.mcload f) (fun s => startHeld (.mcload (cSrcA s f) f.pred) s) s)

def performMcload (p : PrivOp) (va : DWord) (d : Fin 8) (s : State) : State :=
  match microcode s p.ctx va with
  | some r => resultPred p d true { s with mcRev := r }
  | none => resultPred p d false s

/-! ### The end of a control-register hold -/

/-- A held operation may perform: seed operations of one context go one at a time, in order (R371). -/
def heldReady (s : State) (p : PrivOp) : Bool :=
  p.due ≤ s.cycle && (match p.kind with
    | .seedOp _ c _ _ => !s.privOps.any fun q => q.id < p.id && (match q.kind with | .seedOp _ x _ _ => x = c | _ => false)
    | _ => true)

/-- An operation of those that hold their split. -/
def PrivOp.held (k : CoreId) (p : PrivOp) : Bool :=
  match p.kind with
  | .mfcr .. | .seedOp .. | .mcload .. => true
  | .mtcr sel _ => match selector p.core p.ctx sel with
    | some (t, _) => !writesNow k t
    | none => false
  | _ => false

/-- A split of the wave in a context is held for an operation. -/
def holder (s : State) (p : PrivOp) : Option RecId :=
  (idxs 4).find? fun r => waveHere s p.core p.slot p.wave && ((s.wave p.core p.slot).splits[r]).after = .done p.id

/-- The operation that a hold's end performs: the one that its split is held for; or one whose split has ended meanwhile, which
performs all the same (R362, R371, R385). -/
def heldOp (s : State) (k : CoreId) (w : SlotId) (r : RecId) : Option PrivOp :=
  match ((s.wave k w).splits[r]).after with
  | .done id => s.priv? id
  | _ => s.privOps.find? fun p => p.core = k && p.slot = w && p.held k && (holder s p).isNone

/-- A held operation performs and its hold ends. -/
def performHeld (p : PrivOp) (s : State) : State :=
  match p.kind with
  | .mfcr sel d => dropPriv p.id (performRead p sel d s)
  | .mtcr sel v => dropPriv p.id (performWrite p sel v s)
  | .seedOp k c seed d => dropPriv p.id (performSeedOp p k c seed d s)
  | .mcload va d => dropPriv p.id (performMcload p va d s)
  | _ => s

/-- The meaning of CONTROL_REGISTER_HOLD_END. -/
def execControlRegisterHoldEnd (k : CoreId) (w : SlotId) (r : RecId) (s : State) : Host.Outcome State Fault Refusal :=
  .next (match heldOp s k w r with
    | some p => if heldReady s p then performHeld p s else s
    | none => s)

/-! ### Husks (R374-R376, R423) -/

/-- The wave slot that a wave operand names (log entry 40, DEDUCED). -/
def operandSlot (s : State) (f : CSlot) : SlotId := (waveOperand s (cSrcA s f)).getD s.issue.slot

def execHuskSave (f : CSlot) (s : State) : Host.Outcome State Fault Refusal :=
  .next (act (.huskSave f) (fun s => startLater (.huskSave (operandSlot s f) (s.iw.readA (immReg f))) (some f.sem) s) s)

def execHuskLoad (f : CSlot) (s : State) : Host.Outcome State Fault Refusal :=
  .next (act (.huskLoad f) (fun s => startLater (.huskLoad (operandSlot s f) (s.iw.readA (immReg f))) (some f.sem) s) s)

def execRte (f : CSlot) (s : State) : Host.Outcome State Fault Refusal :=
  .next (act (.rte f) (fun s => resume s.issue.core (operandSlot s f) s) s)

/-- PARK: every trapped split of the wave is parked, and leaves the trap queue (R376, R414). -/
def parkWave (k : CoreId) (w : SlotId) (s : State) : State :=
  let uid := (s.wave k w).uid
  let s := onCore k (dropTraps fun t => t.wave = uid) s
  onWave k w (fun x => { x with splits := vmap (fun y => if y.state = .trapped then { y with state := .parked } else y) x.splits }) s

/-- UNPARK: every parked split of the wave is trapped again and queued (R376, R414; log entry 75, DEDUCED). -/
def unparkWave (k : CoreId) (w : SlotId) (s : State) : State :=
  let rs := (idxs 4).filter fun r => ((s.wave k w).splits[r]).state = .parked
  rs.foldl (fun s r =>
    let s := onSplit k w r (fun y => { y with state := .trapped }) s
    if ((s.wave k w).splits[r]).code = TrapCode.preempt.code then s else queueTrap k w r s) s

def execPark (f : CSlot) (s : State) : Host.Outcome State Fault Refusal :=
  .next (act (.park f) (fun s => parkWave s.issue.core (operandSlot s f) s) s)

def execUnpark (f : CSlot) (s : State) : Host.Outcome State Fault Refusal :=
  .next (act (.unpark f) (fun s => unparkWave s.issue.core (operandSlot s f) s) s)

/-- PREEMPT: the wave is asked to stop; a second request keeps the first one's deadline (R376, R430, R431; log entry 76, DEDUCED). -/
def requestStop (w : SlotId) (sem : Byte) (s : State) : State :=
  let k := s.issue.core
  let sems : List SemTo := [⟨k, semPhys s k s.iw.ctx sem, s.iw.group⟩]
  let limit := ((s.ctx (s.wave k w).ctx).preemptLimit).toNat
  onWave k w (fun x => { x with preempt := some (match x.preempt with
    | some q => { q with sems := q.sems ++ sems }
    | none => ⟨s.cycle + limit + 1, sems⟩) }) s

def execPreempt (f : CSlot) (s : State) : Host.Outcome State Fault Refusal :=
  .next (act (.preempt f) (fun s => requestStop (operandSlot s f) f.sem s) s)

/-! ### Semaphore maps (R365-R368, R475) -/

/-- SEMMAP.W: an entry of the issuing core's map, and the physical semaphore's value when it is set (log entry 74, DEDUCED). -/
def mapSem (v : Byte) (e : SemElem) (c : Core) : Core :=
  let m := if h : v.toNat < 248 then c.semMap.set e.ctx (c.semMap[e.ctx].set v.toNat e.entry) else c.semMap
  { c with semMap := m, sems := if e.set then c.sems.set e.entry.phys e.value else c.sems }

def execSemmapW (f : CSlot) (s : State) : Host.Outcome State Fault Refusal :=
  .next (act (.semmapW f) (fun s => match semElem s (cSrcA s f) with
    | some e => onCore s.issue.core (mapSem f.sem e) s
    | none => s) s)

/-- The entry that SEMMAP.R reads. -/
def mapEntry (c : Core) (ctx : CtxId) (v : Byte) : MapEntry := if h : v.toNat < 248 then c.semMap[ctx][v.toNat] else ⟨false, 0⟩

/-- SEMMAP.R: the entry in the operand's layout, with set 0 and value 0. -/
def readMap (f : CSlot) (s : State) : State :=
  let x := cSrcA s f
  match semElem s x with
  | some e =>
    let m := mapEntry (s.core s.issue.core) e.ctx f.sem
    cWriteA (immReg f) (BitVec.ofNat 64 (m.phys.val + m.valid.toNat * 2 ^ 15 + bits x 16 7 * 2 ^ 16)) s
  | none => s

def execSemmapR (f : CSlot) (s : State) : Host.Outcome State Fault Refusal := .next (act (.semmapR f) (readMap f) s)

/-! ### TLBINV (R377, R444, R445) -/

/-- TLBINV: the generation rises at issue; every core within reach has a removal to come. -/
def invalidate (f : CSlot) (s : State) : State :=
  let c := operandCtx s f
  let s := onCtx c (fun x => { x with gen := x.gen + 1 }) s
  startLater (.tlbinv c ((idxs 4096).filter (coreReach s s.iw.ctx)) [] []) (some f.sem) s

def execTlbinv (f : CSlot) (s : State) : Host.Outcome State Fault Refusal := .next (act (.tlbinv f) (invalidate f) s)

/-- The cycle before which a core's removal does not happen. -/
def removalDue (p : PrivOp) (k : CoreId) : Nat := p.due + Config.latency (p.draw + 1 + k.val)

/-- A TLBINV of a context whose removal on a core is due. -/
def removalOf (s : State) (k : CoreId) (c : CtxId) : Option PrivOp :=
  s.privOps.find? fun p => removalDue p k ≤ s.cycle && match p.kind with
    | .tlbinv x cores _ _ => x = c && cores.contains k
    | _ => false

/-- A core drops a context's entries and its tile those of earlier generations, and its walks begin again. What its LDCs and
overlay reads, and the copies of its die, have translated so far is old (R444). -/
def removeTlb (k : CoreId) (c : CtxId) (s : State) : State :=
  let r := s.free
  let s := onCore k (fun x => { x with
    tlb := x.tlb.filter fun t => t.ctx ≠ c
    walks := x.walks.map fun w => if w.ctx = c then { w with due := s.cycle + Config.latency r, failed := none } else w
    ops := x.ops.map fun o => if o.ctx = c then { o with pages := o.pages.map fun p => (true, p.2) } else o
    overlays := x.overlays.map fun o => if o.ctx = c then { o with old := true } else o }) s
  let s := onTile (coreTile k) (fun x => { x with tlb := x.tlb.filter fun t => t.ctx ≠ c || t.gen = (s.ctx c).gen }) s
  { s with
    free := r + 1
    copies := if k.val % 512 ≠ 0 then s.copies
      else s.copies.map fun d => if d.ctx = c && coreDie d.core = coreDie k then { d with pages := d.pages.map fun p => (true, p.2) } else d }

/-- The meaning of TLB_REMOVAL. -/
def execTlbRemoval (k : CoreId) (ctx : CtxId) (s : State) : Host.Outcome State Fault Refusal :=
  .next (match removalOf s k ctx with
    | none => s
    | some p =>
      let old := (((s.core k).ops.filter fun o => o.ctx = ctx && o.kind ≠ .ldc).map fun o => (k, o.id))
      onPriv p.id (fun q => match q.kind with
        | .tlbinv x cores l dies => { q with kind := .tlbinv x (cores.filter fun y => y ≠ k) (l ++ old) dies }
        | _ => q) (removeTlb k ctx s))

/-- A request with an old translation has performed: reads by having read, uncorrectable lanes too, the others once they have
left their queue (R425, R445; log entry 86, DEDUCED). -/
def oldDone (s : State) (x : CoreId × Nat) : Bool :=
  !((s.core x.1).ops.any fun o => o.id = x.2 && !(o.kind.loads && o.left = 0 && o.failed = 0))
    && !(s.core x.1).merge.any fun e => e.op = x.2

/-- An LDC has units to read in a page that its engine reached before a removal. -/
def oldUnits (c : Core) (o : MemOp) : Bool :=
  o.kind = .ldc && o.pages.any fun p => p.1 && (lanesOf (o.left ||| o.failed)).any fun l => p.2.covers o.ctx o.ea[l] && (unitFill c o l).isNone

/-- A byte of a request is written at its destination: a window's, once its entry is in the owner's Barn, and a peer's, once
it is acknowledged. -/
def CopyReq.finished (r : CopyReq) (i : Nat) : Bool := if r.ordered then decide (i < r.done) else r.written.contains i && r.acks = []

/-- A copy has unwritten bytes in a page that it reached before a removal. -/
def oldPageOpen (c : CopyList) : Bool :=
  c.pages.any fun p => p.1 && c.reqs.any fun r => !(r.over && r.acks = []) && (List.range r.total).any fun i =>
    !r.finished i
      && ((r.srcKind = 0 && p.2.covers c.ctx (copyAddr r.src r.srcStride r.length i))
        || (r.dstKind = 0 && p.2.covers c.ctx (copyAddr r.dst r.dstStride r.length i)))

/-- TLBINV is complete. -/
def invalidated (s : State) (c : CtxId) (cores : List CoreId) (old : List (CoreId × Nat)) : Bool :=
  cores = [] && old.all (oldDone s) && !(s.copies.any fun d => d.ctx = c && d.started && oldPageOpen d)
    && !s.cores.toList.any fun k => (k.ops.any fun o => o.ctx = c && oldUnits k o) || k.overlays.any fun o => o.ctx = c && o.old

/-- The meaning of TLBINV_COMPLETION. -/
def execTlbinvCompletion (id : Nat) (s : State) : Host.Outcome State Fault Refusal :=
  .next (match s.priv? id with
    | some p => (match p.kind with
      | .tlbinv c cores old _ => if invalidated s c cores old then donePriv p s else s
      | _ => s)
    | none => s)

/-! ### SLOT.LD (R378, R486) -/

def execSlotLd (f : CSlot) (s : State) : Host.Outcome State Fault Refusal :=
  .next (act (.slotLd f) (fun s => startLater (.slotLd (cSrcA s f) (litWord s f.lit.toNat).toNat) (some f.sem) s) s)

/-- A route entry that SLOT.LD accepts: its router within reach, on a running tile, its word legal. -/
def slotEntryOk (s : State) (c : CtxId) (l : List Byte) : Bool :=
  let r := parseRoute l
  let t : TileId := Fin.ofNat 256 (r.die * 32 + r.tile)
  r.die < 8 && r.tile < 32 && dieReach s c (Fin.ofNat 8 r.die) && (s.tiles[t]).state = .running && fieldAt l 3 5 = 0 && slotWordOk r.word

/-- SLOT.LD has read its entries: all of them are checked before any goes to its router. -/
def performSlotLd (p : PrivOp) (va : DWord) (count : Nat) (s : State) : State :=
  match engineRead s p.ctx va (16 * count) with
  | .error e => failPriv p e va s
  | .ok l =>
    let es := records l 16 count
    if es.all (slotEntryOk s p.ctx) then
      onPriv p.id (fun q => { q with started := true, due := s.cycle + Config.latency s.free, slotsLeft := es.map fun e =>
        let r := parseRoute e
        (Fin.ofNat 256 (r.die * 32 + r.tile), Fin.ofNat 256 r.slot, r.word) }) { s with free := s.free + 1 }
    else failPriv p .access va s

/-- The meaning of SLOT_ENTRY_EFFECT: in a cycle of its slot index, an entry that has reached its router takes effect;
SLOT.LD completes with its last one. -/
def execSlotEntryEffect (t : TileId) (slot : Fin 256) (word : DWord) (s : State) : Host.Outcome State Fault Refusal :=
  .next (match s.privOps.find? fun p => p.started && p.due ≤ s.cycle && p.slotsLeft.contains (t, slot, word) with
    | none => s
    | some p =>
      if s.cycle % 256 ≠ slot.val then s
      else
        let left := p.slotsLeft.erase (t, slot, word)
        let s := onTile t (fun x => { x with slots := x.slots.set slot word }) s
        if left = [] then donePriv p s else onPriv p.id (fun q => { q with slotsLeft := left }) s)

/-! ### WIN.LD (R379, R448-R450) -/

def execWinLd (f : CSlot) (s : State) : Host.Outcome State Fault Refusal :=
  .next (act (.winLd f) (fun s => startLater (.winLd (cSrcA s f)) (some f.sem) s) s)

/-- The bytes of an overflow area are HBM pages of the context with supervisor read and write. -/
def ovfPagesOk (s : State) (c : CtxId) (base : DWord) (len : Nat) : Bool :=
  (rangePages base len).all fun va => match walk s c va with
    | .ok t => t.kind = 0 && t.read && t.write
    | .error _ => false

/-- A domain descriptor keeps its table's limits. -/
def domainFieldsOk (s : State) (c : CtxId) (l : List Byte) : Bool :=
  let p := fieldAt l 6 2
  let len := fieldAt l 0x18 8
  fieldAt l 1 3 = 0 && fieldAt l 4 2 < p && 1 ≤ p && p ≤ 1024 && fieldAt l 8 4 ≠ 0 && fieldAt l 12 4 = 0 && fieldAt l 0x10 8 % 65536 = 0
    && len % 65536 = 0 && len ≤ 2 ^ 34 && fieldAt l 0x20 32 = 0 && ovfPagesOk s c (BitVec.ofNat 64 (fieldAt l 0x10 8)) len

/-- A window descriptor keeps its table's limits. -/
def windowFieldsOk (s : State) (c : CtxId) (l : List Byte) : Bool :=
  let rule := fieldAt l 1 1
  let home : DieId := Fin.ofNat 8 (fieldAt l 0x18 1)
  let p := (((s.ctx c).domain.map (·.p)).getD 1024)
  let own : Bool := match (s.ctx c).domain with
    | some d => d.rank = fieldAt l 6 2
    | none => true
  let com := fieldAt l 0x20 8
  let len := fieldAt l 0x10 8
  rule ≤ 6 && [1, 2, 4, 8].contains (fieldAt l 2 1) && fieldAt l 3 1 ≤ 1 && (fieldAt l 3 1 = 0 || rule = 4 || rule = 5)
    && fieldAt l 4 2 < 256 && fieldAt l 6 2 < p && fieldAt l 8 8 % 65536 = 0 && len % 65536 = 0 && fieldAt l 0x18 1 < 8
    && fieldAt l 0x19 7 = 0 && fieldAt l 0x28 24 = 0
    && (if own then com % 65536 = 0 && com < hbmTop && com + len ≤ hbmTop && paDie com = some home && paDie (com + (len - 1)) = some home
          && paReach s c com else com = 0)

def parseWin (l : List Byte) : Win :=
  { rule := fieldAt l 1 1, elem := fieldAt l 2 1, signed := fieldAt l 3 1 = 1, owner := fieldAt l 6 2,
    base := BitVec.ofNat 64 (fieldAt l 8 8), length := fieldAt l 0x10 8, home := Fin.ofNat 8 (fieldAt l 0x18 1),
    committed := fieldAt l 0x20 8 }

/-- A descriptor governs from the next release when the context's domain is formed. -/
def waitsRelease (x : Ctx) : Bool := match x.domain with
  | some d => d.formed
  | none => false

/-- The completion of an operation at a later release. -/
def laterSem (p : PrivOp) : SemTo := ⟨p.core, p.sem, p.group⟩

/-- A window descriptor enters its table entry, at once or at the next release. -/
def loadWindow (p : PrivOp) (l : List Byte) (s : State) : State :=
  let w := if fieldAt l 0x10 8 = 0 then none else some (parseWin l)
  let n := fieldAt l 4 2
  if waitsRelease (s.ctx p.ctx) then onCtx p.ctx (fun x => { x with pendWins := x.pendWins ++ [(n, w, laterSem p)] }) (dropPriv p.id s)
  else onCtx p.ctx (fun x => { x with windows := x.windows.set (Fin.ofNat 256 n) w }) (donePriv p s)

/-- A domain descriptor binds the context, or changes only its overflow area. No member wave has started since it joined
(R161; log entry 81, DEDUCED). -/
def loadDomain (p : PrivOp) (l : List Byte) (s : State) : State :=
  let id : Word := BitVec.ofNat 32 (fieldAt l 8 4)
  let base : DWord := BitVec.ofNat 64 (fieldAt l 0x10 8)
  let len := fieldAt l 0x18 8
  match (s.ctx p.ctx).domain with
  | none =>
    sendForms p.ctx (onCtx p.ctx (fun x => { x with
      domain := some ⟨id, fieldAt l 4 2, fieldAt l 6 2, base, len, false, false⟩, step := 0, counts := [], started := false,
      arrivedSent := false }) (donePriv p s))
  | some d =>
    if d.id ≠ id || d.rank ≠ fieldAt l 4 2 || d.p ≠ fieldAt l 6 2 then failPriv p .access 0 s
    else if d.formed then
      sendForms p.ctx (onCtx p.ctx (fun x => { x with pendOvf := x.pendOvf ++ [(base, len, laterSem p)] }) (dropPriv p.id s))
    else sendForms p.ctx (onDomain p.ctx (fun d => { d with ovfBase := base, ovfLen := len }) (donePriv p s))

/-- WIN.LD has read its descriptor. -/
def performWinLd (p : PrivOp) (va : DWord) (s : State) : State :=
  match engineRead s p.ctx va 64 with
  | .error e => failPriv p e va s
  | .ok l =>
    match fieldAt l 0 1 with
    | 1 => if domainFieldsOk s p.ctx l then loadDomain p l s else failPriv p .access va s
    | 2 => if windowFieldsOk s p.ctx l then loadWindow p l s else failPriv p .access va s
    | _ => failPriv p .access va s

/-! ### IMG.INV (R197, R380) -/

/-- Handles in use: those of the image tables and of images that groups use. -/
def handlesUsed (s : State) : List Word :=
  s.images.map (·.handle) ++ (idxs 64).flatMap fun c => (cVerdict.imageTable s c).map (·.1)

/-- The next handle of the package's counter, skipping 0 and every handle in use. -/
def nextHandle (s : State) : Word :=
  let used := handlesUsed s
  ((List.range (used.length + 2)).map fun i => s.handleCtr + BitVec.ofNat 32 i).find? (fun h => h ≠ 0 && !used.contains h) |>.getD s.handleCtr

/-- The index of a handle in a context's image table. -/
def tableIndex (s : State) (c : CtxId) (h : Word) : Nat := (cVerdict.imageTable s c).findIdx fun e => e.1 = h

/-- IMG.INV: a new handle goes to the table entry and to A[d]. -/
def renewHandle (f : CSlot) (s : State) : State :=
  let c := s.iw.ctx
  let old := lo32 (cSrcA s f)
  let new := nextHandle s
  let s := startLater (.imgInv old new) (some f.sem) s
  let s := areaWrite c (0x1400 + 16 * tableIndex s c old) (leBytes 4 new.toNat) { s with handleCtr := new + 1 }
  cWriteA (immReg f) (new.zeroExtend 64) s

def execImgInv (f : CSlot) (s : State) : Host.Outcome State Fault Refusal := .next (act (.imgInv f) (renewHandle f) s)

/-- The switch ends: groups still to be placed of grids that have begun take the new handle (log entry 77, DEDUCED); what was
loaded under the old one has no reserved pages any more (R399). -/
def performImgInv (p : PrivOp) (old new : Word) (s : State) : State :=
  let s : State := { s with images := s.images.map fun im => if im.ctx = p.ctx && im.handle = old then { im with class0 := false } else im }
  donePriv p { s with grids := s.grids.map fun g => if g.ctx = p.ctx && g.image = old && g.state = .placing then { g with image := new } else g }

/-! ### HALT and ATTEST (R383, R384) -/

/-- HALT: the split ends, and the core stands still. -/
def haltCore (s : State) : State := onCore s.issue.core (fun c => { c with halted := true }) (endSplit s)

def execHalt (f : CSlot) (s : State) : Host.Outcome State Fault Refusal := .next (act (.halt f) haltCore s)

def execAttest (f : CSlot) (s : State) : Host.Outcome State Fault Refusal :=
  .next (act (.attest f) (fun s => startLater (.attest (cSrcA s f)) (some f.sem) s) s)

/-- ATTEST: the digest is signed and r, then s are written. -/
def performAttest (p : PrivOp) (va : DWord) (s : State) : State :=
  match engineRead s p.ctx va 32 with
  | .error e => failPriv p e va s
  | .ok e =>
    match engineWrite p.ctx (va + 32) (beBytes 64 (Config.sm2Sign p.draw (BitVec.ofNat 256 (beNat e))).toNat) s with
    | .error e => failPriv p e (va + 32) s
    | .ok s => donePriv p s

/-! ### Completion (R373, R374) -/

/-- HUSK.SAVE writes the image. -/
def performSave (p : PrivOp) (slot : SlotId) (va : DWord) (s : State) : State :=
  match engineWrite p.ctx va (huskImage s p.core slot) s with
  | .error e => failPriv p e va s
  | .ok s => donePriv p s

/-- HUSK.LOAD reads one and replaces the Husk. -/
def performLoad (p : PrivOp) (slot : SlotId) (va : DWord) (s : State) : State :=
  match engineRead s p.ctx va 6144 with
  | .error e => failPriv p e va s
  | .ok l => donePriv p (onWave p.core slot (huskApply l) s)

/-- The wave whose Husk an operation concerns. -/
def huskSlot : PrivKind → Option SlotId
  | .huskSave w _ | .huskLoad w _ => some w
  | _ => none

/-- Operations on one wave's Husk perform in issue order (R374). -/
def huskTurn (s : State) (p : PrivOp) : Bool :=
  (huskSlot p.kind).isNone || !s.privOps.any fun q => q.id < p.id && q.core = p.core && huskSlot q.kind = huskSlot p.kind

/-- Engine operations begin as KICK does (R153, R373). -/
def privReady (s : State) (p : PrivOp) : Bool :=
  !p.started && p.due ≤ s.cycle && huskTurn s p && (match p.kind with
    | .huskSave .. | .huskLoad .. | .slotLd .. | .winLd .. | .attest .. => kReady s p.core p.wave p.slot p.id p.obs
    | _ => true)

/-- What an operation does when it acts. -/
def performPriv (p : PrivOp) (s : State) : State :=
  match p.kind with
  | .huskSave w va => performSave p w va s
  | .huskLoad w va => performLoad p w va s
  | .slotLd va n => performSlotLd p va n s
  | .winLd va => performWinLd p va s
  | .attest va => performAttest p va s
  | .imgInv old new => performImgInv p old new s
  | .mtcr sel v => match selector p.core p.ctx sel with
    | some (t, _) => if writesNow p.core t then dropPriv p.id (performWrite p sel v s) else s
    | none => s
  | _ => s

/-- The meaning of PRIVILEGED_OPERATION_COMPLETION: the operation's work performs, and adds to its semaphore. -/
def execPrivilegedOperationCompletion (id : Nat) (s : State) : Host.Outcome State Fault Refusal :=
  .next (match s.priv? id with
    | some p => if privReady s p then performPriv p s else s
    | none => s)

end Sys2Proof.Machine
end

