-- ==== Sys2Proof/Machine/Swap.lean ====
section
/-!
DEFINITION. Waves that leave their core and come back: JOIN swap-out and return (R240, R402), the retiring state (R241),
CTX.SWOUT and CTX.SWIN (R381, R382, R408, R472), and the parked-share switch (R435). What comes back is what was kept at
the switch-out; the records of R436 are written besides.
-/

namespace Sys2Proof.Machine

open Sys2Proof

/-! ### The swap region (R363, R436) -/

/-- The area offset of the swap region. -/
def swapOff : Nat := 0x10000

/-- Wave-record slots of a context in use. -/
def waveSlotsUsed (s : State) (c : CtxId) : List Nat :=
  (s.groups.filter fun g => g.ctx = c).flatMap fun g => g.away.map fun a => a.2.2

/-- The lowest number that a list does not hold. -/
def lowestFree (l : List Nat) : Nat := ((List.range (l.length + 1)).find? fun n => !l.contains n).getD 0

/-- Bytes at the end of the region that core records take. -/
def coreRecBytes (s : State) (c : CtxId) : Nat := 1024 * ((s.ctx c).coreRecs.foldl (fun m r => max m (r.slot + 1)) 0)

/-- The region has free slots for that many wave records. -/
def waveSlotsFit (s : State) (c : CtxId) (n : Nat) : Bool :=
  let used := waveSlotsUsed s c
  let last := (List.range n).foldl (fun l _ => lowestFree l :: l) used
  40960 * (last.foldl max 0 + 1) + coreRecBytes s c ≤ swapBytes s c

/-- The pieces of a record: none of them crosses a page. -/
def pieces : Nat → List Byte → List (List Byte)
  | 0, _ => []
  | n + 1, l => l.take 1024 :: pieces n (l.drop 1024)

/-- Writes a record of whole 1,024-byte pieces; a fault enters one record and nothing is written (R363). -/
def areaRecord (c : CtxId) (off : Nat) (l : List Byte) (s : State) : State :=
  let ps := (pieces (l.length / 1024) l).mapIdx fun i p => (off + 1024 * i, p)
  match ps.find? fun p => match areaAddr s c p.1 true with | .error _ => true | .ok _ => false with
  | some p => areaFault c p.1 s
  | none => ps.foldl (fun s p => areaWrite c p.1 p.2 s) s

/-! ### Leaving a core -/

/-- A group's waves on its core, shadows and ended waves included. -/
def groupSlots (s : State) (g : Group) : List SlotId :=
  g.slots.filter fun w => (s.wave g.core w).live && (s.wave g.core w).group = g.id

/-- Whether nothing of a wave is outstanding on its core: no queued access but those that failed, no entry in the merge
buffer, no copy, no privileged operation by it or on its Husk. -/
def waveQuiet (s : State) (k : CoreId) (w : SlotId) : Bool :=
  let uid := (s.wave k w).uid
  let c := s.core k
  !(c.ops.any fun o => o.wave = uid && (o.left ≠ 0 || (o.failed = 0 && !(o.kind = .qload && o.atG))))
    && !(c.merge.any fun e => e.wave = uid) && !(s.copies.any fun d => d.core = k && d.wave = uid)
    && !(s.privOps.any fun p => p.core = k && (p.wave = uid || huskSlot p.kind = some w))

/-- One wave leaves its context: its record is written, and the wave is kept with its record's slot. -/
def waveLeaves (g : Group) (s : State) (w : SlotId) : State :=
  let x := s.wave g.core w
  let n := lowestFree (waveSlotsUsed s g.ctx)
  let s := areaRecord g.ctx (swapOff + 40960 * n) (waveRecord s g.core w) s
  onGroup g.id (fun y => { y with away := y.away ++ [(w, x, n)] }) s

/-- A group leaves its core: contexts and registers are freed, frames that are not empty stay (R417), claims stay (log entry 91, DEDUCED). -/
def groupLeaves (target : GroupState) (g : Group) (s : State) : State :=
  let ws := groupSlots s g
  let uids := ws.map fun w => (s.wave g.core w).uid
  let full := (ws.filter fun w => frameFull (s.core g.core) (s.wave g.core w)).length
  let s := ws.foldl (waveLeaves g) s
  let s := ws.foldl (fun s w => freeWave g.core w s) s
  let s := onCore g.core (fun c => { dropTraps (fun t => uids.contains t.wave) c with
    frames := if full = 0 then c.frames else (g.id, full) :: c.frames }) s
  onGroup g.id (fun y => { y with state := target, joinFor := 0 }) s

/-- What a group's waves have observed stays with its grid, until the grid's end is a release over it (R238, R239). -/
def keepObs (g : Group) (s : State) : State :=
  onGrid g.grid (fun d => { d with obs := (groupSlots s g).foldl (fun l w => joinIds l (s.wave g.core w).obs) d.obs }) s

/-- A group whose waves have all ended gives up its contexts, registers and frames (R241). -/
def groupEmpties (g : Group) (s : State) : State :=
  let s := (groupSlots s g).foldl (fun s w => freeWave g.core w s) (keepObs g s)
  onGroup g.id (fun y => { y with state := .retiringOut }) s

/-! ### Coming back -/

/-- Registers of a group's waves away. -/
def awayRegs (g : Group) : List Nat := g.away.map fun a => a.2.1.nregs

/-- The claims of a group's image. -/
def imageClaims (s : State) (g : Group) : List Claim :=
  match (s.grid? g.grid).bind fun d => s.image? d.ctx d.image with
  | some im => im.claims.map fun c => { c with ctx := g.ctx, group := g.id }
  | none => []

/-- No other context holds what a group claims. -/
def claimsBack (s : State) (g : Group) : Bool :=
  !((s.core g.core).claims.any fun c => c.ctx ≠ g.ctx && (imageClaims s g).any fun d => d.meets c)

/-- Claims that were released are made again (R113, R382). -/
def reclaim (g : Group) (s : State) : State :=
  if (s.core g.core).claims.any fun c => c.group = g.id then s
  else
    let l := imageClaims s g
    onCore g.core (fun c => let c := claimStore g.ctx l c; { c with claims := c.claims ++ l }) s

/-- The contexts to which a group's waves return: those they left when all are free, else as the dispatcher chooses. -/
def roomBack (s : State) (g : Group) : Option (List SlotId) :=
  let c := s.core g.core
  let c := { c with frames := c.frames.filter fun f => f.1 ≠ g.id }
  let old := g.away.map (·.1)
  let cls := ((s.grid? g.grid).map (·.cls)).getD 3
  let regs := awayRegs g
  let open_ := (g.away.filter fun a => a.1 ≠ class0Slot).map fun a => a.2.1.nregs
  if old.all (fun w => !c.waves[w].live) && c.regsHeld + open_.sum ≤ 1760 && regs.length ≤ c.framesFree then some old
  else c.room0 (cls = 0) regs

/-- The sequencer allows a group back: one with an interrupted matrix instruction waits until it is not busy for an MXL (R433). -/
def mxlAllows (s : State) (g : Group) : Bool :=
  let c := s.core g.core
  !(g.away.any fun a => (mxInProgress c a.2.1.uid).isSome) || !mxBusy c 1

/-- A wave as it comes back: its partner's new context, no hold running. -/
def backWave (new : SlotId → SlotId) (x : Wave) : Wave :=
  { x with partner := x.partner.map new, splits := vmap (fun y => { y with held := 0, hold := none, issued := false }) x.splits }

/-- The images of a group's waves away, with their pinned pages, are on its core again (R195). -/
def pinBack (g : Group) (s : State) : State :=
  ((g.away.map fun a => a.2.1.image).dedup).foldl (fun s h => match s.image? g.ctx h with
    | some im => loadPinned g.core im s
    | none => s) s

/-- A group comes back into some contexts, with its claims and its images' pinned pages. -/
def groupReturns (g : Group) (ws : List SlotId) (s : State) : State :=
  let s := pinBack g (reclaim g s)
  let moves := (g.away.map (·.1)).zip ws
  let new (w : SlotId) : SlotId := ((moves.find? fun m => m.1 = w).map (·.2)).getD w
  let uids := g.away.map fun a => a.2.1.uid
  let at_ (uid : Nat) (w : SlotId) : SlotId := if uids.contains uid then new w else w
  let s := g.away.foldl (fun s a => onWave g.core (new a.1) (fun _ => backWave new a.2.1) s) s
  let s := onCore g.core (fun c => { c with
    frames := c.frames.filter fun f => f.1 ≠ g.id
    ops := c.ops.map fun o => { o with slot := at_ o.wave o.slot }
    mx := c.mx.map fun m => { m with slot := at_ m.wave m.slot } }) s
  onGroup g.id (fun y => { y with state := .running, away := [], joinFor := 0, slots := y.slots.map new })
    { s with copies := s.copies.map fun d => if d.core = g.core then { d with slot := at_ d.wave d.slot } else d }

/-! ### JOIN (R240, R402) -/

/-- CTX.JOIN_SWAP; 0 acts as 1 (R361). -/
def joinLimit (s : State) (c : CtxId) : Nat := max 1 (s.ctx c).joinSwap.toNat

/-- Every live split of every wave of a group is held at JOIN in this cycle; shadows do not count, but none may be
trapped (log entry 38, DEDUCED). -/
def groupAtJoin (s : State) (g : Group) : Bool :=
  let ws := (groupSlots s g).map (s.wave g.core)
  let main := ws.filter fun x => x.kind ≠ .shadow
  main.any (fun x => !x.ended)
    && main.all (fun x => x.ended || (x.stack = [] && x.liveSplits.all fun y => y.2.state = .runnable && y.2.hold = some .join))
    && ws.all fun x => x.kind ≠ .shadow || x.liveSplits.all fun y => y.2.state = .runnable

/-- A group may be swapped out: held long enough, its accesses over, and a free slot for each wave (R240, R436). -/
def joinOutReady (s : State) (g : Group) : Bool :=
  g.state = .running && joinLimit s g.ctx ≤ g.joinFor && groupAtJoin s g && (groupSlots s g).all (waveQuiet s g.core)
    && waveSlotsFit s g.ctx (groupSlots s g).length

/-- The meaning of JOIN_SWAP_OUT. -/
def execJoinSwapOut (g : Nat) (s : State) : Host.Outcome State Fault Refusal :=
  .next (match s.group? g with
    | some x => if joinOutReady s x then groupLeaves .swapped x s else s
    | none => s)

/-- The JOIN bundle at a PC of an image names a counter in a register of the wave. -/
def joinAddr (im : Image) (w : Wave) (pc : Word) : Option DWord :=
  match bundleAt im.dict im.stream pc.toNat with
  | some (b, _) => (match b.c with
    | some (.join f) => (match f.src with | .a n => some (w.readA n) | _ => some 0)
    | _ => none)
  | none => none

/-- The counter at an address reads zero as the wave reads it. -/
def counterZero (s : State) (k : CoreId) (w : Wave) (va : DWord) : Bool :=
  match walk s w.ctx va with
  | .ok t => leNat (viewBytes s k w.uid s.nextId (t.addr va) 4).1 = 0
  | .error _ => false

/-- Each counter on which a split of the group is held reads 0. -/
def joinsZero (s : State) (g : Group) : Bool :=
  g.away.all fun a =>
    let w := a.2.1
    w.kind = .shadow || match s.image? w.ctx w.image with
      | none => true
      | some im => w.liveSplits.all fun y => match joinAddr im w y.2.pc with
        | some va => counterZero s g.core w va
        | none => true

/-- A core may take a group back: its tile runs and it is not halted (R383, R484). -/
def coreTakes (s : State) (k : CoreId) : Bool := (s.tiles[coreTile k]).state = .running && !(s.core k).halted

/-- A swapped group wants to return: its counters read 0, and nothing keeps its context away, its core or its claims. -/
def wantsReturn (s : State) (g : Group) : Bool :=
  g.state = .swapped && !(s.ctx g.ctx).outCores.contains g.core && !(s.ctx g.ctx).outDies.contains (coreDie g.core)
    && coreTakes s g.core && claimsBack s g && joinsZero s g

/-- The meaning of JOIN_RETURN. -/
def execJoinReturn (g : Nat) (s : State) : Host.Outcome State Fault Refusal :=
  .next (match s.group? g with
    | some x =>
      if wantsReturn s x && mxlAllows s x then
        match roomBack s x with
        | some ws => groupReturns x ws s
        | none => s
      else s
    | none => s)

/-! ### The retiring state (R241) -/

/-- The meaning of RETIRING_RELEASE. -/
def execRetiringRelease (g : Nat) (s : State) : Host.Outcome State Fault Refusal :=
  .next (match s.group? g with
    | some x => if x.state = .retiring && joinLimit s x.ctx ≤ x.retireFor then groupEmpties x s else s
    | none => s)

/-! ### Switching a context out (R381, R408, R436) -/

/-- PTP time rounded up to the switch instant (R408). -/
def switchInstant (ptp : Nat) : Nat := (ptp + (2 ^ 18 - 1)) / 2 ^ 18 * 2 ^ 18

/-- A switch-out is requested: in a step domain it waits for a release, elsewhere it takes effect at once. It reaches the cores
some time after (R473). -/
def requestOut (c : CtxId) (dies : List DieId) (release : Bool) (one : Option CoreId) (sems : List SemTo) (s : State) : State :=
  let bound_ : Bool := (s.ctx c).domain.isSome
  let new : Swout :=
    { dies := dies, release := release, instant := if bound_ then some (switchInstant s.hub.ptp) else none, sems := sems,
      due := s.cycle + Config.latency s.free, stopping := !bound_, oneCore := one }
  onCtx c (fun x => { x with swout := x.swout ++ [new] }) { s with free := s.free + 1 }

/-- CTX.SWOUT at issue. -/
def startOut (f : CSlot) (s : State) : State :=
  let v := cSrcA s f
  let c := (ctxOperand s v 0x1FF00).getD s.iw.ctx
  let dies := maskDies (bits v 8 8)
  let sems : List SemTo := [⟨s.issue.core, semPhys s s.issue.core s.iw.ctx f.sem, s.iw.group⟩]
  let s := onCtx c (fun x => { x with state := 2, outDies := dies ++ x.outDies.filter fun d => !dies.contains d }) s
  requestOut c dies (bit v 16) none sems s

def execCtxSwout (f : CSlot) (s : State) : Host.Outcome State Fault Refusal := .next (act (.ctxSwout f) (startOut f) s)

/-- Waves of a context that a switch-out stops and writes out: those of its running groups (R401). -/
def outWaves (s : State) (k : CoreId) (c : CtxId) : List (SlotId × Wave) :=
  (s.core k).liveWaves.filter fun x => x.2.ctx = c && (x.2.kind = .compute || x.2.kind = .shadow)
    && ((s.group? x.2.group).map fun g => decide (g.state = .running)).getD false

/-- A wave has stopped: no split of it can issue. Splits on the stack count as stopped (R430). -/
def Wave.stopped (w : Wave) : Bool := w.ended || w.liveSplits.all fun x => x.2.state = .trapped || x.2.state = .parked

/-- The waves of a context on a core are asked to stop as PREEMPT does. -/
def askStops (k : CoreId) (c : CtxId) (s : State) : State :=
  let limit := (s.ctx c).preemptLimit.toNat
  (outWaves s k c).foldl (fun s x =>
    if x.2.preempt.isSome || x.2.stopped then s
    else onWave k x.1 (fun w => { w with preempt := some ⟨s.cycle + limit + 1, []⟩ }) s) s

/-- Additions to counters of a context on a core are on their way. -/
def addsUnderWay (s : State) (k : CoreId) (c : CtxId) : Bool :=
  let phys := ((s.core k).semMap[c].toList.filter (·.valid)).map (·.phys)
  ((s.core k).adds ++ (s.core k).addsNext).any fun x => match x.1 with
    | .phys n => phys.contains n
    | .s253 d | .s254 d => d = c

/-- A core can write a context out: its waves have stopped and are quiet, no addition is on its way to its semaphores, and
no stint or handler wave of it runs (log entry 89, DEDUCED). -/
def coreOutReady (s : State) (k : CoreId) (c : CtxId) : Bool :=
  !addsUnderWay s k c && (outWaves s k c).all (fun x => x.2.stopped && waveQuiet s k x.1)
    && !((s.core k).liveWaves.any fun x => x.2.ctx = c && (x.2.kind = .stint || x.2.kind = .handler))

/-- The core record of a context and the end of its map entries on the core (log entry 88, DEDUCED). -/
def writeCoreRec (k : CoreId) (c : CtxId) (waves : Nat) (s : State) : State :=
  let recs := (s.ctx c).coreRecs.filter fun r => r.core ≠ k
  let n := lowestFree (recs.map (·.slot))
  let x := s.core k
  let vals := (List.range 248).filterMap fun v =>
    (semPhys s k c (BitVec.ofNat 8 v)).map fun p => (v, x.sems[p])
  let end_ := swapBytes s c
  let s := areaRecord c (swapOff + (end_ - 1024 * (n + 1))) (coreRecord s k c waves) s
  let s := onCore k (fun y => { y with semMap := y.semMap.set c (Vector.replicate 248 ⟨false, 0⟩) }) s
  onCtx c (fun y => { y with coreRecs := ⟨k, vals, x.s253[c], x.s254[c], n⟩ :: recs }) s

/-- The core holds a wave context of a context, also of a group whose waves have ended. -/
def holdsWaves (s : State) (k : CoreId) (c : CtxId) : Bool :=
  (s.core k).liveWaves.any fun x => x.2.ctx = c && (x.2.kind = .compute || x.2.kind = .shadow)

/-- A core writes a context out; its retiring groups stay as they are (R401, R436). -/
def coreOut (k : CoreId) (c : CtxId) (s : State) : State :=
  let n := (outWaves s k c).length
  let held := holdsWaves s k c
  let s := (s.groups.filter fun g => g.core = k && g.ctx = c && g.state = .running).foldl (fun s g => groupLeaves .out g s) s
  let s := if held then writeCoreRec k c n s else s
  onCtx c (fun x => { x with outCores := k :: x.outCores }) s

/-- The claims of a context on a core are freed (R381). -/
def freeClaims (k : CoreId) (c : CtxId) (s : State) : State :=
  if (s.core k).claims.any fun y => y.ctx = c then onCore k (fun x => { x with claims := x.claims.filter fun y => y.ctx ≠ c }) s else s

/-- The switch-out of a context is complete. -/
def outDone (c : CtxId) (o : Swout) (s : State) : State :=
  let s := o.sems.foldl (fun s x => complete x.core x.sem 1 s) s
  onCtx c (fun x =>
    let rest := x.swout.erase o
    { x with swout := rest, state := if o.oneCore.isSome then x.state else if rest.any (·.oneCore.isNone) then 2 else 3 }) s

/-- What the cores do for one switch-out in each cycle, once it has reached them. -/
def outDuty (c : CtxId) (o : Swout) (s : State) : State :=
  if !o.stopping || s.cycle < o.due then s
  else
    let here := (idxs 4096).filter o.concerns
    let left := here.filter fun k => !(s.ctx c).outCores.contains k
    let s := left.foldl (fun s k => askStops k c s) s
    let s := left.foldl (fun s k => if coreOutReady s k c then coreOut k c s else s) s
    let gone := here.filter fun k => (s.ctx c).outCores.contains k
    let s := if o.release then gone.foldl (fun s k => freeClaims k c s) s else s
    if gone.length = here.length then outDone c o s else s

/-! ### Switching it in again (R382, R472) -/

/-- A switch-out of the context has left waves on a core's list of those to come back (R382). -/
def awaits (s : State) (k : CoreId) (c : CtxId) : Bool := s.groups.any fun g => g.core = k && g.ctx = c && g.state = .out

/-- CTX.SWIN at issue: with no wave to restore it has nothing to wait for (R477). -/
def startIn (f : CSlot) (s : State) : State :=
  let v := cSrcA s f
  let c := (ctxOperand s v 0xFF00).getD s.iw.ctx
  let dies := maskDies (bits v 8 8)
  let due := if (s.ctx c).outCores.any fun k => dies.contains (coreDie k) && awaits s k c then s.cycle + Config.latency s.free else s.cycle
  onCtx c (fun x => { x with state := 4 }) (startPriv (.swin c dies) (some f.sem) due s)

def execCtxSwin (f : CSlot) (s : State) : Host.Outcome State Fault Refusal := .next (act (.ctxSwin f) (startIn f) s)

/-- CTX.SWOUT, or PREEMPT, has stopped a split. -/
def Split.preempted (y : Split) : Bool := y.state = .trapped && y.code = TrapCode.preempt.code

/-- A restored split runs from the next cycle, with its clock and gap as they were (R472). -/
def restoredSplit (y : Split) : Split :=
  if y.preempted then { y with state := .resuming, code := 0, arg := 0, addr := 0, record := 0xFFFFFFFF, mask0 := 0 } else y

/-- A restored wave: the lanes of the splits that run have no trap code any more (R421). -/
def restoredWave (x : Wave) : Wave :=
  let go := x.splits.toList.foldl (fun m y => if y.preempted then m ||| y.mask else m) 0
  { x.markLanes go 0 with splits := vmap restoredSplit x.splits, preempt := none }

/-- The splits of a restored group's waves: those that the switch-out stopped run, the trapped ones queue again. -/
def restoreSplits (k : CoreId) (ws : List SlotId) (s : State) : State :=
  ws.foldl (fun s w =>
    let s := onWave k w restoredWave s
    (trappedRecs (s.wave k w)).foldl (fun s r => queueTrap k w r s) s) s

/-- One group of a context returns to its core; none when it cannot yet. -/
def groupIn (g : Group) (s : State) : Option State :=
  if claimsBack s g && mxlAllows s g then (roomBack s g).map fun ws => restoreSplits g.core ws (groupReturns g ws s) else none

/-- A group that JOIN has swapped out has its claims again, and stays swapped out; none when another context holds them (R382, R401). -/
def claimsIn (g : Group) (s : State) : Option State := if claimsBack s g then some (reclaim g s) else none

/-- The saved counters and semaphore values of a context return to its core. -/
def countersIn (k : CoreId) (c : CtxId) (s : State) : State :=
  match (s.ctx c).coreRecs.find? fun r => r.core = k with
  | none => s
  | some r =>
    let s := r.vals.foldl (fun s v => match semPhys s k c (BitVec.ofNat 8 v.1) with
      | some p => onCore k (fun x => { x with sems := x.sems.set p v.2 }) s
      | none => s) s
    let s := onCore k (fun x => { seeCtx c x with s253 := x.s253.set c r.s253, s254 := x.s254.set c r.s254 }) s
    onCtx c (fun x => { x with coreRecs := x.coreRecs.filter fun y => y.core ≠ k }) s

/-- A core takes a context in again, with every group that left it; none when one of them must wait. -/
def coreIn (k : CoreId) (c : CtxId) (s : State) : Option State :=
  if awaits s k c && !coreTakes s k then none
  else
    let mine (t : GroupState) : List Group := s.groups.filter fun g => g.core = k && g.ctx = c && g.state = t
    let s := (mine .swapped).foldl (fun o g => o.bind (claimsIn g)) (some s)
    ((mine .out).foldl (fun o g => o.bind (groupIn g)) s).map fun s =>
      onCtx c (fun x => { x with outCores := x.outCores.filter (· ≠ k) }) (countersIn k c s)

/-- What the cores do for a CTX.SWIN in each cycle; it waits for a switch-out in progress. -/
def inDuty (p : PrivOp) (c : CtxId) (dies : List DieId) (s : State) : State :=
  if s.cycle < p.due || (s.ctx c).swout ≠ [] then s
  else
    let cores := (s.ctx c).outCores.filter fun k => dies.contains (coreDie k)
    let s := cores.foldl (fun s k => (coreIn k c s).getD s) s
    if (s.ctx c).outCores.any fun k => dies.contains (coreDie k) then s
    else
      let s := onCtx c (fun x => { x with outDies := x.outDies.filter fun d => !dies.contains d }) s
      donePriv p (onCtx c (fun x => { x with state := if x.outDies = [] && x.outCores = [] then 1 else 3 }) s)

/-- The duties of one cycle for contexts that leave or come back. -/
def switchDuties (s : State) : State :=
  let s := (idxs 64).foldl (fun s c => (s.ctx c).swout.foldl (fun s o => outDuty c o s) s) s
  s.privOps.foldl (fun s p => match p.kind with
    | .swin c dies => inDuty p c dies s
    | _ => s) s

/-! ### The parked share (R435) -/

/-- Wave contexts of a context on a core, and those with a parked split. -/
def parkedShare (s : State) (k : CoreId) (c : CtxId) : Nat × Nat :=
  let l := (s.core k).liveWaves.filter fun x => x.2.ctx = c
  (l.length, (l.filter fun x => x.2.hasParked).length)

/-- The share is exceeded and no switch-out is in progress (log entry 90, DEDUCED). -/
def shareExceeded (s : State) (k : CoreId) (c : CtxId) : Bool :=
  let (w, p) := parkedShare s k c
  (s.ctx c).swout = [] && min (s.ctx c).parkPct.toNat 100 * w < 100 * p

/-- The meaning of PARKED_SHARE_SWITCH. -/
def execParkedShareSwitch (k : CoreId) (ctx : CtxId) (s : State) : Host.Outcome State Fault Refusal :=
  .next (if shareExceeded s k ctx then
      let (w, p) := parkedShare s k ctx
      requestOut ctx [coreDie k] false (some k) [] (recordFault ctx { kind := 7, core := k.val, d0 := w, d1 := p } s).2
    else s)

end Sys2Proof.Machine
end

