-- ==== Sys2Proof/Machine/Handlers.lean ====
section
/-!
DEFINITION. The machine's steps around traps: WATCHDOG (R434), conditions that wait at a split (R411, R412), handler waves
(R414-R416), pre-emption stops (R430, R431), and the ends of table walks and overlay reads (R196, R442).
-/

namespace Sys2Proof.Machine

open Sys2Proof

/-! ### WATCHDOG (R434) -/

/-- The meaning of WATCHDOG: a split held for CTX.WATCHDOG consecutive cycles traps, its argument naming the hold. -/
def execWatchdog (k : CoreId) (w : SlotId) (r : RecId) (s : State) : Host.Outcome State Fault Refusal :=
  let x := s.wave k w
  let y := x.splits[r]
  let limit := (s.ctx x.ctx).watchdog.toNat
  .next (match y.hold with
    | some h =>
      if x.live && y.state = .runnable && limit ≠ 0 && limit ≤ y.held
      then trapSplit k w r { code := .watchdog, arg := h.code } y.mask s else s
    | none => s)

/-! ### Conditions that wait (R411, R412) -/

/-- Tick traps act at once; the others before the split's next issue, once its gap has elapsed. -/
def Pending.acts (p : Pending) (gap : Nat) : Bool := p.code = .arith || p.code = .bankMx || gap = 0

/-- The meaning of PENDING_TRAP. -/
def execPendingTrap (k : CoreId) (w : SlotId) (r : RecId) (s : State) : Host.Outcome State Fault Refusal :=
  let x := s.wave k w
  let y := x.splits[r]
  .next (match firstPend (y.pend.filter fun p => p.acts y.gap) with
    | some p => if x.live && y.state = .runnable then takePend k w r p s else s
    | none => s)

/-! ### Handler waves (R414-R416) -/

/-- The handler context of a trapped context. -/
def handlerCtx (s : State) (c : CtxId) : Option CtxId :=
  match (s.ctx c).level.toNat with
  | 0 => supervisorOf s c
  | 1 => some 0
  | _ => none

/-- The image and entry that CTX.HANDLER of the trapped context names in the handler context; none where the trap is
fatal (R416). A refused image counts as outside. -/
def handlerImage (s : State) (c h : CtxId) : Option (Image × Entry) :=
  let v := (s.ctx c).handler
  match imageFor s h (hi32 v) with
  | none => none
  | some im => match im.entries[bits v 0 16]? with
    | some t => if t.regs ≤ 32 then some (im, t) else none
    | none => none

/-- The trap of an entry is fatal (log entry 101, DEDUCED). -/
def entryFatal (s : State) (k : CoreId) (e : TrapEntry) : Bool :=
  let c := (s.wave k e.slot).ctx
  match handlerCtx s c with
  | none => true
  | some h => (handlerImage s c h).isNone

/-- Live handler waves of a core. -/
def liveHandlers (c : Core) : List (SlotId × Wave) := c.liveWaves.filter fun x => x.2.kind = .handler && !x.2.ended

/-- The context a handler wave takes: the one held back; for an entry of the machine context while a supervisor handler
wave stands trapped, any free one with 32 free registers (log entry 20, DEDUCED). -/
def handlerRoom (c : Core) (h : CtxId) : Option SlotId :=
  if c.framesFree = 0 then none
  else if liveHandlers c = [] && !c.waves[handlerSlot].live then some handlerSlot
  else if h = 0 && liveHandlers c ≠ [] && (liveHandlers c).all (fun x => x.2.stopped) then
    if 2048 < (c.liveWaves.map fun x => x.2.nregs).sum + 32 then none
    else (idxs 48).find? fun w => !c.waves[w].live
  else none

/-- The context may run a handler wave on the core: it is not away, and the core takes work (R381, R383, R483). -/
def handlerAllowed (s : State) (k : CoreId) (h : CtxId) : Bool :=
  !(s.ctx h).outCores.contains k && !(s.ctx h).outDies.contains (coreDie k) && (s.ctx h).swout = []
    && !(s.tiles[coreTile k]).fence && coreTakes s k

/-- An entry still names a trapped split. -/
def entryStands (s : State) (k : CoreId) (e : TrapEntry) : Bool :=
  let x := s.wave k e.slot
  x.live && x.uid = e.wave && x.splits[e.split].state = .trapped

/-- Registers of a handler wave at its start (R415). -/
def handlerRegs (x : Wave) (slot : SlotId) (r : RecId) : Vector DWord 32 :=
  let y := x.splits[r]
  let a3 : DWord := if y.code = TrapCode.xlate.code || y.code = TrapCode.access.code || y.code = TrapCode.align.code
    || y.code = TrapCode.eccUncorr.code then y.addr else 0
  let a2 := y.code.toNat + y.arg.toNat * 2 ^ 8 + r.val * 2 ^ 16 + (y.epc.getD y.pc).toNat * 2 ^ 32
  ((((Vector.replicate 32 (0 : DWord)).set 1 (BitVec.ofNat 64 (slot.val + x.ctx.val * 2 ^ 16))).set 2 (BitVec.ofNat 64 a2)).set 3 a3).set 4
    (y.record.zeroExtend 64)

/-- The next serial of a context: its counter's, past those that its live grids hold (R23). -/
def freshSerial (s : State) (c : CtxId) : Word :=
  let used := (s.grids.filter fun d => d.ctx = c).map (·.serial)
  (((List.range (used.length + 1)).map fun i => (s.ctx c).serial + BitVec.ofNat 32 i).find? fun n => !used.contains n).getD (s.ctx c).serial

/-- A grid that holds that serial enters the package's list. -/
def addGrid (d : Grid) (s : State) : State := onCtx d.ctx (fun c => { c with serial := d.serial + 1 }) { s with grids := s.grids ++ [d] }

/-- A one-group grid of class 1 under D0. -/
def handlerGrid (s : State) (h : CtxId) (im : Image) (entry : Nat) (id : Nat) : Grid :=
  { id := id, serial := freshSerial s h, ctx := h, image := im.handle, entry := BitVec.ofNat 16 entry, g := 1, w := 1, params := 0,
    depth := 0, parent := none, join := 0, fork := none, cohort := false, cls := 1, det := 0, seed := 0, epoch := s.cycle,
    queue := none, lflags := 0, state := .placed, eligible := none, next := 1, retired := [], token := 0, passing := false, failed := false,
    obs := [], due := 0 }

def handlerGroup (s : State) (k : CoreId) (w : SlotId) (h : CtxId) (id grid : Nat) : Group :=
  { id := id, grid := grid, ctx := h, no := 0, core := k, state := .running, slots := [w], w := 1, depth := 0, f := 0, launchQ := [],
    s255 := 4, cur := 0, joinFor := 0, retireFor := 0, children := 0, ended := [], away := [], fatal := false, placedAt := s.cycle }

/-- A handler wave starts for an entry, which leaves the queue. -/
def startHandler (k : CoreId) (e : TrapEntry) (h : CtxId) (im : Image) (t : Entry) (w : SlotId) (s : State) : State :=
  let x := s.wave k e.slot
  let grid := handlerGrid s h im (bits (s.ctx x.ctx).handler 0 16) s.nextId
  let group := handlerGroup s k w h (s.nextId + 1) grid.id
  let order := (s.core k).placeSeq
  let wave := { newWave group grid .handler (s.nextId + 2) 0 order t.regs t.pc with a := handlerRegs x e.slot e.split, member := false }
  let s := addGrid grid { s with nextId := s.nextId + 3, groups := s.groups ++ [group] }
  let s := loadPinned k im (keepImage im s)
  let s := onCore k (fun c => { dropTraps (fun x => x = e) (seeCtx h c) with placeSeq := order + 1 }) s
  onWave k w (fun _ => wave) s

/-- An entry's handler wave starts, if it may (log entry 102, DEDUCED). -/
def tryHandler (k : CoreId) (e : TrapEntry) (s : State) : Option State :=
  let c := (s.wave k e.slot).ctx
  match handlerCtx s c with
  | none => none
  | some h => match handlerImage s c h, handlerRoom (s.core k) h with
    | some (im, t), some w => if handlerAllowed s k h then some (startHandler k e h im t w s) else none
    | _, _ => none

/-- The entry whose turn it is: the first; while a supervisor handler wave stands trapped, the first of the machine's. -/
def nextEntry (s : State) (k : CoreId) : Option TrapEntry :=
  let c := s.core k
  if liveHandlers c = [] then c.trapQ.head?
  else c.trapQ.find? fun e => handlerCtx s (s.wave k e.slot).ctx = some 0

/-- A fatal entry ends its group. -/
def fatalEntry (k : CoreId) (e : TrapEntry) (s : State) : State :=
  let y := (s.wave k e.slot).splits[e.split]
  let s := onCore k (dropTraps fun x => x = e) s
  fatalTrap k e.slot e.split y.code y.arg y.addr s

/-- The meaning of HANDLER_WAVE_START: fatal traps are settled, then the next entry's handler wave starts. -/
def execHandlerWaveStart (k : CoreId) (s : State) : Host.Outcome State Fault Refusal :=
  .next (
    let s := onCore k (dropTraps fun e => !entryStands s k e) s
    match (s.core k).trapQ.find? (entryFatal s k) with
    | some e => fatalEntry k e s
    | none => match nextEntry s k with
      | some e => (tryHandler k e s).getD s
      | none => s)

/-! ### Pre-emption stops (R429-R431) -/

/-- A split is at a safe point: due at a bundle whose sp bit is set, or held before its issue. A trap there goes first, once the
header's wait lets the bundle be tested for it (R411, R429). -/
def atSafePoint (s : State) (k : CoreId) (w : SlotId) (r : RecId) : Bool :=
  match bundleDue s k w r with
  | some (b, n) =>
    let st := standAt s k w r b n
    b.hdr.sp && (match firstOf (bundlePhase st b.slots 0 :: b.slots.map fun i => phase st i 0) with
      | .go => !headerReady s k (s.wave k w) b || (match bundleVerdict st b.slots with
        | .trap _ _ | .faults _ => false
        | _ => true)
      | _ => false)
  | none => false

/-- The meaning of PREEMPT_SAFE_POINT_STOP. -/
def execPreemptSafePointStop (k : CoreId) (w : SlotId) (r : RecId) (s : State) : Host.Outcome State Fault Refusal :=
  let x := s.wave k w
  .next (if x.preempt.isSome && x.kind ≠ .stint && atSafePoint s k w r
    then trapSplit k w r { code := .preempt, arg := 0 } x.splits[r].mask s else s)

/-- The meaning of PREEMPT_FORCED_STOP: at the deadline every split not yet stopped stops where it stands. -/
def execPreemptForcedStop (k : CoreId) (w : SlotId) (s : State) : Host.Outcome State Fault Refusal :=
  let x := s.wave k w
  .next (match x.preempt with
    | some p =>
      if x.live && p.deadline ≤ s.cycle && x.kind ≠ .stint then
        ((idxs 4).filter fun r => x.splits[r].state = .runnable).foldl (fun s r =>
          trapSplit k w r { code := .preempt, arg := 1 } x.splits[r].mask s) s
      else s
    | none => s)

/-! ### Walks and overlay reads -/

/-- The meaning of TABLE_WALK: the walk ends, in an entry of the core's and of the tile's TLB, or in a fault for the accesses that
asked for it (R298, R440, R442). -/
def execTableWalk (k : CoreId) (ctx : CtxId) (va : DWord) (s : State) : Host.Outcome State Fault Refusal :=
  .next (match (s.core k).walks.find? fun w => w.ctx = ctx && w.va = va && w.failed.isNone && w.due ≤ s.cycle with
    | none => s
    | some w => match walk s ctx va with
      | .ok t =>
        let n := Config.choice s.free
        let m := Config.choice (s.free + 1)
        onCore k (fun c => { c with walks := c.walks.erase w, tlb := fillTlb 256 n t c.tlb })
          (onTile (coreTile k) (fun x => { x with tlb := fillTlb 8192 m t x.tlb }) { s with free := s.free + 2 })
      | .error e => onCore k (fun c => { c with
          walks := (c.walks.map fun x => if x = w then { x with failed := some e } else x).filter fun x => x.failed.isNone || x.askers ≠ [] }) s)

/-- The entries of a page, 48 bytes each, as an overlay read finds them where its miss was translated to (R195, R444). -/
def overlayEntries (s : State) (o : OverlayRead) : List Nat :=
  let l := o.src.flatMap fun x => memBytes s.mem x.1 x.2
  (records l 48 (l.length / 48)).map leNat

/-- The meaning of OVERLAY_FETCH: a page of unpinned entries enters the dictionary RAM (R196). Uncorrectable data do not; the
bundle's next fetch meets them (R480). -/
def execOverlayFetch (k : CoreId) (handle : Word) (page : Nat) (s : State) : Host.Outcome State Fault Refusal :=
  .next (match (s.core k).overlays.find? fun o => o.image = handle && o.page = page && o.due ≤ s.cycle with
    | none => s
    | some o =>
      let s := onCore k (fun c => { c with overlays := c.overlays.erase o }) s
      if o.src.any fun x => s.badIn x.1 x.2 then s else addPage k ⟨handle, page, false, s.cycle, overlayEntries s o, false⟩ s)

end Sys2Proof.Machine
end

