-- ==== Sys2Proof/Machine/Sched.lean ====
section
/-!
DEFINITION. From a command packet to the end of its grid: taking and starting packets (R388-R396), completion (R392, R459),
pending launches (R236, R237), placement (R40, R176, R177, R397-R399, R453), and the retirement of groups and grids (R21,
R238, R398).
-/

namespace Sys2Proof.Machine

open Sys2Proof

/-! ### Packets of a queue -/

def State.packet? (s : State) (q : QueueId) (seq : Word) : Option Packet := (s.queues[q]).taken.find? fun p => p.seq = seq

def onPacket (q : QueueId) (seq : Word) (f : Packet → Packet) : State → State :=
  onQueue q fun x => { x with taken := x.taken.map fun p => if p.seq = seq then f p else p }

/-- A latency drawn from the free values, and the state that has used it. -/
def draw (s : State) : Nat × State := (s.cycle + Config.latency s.free, { s with free := s.free + 1 })

/-- The same, but within a time of the class-0 path when the context is of class 0 (R400). -/
def draw0 (c : CtxId) (ns : Nat) (s : State) : Nat × State :=
  (s.cycle + (if (s.ctx c).class0 then boundedCycles s ns else Config.latency s.free), { s with free := s.free + 1 })

/-- A packet is over: its status, and some time until it completes (log entry 97, DEDUCED). -/
def endPacket (q : QueueId) (seq : Word) (status : Nat) (s : State) : State :=
  let (due, s) := draw s
  onPacket q seq (fun p => if p.state = .done then p else { p with state := .done, status := BitVec.ofNat 16 status, due := due }) s

/-! ### Taking a packet (R388, R390) -/

/-- The slot of a sequence number in a ring. -/
def HostQ.ringSlot (q : HostQ) (seq : Word) : Nat := seq.toNat % 2 ^ q.sizeLog2

/-- (Log entry 95, DEDUCED.) -/
def parsePacket (l : List Byte) : Packet :=
  { seq := BitVec.ofNat 32 (fieldAt l 0 4), op := fieldAt l 4 1, pflags := BitVec.ofNat 8 (fieldAt l 5 1),
    image := BitVec.ofNat 32 (fieldAt l 8 4), entry := BitVec.ofNat 16 (fieldAt l 12 2), waves := fieldAt l 14 1,
    lflags := BitVec.ofNat 8 (fieldAt l 15 1), groups := fieldAt l 16 4, extra := BitVec.ofNat 32 (fieldAt l 20 4),
    params := BitVec.ofNat 64 (fieldAt l 24 8), depAddr := BitVec.ofNat 64 (fieldAt l 32 8), depThr := BitVec.ofNat 32 (fieldAt l 40 4),
    sigInc := BitVec.ofNat 32 (fieldAt l 44 4), sigAddr := BitVec.ofNat 64 (fieldAt l 48 8), tag := BitVec.ofNat 64 (fieldAt l 56 8),
    state := .taken, performed := false, status := 0, grid := 0, due := 0 }

/-- The flags of a launch, in a packet as in a launch record (R236, R388). -/
def launchCls (f : Byte) : Nat := f.toNat / 4 % 4
def launchDet (f : Byte) : Nat := f.toNat / 16 % 4

/-- A LAUNCH packet's fields keep their limits. -/
def launchFieldsOk (p : Packet) : Bool :=
  p.image ≠ 0 && 1 ≤ p.waves && p.waves ≤ 32 && 1 ≤ p.groups && p.groups ≤ 2 ^ 31 && !p.lflags.getLsbD 0 && p.lflags.toNat / 64 = 0
    && launchDet p.lflags ≤ 2 && p.extra = 0

/-- A packet keeps the command packet table: zero fields, limits, alignment (R388, R390). -/
def packetOk (l : List Byte) : Bool :=
  let p := parsePacket l
  p.op ≤ 5 && p.pflags.toNat < 8 && fieldAt l 6 2 = 0
    && (match p.op with
      | 1 => launchFieldsOk p
      | 2 => p.params = 0
      | _ => fieldAt l 8 16 = 0 && p.params = 0)
    && (if p.pflags.getLsbD 1 then p.depAddr.toNat % 4 = 0 else p.depAddr = 0 && p.depThr = 0)
    && (if p.pflags.getLsbD 2 then p.sigAddr.toNat % 4 = 0 else p.sigInc = 0 && p.sigAddr = 0)

/-- A LAUNCH whose class its queue or context refuses (R390). -/
def classRefused (s : State) (q : HostQ) (p : Packet) : Bool :=
  p.op = 1 && (launchCls p.lflags < q.classMin || (launchCls p.lflags = 0) ≠ (s.ctx q.ctx).class0)

/-- The partition of a context's grids; machine-level ones count with partition 0. -/
def gridPartition (s : State) (c : CtxId) : Nat := (s.ctx c).partition.toNat

/-- A grid stands in its dispatcher's list. -/
def Grid.listed (d : Grid) : Bool := d.state = .waiting || d.state = .placing

/-- The grid list of a context's partition is full (R395). -/
def listFull (s : State) (c : CtxId) : Bool :=
  1024 ≤ (s.grids.filter fun d => d.listed && gridPartition s d.ctx = gridPartition s c).length

/-- The dispatcher may take the expected packet of a queue (R390, R391, R395). -/
def mayTake (s : State) (q : HostQ) : Bool :=
  q.enable && !cfgErr s q && !q.seqErr && (q.limit - q.expect).toNat < 2 ^ 31 && !q.waits && !listFull s q.ctx && q.due ≤ s.cycle

/-- The grid of a LAUNCH packet. -/
def packetGrid (s : State) (q : QueueId) (p : Packet) (id : Nat) : Grid :=
  let c := (s.queues[q]).ctx
  { id := id, serial := freshSerial s c, ctx := c, image := p.image, entry := p.entry, g := p.groups, w := p.waves, params := p.params,
    depth := 0, parent := none, join := 0, fork := none, cohort := p.lflags.getLsbD 1, cls := launchCls p.lflags,
    det := launchDet p.lflags, seed := 0, epoch := 0, queue := some (q, p.seq), lflags := p.lflags, state := .waiting, eligible := none,
    next := 0, retired := [], token := 0, passing := false, failed := false, obs := [], due := 0 }

/-- A taken LAUNCH enters its grid in the list. -/
def enterGrid (q : QueueId) (p : Packet) (s : State) : Packet × State :=
  let d := packetGrid s q p s.nextId
  ({ p with grid := d.id }, addGrid d { s with nextId := s.nextId + 1 })

/-- A packet has been read whose sequence number is the expected one. -/
def takeRead (q : QueueId) (l : List Byte) (s : State) : State :=
  let x := s.queues[q]
  let p := parsePacket l
  let (due, s) := draw0 x.ctx 50 s
  let (next, s) := draw0 x.ctx 50 s
  let (p, s) :=
    if !packetOk l then ({ p with state := PacketState.done, status := 2, due := due }, s)
    else if classRefused s x p then ({ p with state := PacketState.done, status := 6, due := due }, s)
    else if p.op = 1 then enterGrid q { p with due := due } s
    else ({ p with due := due }, s)
  onQueue q (fun x => { x with consumed := p.seq, taken := x.taken ++ [p], due := next }) s

/-- The meaning of PACKET_TAKE. A slot that cannot be read stops the queue as a wrong sequence number does. -/
def execPacketTake (q : QueueId) (s : State) : Host.Outcome State Fault Refusal :=
  let x := s.queues[q]
  .next (
    if !mayTake s x then s
    else match ringRead s x.ctx (x.base + BitVec.ofNat 64 (64 * x.ringSlot x.expect)) 64 with
      | .error _ => onQueue q (fun x => { x with seqErr := true }) (areaFault x.ctx 0 s)
      | .ok l =>
        if fieldAt l 0 4 ≠ x.expect.toNat then onQueue q (fun x => { x with seqErr := true }) s
        else takeRead q l s)

/-! ### Starting a packet (R389, R393, R396) -/

/-- What a read of the dependence word says (R396): unusable, not yet, or it holds. -/
inductive DepRead
  | bad
  | below
  | holds
  deriving DecidableEq, Repr

/-- (Log entry 96, DEDUCED.) -/
def readDependence (s : State) (c : CtxId) (p : Packet) : DepRead :=
  match walk s c p.depAddr with
  | .error _ => .bad
  | .ok t =>
    if t.kind ≠ 1 || t.sumcell || !t.permits (s.ctx c).level true false then .bad
    else if p.depThr.toInt ≤ (BitVec.ofNat 32 (memNat s.mem (t.addr p.depAddr) 4)).toInt then .holds else .below

/-- The dispatcher refuses a listed grid of a packet: it leaves the list. -/
def dropGrid (id : Nat) (s : State) : State := { s with grids := s.grids.filter fun d => d.id ≠ id }

/-- The operation of a started packet performs (R389). -/
def performPacket (q : QueueId) (p : Packet) (s : State) : State :=
  let c := (s.queues[q]).ctx
  match p.op with
  | 1 =>
    let (due, s) := draw0 c 50 s
    onGrid p.grid (fun d => if d.eligible.isNone then { d with eligible := some s.cycle, due := due } else d) s
  | 2 | 3 | 4 =>
    let seed := p.image.toNat + p.entry.toNat * 2 ^ 32 + p.waves * 2 ^ 48 + p.lflags.toNat * 2 ^ 56 + p.groups * 2 ^ 64 + p.extra.toNat * 2 ^ 96
    let (ok, s) := seedOperation (p.op - 2) c seed s
    endPacket q p.seq (if ok then 0 else 7) (onPacket q p.seq (fun x => { x with performed := true }) s)
  | _ => endPacket q p.seq 0 (onPacket q p.seq (fun x => { x with performed := true }) s)

/-- The dependence word is read: within 256 L2 cycles after each write to it, so at that interval (R396). -/
def tryDependence (q : QueueId) (p : Packet) (s : State) : State :=
  match readDependence s (s.queues[q]).ctx p with
  | .bad => endPacket q p.seq 3 (dropGrid p.grid s)
  | .holds => performPacket q p s
  | .below => onPacket q p.seq (fun x => { x with due := s.cycle + 1 + boundedCycles s 169 }) { s with free := s.free + 1 }

/-- A taken packet may start (R393). -/
def mayStart (s : State) (q : HostQ) (p : Packet) : Bool := p.state = .taken && p.due ≤ s.cycle && !q.fenced p && !q.seedWait p

/-- The meaning of PACKET_START. -/
def execPacketStart (q : QueueId) (seq : Word) (s : State) : Host.Outcome State Fault Refusal :=
  .next (match s.packet? q seq with
    | some p =>
      if mayStart s (s.queues[q]) p then
        let s := onPacket q seq (fun x => { x with state := .started }) s
        if p.pflags.getLsbD 1 then tryDependence q p s else performPacket q p s
      else s
    | none => s)

/-- A started packet still waits for its dependence. -/
def dependent (s : State) (p : Packet) : Bool :=
  p.state = .started && p.pflags.getLsbD 1 && !p.performed
    && (p.op ≠ 1 || s.grids.any fun d => d.id = p.grid && d.state = .waiting && d.eligible.isNone)

/-- The meaning of DEPENDENCE_READ. -/
def execDependenceRead (q : QueueId) (seq : Word) (s : State) : Host.Outcome State Fault Refusal :=
  .next (match s.packet? q seq with
    | some p => if dependent s p && p.due ≤ s.cycle then tryDependence q p s else s
    | none => s)

/-- The row of an op of its own: what a started packet with that op does. -/
def commandRow (op : Nat) (q : QueueId) (seq : Word) (s : State) : State :=
  match s.packet? q seq with
  | some p => if p.state = .started && p.op = op && !p.performed && !dependent s p then performPacket q p s else s
  | none => s

def execCmdNop (q : QueueId) (seq : Word) (s : State) : Host.Outcome State Fault Refusal := .next (commandRow 0 q seq s)
def execCmdLaunch (q : QueueId) (seq : Word) (s : State) : Host.Outcome State Fault Refusal := .next (commandRow 1 q seq s)
def execSeedPush (q : QueueId) (seq : Word) (s : State) : Host.Outcome State Fault Refusal := .next (commandRow 2 q seq s)
def execSeedPop (q : QueueId) (seq : Word) (s : State) : Host.Outcome State Fault Refusal := .next (commandRow 3 q seq s)
def execSeedFork (q : QueueId) (seq : Word) (s : State) : Host.Outcome State Fault Refusal := .next (commandRow 4 q seq s)
def execYsemAdd (q : QueueId) (seq : Word) (s : State) : Host.Outcome State Fault Refusal := .next (commandRow 5 q seq s)

/-! ### Completion (R392, R459) -/

/-- A Yard atomic ADD of a 32-bit word by the dispatcher, at .k, wrapping; none when it faults (R238, R389). -/
def yardAdd (c : CtxId) (va : DWord) (n : Int) (s : State) : Option State :=
  match walk s c va with
  | .error _ => none
  | .ok t =>
    if t.kind ≠ 1 || t.sumcell || !t.permits (s.ctx c).level true true || va.toNat % 4 ≠ 0 then none
    else
      let a := t.addr va
      let s := drain (fun x => a ≤ x && x < a + 4) s
      some (kBytes (byteWs a (leBytes 4 (BitVec.ofInt 32 ((memNat s.mem a 4 : Int) + n)).toNat)) s)

/-- The sig_en ADD of a packet; a packet refused when it was taken makes none. -/
def signalPacket (q : QueueId) (p : Packet) (s : State) : Half × State :=
  if !p.pflags.getLsbD 2 || p.status = 2 || p.status = 6 then (p.status, s)
  else match yardAdd (s.queues[q]).ctx p.sigAddr p.sigInc.toInt s with
    | some s => (p.status, s)
    | none => (if p.status = 0 then 9 else p.status, s)

/-- The completion record of a packet. -/
def completionBytes (p : Packet) (status : Half) : List Byte :=
  leBytes 4 p.seq.toNat ++ leBytes 2 status.toNat ++ leBytes 2 0 ++ leBytes 8 p.tag.toNat

/-- DONE_SEQ with a set of packets still taken. -/
def newDone (q : HostQ) : Word := match q.taken.head? with
  | some p => p.seq - 1
  | none => q.consumed

/-- A queue's vector goes out as its entry of the MSI-X table says, on the link of the queue's last doorbell where the pair is
split; while the entry masks it, it stays pending (R458, R459; log entry 117, PRESUMED). -/
def raiseVector (q : QueueId) (s : State) : State :=
  let x := s.queues[q]
  let s := onQueue q (fun x => { x with msix := x.msixMask }) s
  if x.msixMask then s else emit (.msix q (if s.hub.x8 then x.link else 0) x.msixAddr x.msixData) s

/-- DONE_SEQ advances, and the queue's vector is raised. -/
def advanceDone (q : QueueId) (s : State) : State :=
  let x := s.queues[q]
  let d := newDone x
  if d = x.doneSeq then s else raiseVector q (onQueue q (fun x => { x with doneSeq := d }) s)

/-- A finished packet completes (log entry 98, DEDUCED). -/
def completePacket (q : QueueId) (p : Packet) (s : State) : State :=
  let x := s.queues[q]
  let (status, s) := signalPacket q p s
  let va := x.cpl + BitVec.ofNat 64 (16 * x.ringSlot p.seq)
  let s := match ringWrite x.ctx va (completionBytes p status) s with
    | .ok s => s
    | .error _ => areaFault x.ctx 0 s
  advanceDone q (onQueue q (fun x => { x with taken := x.taken.filter fun y => y.seq ≠ p.seq }) s)

/-- The meaning of PACKET_COMPLETION. -/
def execPacketCompletion (q : QueueId) (seq : Word) (s : State) : Host.Outcome State Fault Refusal :=
  .next (match s.packet? q seq with
    | some p => if p.state = .done && p.due ≤ s.cycle then completePacket q p s else s
    | none => s)

/-! ### Pending launches (R51, R236, R237) -/

/-- The grid of a removed launch record. -/
def childGrid (s : State) (g : Group) (r : LaunchRec) (id due : Nat) : Grid :=
  let seed := ((s.grid? g.grid).map (·.seed.toNat)).getD 0
  let fork : Option (Nat × Nat) := if r.flags.getLsbD 0 then some (g.no, r.f) else none
  { id := id, serial := freshSerial s g.ctx, ctx := g.ctx, image := r.image, entry := r.entry, g := r.groups, w := r.waves,
    params := r.params, depth := g.depth + 1, parent := some g.id, join := r.join, fork := fork, cohort := r.flags.getLsbD 1,
    cls := launchCls r.flags, det := launchDet r.flags,
    seed := BitVec.ofNat 128 (match fork with
      | some (n, f) => forkedSeed seed (n * 2 ^ 96 + f * 2 ^ 64) 0
      | none => seed),
    epoch := 0, queue := none, lflags := r.flags, state := .waiting, eligible := some s.cycle, next := 0, retired := [], token := 0,
    passing := false, failed := false, obs := [], due := due }

/-- The meaning of PENDING_LAUNCH_REMOVAL: the oldest record enters the grid list, and S255 rises. -/
def execPendingLaunchRemoval (g : Nat) (s : State) : Host.Outcome State Fault Refusal :=
  .next (match s.group? g with
    | none => s
    | some x => match x.launchQ with
      | [] => s
      | r :: rest =>
        if s.cycle < r.due || listFull s x.ctx then s
        else
          let (due, s) := draw s
          let d := childGrid s x r s.nextId due
          let s := addGrid d { s with nextId := s.nextId + 1 }
          onGroup g (fun y => { y with launchQ := rest, s255 := y.s255 + 1, children := y.children + 1 }) s)

/-! ### The end of grids (R21, R238, R398) -/

/-- Images that nothing uses any more leave the model's table: no grid, and no wave, on a core or away (R197). Those of class 0
stay until they are invalidated (R399). -/
def dropImages (s : State) : State :=
  { s with images := s.images.filter fun im => im.class0 || (s.grids.any fun d => d.image = im.handle && d.ctx = im.ctx)
      || (s.groups.any fun g => g.ctx = im.ctx && g.away.any fun a => a.2.1.image = im.handle)
      || (idxs 4096).any fun k => ((s.core k).stints.any fun e => e.image = im.handle && e.ctx = im.ctx)
        || (s.core k).liveWaves.any fun x => x.2.image = im.handle && x.2.ctx = im.ctx }

/-- The join counter of a child grid receives −1, or a kind-5 record says that it did not (R238). -/
def joinDecrement (d : Grid) (s : State) : State :=
  match yardAdd d.ctx d.join (-1) s with
  | some s => s
  | none => (recordFault d.ctx { kind := 5, d0 := d.join.toNat } s).2

/-- A grid ends: its packet, or its parent, learns of it. -/
def endGrid (d : Grid) (status : Nat) (s : State) : State :=
  let s := match d.queue with
    | some (q, seq) => endPacket q seq status s
    | none => s
  let s := match d.parent with
    | some g => onGroup g (fun x => { x with children := x.children - 1 }) (joinDecrement d s)
    | none => s
  dropImages { dropGrid d.id s with flits := s.flits.filter fun f => f.grid ≠ d.id }

/-- Every group of a grid has retired: all of them, or all that were placed of a grid that places no more. -/
def Grid.over (s : State) (d : Grid) : Bool :=
  !(s.groups.any fun g => g.grid = d.id) && (d.next = d.g || d.failed)

/-- What its waves had observed has performed at .k, as the release that its end makes asks (R142, R238, R239, R389). -/
def Grid.released (s : State) (d : Grid) : Bool :=
  d.obs = [] || !(s.cores.toList.any fun c => c.merge.any fun e => d.obs.contains e.id)

/-- The status of a grid that is over: done, ended by a fatal trap, or what its packet has been given (log entry 135). -/
def gridStatus (s : State) (d : Grid) : Nat :=
  if !d.failed then 0
  else match (d.queue.bind fun q => s.packet? q.1 q.2).map (·.status.toNat) with
    | some 0 | none => 1
    | some st => st

/-- A grid that is over ends. -/
def settleGrid (id : Nat) (s : State) : State :=
  match s.grid? id with
  | some d => if d.over s && d.released s then endGrid d (gridStatus s d) s else s
  | none => s

/-- The grids that are over end, each once it may. -/
def settleGrids (s : State) : State := (s.grids.map (·.id)).foldl (fun s id => settleGrid id s) s

/-- A child's kind-6 record (R398, R428). -/
def refusalRecord (d : Grid) (status : Nat) : FaultRec :=
  { kind := 6, code := status, addr := d.join.toNat,
    d0 := d.image.toNat + d.entry.toNat * 2 ^ 32 + d.w * 2 ^ 48 + d.lflags.toNat * 2 ^ 56, d1 := d.g, d2 := d.params.toNat }

/-- A grid is refused at placement. -/
def refuseGrid (d : Grid) (status : Nat) (s : State) : State :=
  let s := if d.parent.isSome then (recordFault d.ctx (refusalRecord d status) s).2 else s
  endGrid d status s

/-! ### The retirement of groups (R21, R49, R113) -/

/-- Every wave of a group has ended. -/
def allEnded (g : Group) : Bool := (List.range g.w).all fun i => g.ended.contains i

/-- An operation of a group is still to add to its semaphore when a wave has stopped, a context is out, or a descriptor governs
(R376, R379, R381). -/
def owesGroup (s : State) (g : Nat) : Bool :=
  let mine (t : SemTo) : Bool := t.group = g
  let preempt (x : Wave) : Bool := (x.preempt.map fun p => p.sems.any mine).getD false
  (s.ctxs.toList.any fun c => c.pendWins.any (fun x => mine x.2.2) || c.pendOvf.any (fun x => mine x.2.2) || c.swout.any fun o => o.sems.any mine)
    || (s.groups.any fun x => x.away.any fun a => preempt a.2.1)
    || s.cores.toList.any fun c => c.liveWaves.any fun x => preempt x.2

/-- Nothing that a group issued is still to complete. -/
def groupQuiet (s : State) (g : Group) : Bool :=
  let c := s.core g.core
  let uids := (groupSlots s g).map fun w => (s.wave g.core w).uid
  !(c.ops.any fun o => o.group = g.id && !(o.kind = .qload && o.left = 0)) && !(c.merge.any fun e => uids.contains e.wave)
    && !(c.mx.any fun m => uids.contains m.wave) && !(c.armed.any fun a => a.group = g.id && s.cycle ≤ a.cycle)
    && !(s.copies.any fun d => d.group = g.id) && !(s.privOps.any fun p => p.group = g.id)
    && !((groupSlots s g).any fun w => (s.wave g.core w).lins ≠ []) && !owesGroup s g.id

/-- A group may retire (log entry 99, DEDUCED). -/
def mayRetire (s : State) (g : Group) : Bool := allEnded g && g.launchQ = [] && g.children = 0 && groupQuiet s g

/-- A group gives up what it holds on its core. -/
def releaseCore (g : Group) (s : State) : State :=
  let s := (groupSlots s g).foldl (fun s w => freeWave g.core w s) (keepObs g s)
  onCore g.core (fun c => { c with
    claims := c.claims.filter fun x => x.group ≠ g.id
    frames := c.frames.filter fun f => f.1 ≠ g.id
    l1Fills := c.l1Fills.filter fun f => f.group ≠ g.id
    ops := c.ops.filter fun o => o.group ≠ g.id }) s

/-- A group retires; the token moves on when it holds it. -/
def retireGroup (g : Group) (s : State) : State :=
  let s := releaseCore g s
  let s := { s with groups := s.groups.filter fun x => x.id ≠ g.id }
  let s := onGrid g.grid (fun d => { d with retired := g.no :: d.retired }) s
  let s := match s.grid? g.grid with
    | some d => if d.det ≠ 0 then passToken g.grid g.no s else s
    | none => s
  settleGrid g.grid s

/-- The meaning of GROUP_RETIRE. -/
def execGroupRetire (g : Nat) (s : State) : Host.Outcome State Fault Refusal :=
  .next (match s.group? g with
    | some x => if mayRetire s x then retireGroup x s else s
    | none => s)

/-! ### Placement (R397, R399) -/

/-- The image of a grid: what its handle names now, as each placement reads it (R364); during IMG.INV the old handle still
finds it. -/
def gridImage (s : State) (d : Grid) (h : Word) : Option Image :=
  match imageFor s d.ctx h with
  | some im => some im
  | none => (s.privOps.findSome? fun p => match p.kind with
    | .imgInv old new => if old = h && p.ctx = d.ctx then some new else none
    | _ => none).bind fun new =>
      match s.image? d.ctx h with
      | some im => if imageVa s d.ctx new = some im.va then some im else (imageFor s d.ctx new).map fun im => { im with handle := h }
      | none => (imageFor s d.ctx new).map fun im => { im with handle := h }

/-- A fault met in a context's image table enters a fault in its supervisor's record (R363). -/
def tableFault (c : CtxId) (s : State) : State := if (areaRead s c 0x1400 4096).isNone then areaFault c 0x1400 s else s

/-- The handle of a grid's image: 0 in a launch record names the launching group's own image (R236). -/
def gridHandle (s : State) (d : Grid) : Word :=
  if d.image ≠ 0 then d.image
  else (((d.parent.bind s.group?).bind fun g => s.grid? g.grid).map (·.image)).getD 0

/-- Registers of a group's waves: compute waves first, then their shadows (R26, R34). -/
def groupRegs (im : Image) (e : Entry) (w : Nat) : List Nat :=
  List.replicate w e.regs ++ (match e.shadow.bind fun i => im.shadows[i]? with
    | some x => List.replicate w x.2
    | none => [])

/-- A group that JOIN has swapped out goes ahead of a placement of its class or a higher one (R402). -/
def returnsFirst (s : State) (k : CoreId) (cls : Nat) : Bool :=
  s.groups.any fun g => g.core = k && (((s.grid? g.grid).map (·.cls)).getD 3) ≤ cls && wantsReturn s g

/-- The dispatcher may use a core for a context's groups: its die, its tile, its role, and nothing that keeps it out
(R12, R358, R381, R481, R483). -/
def coreUsable (s : State) (c : CtxId) (k : CoreId) : Bool :=
  (isSteward s k = decide ((s.ctx c).level ≠ 0)) && coreReach s c k && !(s.ctx c).outDies.contains (coreDie k)
    && !(s.ctx c).outCores.contains k && (s.tiles[coreTile k]).state = .running && !(s.tiles[coreTile k]).fence
    && !(s.core k).retired && !(s.core k).halted

/-- A packet's grid carries a fence or a dependence (R399). -/
def hasWait (s : State) (d : Grid) : Bool :=
  match d.queue with
  | some (q, seq) => (match s.packet? q seq with | some p => p.pflags.toNat % 4 ≠ 0 | none => false)
  | none => false

/-- A grid's groups, of these waves, are within the class-0 reservation (R183, R399). -/
def withinReserve (s : State) (d : Grid) (im : Image) (e : Entry) : Bool :=
  d.cls = 0 && imageWithin im e.regs && !hasWait s d && (groupRegs im e d.w).length = 1

/-- The contexts a group takes on a core, when everything fits there (R26, R195, R399, R417). -/
def fits (s : State) (d : Grid) (im : Image) (e : Entry) (k : CoreId) : Option (List SlotId) :=
  let regs := groupRegs im e d.w
  let within := withinReserve s d im e
  if coreUsable s d.ctx k && claimsFit (s.core k) d.ctx im.claims && pagesFit s k im within && !returnsFirst s k d.cls
  then (s.core k).room0 within regs else none

/-- The core for a group of a grid: the one a circuit plan names, else the lowest-numbered that fits. -/
def chooseCore (s : State) (d : Grid) (im : Image) (e : Entry) (no : Nat) : Option (CoreId × List SlotId) :=
  match im.plan with
  | some p => (p.1[no]?).bind fun k => (fits s d im e k).map fun ws => (k, ws)
  | none => (idxs 4096).findSome? fun k => (fits s d im e k).map fun ws => (k, ws)

/-- One wave of a group is put into its context. -/
def startWave (g : Group) (d : Grid) (im : Image) (e : Entry) (order uid : Nat) (s : State) (x : Nat × SlotId) : State :=
  let (i, slot) := x
  let main : Bool := i < d.w
  let sh := (e.shadow.bind fun n => im.shadows[n]?).getD (0, 0)
  let w := newWave g d (if main then .compute else .shadow) (uid + i) (i % d.w) order (if main then e.regs else sh.2) (if main then e.pc else sh.1)
  let partner := if g.slots.length = d.w then none else g.slots[if main then i + d.w else i - d.w]?
  onWave g.core slot (fun _ => { w with partner := partner }) s

/-- A group is placed on a core: claims, pages, its record, and all its waves in one cycle (R20, R34, R113, R195). -/
def placeGroup (d : Grid) (im : Image) (e : Entry) (no : Nat) (k : CoreId) (ws : List SlotId) (s : State) : State :=
  let order := (s.core k).placeSeq
  let g : Group :=
    { id := s.nextId, grid := d.id, ctx := d.ctx, no := no, core := k, state := .running, slots := ws, w := d.w, depth := d.depth, f := 0,
      launchQ := [], s255 := 4, cur := 0, joinFor := 0, retireFor := 0, children := 0, ended := [], away := [], fatal := false,
      placedAt := s.cycle }
  let mine := im.claims.map fun c => { c with ctx := d.ctx, group := g.id }
  let s := { s with nextId := s.nextId + 1 + ws.length, groups := s.groups ++ [g] }
  let s := loadPinned k im s
  let s := onCore k (fun c =>
    let c := claimStore d.ctx mine (seeCtx d.ctx c)
    { c with claims := c.claims ++ mine, placeSeq := order + 1 }) s
  let s := (ws.mapIdx fun i w => (i, w)).foldl (startWave g d im e order (g.id + 1)) s
  onCtx d.ctx (fun c => { c with started := c.started || c.domain.isSome }) s

/-! ### Refusals at placement (R40, R177, R191, R192, R397) -/

/-- The window requirements of an image meet the context's table. -/
def windowsMeet (s : State) (c : CtxId) (im : Image) : Bool :=
  im.windows.all fun r => match ((s.ctx c).windows.toList[r.1]?).join with
    | some w => w.elem = r.2.1 && w.rule = r.2.2.1 && w.signed = r.2.2.2
    | none => false

/-- The package with idle cores. -/
def idleCores (s : State) : State := { s with groups := [], images := [] }

/-- Groups of one kind that an idle core takes: contexts, registers, frames, pages, and one group where there are claims. -/
def idleFits (s : State) (d : Grid) (im : Image) (e : Entry) : Nat :=
  let regs := groupRegs im e d.w
  if regs = [] || regs.sum = 0 then 0
  else if !pagesFit (idleCores s) 0 im (withinReserve s d im e) then 0
  else
    let n := min (46 / regs.length) (min (1760 / regs.sum) (64 / regs.length))
    let n := if withinReserve s d im e then n + 1 else n
    if im.claims.any (fun c => im.claims.any fun x => c.meets x) then min n 1 else n

/-- Cores that a context's grids could ever use. -/
def reachCores (s : State) (c : CtxId) : List CoreId :=
  (idxs 4096).filter fun k => (isSteward s k = decide ((s.ctx c).level ≠ 0)) && coreReach s c k && !(s.core k).retired

/-- A cohort grid or a circuit plan that can never be placed; a plan that names a steward core never is (R12, R40, R177, R191;
log entry 100, DEDUCED). -/
def cohortRefused (s : State) (d : Grid) (im : Image) (e : Entry) : Bool :=
  let n := idleFits s d im e
  let cores := reachCores s d.ctx
  match im.plan with
  | some p => !d.cohort || p.1.length ≠ d.g || !p.1.all cores.contains || p.1.any (isSteward s) || p.1.any fun k => n < (p.1.filter (· = k)).length
  | none => d.cohort && n * cores.length < d.g

/-- The status that refuses a grid at its first placement. -/
def refusalOf (s : State) (d : Grid) (im : Image) : Option Nat :=
  match im.entries[d.entry.toNat]? with
  | none => some 3
  | some e => if !windowsMeet s d.ctx im then some 5 else if cohortRefused s d im e then some 4 else none

/-! ### Route entries (R176, R177) -/

/-- Slot-table entries that a plan's routes use: tile and slot. -/
def planSlots (im : Image) : List (Nat × Nat) :=
  match im.plan with
  | some p => p.2.2.map fun r => (r.die * 32 + r.tile, r.slot)
  | none => []

/-- Another resident grid uses one of the entries, or the tile of one does not run or is fenced (R177, R483). -/
def routesTaken (s : State) (d : Grid) (im : Image) : Bool :=
  let l := planSlots im
  (s.grids.any fun x => x.id ≠ d.id && (x.state = .placing || x.state = .placed) && match s.image? x.ctx x.image with
    | some y => (planSlots y).any l.contains
    | none => false)
    || l.any fun r => let t := s.tiles[(Fin.ofNat 256 r.1 : TileId)]; t.fence || t.state ≠ .running

/-- The slot tables are written before the grid's first group issues. -/
def writeRoutes (im : Image) (s : State) : State :=
  match im.plan with
  | some p => p.2.2.foldl (fun s r => onTile (Fin.ofNat 256 (r.die * 32 + r.tile)) (fun t => { t with slots := t.slots.set (Fin.ofNat 256 r.slot) r.word }) s) s
  | none => s

/-! ### The first placement: seed, epoch, run record (R24, R51, R452, R453) -/

/-- The run record of a host grid. -/
def runRecord (d : Grid) (im : Image) (seed : Nat) : List Byte :=
  leBytes 4 1 ++ im.key ++ leBytes 2 d.entry.toNat ++ leBytes 1 d.w ++ leBytes 1 d.lflags.toNat ++ leBytes 2 1 ++ leBytes 2 0
    ++ leBytes 4 d.g ++ leBytes 4 0 ++ leBytes 8 d.params.toNat ++ leBytes 16 seed

/-- The run digest: SM3, its bytes in the hash's own order. -/
def runDigest (d : Grid) (im : Image) (seed : Nat) : List Byte := beBytes 32 (Config.sm3 (runRecord d im seed)).toNat

/-- The address of a queue's run-ring slot. -/
def runSlot (q : HostQ) (seq : Word) : DWord := q.cpl + BitVec.ofNat 64 (16 * 2 ^ q.sizeLog2 + 64 * q.ringSlot seq)

/-- The run-ring entry of a host grid is written. -/
def writeRun (d : Grid) (im : Image) (seed : Nat) (s : State) : State :=
  match d.queue with
  | none => s
  | some (q, seq) =>
    let x := s.queues[q]
    match ringWrite x.ctx (runSlot x seq) (leBytes 4 seq.toNat ++ leBytes 4 0 ++ runDigest d im seed ++ leBytes 16 seed ++ leBytes 8 0) s with
    | .ok s => s
    | .error _ => areaFault x.ctx 0 s

/-- The seed of a grid at its first placement; none when the seed stack cannot be read (log entry 94, DEDUCED). -/
def placeSeed (s : State) (d : Grid) : Option Nat :=
  if d.queue.isSome then (readSeed s d.ctx ((s.ctx d.ctx).seedDepth - 1)).map (·.1) else some d.seed.toNat

/-- A seed operation of the context is in progress: it performs before a later placement reads the stack (R371). -/
def seedBusy (s : State) (c : CtxId) : Bool :=
  s.privOps.any fun p => match p.kind with
    | .seedOp _ x _ _ => x = c && p.due ≤ s.cycle
    | _ => false

/-- The pinned pages of an image in the reserved pages are loaded on every core of its partition (R399). -/
def loadReserve (im : Image) (s : State) : State :=
  if inReserve s im then ((idxs 4096).filter fun k => coreReach s im.ctx k && !(s.core k).retired).foldl (fun s k => loadPinned k im s) s else s

/-- What the first placement settles. -/
def beginGrid (d : Grid) (im : Image) (seed : Nat) (s : State) : State :=
  let s := writeRun d im seed (writeRoutes im (loadReserve im (keepImage im s)))
  let s := match d.queue with
    | some (q, seq) => onPacket q seq (fun p => { p with performed := true }) s
    | none => s
  onGrid d.id (fun x => { x with state := .placing, image := im.handle, seed := BitVec.ofNat 128 seed, epoch := s.cycle }) s

/-- A group has been placed: the grid goes on, or leaves the list with its last one (log entry 93, DESIGN CHOICE). -/
def placedOne (id no : Nat) (s : State) : State :=
  let (due, s) := draw s
  onGrid id (fun x => { x with next := no + 1, state := if no + 1 = x.g then .placed else x.state, due := due }) s

/-- Places the groups of a cohort in order, each against what the earlier ones leave; none when one does not fit. -/
def placeCohort (d : Grid) (im : Image) (e : Entry) (no : Nat) (s : State) : Nat → Option State
  | 0 => some s
  | n + 1 =>
    match chooseCore s d im e no with
    | none => none
    | some (k, ws) => placeCohort d im e (no + 1) (placedOne d.id no (placeGroup d im e no k ws s)) n

/-- The next group of a grid is placed, or all of a cohort's. -/
def placeNext (id : Nat) (im : Image) (e : Entry) (s : State) : Option State :=
  match s.grid? id with
  | none => none
  | some d =>
    if d.cohort || im.plan.isSome then
      if routesTaken s d im then none else placeCohort d im e d.next s (d.g - d.next)
    else match chooseCore s d im e d.next with
      | none => none
      | some (k, ws) => some (placedOne id d.next (placeGroup d im e d.next k ws s))

/-- The first placement of a grid: checks, then its seed, then its groups; nothing remains of it when no group fits. -/
def firstPlacement (d : Grid) (s : State) : State :=
  match gridImage s d (gridHandle s d) with
  | none => refuseGrid d 3 (tableFault d.ctx s)
  | some im => match refusalOf s d im with
    | some st => refuseGrid d st s
    | none => match im.entries[d.entry.toNat]?, placeSeed s d with
      | some e, some seed => (placeNext d.id im e (beginGrid d im seed s)).getD s
      | _, _ => refuseGrid d 3 (areaFault d.ctx (seedOff ((s.ctx d.ctx).seedDepth - 1)) s)

/-- A grid that has begun finds its handle in the table no more: it places no further group, and ends with ACCESS when those it
has placed have retired (R364; log entry 135, DEDUCED). -/
def failPlacing (d : Grid) (s : State) : State :=
  let s := tableFault d.ctx s
  let s := if d.parent.isSome then (recordFault d.ctx (refusalRecord d 3) s).2 else s
  let s := match d.queue with
    | some (q, seq) => onPacket q seq (fun p => { p with status := 3 }) s
    | none => s
  settleGrid d.id (onGrid d.id (fun x => { x with failed := true }) s)

/-- A later placement reads the image table again. -/
def laterPlacement (d : Grid) (s : State) : State :=
  match gridImage s d d.image with
  | none => failPlacing d s
  | some im => match im.entries[d.entry.toNat]? with
    | some e => (placeNext d.id im e (keepImage im s)).getD s
    | none => s

/-- The order in which a dispatcher serves its grids within a class (R397). -/
def servedBefore (d e : Grid) : Bool :=
  let a := d.eligible.getD 0
  let b := e.eligible.getD 0
  let q (x : Grid) : Nat := match x.queue with
    | some (q, _) => q.val
    | none => 64
  a < b || (a = b && (q d < q e || (q d = q e && d.id < e.id)))

/-- A grid that its dispatcher may serve. -/
def Grid.served (d : Grid) : Bool := d.listed && d.eligible.isSome && !d.failed

/-- It is the first of its class in its partition (log entry 92, DEDUCED). -/
def headOfClass (s : State) (d : Grid) : Bool :=
  !(s.grids.any fun e => e.served && e.id ≠ d.id && e.cls = d.cls && gridPartition s e.ctx = gridPartition s d.ctx && servedBefore e d)

/-- The first grid of a lower class number goes first, also while it is not yet at the end of its stages (R397, R399). -/
def heldByClass (s : State) (d : Grid) : Bool :=
  s.grids.any fun e => e.served && headOfClass s e && e.cls < d.cls && gridPartition s e.ctx = gridPartition s d.ctx && s.cycle < e.due

/-- The meaning of GROUP_PLACEMENT: the next group of a grid, and again in this cycle if its next one is due. -/
def execGroupPlacement (grid : Nat) (s : State) : Host.Outcome State Fault Refusal :=
  .next (match s.grid? grid with
    | none => s
    | some d =>
      if !d.served || s.cycle < d.due || !headOfClass s d || heldByClass s d || (s.ctx d.ctx).area = 0 || (d.state = .waiting && seedBusy s d.ctx) then s
      else
        let s' := if d.state = .waiting then firstPlacement d s else laterPlacement d s
        match s'.grid? grid with
        | some e => if e.next ≠ d.next && e.served && e.due ≤ s.cycle
            then { s' with agenda := .event (.groupPlacement grid) :: s'.agenda } else s'
        | none => s')

end Sys2Proof.Machine
end

