-- ==== Sys2Proof/Machine/Attach.lean ====
section
/-!
DEFINITION. What arrives from outside the package: pod packets and their acknowledgements (R460-R463), PTP (R469), the
host's memory and register accesses (R457, R458), the management port (R470, R454), and the package's own reliability
and power events (R17, R479-R482, R491).
-/

namespace Sys2Proof.Machine

open Sys2Proof

/-! ### Pod packets (R463) -/

/-- The context in which a packet's bytes are written: bound to a domain that lists the source (R341; log entry 103, DEDUCED). -/
def packetCtx (s : State) (src : BitVec 10) : Option CtxId :=
  (idxs 64).find? fun c => match (s.ctx c).domain with
    | some d => (match s.row? d.id with
      | some r => r.ids.any fun m => m.setWidth 10 = src
      | none => false)
    | none => false

/-- Writes bytes at a virtual address of a context, byte by byte, to HBM and YARD pages only, up to the first that faults; an
exact-sum cell takes all of its bytes at once. Answers the outcome: 0, or a cause of R343 (log entry 63, DEDUCED). -/
def writePeer (c : CtxId) : Nat → Nat → List Byte → State → Nat × State
  | 0, _, _, s => (0, s)
  | fuel + 1, dst, data, s =>
    if data = [] then (0, s)
    else
      let va : DWord := BitVec.ofNat 64 dst
      match walk s c va with
      | .error (.eccUncorr, _) => (5, s)
      | .error _ => (2, s)
      | .ok t =>
        if t.kind = 2 || !t.permits (s.ctx c).level false true then (3, s)
        else if t.sumcell then
          let n := 4 - dst % 4
          let pa := t.pa + 40 * ((dst - t.page) / 4)
          let old := cellRead (memNat s.mem pa 40)
          let v := leNat ((List.range 4).map fun j =>
            if dst % 4 ≤ j && j < dst % 4 + data.length then data.getD (j - dst % 4) 0 else BitVec.ofNat 8 (old / 256 ^ j))
          writePeer c fuel (dst + n) (data.drop n)
            (storeBytes ((byteWs pa (leBytes 40 (cellAdd 0 v))).map fun w => if w.addr = pa + 39 then { w with keep := 0xC0 } else w) s)
        else writePeer c fuel (dst + 1) (data.drop 1) (storeBytes (byteWs (t.addr va) (data.take 1)) s)

/-- Writes a packet's bytes in the context its source belongs to. -/
def writePacket (src : BitVec 10) (dst : Nat) (data : List Byte) (s : State) : Nat × State :=
  match packetCtx s src with
  | none => (3, s)
  | some c => writePeer c data.length dst data s

/-- A packet is written and acknowledged with the outcome. -/
def deliverPacket (p : HeldPacket) (s : State) : State :=
  let (cause, s) := writePacket p.src p.dst p.data s
  podAck p.src p.ctx p.flow p.seq cause s

/-- The next sequence number that an ordered flow writes. -/
def flowNext (s : State) (src : BitVec 10) (c : CtxId) (flow : Byte) : Word :=
  ((s.hub.nextSeq.find? fun x => x.1 = src && x.2.1 = c && x.2.2.1 = flow).map (·.2.2.2)).getD 0

def setFlowNext (src : BitVec 10) (c : CtxId) (flow : Byte) (n : Word) : State → State :=
  onHub fun h => { h with nextSeq := (src, c, flow, n) :: h.nextSeq.filter fun x => !(x.1 = src && x.2.1 = c && x.2.2.1 = flow) }

/-- Held packets of an ordered flow whose turn has come are written in sequence. -/
def releaseHeld (src : BitVec 10) (c : CtxId) (flow : Byte) : Nat → State → State
  | 0, s => s
  | n + 1, s =>
    let next := flowNext s src c flow
    match s.hub.held.find? fun p => p.src = src && p.ctx = c && p.flow = flow && p.seq = next with
    | none => s
    | some p =>
      let s := onHub (fun h => { h with held := h.held.erase p }) s
      releaseHeld src c flow n (setFlowNext src c flow (next + 1) (deliverPacket p s))

/-- A data packet arrives: one already accepted is only acknowledged again (log entry 64, DESIGN CHOICE). -/
def acceptPacket (p : HeldPacket) (ordered : Bool) (s : State) : State :=
  let key := (p.src, p.ctx, p.flow, p.seq)
  if s.hub.accepted.contains key then
    (if s.hub.held.contains p then s else podAck p.src p.ctx p.flow p.seq 0 s)
  else
    let s := onHub (fun h => { h with accepted := key :: h.accepted }) s
    if ordered then
      let s := onHub (fun h => { h with held := h.held ++ [p] }) s
      releaseHeld p.src p.ctx p.flow s.hub.held.length s
    else deliverPacket p s

/-- An outstanding packet is the one that an acknowledgement names. A message's carries 1 where a data packet's carries 0 or a
cause of R343, and no context or flow (R463; log entry 132, DESIGN CHOICE). -/
def SentPacket.ackedBy (x : SentPacket) (src : BitVec 10) (c : CtxId) (flow : Byte) (seq : Word) (cause : Nat) : Bool :=
  x.dst = src && x.seq = seq && (if cause = 1 then x.copy.isNone else x.copy.isSome && x.ctx = c && x.flow = flow)

/-- A request fails, and a packet of it is outstanding no more. -/
def failSent (id i cause : Nat) (s : State) : State :=
  failReq id i cause (onCopy id (fun l => { l with reqs := l.reqs.mapIdx fun j r => if j = i then { r with acks := r.acks.tail } else r }) s)

/-- An acknowledgement arrives: the packet is no longer outstanding, and what sent it learns of the outcome (R342, R466). -/
def ackPacket (src : BitVec 10) (c : CtxId) (flow : Byte) (seq : Word) (cause : Nat) (s : State) : State :=
  match s.hub.sent.find? fun x => x.ackedBy src c flow seq cause with
  | none => s
  | some x =>
    let s := onHub (fun h => { h with sent := h.sent.erase x }) s
    match x.copy, x.domain with
    | some (id, i), _ => dropCopies (if cause = 0 then ackReq id i s else failSent id i cause s)
    | none, some d => payApplied d s
    | none, none => s

/-- The meaning of UALINK_PACKET_ARRIVAL. A packet without payload is an acknowledgement, `dst` its outcome; one whose payload is
longer than 256 bytes is no packet of the pod (R460; log entry 62, DESIGN CHOICE). -/
def execUalinkPacketArrival (src : BitVec 10) (ctx : CtxId) (flow : Byte) (ordered : Bool) (seq : Word) (dst : Nat) (data : List Byte)
    (s : State) : Host.Outcome State Fault Refusal :=
  .next (
    if 256 < data.length then s
    else if data = [] then ackPacket src ctx flow seq dst (heard src s)
    else acceptPacket ⟨src, ctx, flow, seq, dst, data⟩ ordered (heard src s))

/-! ### Retries (R462) -/

/-- A packet goes out again. -/
def resend (x : SentPacket) (station : Nat) (route : DWord) (s : State) : State :=
  if x.copy.isSome then emit (.packet station (packetHdr s route x.dst x.ctx x.flow pktData x.seq) x.addr x.data) s
  else emit (.mbohus station (packetHdr s route x.dst x.ctx x.flow x.msg.1 x.seq) x.msg.2) s

/-- The flow of a packet fails. -/
def flowFails (x : SentPacket) (s : State) : State :=
  let s := onHub (fun h => { h with sent := h.sent.erase x }) s
  match x.copy with
  | some (id, i) => dropCopies (failSent id i 4 s)
  | none => markLost x.dst x.domain s

/-- A packet has not been acknowledged in time: the next path, or after four attempts the flow fails. -/
def retryPacket (x : SentPacket) (s : State) : State :=
  match if x.attempt < 3 then pathFor s x.dst x.flow (x.attempt + 1) else none with
  | none => flowFails x s
  | some (station, route) =>
    resend x station route (onHub (fun h => { h with sent := h.sent.map fun y =>
      if y = x then { y with attempt := y.attempt + 1, due := s.cycle + retryTime s } else y }) s)

/-- The meaning of PACKET_RETRY_TIMEOUT. -/
def execPacketRetryTimeout (dst : BitVec 10) (ctx : CtxId) (flow : Byte) (seq : Word) (s : State) : Host.Outcome State Fault Refusal :=
  .next (match s.hub.sent.find? fun x => x.dst = dst && x.ctx = ctx && x.flow = flow && x.seq = seq && x.due ≤ s.cycle with
    | some x => retryPacket x s
    | none => s)

/-- Every packet whose time has run out in this cycle. -/
def retryDuties (s : State) : State :=
  (s.hub.sent.filter fun x => x.due ≤ s.cycle).foldl (fun s x => retryPacket x s) s

/-! ### PTP (R469) -/

/-- The hub clock runs for one core cycle; while it slews back it loses 1 ns in each 10,000 (100 ppm). -/
def tickPtp (khz : Nat) (h : Hub) : Hub :=
  let f := h.ptpFrac + 1000000
  let ns := f / khz
  let gap := h.slewGap + ns
  let lose := if h.slew = 0 then 0 else min h.slew (gap / 10000)
  { h with ptpFrac := f % khz, ptp := h.ptp + ns - min ns lose, slew := h.slew - min ns lose,
           slewGap := if h.slew = 0 then 0 else gap - 10000 * lose }

/-! ### The host's accesses (R456-R459) -/

/-- A device of the module answers on a link (R456, R491). -/
def linkServes (s : State) (link : Fin 2) : Bool := linkUp s link && !s.hub.halted

/-- The numbers by which the model tells apart what goes back to the host: a register read by its link and offset, CXL.mem data
and completions by their link (log entry 128, DESIGN CHOICE). -/
def regAnswer (link : Fin 2) (offset : Nat) : Nat := link.val * 0x10000 + offset
def cxlData (link : Fin 2) : Nat := 0x20000 + link.val
def cxlDone (link : Fin 2) : Nat := 0x20002 + link.val

/-- The meaning of CXL_MEM_READ: bytes of HBM at .k; uncorrectable ones are not delivered (R479). -/
def execCxlMemRead (a : LinkAddr) (n : Nat) (s : State) : Host.Outcome State Fault Refusal :=
  .next (if hbmTop < a.addr + n || !linkServes s a.link then s
    else emit (.bytes (cxlData a.link) (if s.badIn a.addr n then [] else memBytes s.mem a.addr n)) s)

/-- The meaning of CXL_MEM_WRITE: the write performs at .k, and its completion goes back after it (R457). -/
def execCxlMemWrite (a : LinkAddr) (data : List Byte) (s : State) : Host.Outcome State Fault Refusal :=
  .next (if hbmTop < a.addr + data.length || !linkServes s a.link then s
    else emit (.bytes (cxlDone a.link) []) (storeBytes (byteWs a.addr data) s))

/-- A register of the window, or a word of the MSI-X table or its pending-bit array, which is laid out as PCI Express has it (R458,
R459; log entry 117, PRESUMED). None where the window holds nothing. -/
def windowWord (s : State) (off : Nat) : Option Word :=
  if off % 4 ≠ 0 then none
  else if off < 0x400 then some (lo32 (readQueue s s.queues[Fin.ofNat 64 (off / 16)] (3 + off / 4 % 4)))
  else if 0x8000 ≤ off && off < 0x8400 then
    let x := s.queues[Fin.ofNat 64 ((off - 0x8000) / 16)]
    some (match off / 4 % 4 with
      | 0 => lo32 x.msixAddr
      | 1 => hi32 x.msixAddr
      | 2 => x.msixData
      | _ => BitVec.ofNat 32 x.msixMask.toNat)
  else if off = 0x9000 || off = 0x9004 then
    some (BitVec.ofNat 32 (((idxs 32).map fun i =>
      if (s.queues[Fin.ofNat 64 (8 * (off - 0x9000) + i.val)]).msix then 2 ^ i.val else 0).sum))
  else none

/-- A write of a word of the MSI-X table: a vector that was pending goes out when its mask is cleared (R459). -/
def writeMsix (q : QueueId) (word : Nat) (v : Word) (s : State) : State :=
  match word with
  | 0 => onQueue q (fun x => { x with msixAddr := hi32 x.msixAddr ++ v }) s
  | 1 => onQueue q (fun x => { x with msixAddr := v ++ lo32 x.msixAddr }) s
  | 2 => onQueue q (fun x => { x with msixData := v }) s
  | _ =>
    let s := onQueue q (fun x => { x with msixMask := v.getLsbD 0 }) s
    if s.queues[q].msix then raiseVector q s else s

/-- A write of a word of the window; read-only ones ignore it. -/
def writeWindow (link : Fin 2) (off : Nat) (v : Word) (s : State) : State :=
  if off % 4 ≠ 0 then s
  else if off < 0x400 then (if off % 16 = 0 then hostRing (Fin.ofNat 64 (off / 16)) v link s else s)
  else if 0x8000 ≤ off && off < 0x8400 then writeMsix (Fin.ofNat 64 ((off - 0x8000) / 16)) (off / 4 % 4) v s
  else s

/-- The meaning of BAR0_INVALID_ACCESS, the host's access of the register window: four bytes, aligned, reach what stands there; any
other access reads all ones and writes nothing. -/
def execBar0InvalidAccess (a : WindowAccess) (data : Option (List Byte)) (s : State) : Host.Outcome State Fault Refusal :=
  .next (if !linkServes s a.link then s
    else match data with
      | none => emit (.bytes (regAnswer a.link a.offset) (match if a.size = 4 then windowWord s a.offset else none with
          | some v => leBytes 4 v.toNat
          | none => List.replicate a.size 0xFF)) s
      | some l => if a.size = 4 && l.length = 4 then writeWindow a.link a.offset (BitVec.ofNat 32 (leNat l)) s else s)

/-! ### The management port (R470) -/

/-- A response: the command, its status, and what follows. -/
def respond (command status : Nat) (data : List Nat) : State → State := emit (.nums command (status :: data))

/-- A command of a module whose boot has failed gets status 2 (R491). -/
def managed (command : Nat) (f : State → State) (s : State) : State := if s.hub.halted then respond command 2 [] s else f s

/-- MCTP control messages answer under their own command codes, here above the commands of R470 (log entry 109, DESIGN CHOICE). -/
def mctp (code : Nat) : Nat := 256 + code

def execSetEndpointId (eid : Option Byte) (s : State) : Host.Outcome State Fault Refusal :=
  .next (managed (mctp 1) (fun s => match eid with
    | some e => respond (mctp 1) 0 [e.toNat] (onHub (fun h => { h with endpoint := e }) s)
    | none => respond (mctp 1) 1 [] s) s)

/-- The request of a command without fields has its length, 0 (R470). -/
def bareRequest (s : State) : Bool := s.hub.request = 0

def execGetEndpointId (s : State) : Host.Outcome State Fault Refusal :=
  .next (managed (mctp 2) (fun s => if bareRequest s then respond (mctp 2) 0 [s.hub.endpoint.toNat] s else respond (mctp 2) 1 [] s) s)

/-- Versions of the two message types that the endpoint supports: MCTP control and the vendor-defined one. -/
def execGetMctpVersionSupport (mtype : Option Byte) (s : State) : Host.Outcome State Fault Refusal :=
  .next (managed (mctp 4) (fun s => match mtype with
    | some t => respond (mctp 4) 0 [t.toNat, (t = 0x00 || t = 0x7F : Bool).toNat] s
    | none => respond (mctp 4) 1 [] s) s)

def execGetMessageTypeSupport (s : State) : Host.Outcome State Fault Refusal :=
  .next (managed (mctp 5) (fun s => if bareRequest s then respond (mctp 5) 0 [0x7F] s else respond (mctp 5) 1 [] s) s)

/-- GET_ID always answers; until boot step 4 has completed the key reads as 65 zero bytes. -/
def execGetId (s : State) : Host.Outcome State Fault Refusal :=
  .next (if bareRequest s then respond 1 0 ([s.hub.module.toNat, s.hub.bootStep]
      ++ if s.hub.bootStep < 4 then List.replicate 65 0 else (beBytes 65 Config.publicKey.toNat).map (·.toNat)) s
    else respond 1 1 [] s)

/-- Some domain is formed at this module. -/
def anyFormed (s : State) : Bool := (idxs 64).any fun c => match (s.ctx c).domain with
  | some d => d.formed
  | none => false

def setModuleId (id : Word) (s : State) : State :=
  if 1024 ≤ id.toNat then respond 2 1 [] s
  else if anyFormed s then respond 2 2 [] s
  else respond 2 0 [] (onHub (fun h => { h with module := id.setWidth 10 }) s)

/-- A command whose request has not its length (R470). -/
def asked {α : Type} (command : Nat) (f : α → State → State) (r : Option α) (s : State) : State :=
  match r with
  | some x => f x s
  | none => respond command 1 [] s

def execSetId (id : Option Word) (s : State) : Host.Outcome State Fault Refusal := .next (managed 2 (asked 2 setModuleId id) s)

/-- A route word keeps its map (R461). -/
def routeWordOk (x : Nat) : Bool :=
  let hops := x % 16
  1 ≤ hops && hops ≤ 8 && x / 16 % 16 = 0 && x / 256 % 256 = 0 && x / 2 ^ (16 + 6 * hops) = 0

/-- A path-table entry keeps its table (R462). -/
def pathEntryOk (e : List Byte) : Bool :=
  let n := (e.getD 0 0).toNat
  e.length = 48 && n ≤ 4 && fieldAt e 1 3 = 0 && fieldAt e 40 8 = 0
    && (List.range 4).all fun i => (e.getD (4 + i) 0).toNat < 16 && (n ≤ i || routeWordOk (fieldAt e (8 + 8 * i) 8))

def writePath (dst : Word) (entry : List Byte) (s : State) : State :=
  if 1024 ≤ dst.toNat || !pathEntryOk entry then respond 3 1 [] s
  else respond 3 0 [] (onHub (fun h => { h with paths := (dst.toNat, entry) :: h.paths.filter fun x => x.1 ≠ dst.toNat }) s)

def execPathWrite (dst : Word) (entry : List Byte) (s : State) : Host.Outcome State Fault Refusal := .next (managed 3 (writePath dst entry) s)

/-- The row that DOMAIN_WRITE writes: FORMs that match it stay (R464, R487). -/
def newRow (s : State) (d : Word) (ids : List (BitVec 16)) : DomainRow :=
  let forms := (((s.row? d).map (·.forms)).getD []).filter fun f =>
    f.1 = ids.length && (ids[f.2.1]?).map (·.setWidth 10) = some f.2.2.1
  { domain := d, p := ids.length, ids := ids, forms := forms, arrives := [], applied := [], applySent := none, peers := [], lost := [],
    owed := none, mismatched := ((s.row? d).map (·.mismatched)).getD 0 }

def writeDomain (d : Word) (p : BitVec 16) (ids : List (BitVec 16)) (s : State) : State :=
  let formed : Bool := match bound s d with
    | some (_, b) => b.formed && !b.stopped
    | none => false
  if d = 0 || p.toNat = 0 || 1024 < p.toNat || ids.length ≠ p.toNat || ids.any (fun m => 1024 ≤ m.toNat) then respond 4 1 [] s
  else if formed then respond 4 2 [] s
  else
    let row := newRow s d ids
    respond 4 0 [] (tryForm d (onHub (fun h => { h with rows := row :: h.rows.filter fun r => r.domain ≠ d }) s))

def execDomainWrite (domain : Word) (p : BitVec 16) (ids : List (BitVec 16)) (s : State) : Host.Outcome State Fault Refusal :=
  .next (managed 4 (writeDomain domain p ids) s)

/-- A new grandmaster or domain number is followed from scratch (log entry 104, DEDUCED). -/
def configPtp (r : BitVec 16 × Byte) (s : State) : State :=
  if 1024 ≤ r.1.toNat then respond 5 1 [] s
  else
    let s := if s.hub.grandmaster = r.1 && s.hub.ptpDomain = r.2 then s
      else onHub (fun h => { h with grandmaster := r.1, ptpDomain := r.2, locked := false, ptpSync := none, ptpFollow := none, ptpReq := none }) s
    respond 5 0 [s.hub.locked.toNat] s

def execPtpConfig (gm : Option (BitVec 16)) (dom : Option Byte) (s : State) : Host.Outcome State Fault Refusal :=
  .next (managed 5 (asked 5 configPtp (gm.bind fun g => dom.map fun d => (g, d))) s)

/-- ATTEST_RUN: the digest of a run-ring slot, signed with the nonce (R454). -/
def signRun (q : Byte) (seq : Word) (nonce : List Byte) (s : State) : State :=
  let x := s.queues[Fin.ofNat 64 q.toNat]
  if 64 ≤ q.toNat || nonce.length ≠ 32 then respond 6 1 [] s
  else match engineRead s x.ctx (runSlot x seq) 64 with
    | .error _ => respond 6 2 [] s
    | .ok l =>
      if fieldAt l 0 4 ≠ seq.toNat then respond 6 2 [] s
      else
        let digest := (l.drop 8).take 32
        let sig := Config.sm2Sign s.free (Config.sm3 (Config.attestZ ++ digest ++ nonce))
        respond 6 0 ((digest ++ beBytes 64 sig.toNat).map (·.toNat)) { s with free := s.free + 1 }

def execAttestRun (q : Byte) (seq : Word) (nonce : List Byte) (s : State) : Host.Outcome State Fault Refusal :=
  .next (managed 6 (signRun q seq nonce) s)

/-- (Log entry 105, DEDUCED.) -/
def releaseHalt (core : Word) (s : State) : State :=
  if 4096 ≤ core.toNat then respond 7 1 [] s
  else
    let k : CoreId := Fin.ofNat 4096 core.toNat
    if (s.core k).halted then respond 7 0 [] (onCore k (fun c => { c with halted := false }) s) else respond 7 2 [] s

def execHaltRelease (core : Option Word) (s : State) : Host.Outcome State Fault Refusal := .next (managed 7 (asked 7 releaseHalt core) s)

/-! ### Clock, errors and retirement (R17, R479-R482) -/

/-- The meaning of CLOCK_REDUCTION: the core clock the power manager chooses, from 2.4 to 3.0 GHz. -/
def execClockReduction (khz : Nat) (s : State) : Host.Outcome State Fault Refusal :=
  .next { s with clockKhz := max 2400000 (min khz 3000000) }

/-- The unit code, its number or address, and its threshold (R481, R482). -/
def unitInfo : FaultUnit → Nat × Nat × Nat
  | .core c => (1, c.val, 8)
  | .copyEngine d e => (2, d.val * 16 + e.val, 8)
  | .router t => (3, t.val, 8)
  | .l2Row a => (4, a, 4)
  | .yardRow a => (5, a, 4)
  | .barnRow a => (6, a, 4)
  | .hbmRow a => (7, a, 4)

/-- What retirement does to a unit. A steward stays in service until the next reset. -/
def retireUnit (u : FaultUnit) (s : State) : State :=
  match u with
  | .core c => if isSteward s c then s else onCore c (fun x => { x with retired := true }) s
  | .copyEngine d e => onDie d (fun x => { x with enginesOut := if x.enginesOut.contains e then x.enginesOut else e :: x.enginesOut }) s
  | .router t => onTile t (fun x => { x with fence := true }) s
  | _ => s

/-- Whether a storage unit has no spare row left is not the model's to say: a free value (log entry 106, DESIGN CHOICE). -/
def sparesOut (u : FaultUnit) (draw : Nat) : Bool :=
  match u with
  | .l2Row _ | .yardRow _ | .barnRow _ | .hbmRow _ => Config.choice draw % 2 = 1
  | _ => false

/-- The meaning of UNIT_RETIREMENT. -/
def execUnitRetirement (u : FaultUnit) (s : State) : Host.Outcome State Fault Refusal :=
  let (code, number, count) := unitInfo u
  let s' := onHub (fun h => { h with retired := if h.retired.contains u then h.retired else u :: h.retired }) (retireUnit u s)
  let d2 := count + (if sparesOut u s.free then 2 ^ 62 else 0)
  .next (recordFault 0 { kind := 10, d0 := code, d1 := number, d2 := d2 } { s' with free := s.free + 1 }).2

/-- Addresses from here on name the words of the Barns' SRAMs in a patrol scrub, die after die (log entry 136, DESIGN CHOICE). -/
def barnBase : Nat := 2 ^ 48

/-- What the scrub finds uncorrectable: the unit's code, and its number or address (R482). -/
def scrubFinds (s : State) (addr : Nat) : Option (Nat × Nat) :=
  if addr < barnBase then (s.bad.find? fun e => e.covers addr).map fun e => (e.unit, addr)
  else
    let n := addr - barnBase
    let d : DieId := Fin.ofNat 8 (n / barnSize)
    match ((s.dies[d]).barn.filter fun x => !x.overflow)[n % barnSize]? with
    | some x => if x.bad then some (6, n) else none
    | none => none

/-- The meaning of PATROL_SCRUB: a word of HBM, L2, Yard or Barn is read and, when uncorrectable, reported; it stays so. -/
def execPatrolScrub (addr : Nat) (s : State) : Host.Outcome State Fault Refusal :=
  .next (match scrubFinds s addr with
    | some (code, n) => (recordFault 0 { kind := 10, d0 := code, d1 := n, d2 := 2 ^ 63 } s).2
    | none => s)

/-! ### Module reset (R8, R12, R481, R491) -/

/-- The steward core of a die: the lowest-numbered of its tile 0 that is not retired. -/
def stewardOf (out : List FaultUnit) (d : DieId) : Fin 16 :=
  ((idxs 16).find? fun i => !out.contains (.core (mkCore d.val 0 i.val))).getD 0

/-- The die after reset under the units retired. -/
def dieAfter (out : List FaultUnit) (d : DieId) : Die :=
  ⟨[], (idxs 16).filter fun e => out.contains (.copyEngine d e), stewardOf out d⟩

/-- The unit stays retired over a reset; an HBM row is repaired by it. -/
def staysRetired : FaultUnit → Bool
  | .hbmRow _ => false
  | _ => true

/-- The boot step that fails at the n-th draw, if any: what the flash holds is not part of the machine. -/
def bootFailure (draw : Nat) : Option Nat :=
  let n := Config.choice draw
  if 1 ≤ n && n ≤ 8 then some n else none

/-- A vector given by index (log entry 107, DEDUCED). -/
def vindexed {α : Type} {n : Nat} [NeZero n] (f : Fin n → α) (v : Vector α n) : Vector α n :=
  ⟨⟨v.toList.mapIdx fun i _ => f (Fin.ofNat n i)⟩, by simp⟩

/-- The meaning of MODULE_RESET: the state after boot under what firmware has ready for it (R491; log entry 7), with the units retired before it
still retired; or, when a boot step fails, the package halted before it. The package cycle starts again (R361): what is still to
arrive arrives after as many cycles as it would have. What has left and the free values stay as they are. -/
def execModuleReset (s : State) : Host.Outcome State Fault Refusal :=
  let out := s.hub.retired.filter staysRetired
  let r := State.boot s.hub.setup.layout s.hub.setup.mcRev.toNat
  let failed := bootFailure s.free
  .next { r with
    cores := vindexed (fun k => Core.reset (out.contains (.core k))) r.cores
    tiles := vindexed (fun t => { Tile.reset with fence := out.contains (.router t) }) r.tiles
    dies := vindexed (dieAfter out) r.dies
    hub := { Hub.reset with retired := out, halted := failed.isSome, bootStep := (failed.map (· - 1)).getD 8, x8 := s.hub.setup.x8, setup := s.hub.setup }
    nextId := s.nextId, free := s.free + 1, inputs := s.inputs.map fun x => (x.1 - s.cycle, x.2), outbox := s.outbox }

end Sys2Proof.Machine
end

