-- ==== Sys2Proof/Machine/Transc.lean ====
section
/-!
DEFINITION. The special functions of R270 and R271, correctly rounded. SQRT, RSQRT, RCP and DIV are rounded from an exact
quotient or from a point between the same two neighbours as the exact root. The transcendental functions are enclosed
in fixed point at growing precision until both ends of the enclosure round alike (log entry 10).
-/

namespace Sys2Proof.Machine

open Sys2Proof

/-! ### Roots and quotients -/

/-- Integer square root by base-4 digits, exact when fuel exceeds half the length of n. -/
def isqrt : Nat → Nat → Nat
  | 0, _ => 0
  | fuel + 1, n =>
    if n = 0 then 0
    else
      let r := 2 * isqrt fuel (n / 4)
      if (r + 1) * (r + 1) ≤ n then r + 1 else r

/-- The root of num/den, or a point strictly between the neighbours of 2^-70 relative width that the root lies between. -/
def sqrtVal (num den : Nat) : Val :=
  let k : Int := 70 + ((Nat.log2 den : Int) - Nat.log2 num) / 2
  let n := if 0 ≤ k then num * 4 ^ k.toNat else num
  let d := if 0 ≤ k then den else den * 4 ^ (-k).toNat
  let r := isqrt 90 (n / d)
  let exact : Bool := n % d = 0 && r * r = n / d
  (Val.fin false (if exact then 2 * r else 2 * r + 1) 2).scale (-k)

/-- Exact quotient with the conditions of R271. -/
def divVal (a b : Val) : Val × Cond :=
  match a, b with
  | .nan, _ | _, .nan => (.nan, condNone)
  | .zero _, .zero _ | .inf _, .inf _ => (.nan, condInvalid)
  | .fin s _ _, .zero t => (.inf (s ^^ t), condDivZero)
  | .inf s, .zero t | .inf s, .fin t _ _ => (.inf (s ^^ t), condNone)
  | .zero s, .inf t | .fin s _ _, .inf t | .zero s, .fin t _ _ => (.zero (s ^^ t), condNone)
  | .fin s n d, .fin t m e => (.fin (s ^^ t) (n * e) (d * m), condNone)

/-! ### Fixed point at p bits: a number x stands for x / 2^p -/

/-- Product of two fixed-point numbers, truncated. -/
def fxMul (p : Nat) (x y : Int) : Int := (x * y).tdiv (2 ^ p)

/-- A rational as fixed point. -/
def fxOf (p : Nat) (neg : Bool) (num den : Nat) : Int := if neg then -((num * 2 ^ p / den : Nat) : Int) else ((num * 2 ^ p / den : Nat) : Int)

/-- Σ x^k / k! from the term t of index k on. -/
def expSum (p : Nat) (x : Int) : Nat → Nat → Int → Int
  | 0, _, _ => 0
  | fuel + 1, k, t => if t = 0 then 0 else t + expSum p x fuel (k + 1) ((fxMul p t x).tdiv (k + 1))

/-- Σ ± t x^(2j) n! / (n + 2j)! with alternating signs: sine from t = x, n = 1; cosine from t = 1, n = 0. -/
def trigSum (p : Nat) (x2 : Int) : Nat → Nat → Int → Int
  | 0, _, _ => 0
  | fuel + 1, n, t => if t = 0 then 0 else t + trigSum p x2 fuel (n + 2) (-((fxMul p t x2).tdiv ((n + 1) * (n + 2))))

/-- Σ z^(2j+1) / (2j + 1) from the power t of index n on: atanh z. -/
def atanhSum (p : Nat) (z2 : Int) : Nat → Nat → Int → Int
  | 0, _, _ => 0
  | fuel + 1, n, t => if t = 0 then 0 else t.tdiv n + atanhSum p z2 fuel (n + 2) (fxMul p t z2)

/-- Σ ± 1 / ((2j + 1) m^(2j+1)) from the power t on: atan (1/m), or atanh (1/m) when every sign is plus. -/
def invSum (m2 : Int) (alt : Bool) : Nat → Nat → Int → Int
  | 0, _, _ => 0
  | fuel + 1, n, t => if t = 0 then 0 else t.tdiv n + invSum m2 alt fuel (n + 2) (if alt then -(t.tdiv m2) else t.tdiv m2)

/-- π at p bits, by Machin's formula. -/
def fxPi (p : Nat) : Int := 16 * invSum 25 true p 1 (2 ^ p / 5) - 4 * invSum 57121 true p 1 (2 ^ p / 239)

/-- ln 2 at p bits: 2 atanh (1/3). -/
def fxLn2 (p : Nat) : Int := 2 * invSum 9 false p 1 (2 ^ p / 3)

/-! ### Enclosures: a centre, a radius and a power of two -/

/-- The true value lies within `rad` of `mid`, both to be multiplied by 2^exp. -/
structure Ball where
  mid : Int
  rad : Nat
  exp : Int

/-- n × 2^e as a value. -/
def Val.scaled (n : Int) (e : Int) : Val := (Val.ofInt n).scale e

def Ball.lo (b : Ball) : Val := Val.scaled (b.mid - b.rad) b.exp
def Ball.hi (b : Ball) : Val := Val.scaled (b.mid + b.rad) b.exp

/-- A radius that covers the truncations of a series of at most p terms. -/
def slack (p : Nat) : Nat := 256 * p

/-- e^x for x = ±num/den: 2^k e^r with r = x − k ln 2. -/
def expBall (p : Nat) (neg : Bool) (num den : Nat) : Ball :=
  let q := p + 32
  let l := fxLn2 q
  let x := fxOf q neg num den
  let k := (2 * x + l) / (2 * l)
  let r := (x - k * l).tdiv (2 ^ 32)
  ⟨expSum p r p 0 (2 ^ p), slack p, k - p⟩

/-- 2^x for x = ±num/den, not an integer: 2^k e^(f ln 2) with f the fraction. -/
def exp2Ball (p : Nat) (neg : Bool) (num den : Nat) : Ball :=
  let q := p + 32
  let x := fxOf q neg num den
  let k := x / 2 ^ q
  let r := (fxMul q (x - k * 2 ^ q) (fxLn2 q)).tdiv (2 ^ 32)
  ⟨expSum p r p 0 (2 ^ p), slack p, k - p⟩

/-- ln (num/den) = k ln 2 + 2 atanh ((m − 1)/(m + 1)) with num/den = m 2^k and 1 ≤ m < 2. -/
def lnBall (p : Nat) (num den : Nat) : Ball :=
  let k := flog2 num den
  let n := if 0 ≤ k then num else num * 2 ^ (-k).toNat
  let d := if 0 ≤ k then den * 2 ^ k.toNat else den
  let z := fxOf p false (n - d) (n + d)
  let l := (k * fxLn2 (p + 32)).tdiv (2 ^ 32)
  ⟨l + 2 * atanhSum p (fxMul p z z) p 1 z, slack p, -p⟩

/-- log₂ as a quotient of logarithms. -/
def log2Ball (p : Nat) (num den : Nat) : Ball :=
  let b := lnBall p num den
  ⟨(b.mid * 2 ^ p).tdiv (fxLn2 p), 8 * slack p, -p⟩

/-- sin or cos of x = ±num/den, reduced by multiples of π/2. -/
def trigBall (isCos : Bool) (p : Nat) (neg : Bool) (num den : Nat) : Ball :=
  let q := p + 32 + (flog2 num den).toNat
  let h := fxPi q
  let x := fxOf q neg num den
  let k := (4 * x + h) / (2 * h)
  let r := (2 * x - k * h).tdiv (2 ^ (q - p + 1))
  let i := (k + if isCos then 1 else 0) % 4
  let r2 := fxMul p r r
  let y := if i % 2 = 0 then trigSum p r2 p 1 r else trigSum p r2 p 0 (2 ^ p)
  ⟨if 2 ≤ i then -y else y, slack p, -p⟩

/-- Both ends of f / (1 + f) or of (f − 1)/(f + 1), which grow with f > 0, as values. -/
def ratioEnds (tanh : Bool) (b : Ball) : Val × Val :=
  let one : Val := .fin false 1 1
  let g (v : Val) : Val :=
    let n := if tanh then (Val.add .rne v one.neg).1 else v
    (divVal n (Val.add .rne v one).1).1
  (g b.lo, g b.hi)

/-- Ends of an enclosure. -/
def Ball.ends (b : Ball) : Val × Val := (b.lo, b.hi)

/-- The rounding that both ends of some enclosure share, at precisions p, 2p, 4p, ... -/
def roundSettled (t : FFmt) (mode : RMode) (sat : Bool) (f : Nat → Val × Val) : Nat → Nat → Nat × Cond
  | 0, p => roundTo t mode sat (f p).1
  | fuel + 1, p =>
    let a := roundTo t mode sat (f p).1
    if a = roundTo t mode sat (f p).2 then a else roundSettled t mode sat f fuel (2 * p)

/-! ### The functions on finite non-zero values -/

/-- The special functions of one operand (R270). -/
inductive XfFn
  | rcp | rsqrt | sqrt | exp2 | log2 | sin | cos | tanh | exp | log | sigm
  deriving DecidableEq, Repr

/-- num/den is a power of two; its exponent. -/
def powerOfTwo (num den : Nat) : Option Int :=
  let k := flog2 num den
  let n := if 0 ≤ k then num else num * 2 ^ (-k).toNat
  let d := if 0 ≤ k then den * 2 ^ k.toNat else den
  if n = d then some k else none

/-- A point that every format and mode rounds as it does any positive value below every subnormal's half. -/
def tinyPoint : Val := .fin false 1 (2 ^ 2000)
/-- A point that every format and mode rounds as it does any value above every range. -/
def hugePoint : Val := .fin false (2 ^ 2000) 1
/-- A point between the greatest value below 1 with a midpoint above it, and 1. -/
def belowOne (neg : Bool) : Val := .fin neg (2 ^ 160 - 1) (2 ^ 160)

/-- num/den is above a bound. -/
def above (num den k : Nat) : Bool := k * den < num

/-- A function at ±num/den: the exact value, a stand-in that rounds as the value does, or the enclosures of it. -/
def xfFinite (fn : XfFn) (neg : Bool) (num den : Nat) : Val ⊕ (Nat → Val × Val) :=
  match fn with
  | .rcp => .inl (.fin neg den num)
  | .sqrt => .inl (sqrtVal num den)
  | .rsqrt => .inl (sqrtVal den num)
  | .exp =>
    if above num den 2000 then .inl (if neg then tinyPoint else hugePoint) else .inr fun p => (expBall p neg num den).ends
  | .exp2 =>
    if above num den 2000 then .inl (if neg then tinyPoint else hugePoint)
    else if num % den = 0 then .inl ((Val.fin false 1 1).scale (if neg then -((num / den : Nat) : Int) else (num / den : Nat)))
    else .inr fun p => (exp2Ball p neg num den).ends
  | .log => if num = den then .inl (.zero false) else .inr fun p => (lnBall p num den).ends
  | .log2 => match powerOfTwo num den with
    | some k => .inl (Val.ofInt k)
    | none => .inr fun p => (log2Ball p num den).ends
  | .sin => .inr fun p => (trigBall false p neg num den).ends
  | .cos => .inr fun p => (trigBall true p neg num den).ends
  | .tanh => if above num den 128 then .inl (belowOne neg) else .inr fun p => ratioEnds true (expBall p neg (2 * num) den)
  | .sigm =>
    if above num den 2000 && neg then .inl tinyPoint
    else if above num den 128 && !neg then .inl (belowOne false)
    else .inr fun p => ratioEnds false (expBall p neg num den)

/-- The special values of R271 and the dispatch on the operand. -/
def xfSpecial (fn : XfFn) (v : Val) : Option (Val × Cond) :=
  let one : Val := .fin false 1 1
  match fn, v with
  | _, .nan => some (.nan, condNone)
  | .rcp, .zero s => some (.inf s, condDivZero)
  | .rcp, .inf s => some (.zero s, condNone)
  | .rsqrt, .zero s => some (.inf s, condDivZero)
  | .rsqrt, .inf false => some (.zero false, condNone)
  | .sqrt, .zero s => some (.zero s, condNone)
  | .sqrt, .inf false => some (.inf false, condNone)
  | .rsqrt, .inf true | .rsqrt, .fin true _ _ | .sqrt, .inf true | .sqrt, .fin true _ _ => some (.nan, condInvalid)
  | .exp, .zero _ | .exp2, .zero _ | .cos, .zero _ => some (one, condNone)
  | .exp, .inf s | .exp2, .inf s => some (if s then .zero false else .inf false, condNone)
  | .log, .zero _ | .log2, .zero _ => some (.inf true, condDivZero)
  | .log, .inf false | .log2, .inf false => some (.inf false, condNone)
  | .log, .inf true | .log, .fin true _ _ | .log2, .inf true | .log2, .fin true _ _ => some (.nan, condInvalid)
  | .sin, .zero s | .tanh, .zero s => some (.zero s, condNone)
  | .sin, .inf _ | .cos, .inf _ => some (.nan, condInvalid)
  | .tanh, .inf s => some (.fin s 1 1, condNone)
  | .sigm, .zero _ => some (.fin false 1 2, condNone)
  | .sigm, .inf s => some (if s then .zero false else one, condNone)
  | _, .fin _ _ _ => none

/-- A special function of an encoding, correctly rounded (R270). -/
def xfRound (fn : XfFn) (t : FFmt) (mode : RMode) (sat : Bool) (a : Nat) : Nat × Cond :=
  let v := decodeF t a
  let snan := invalidIf (isSNaN t a)
  match xfSpecial fn v, v with
  | some (x, c), _ => ((roundTo t mode sat x).1, c ||| snan)
  | none, .fin neg num den =>
    (match xfFinite fn neg num den with
      | .inl x => roundTo t mode sat x
      | .inr f => roundSettled t mode sat f 8 128)
  | none, _ => (fNaN t, snan)

/-- DIV of two encodings (R270, R271). -/
def divRound (t : FFmt) (mode : RMode) (sat : Bool) (a b : Nat) : Nat × Cond :=
  let q := divVal (decodeF t a) (decodeF t b)
  let r := roundTo t mode sat q.1
  (r.1, r.2 ||| q.2 ||| invalidIf (sNaNAny t [a, b]))

end Sys2Proof.Machine
end

