-- ==== Sys2Proof/Machine/VXf.lean ====
section
/-!
DEFINITION. The special-function unit: correctly rounded functions (R270, R271), integer division (R272), HAZEL (R274).
-/

namespace Sys2Proof.Machine

open Sys2Proof

/-- A special function on the port `.a`. -/
def xfOp (fn : XfFn) (s : State) (w : VWord) : VOut :=
  codeOp (fun t a _ => xfRound fn t (rmode w.f.rnd) w.f.sat a) s w

/-- IDIV's exact value (R272): division truncates toward zero (R9). -/
def idivVal (t : Ty) (a b : Int) : Int :=
  if b = 0 then (if tySigned t then -1 else 2 ^ tyBits t - 1) else a.tdiv b

/-- IREM's value (R272). -/
def iremVal (a b : Int) : Int := if b = 0 then a else a - a.tdiv b * b

def execRcp (f : VSlot) (s : State) : Host.Outcome State Fault Refusal :=
  .next (act (.rcp f) (trigger (.rcp f) (xfOp .rcp)) s)
def execRsqrt (f : VSlot) (s : State) : Host.Outcome State Fault Refusal :=
  .next (act (.rsqrt f) (trigger (.rsqrt f) (xfOp .rsqrt)) s)
def execSqrt (f : VSlot) (s : State) : Host.Outcome State Fault Refusal :=
  .next (act (.sqrt f) (trigger (.sqrt f) (xfOp .sqrt)) s)
def execDiv (f : VSlot) (s : State) : Host.Outcome State Fault Refusal :=
  .next (act (.div f) (trigger (.div f) (codeOp fun t a b => divRound t (rmode f.rnd) f.sat a b)) s)
def execExp2 (f : VSlot) (s : State) : Host.Outcome State Fault Refusal :=
  .next (act (.exp2 f) (trigger (.exp2 f) (xfOp .exp2)) s)
def execLog2 (f : VSlot) (s : State) : Host.Outcome State Fault Refusal :=
  .next (act (.log2 f) (trigger (.log2 f) (xfOp .log2)) s)
def execSin (f : VSlot) (s : State) : Host.Outcome State Fault Refusal :=
  .next (act (.sin f) (trigger (.sin f) (xfOp .sin)) s)
def execCos (f : VSlot) (s : State) : Host.Outcome State Fault Refusal :=
  .next (act (.cos f) (trigger (.cos f) (xfOp .cos)) s)
def execTanh (f : VSlot) (s : State) : Host.Outcome State Fault Refusal :=
  .next (act (.tanh f) (trigger (.tanh f) (xfOp .tanh)) s)
def execExp (f : VSlot) (s : State) : Host.Outcome State Fault Refusal :=
  .next (act (.exp f) (trigger (.exp f) (xfOp .exp)) s)
def execLog (f : VSlot) (s : State) : Host.Outcome State Fault Refusal :=
  .next (act (.log f) (trigger (.log f) (xfOp .log)) s)
def execSigm (f : VSlot) (s : State) : Host.Outcome State Fault Refusal :=
  .next (act (.sigm f) (trigger (.sigm f) (xfOp .sigm)) s)
def execIdiv (f : VSlot) (s : State) : Host.Outcome State Fault Refusal :=
  .next (act (.idiv f) (trigger (.idiv f) (intOp fun _ a b _ => idivVal f.ty a b)) s)
def execIrem (f : VSlot) (s : State) : Host.Outcome State Fault Refusal :=
  .next (act (.irem f) (trigger (.irem f) (intOp fun _ a b _ => iremVal a b)) s)
def execHazel (f : VSlot) (s : State) : Host.Outcome State Fault Refusal :=
  .next (act (.hazel f) (trigger (.hazel f) (fun s w => outOf s w fun _ a b _ =>
    (BitVec.ofNat 64 (hazel s.iw.seed.toNat (b.toNat * 2 ^ 64 + a.toNat)), condNone))) s)

end Sys2Proof.Machine
end

