-- ==== Sys2Proof/Machine/VXl.lean ====
section
/-!
DEFINITION. The cross-lane unit (R277-R283): shuffles, votes, reductions in the tree of R104 and scans.
-/

namespace Sys2Proof.Machine

open Sys2Proof

/-- The effective members of an XL slot (R277). -/
def members (s : State) (w : VWord) : Mask := memberMask s w &&& enabled s w.f.guard w.f.path

/-- The operand of a lane at the slot's type. -/
def xlA (s : State) (w : VWord) (l : Lane) : Nat := low w.f.ty (s.iw.unit .xl).a[l]

/-- The lane that `.b` names. -/
def xlB (s : State) (l : Lane) : Lane := Fin.ofNat 32 (s.iw.unit .xl).b[l].toNat

/-- A result per enabled lane, given the lane. -/
def xlOut (s : State) (w : VWord) (g : Lane → DWord × Cond) : VOut := outOf s w fun l _ _ _ => g l

/-- SHFL (R278). -/
def shflOut (s : State) (w : VWord) : VOut :=
  let e := members s w
  xlOut s w fun l => (BitVec.ofNat 64 (xlA s w (if laneBit e (xlB s l) then xlB s l else l)), condNone)

/-- PUSH (R279): the highest-numbered effective member that names a lane wins. -/
def pushOut (s : State) (w : VWord) : VOut :=
  let e := lanesOf (members s w)
  xlOut s w fun d => (BitVec.ofNat 64 (xlA s w (((e.filter fun l => xlB s l = d).getLast?).getD d)), condNone)

/-- One value for every enabled lane. -/
def same (s : State) (w : VWord) (x : DWord × Cond) : VOut := xlOut s w fun _ => x

/-! ### Floating combinations (R104, R105) -/

/-- Kinds of combination. -/
inductive Comb
  | add | mul | min | max
  deriving DecidableEq, Repr

/-- A combine of two members' encodings, rounded once. -/
def combine (k : Comb) (t : FFmt) (mode : RMode) (a b : Nat) : Nat × Cond :=
  match k with
  | .min => minMaxF t false a b
  | .max => minMaxF t true a b
  | .add | .mul =>
    let x := decodeF t a
    let y := decodeF t b
    let v := if k = .add then Val.add mode x y else Val.mul x y
    let r := roundTo t mode false v.1
    (r.1, r.2 ||| v.2 ||| invalidIf (sNaNAny t [a, b]))

/-- An operand that meets a pad: unchanged, but a NaN becomes the canonical one (R104). -/
def padded (t : FFmt) (a : Nat) : Nat × Cond := (if isNaN t a then fNaN t else a, invalidIf (isSNaN t a))

/-- A position of the tree: a pad, or an encoding; with the conditions met so far. -/
abbrev Pos := Option Nat × Cond

/-- One node of the tree. -/
def node (k : Comb) (t : FFmt) (mode : RMode) (x y : Pos) : Pos :=
  match x.1, y.1 with
  | none, none => (none, x.2 ||| y.2)
  | some a, none => (some (padded t a).1, x.2 ||| y.2 ||| (padded t a).2)
  | none, some b => (some (padded t b).1, x.2 ||| y.2 ||| (padded t b).2)
  | some a, some b => (some (combine k t mode a b).1, x.2 ||| y.2 ||| (combine k t mode a b).2)

/-- One level of the tree: positions (2i, 2i + 1) combined. -/
def level (k : Comb) (t : FFmt) (mode : RMode) : List Pos → List Pos
  | x :: y :: l => node k t mode x y :: level k t mode l
  | l => l

/-- The value of a pad (R104). -/
def padCode (k : Comb) (t : FFmt) : Nat :=
  match k with
  | .add => fSigned t true 0
  | .mul => fBias t * 2 ^ fFrac t
  | .min => infCode t false false
  | .max => infCode t false true

/-- The zero that R105 gives when every contributor is a zero or there is none. -/
def zeroRule (t : FFmt) (l : List Nat) : Option Nat :=
  if l.all fun a => (decodeF t a).isZero then some (fSigned t (l ≠ [] && l.all (fieldNeg t)) 0) else none

/-- R91 on a result: an infinity becomes the greatest finite value. -/
def saturate (t : FFmt) (sat : Bool) (a : Nat) : Nat :=
  match decodeF t a with
  | .inf s => if sat then fSigned t s (fMaxCode t) else a
  | _ => a

/-- A floating reduction of the members' encodings by position (R104, R105). -/
def fReduce (k : Comb) (t : FFmt) (mode : RMode) (sat : Bool) (l : List (Option Nat)) : Nat × Cond :=
  let f := level k t mode
  let r := (f (f (f (f (f (l.map fun x => (x, condNone))))))).headD (none, condNone)
  let code := r.1.getD (padCode k t)
  let code := if k = .add then (zeroRule t (l.filterMap id)).getD code else code
  (saturate t sat code, r.2)

/-- A floating scan: what each member position receives, running left to right (R104, R282). -/
def fScan (k : Comb) (t : FFmt) (mode : RMode) (sat : Bool) : Pos → List Nat → List (Option Nat) → List (Nat × Cond)
  | _, _, [] => []
  | acc, seen, none :: l => (0, condNone) :: fScan k t mode sat acc seen l
  | acc, seen, some a :: l =>
    let r := node k t mode acc (some a, condNone)
    let seen := seen ++ [a]
    let code := r.1.getD 0
    let code := if k = .add then (zeroRule t seen).getD code else code
    (saturate t sat code, r.2) :: fScan k t mode sat (some code, r.2) seen l

/-! ### Integer combinations -/

/-- The exact combination of a list of integers; the type's bounds stand for an empty MIN or MAX (R281). -/
def iReduce (k : Comb) (t : Ty) (l : List Int) : Int :=
  match k with
  | .add => l.sum
  | .mul => l.foldl (· * ·) 1
  | .min => l.foldl min (intHi (tySigned t) (tyBits t))
  | .max => l.foldl max (intLo (tySigned t) (tyBits t))

/-- The members' operands by position. -/
def operands (s : State) (w : VWord) : List (Option Nat) :=
  let e := members s w
  allLanes.map fun l => if laneBit e l then some (xlA s w l) else none

/-- A reduction at the slot's type (R281). -/
def redOut (k : Comb) (s : State) (w : VWord) : VOut :=
  let t := w.f.ty
  let l := operands s w
  same s w (if tyFloat t then portF (fReduce k (fmtOfTy t) (rmode w.f.rnd) w.f.sat l)
    else (fit t w.f.sat (iReduce k t ((l.filterMap id).map fun a => portInt t (BitVec.ofNat 64 a))), condNone))

/-- A scan at the slot's type (R282). -/
def scanOut (k : Comb) (s : State) (w : VWord) : VOut :=
  let t := w.f.ty
  let l := operands s w
  let e := members s w
  let fl := if tyFloat t then fScan k (fmtOfTy t) (rmode w.f.rnd) w.f.sat (none, condNone) [] l else []
  xlOut s w fun p =>
    if !laneBit e p then (ofInt (tySigned t) (tyBits t) (portInt t (BitVec.ofNat 64 (xlA s w p))), condNone)
    else if tyFloat t then portF (fl.getD p.val (0, condNone))
    else (fit t w.f.sat (iReduce k t (((l.take (p.val + 1)).filterMap id).map fun a => portInt t (BitVec.ofNat 64 a))), condNone)

/-- A bitwise reduction (R281). -/
def bitRed (g : Nat → Nat → Nat) (empty : Nat → Nat) (s : State) (w : VWord) : VOut :=
  same s w (BitVec.ofNat 64 (((operands s w).filterMap id).foldl g (empty (tyBits w.f.ty))), condNone)

/-- The votes' member lanes with a non-zero operand. -/
def yes (s : State) (w : VWord) : List Lane := (lanesOf (members s w)).filter fun l => xlA s w l ≠ 0

def execShfl (f : VSlot) (s : State) : Host.Outcome State Fault Refusal :=
  .next (act (.shfl f) (trigger (.shfl f) shflOut) s)
def execPush (f : VSlot) (s : State) : Host.Outcome State Fault Refusal :=
  .next (act (.push f) (trigger (.push f) pushOut) s)
def execVoteAll (f : VSlot) (s : State) : Host.Outcome State Fault Refusal :=
  .next (act (.voteAll f) (trigger (.voteAll f) fun s w =>
    same s w (if yes s w = lanesOf (members s w) then 1 else 0, condNone)) s)
def execVoteAny (f : VSlot) (s : State) : Host.Outcome State Fault Refusal :=
  .next (act (.voteAny f) (trigger (.voteAny f) fun s w => same s w (if yes s w = [] then 0 else 1, condNone)) s)
def execVoteBal (f : VSlot) (s : State) : Host.Outcome State Fault Refusal :=
  .next (act (.voteBal f) (trigger (.voteBal f) fun s w =>
    same s w (BitVec.ofNat 64 ((yes s w).map fun l => 2 ^ l.val).sum, condNone)) s)
def execRedAdd (f : VSlot) (s : State) : Host.Outcome State Fault Refusal :=
  .next (act (.redAdd f) (trigger (.redAdd f) (redOut .add)) s)
def execRedMul (f : VSlot) (s : State) : Host.Outcome State Fault Refusal :=
  .next (act (.redMul f) (trigger (.redMul f) (redOut .mul)) s)
def execRedMin (f : VSlot) (s : State) : Host.Outcome State Fault Refusal :=
  .next (act (.redMin f) (trigger (.redMin f) (redOut .min)) s)
def execRedMax (f : VSlot) (s : State) : Host.Outcome State Fault Refusal :=
  .next (act (.redMax f) (trigger (.redMax f) (redOut .max)) s)
def execRedAnd (f : VSlot) (s : State) : Host.Outcome State Fault Refusal :=
  .next (act (.redAnd f) (trigger (.redAnd f) (bitRed (· &&& ·) fun w => 2 ^ w - 1)) s)
def execRedOr (f : VSlot) (s : State) : Host.Outcome State Fault Refusal :=
  .next (act (.redOr f) (trigger (.redOr f) (bitRed (· ||| ·) fun _ => 0)) s)
def execRedXor (f : VSlot) (s : State) : Host.Outcome State Fault Refusal :=
  .next (act (.redXor f) (trigger (.redXor f) (bitRed (· ^^^ ·) fun _ => 0)) s)
def execScanAdd (f : VSlot) (s : State) : Host.Outcome State Fault Refusal :=
  .next (act (.scanAdd f) (trigger (.scanAdd f) (scanOut .add)) s)
def execScanMul (f : VSlot) (s : State) : Host.Outcome State Fault Refusal :=
  .next (act (.scanMul f) (trigger (.scanMul f) (scanOut .mul)) s)
def execScanMin (f : VSlot) (s : State) : Host.Outcome State Fault Refusal :=
  .next (act (.scanMin f) (trigger (.scanMin f) (scanOut .min)) s)
def execScanMax (f : VSlot) (s : State) : Host.Outcome State Fault Refusal :=
  .next (act (.scanMax f) (trigger (.scanMax f) (scanOut .max)) s)

end Sys2Proof.Machine
end

