-- ==== Sys2Proof/Machine/Dispatch.lean ====
section
/-!
DEFINITION. The dispatch: one arm per constructor of Instr.
-/

namespace Sys2Proof.Machine

open Sys2Proof

def exec (i : Instr) (s : State) : Host.Outcome State Fault Refusal :=
  match i with
  | .pset u f => Sys2Proof.Machine.execPset u f s
  | .add f => Sys2Proof.Machine.execAdd f s
  | .sub f => Sys2Proof.Machine.execSub f s
  | .mul f => Sys2Proof.Machine.execMul f s
  | .mulhi f => Sys2Proof.Machine.execMulhi f s
  | .mad f => Sys2Proof.Machine.execMad f s
  | .abs f => Sys2Proof.Machine.execAbs f s
  | .neg f => Sys2Proof.Machine.execNeg f s
  | .min f => Sys2Proof.Machine.execMin f s
  | .max f => Sys2Proof.Machine.execMax f s
  | .and f => Sys2Proof.Machine.execAnd f s
  | .or f => Sys2Proof.Machine.execOr f s
  | .xor f => Sys2Proof.Machine.execXor f s
  | .not f => Sys2Proof.Machine.execNot f s
  | .andn f => Sys2Proof.Machine.execAndn f s
  | .shl f => Sys2Proof.Machine.execShl f s
  | .shr f => Sys2Proof.Machine.execShr f s
  | .rotl f => Sys2Proof.Machine.execRotl f s
  | .rotr f => Sys2Proof.Machine.execRotr f s
  | .bfx f => Sys2Proof.Machine.execBfx f s
  | .bfi f => Sys2Proof.Machine.execBfi f s
  | .popc f => Sys2Proof.Machine.execPopc f s
  | .clz f => Sys2Proof.Machine.execClz f s
  | .ctz f => Sys2Proof.Machine.execCtz f s
  | .brev f => Sys2Proof.Machine.execBrev f s
  | .perm f => Sys2Proof.Machine.execPerm f s
  | .seteq f => Sys2Proof.Machine.execSeteq f s
  | .setne f => Sys2Proof.Machine.execSetne f s
  | .setlt f => Sys2Proof.Machine.execSetlt f s
  | .setle f => Sys2Proof.Machine.execSetle f s
  | .setgt f => Sys2Proof.Machine.execSetgt f s
  | .setge f => Sys2Proof.Machine.execSetge f s
  | .plog f => Sys2Proof.Machine.execPlog f s
  | .sel f => Sys2Proof.Machine.execSel f s
  | .mov f => Sys2Proof.Machine.execMov f s
  | .fadd f => Sys2Proof.Machine.execFadd f s
  | .fsub f => Sys2Proof.Machine.execFsub f s
  | .fmul f => Sys2Proof.Machine.execFmul f s
  | .fma f => Sys2Proof.Machine.execFma f s
  | .fms f => Sys2Proof.Machine.execFms f s
  | .fnma f => Sys2Proof.Machine.execFnma f s
  | .fnms f => Sys2Proof.Machine.execFnms f s
  | .fmin f => Sys2Proof.Machine.execFmin f s
  | .fmax f => Sys2Proof.Machine.execFmax f s
  | .fabs f => Sys2Proof.Machine.execFabs f s
  | .fneg f => Sys2Proof.Machine.execFneg f s
  | .fcps f => Sys2Proof.Machine.execFcps f s
  | .fseteq f => Sys2Proof.Machine.execFseteq f s
  | .fsetne f => Sys2Proof.Machine.execFsetne f s
  | .fsetlt f => Sys2Proof.Machine.execFsetlt f s
  | .fsetle f => Sys2Proof.Machine.execFsetle f s
  | .fsetun f => Sys2Proof.Machine.execFsetun f s
  | .fclass f => Sys2Proof.Machine.execFclass f s
  | .fscale f => Sys2Proof.Machine.execFscale f s
  | .frnd f => Sys2Proof.Machine.execFrnd f s
  | .cvt dst f => Sys2Proof.Machine.execCvt dst f s
  | .cvtRna dst f => Sys2Proof.Machine.execCvtRna dst f s
  | .cvtSr dst f => Sys2Proof.Machine.execCvtSr dst f s
  | .wupd f => Sys2Proof.Machine.execWupd f s
  | .wmrg f => Sys2Proof.Machine.execWmrg f s
  | .rcp f => Sys2Proof.Machine.execRcp f s
  | .rsqrt f => Sys2Proof.Machine.execRsqrt f s
  | .sqrt f => Sys2Proof.Machine.execSqrt f s
  | .div f => Sys2Proof.Machine.execDiv f s
  | .exp2 f => Sys2Proof.Machine.execExp2 f s
  | .log2 f => Sys2Proof.Machine.execLog2 f s
  | .sin f => Sys2Proof.Machine.execSin f s
  | .cos f => Sys2Proof.Machine.execCos f s
  | .tanh f => Sys2Proof.Machine.execTanh f s
  | .exp f => Sys2Proof.Machine.execExp f s
  | .log f => Sys2Proof.Machine.execLog f s
  | .sigm f => Sys2Proof.Machine.execSigm f s
  | .idiv f => Sys2Proof.Machine.execIdiv f s
  | .irem f => Sys2Proof.Machine.execIrem f s
  | .hazel f => Sys2Proof.Machine.execHazel f s
  | .shfl f => Sys2Proof.Machine.execShfl f s
  | .push f => Sys2Proof.Machine.execPush f s
  | .voteAll f => Sys2Proof.Machine.execVoteAll f s
  | .voteAny f => Sys2Proof.Machine.execVoteAny f s
  | .voteBal f => Sys2Proof.Machine.execVoteBal f s
  | .redAdd f => Sys2Proof.Machine.execRedAdd f s
  | .redMul f => Sys2Proof.Machine.execRedMul f s
  | .redMin f => Sys2Proof.Machine.execRedMin f s
  | .redMax f => Sys2Proof.Machine.execRedMax f s
  | .redAnd f => Sys2Proof.Machine.execRedAnd f s
  | .redOr f => Sys2Proof.Machine.execRedOr f s
  | .redXor f => Sys2Proof.Machine.execRedXor f s
  | .scanAdd f => Sys2Proof.Machine.execScanAdd f s
  | .scanMul f => Sys2Proof.Machine.execScanMul f s
  | .scanMin f => Sys2Proof.Machine.execScanMin f s
  | .scanMax f => Sys2Proof.Machine.execScanMax f s
  | .scmp f => Sys2Proof.Machine.execScmp f s
  | .seq f => Sys2Proof.Machine.execSeq f s
  | .spfx f => Sys2Proof.Machine.execSpfx f s
  | .sfind f => Sys2Proof.Machine.execSfind f s
  | .crc32c f => Sys2Proof.Machine.execCrc32c f s
  | .hmix f => Sys2Proof.Machine.execHmix f s
  | .fold f => Sys2Proof.Machine.execFold f s
  | .dfa f => Sys2Proof.Machine.execDfa f s
  | .ldG f => Sys2Proof.Machine.execLdG f s
  | .stG f => Sys2Proof.Machine.execStG f s
  | .ldY f => Sys2Proof.Machine.execLdY f s
  | .stY f => Sys2Proof.Machine.execStY f s
  | .ldW f => Sys2Proof.Machine.execLdW f s
  | .stW f => Sys2Proof.Machine.execStW f s
  | .ldAcqG f => Sys2Proof.Machine.execLdAcqG f s
  | .stRelG f => Sys2Proof.Machine.execStRelG f s
  | .ldAcqY f => Sys2Proof.Machine.execLdAcqY f s
  | .stRelY f => Sys2Proof.Machine.execStRelY f s
  | .ldAcqW f => Sys2Proof.Machine.execLdAcqW f s
  | .stRelW f => Sys2Proof.Machine.execStRelW f s
  | .ldL1 f => Sys2Proof.Machine.execLdL1 f s
  | .ldc f => Sys2Proof.Machine.execLdc f s
  | .ldSLin f => Sys2Proof.Machine.execLdSLin f s
  | .stSLin f => Sys2Proof.Machine.execStSLin f s
  | .ldS f => Sys2Proof.Machine.execLdS f s
  | .stS f => Sys2Proof.Machine.execStS f s
  | .ldQ f => Sys2Proof.Machine.execLdQ f s
  | .atomGAdd f => Sys2Proof.Machine.execAtomGAdd f s
  | .atomGMin f => Sys2Proof.Machine.execAtomGMin f s
  | .atomGMax f => Sys2Proof.Machine.execAtomGMax f s
  | .atomGAnd f => Sys2Proof.Machine.execAtomGAnd f s
  | .atomGOr f => Sys2Proof.Machine.execAtomGOr f s
  | .atomGXor f => Sys2Proof.Machine.execAtomGXor f s
  | .atomGXchg f => Sys2Proof.Machine.execAtomGXchg f s
  | .atomGCas f => Sys2Proof.Machine.execAtomGCas f s
  | .atomYAdd f => Sys2Proof.Machine.execAtomYAdd f s
  | .atomYMin f => Sys2Proof.Machine.execAtomYMin f s
  | .atomYMax f => Sys2Proof.Machine.execAtomYMax f s
  | .atomYAnd f => Sys2Proof.Machine.execAtomYAnd f s
  | .atomYOr f => Sys2Proof.Machine.execAtomYOr f s
  | .atomYXor f => Sys2Proof.Machine.execAtomYXor f s
  | .atomYXchg f => Sys2Proof.Machine.execAtomYXchg f s
  | .atomYCas f => Sys2Proof.Machine.execAtomYCas f s
  | .faddX f => Sys2Proof.Machine.execFaddX f s
  | .faddY64 f => Sys2Proof.Machine.execFaddY64 f s
  | .vupd f => Sys2Proof.Machine.execVupd f s
  | .zfill f => Sys2Proof.Machine.execZfill f s
  | .pref f => Sys2Proof.Machine.execPref f s
  | .mark f => Sys2Proof.Machine.execMark f s
  | .markPair f => Sys2Proof.Machine.execMarkPair f s
  | .fence f => Sys2Proof.Machine.execFence f s
  | .mxl f => Sys2Proof.Machine.execMxl f s
  | .mxr f => Sys2Proof.Machine.execMxr f s
  | .mxw f => Sys2Proof.Machine.execMxw f s
  | .mxc f => Sys2Proof.Machine.execMxc f s
  | .mxz f => Sys2Proof.Machine.execMxz f s
  | .kick f => Sys2Proof.Machine.execKick f s
  | .csend f => Sys2Proof.Machine.execCsend f s
  | .crecv f => Sys2Proof.Machine.execCrecv f s
  | .nop f => Sys2Proof.Machine.execNop f s
  | .headerOnlyBundle => Sys2Proof.Machine.execHeaderOnlyBundle s
  | .br f => Sys2Proof.Machine.execBr f s
  | .jmp f => Sys2Proof.Machine.execJmp f s
  | .call f => Sys2Proof.Machine.execCall f s
  | .ret f => Sys2Proof.Machine.execRet f s
  | .endLanes f => Sys2Proof.Machine.execEndLanes f s
  | .yield f => Sys2Proof.Machine.execYield f s
  | .bar f => Sys2Proof.Machine.execBar f s
  | .wait f => Sys2Proof.Machine.execWait f s
  | .sig f => Sys2Proof.Machine.execSig f s
  | .stint f => Sys2Proof.Machine.execStint f s
  | .launch f => Sys2Proof.Machine.execLaunch f s
  | .join f => Sys2Proof.Machine.execJoin f s
  | .tokenPass f => Sys2Proof.Machine.execTokenPass f s
  | .step f => Sys2Proof.Machine.execStep f s
  | .trap f => Sys2Proof.Machine.execTrap f s
  | .convHold f => Sys2Proof.Machine.execConvHold f s
  | .brk f => Sys2Proof.Machine.execBrk f s
  | .mfcr f => Sys2Proof.Machine.execMfcr f s
  | .mtcr f => Sys2Proof.Machine.execMtcr f s
  | .tilePowerChangeDone t => Sys2Proof.Machine.execTilePowerChangeDone t s
  | .tileWakeDone t => Sys2Proof.Machine.execTileWakeDone t s
  | .huskSave f => Sys2Proof.Machine.execHuskSave f s
  | .huskLoad f => Sys2Proof.Machine.execHuskLoad f s
  | .rte f => Sys2Proof.Machine.execRte f s
  | .tlbinv f => Sys2Proof.Machine.execTlbinv f s
  | .tlbRemoval k ctx => Sys2Proof.Machine.execTlbRemoval k ctx s
  | .tlbinvCompletion id => Sys2Proof.Machine.execTlbinvCompletion id s
  | .semmapW f => Sys2Proof.Machine.execSemmapW f s
  | .semmapR f => Sys2Proof.Machine.execSemmapR f s
  | .preempt f => Sys2Proof.Machine.execPreempt f s
  | .park f => Sys2Proof.Machine.execPark f s
  | .unpark f => Sys2Proof.Machine.execUnpark f s
  | .slotLd f => Sys2Proof.Machine.execSlotLd f s
  | .slotEntryEffect t slot word => Sys2Proof.Machine.execSlotEntryEffect t slot word s
  | .winLd f => Sys2Proof.Machine.execWinLd f s
  | .imgInv f => Sys2Proof.Machine.execImgInv f s
  | .ctxSwout f => Sys2Proof.Machine.execCtxSwout f s
  | .ctxSwin f => Sys2Proof.Machine.execCtxSwin f s
  | .seedOpPush f => Sys2Proof.Machine.execSeedOpPush f s
  | .seedOpPop f => Sys2Proof.Machine.execSeedOpPop f s
  | .seedOpFork f => Sys2Proof.Machine.execSeedOpFork f s
  | .halt f => Sys2Proof.Machine.execHalt f s
  | .attest f => Sys2Proof.Machine.execAttest f s
  | .mcload f => Sys2Proof.Machine.execMcload f s
  | .resultLanding k w => Sys2Proof.Machine.execResultLanding k w s
  | .linBankAccess k w => Sys2Proof.Machine.execLinBankAccess k w s
  | .dfaL1Read k w => Sys2Proof.Machine.execDfaL1Read k w s
  | .loadDataArrival k w id => Sys2Proof.Machine.execLoadDataArrival k w id s
  | .mergeBufferEntry k w id => Sys2Proof.Machine.execMergeBufferEntry k w id s
  | .mergeStep ids => Sys2Proof.Machine.execMergeStep ids s
  | .atomicPerform k w id => Sys2Proof.Machine.execAtomicPerform k w id s
  | .fenceCompletion k w id => Sys2Proof.Machine.execFenceCompletion k w id s
  | .tableWalk k ctx va => Sys2Proof.Machine.execTableWalk k ctx va s
  | .overlayFetch k handle page => Sys2Proof.Machine.execOverlayFetch k handle page s
  | .ldcUnitFill k w id l => Sys2Proof.Machine.execLdcUnitFill k w id l s
  | .copyEngineStart id => Sys2Proof.Machine.execCopyEngineStart id s
  | .copyByteWrite id req => Sys2Proof.Machine.execCopyByteWrite id req s
  | .circuitSend k circuit => Sys2Proof.Machine.execCircuitSend k circuit s
  | .circuitReceive k circuit => Sys2Proof.Machine.execCircuitReceive k circuit s
  | .flitDiscard k circuit => Sys2Proof.Machine.execFlitDiscard k circuit s
  | .mxlStep k => Sys2Proof.Machine.execMxlStep k s
  | .mxlTileWrite k => Sys2Proof.Machine.execMxlTileWrite k s
  | .mxrTileRead k => Sys2Proof.Machine.execMxrTileRead k s
  | .mxrRegisterWrite k => Sys2Proof.Machine.execMxrRegisterWrite k s
  | .mxwTileWrite k => Sys2Proof.Machine.execMxwTileWrite k s
  | .mxzTileWrite k => Sys2Proof.Machine.execMxzTileWrite k s
  | .mxcTileRead k => Sys2Proof.Machine.execMxcTileRead k s
  | .mxcSlabWrite k => Sys2Proof.Machine.execMxcSlabWrite k s
  | .tileBarrierRelease t => Sys2Proof.Machine.execTileBarrierRelease t s
  | .barrierRelease g => Sys2Proof.Machine.execBarrierRelease g s
  | .stintStart k ctx => Sys2Proof.Machine.execStintStart k ctx s
  | .stintOverrun k w => Sys2Proof.Machine.execStintOverrun k w s
  | .watchdog k w r => Sys2Proof.Machine.execWatchdog k w r s
  | .pendingTrap k w r => Sys2Proof.Machine.execPendingTrap k w r s
  | .handlerWaveStart k => Sys2Proof.Machine.execHandlerWaveStart k s
  | .preemptSafePointStop k w r => Sys2Proof.Machine.execPreemptSafePointStop k w r s
  | .preemptForcedStop k w => Sys2Proof.Machine.execPreemptForcedStop k w s
  | .parkedShareSwitch k ctx => Sys2Proof.Machine.execParkedShareSwitch k ctx s
  | .joinSwapOut g => Sys2Proof.Machine.execJoinSwapOut g s
  | .joinReturn g => Sys2Proof.Machine.execJoinReturn g s
  | .retiringRelease g => Sys2Proof.Machine.execRetiringRelease g s
  | .groupRetire g => Sys2Proof.Machine.execGroupRetire g s
  | .packetTake q => Sys2Proof.Machine.execPacketTake q s
  | .packetStart q seq => Sys2Proof.Machine.execPacketStart q seq s
  | .dependenceRead q seq => Sys2Proof.Machine.execDependenceRead q seq s
  | .packetCompletion q seq => Sys2Proof.Machine.execPacketCompletion q seq s
  | .pendingLaunchRemoval g => Sys2Proof.Machine.execPendingLaunchRemoval g s
  | .groupPlacement grid => Sys2Proof.Machine.execGroupPlacement grid s
  | .scratchpadScatterWrite k w id => Sys2Proof.Machine.execScratchpadScatterWrite k w id s
  | .controlRegisterHoldEnd k w r => Sys2Proof.Machine.execControlRegisterHoldEnd k w r s
  | .privilegedOperationCompletion id => Sys2Proof.Machine.execPrivilegedOperationCompletion id s
  | .hostqDoorbell q v link => Sys2Proof.Machine.execHostqDoorbell q v link s
  | .hostqCfgEnable q on => Sys2Proof.Machine.execHostqCfgEnable q on s
  | .hostqCfgReset q => Sys2Proof.Machine.execHostqCfgReset q s
  | .diePartWrite layout => Sys2Proof.Machine.execDiePartWrite layout s
  | .tilePwrReqRun t => Sys2Proof.Machine.execTilePwrReqRun t s
  | .tilePwrReqRetain t => Sys2Proof.Machine.execTilePwrReqRetain t s
  | .tilePwrReqOff t => Sys2Proof.Machine.execTilePwrReqOff t s
  | .tilePwrReqFence t on => Sys2Proof.Machine.execTilePwrReqFence t on s
  | .tileWake t => Sys2Proof.Machine.execTileWake t s
  | .cmdNop q seq => Sys2Proof.Machine.execCmdNop q seq s
  | .cmdLaunch q seq => Sys2Proof.Machine.execCmdLaunch q seq s
  | .seedPush q seq => Sys2Proof.Machine.execSeedPush q seq s
  | .seedPop q seq => Sys2Proof.Machine.execSeedPop q seq s
  | .seedFork q seq => Sys2Proof.Machine.execSeedFork q seq s
  | .ysemAdd q seq => Sys2Proof.Machine.execYsemAdd q seq s
  | .barnEntry ctx e => Sys2Proof.Machine.execBarnEntry ctx e s
  | .form h domain p rank step => Sys2Proof.Machine.execForm h domain p rank step s
  | .write h domain entries => Sys2Proof.Machine.execWrite h domain entries s
  | .wack h ctx a => Sys2Proof.Machine.execWack h ctx a s
  | .read h domain window offset n body => Sys2Proof.Machine.execRead h domain window offset n body s
  | .arrive h d rank refused => Sys2Proof.Machine.execArrive h d rank refused s
  | .apply h d discard => Sys2Proof.Machine.execApply h d discard s
  | .conflict h ctx rank at_ => Sys2Proof.Machine.execConflict h ctx rank at_ s
  | .applied h d rank conflict => Sys2Proof.Machine.execApplied h d rank conflict s
  | .release h d outcome stamp => Sys2Proof.Machine.execRelease h d outcome stamp s
  | .heartbeat h domain => Sys2Proof.Machine.execHeartbeat h domain s
  | .heartbeatLoss domain peer => Sys2Proof.Machine.execHeartbeatLoss domain peer s
  | .fail h d rank => Sys2Proof.Machine.execFail h d rank s
  | .ualinkPacketArrival src ctx flow ordered seq dst data => Sys2Proof.Machine.execUalinkPacketArrival src ctx flow ordered seq dst data s
  | .packetRetryTimeout dst ctx flow seq => Sys2Proof.Machine.execPacketRetryTimeout dst ctx flow seq s
  | .ptpEventMessage p => Sys2Proof.Machine.execPtpEventMessage p s
  | .cxlMemRead a n => Sys2Proof.Machine.execCxlMemRead a n s
  | .cxlMemWrite a data => Sys2Proof.Machine.execCxlMemWrite a data s
  | .bar0InvalidAccess a data => Sys2Proof.Machine.execBar0InvalidAccess a data s
  | .setEndpointId eid => Sys2Proof.Machine.execSetEndpointId eid s
  | .getEndpointId => Sys2Proof.Machine.execGetEndpointId s
  | .getMctpVersionSupport mtype => Sys2Proof.Machine.execGetMctpVersionSupport mtype s
  | .getMessageTypeSupport => Sys2Proof.Machine.execGetMessageTypeSupport s
  | .getId => Sys2Proof.Machine.execGetId s
  | .setId id => Sys2Proof.Machine.execSetId id s
  | .pathWrite dst entry => Sys2Proof.Machine.execPathWrite dst entry s
  | .domainWrite domain p ids => Sys2Proof.Machine.execDomainWrite domain p ids s
  | .ptpConfig gm dom => Sys2Proof.Machine.execPtpConfig gm dom s
  | .attestRun q seq nonce => Sys2Proof.Machine.execAttestRun q seq nonce s
  | .haltRelease core => Sys2Proof.Machine.execHaltRelease core s
  | .clockReduction khz => Sys2Proof.Machine.execClockReduction khz s
  | .unitRetirement u => Sys2Proof.Machine.execUnitRetirement u s
  | .patrolScrub addr => Sys2Proof.Machine.execPatrolScrub addr s
  | .moduleReset => Sys2Proof.Machine.execModuleReset s

end Sys2Proof.Machine
end

