-- ==== Sys2Proof/Machine/Select.lean ====
section
/-!
DEFINITION. The choice of the bundle that a core issues in a cycle (R31, R42-R44, R229, R404-R406), what stands against the
others (R59, R218, R276, R298), and the issue itself: merging, checks, the slots in their order, and what follows them
(R58, R73, R193-R196, R216, R217, R295).
-/

namespace Sys2Proof.Machine

open Sys2Proof

/-! ### How a split stands -/

/-- How a split stands in this cycle: not due; held, and whether at a BAR; able to issue, or to trap at issue; kept by a
busy unit; or unable to fetch, which traps when it is chosen. -/
inductive Standing
  | idle
  | held (k : HoldKind) (bar : Bool)
  | ready
  | busy
  | mismatch (code : TrapCode)
  | bad (t : TrapInfo)
  deriving DecidableEq, Repr

/-- The bundle's c slot is a BAR. -/
def hasBar (b : Bundle) : Bool := match b.c with
  | some (.bar _) => true
  | _ => false

/-- The standing that a verdict gives. -/
def standingOf (b : Bundle) : Verdict → Standing
  | .hold h => .held h (hasBar b)
  | .busy => .busy
  | .trap .collExited _ => .mismatch .collExited
  | .trap .collMismatch _ => .mismatch .collMismatch
  | _ => .ready

/-- The standing of a split that fetches a bundle: decode, then the header's wait, then the other checks. -/
def standingAt (s : State) (k : CoreId) (w : SlotId) (r : RecId) (b : Bundle) (n : Option Word) : Standing :=
  let st := standAt s k w r b n
  match firstOf (bundlePhase st b.slots 0 :: b.slots.map fun i => phase st i 0) with
  | .go => if headerReady s k (s.wave k w) b then standingOf b (bundleVerdict st b.slots) else .held .wait false
  | _ => .ready

/-- The standing of a split. -/
def standing (s : State) (k : CoreId) (w : SlotId) (r : RecId) : Standing :=
  let x := s.wave k w
  let y := x.splits[r]
  if !x.live || y.state ≠ .runnable || y.gap ≠ 0 || y.pend ≠ [] then .idle
  else match afterHold s k x r with
    | some h => .held h false
    | none => match fetch s k x y with
      | .ok b n => standingAt s k w r b n
      | .stall _ => .held .translation false
      | .bound => .bad { code := .fetchBound }
      | .illegal => .bad { code := .encIllegal }
      | .fault c a => .bad { code := c, addr := a }

/-- The standings of a core's splits. -/
def standings (s : State) (k : CoreId) : List (SlotId × RecId × Standing) :=
  (coreRecs s k).map fun x => (x.1, x.2, standing s k x.1 x.2)

def standingIn (l : List (SlotId × RecId × Standing)) (w : SlotId) (r : RecId) : Standing :=
  ((l.find? fun x => x.1 = w && x.2.1 = r).map (·.2.2)).getD .idle

/-! ### What is noted of the splits that do not issue -/

/-- The hold that a standing is. -/
def Standing.hold : Standing → Option HoldKind
  | .held h _ => some h
  | .mismatch _ => some .collective
  | _ => none

/-- Notes every split's hold of this cycle. -/
def noteHolds (k : CoreId) (l : List (SlotId × RecId × Standing)) (s : State) : State :=
  l.foldl (fun s x => onSplit k x.1 x.2.1 (fun y => { y with hold := x.2.2.hold }) s) s

/-- A split of a COROUTINE group's current wave has reached a BAR: the role passes (R44, R406). -/
def reachBars (k : CoreId) (before : State) (l : List (SlotId × RecId × Standing)) (s : State) : State :=
  l.foldl (fun s x =>
    let w := before.wave k x.1
    match x.2.2 with
    | .held .collective true =>
      if w.det = 2 && w.kind = .compute && (w.splits[x.2.1]).hold ≠ some .collective then passRole w.group w.windex s else s
    | _ => s) s

/-- Held collectives that can never come together trap, whichever split the core chooses (R230, R276, R411; log entry 37, DEDUCED). -/
def trapMismatches (k : CoreId) (l : List (SlotId × RecId × Standing)) (s : State) : State :=
  l.foldl (fun s x => match x.2.2 with
    | .mismatch c => trapSplit k x.1 x.2.1 { code := c } ((s.wave k x.1).splits[x.2.1]).mask s
    | _ => s) s

/-- The held splits of groups that stand at BARs and collectives with no way on (R230). -/
def stuckSplits (k : CoreId) (s : State) : List (SlotId × RecId) :=
  (s.groups.filter fun g => g.core = k && g.state = .running && barMismatch s g).flatMap fun g =>
    (groupWaves s g).flatMap fun y => if y.2.kind = .shadow then [] else (liveRecs y.2).map fun r => (y.1, r)

/-- COLL_MISMATCH in each of them that has not trapped. -/
def trapStuck (k : CoreId) (l : List (SlotId × RecId)) (s : State) : State :=
  l.foldl (fun s x => if ((s.wave k x.1).splits[x.2]).state = .trapped then s
    else trapSplit k x.1 x.2 { code := .collMismatch } ((s.wave k x.1).splits[x.2]).mask s) s

/-! ### Walks and overlay reads that begin (R196, R298, R440) -/

/-- Addresses without a known translation that a bundle needs, each slot's with the operands that it reads (R58, R296). -/
def missingVas (s : State) (b : Bundle) : List DWord :=
  (slotStates s b.slots).flatMap fun x =>
    (match mInfo x.2 with
      | some (w, n) => (lanesOf s.is.mask).flatMap fun l => laneVas x.1 w n l
      | none => cVas x.1 x.2).filter fun va => translated s s.issue.core s.iw.ctx va = Known.no

/-- The tile's second-level entry for an address, walked under the context's present generation (R443, R444). -/
def tileTlb (s : State) (k : CoreId) (c : CtxId) (va : DWord) : Option Tlb :=
  (s.tiles[coreTile k]).tlb.find? fun t => t.covers c va && t.gen = (s.ctx c).gen

/-- A walk in progress for an address's 64 KiB page. -/
def Walk.runsFor (w : Walk) (c : CtxId) (va : DWord) : Bool := w.ctx = c && w.failed.isNone && w.va.toNat / 65536 = va.toNat / 65536

/-- An access asks for an address's translation: a walk begins for the page, unless one is under way, which the access then
waits for too, or the tile's TLB has the entry (R440, R442). -/
def startWalk (k : CoreId) (c : CtxId) (who : Nat × RecId × Word) (s : State) (va : DWord) : State :=
  let join (w : Walk) : Walk := if w.runsFor c va && !w.askers.contains who then { w with askers := who :: w.askers } else w
  if (s.core k).walks.any fun w => w.runsFor c va then onCore k (fun x => { x with walks := x.walks.map join }) s
  else match tileTlb s k c va with
  | some t => onCore k (fun x => { x with tlb := fillTlb 256 (Config.choice s.free) t x.tlb }) { s with free := s.free + 1 }
  | none =>
    onCore k (fun x => { x with walks := x.walks ++ [⟨c, va, s.cycle + 1 + Config.latency s.free, none, [who]⟩] }) { s with free := s.free + 1 }

/-- An overlay read begins at its miss, if none is under way for the page; it is translated there (R196, R444). -/
def startOverlay (k : CoreId) (im : Image) (page : Nat) (s : State) : State :=
  if overlayRuns (s.core k) im.handle page then s
  else match overlayRanges s im page with
  | .ok src =>
    onCore k (fun x => { x with overlays := x.overlays ++ [⟨im.handle, im.ctx, page, s.cycle + 1 + Config.latency s.free, src, false⟩] })
      { s with free := s.free + 1 }
  | .error _ => s

/-- What a split held for a translation or a fetch asks for. -/
def askFor (k : CoreId) (s : State) (w : SlotId) (r : RecId) : State :=
  let x := s.wave k w
  match fetch s k x x.splits[r] with
  | .ok b n =>
    let st := standAt s k w r b n
    (missingVas st b).foldl (startWalk k x.ctx st.asker) s
  | .stall page => (match s.image? x.ctx x.image with
    | some im => startOverlay k im page s
    | none => s)
  | _ => s

/-- The access that asked for a walk still stands at its bundle. -/
def askStands (c : Core) (who : Nat × RecId × Word) : Bool :=
  match c.find who.1 with
  | some x => (x.2.splits[who.2.1]).state = .runnable && (x.2.splits[who.2.1]).pc = who.2.2
  | none => false

/-- Accesses that have been stopped or have gone ask no more (R442). -/
def pruneAsks (c : Core) : Core :=
  if c.walks = [] then c
  else { c with walks := (c.walks.map fun w => { w with askers := w.askers.filter (askStands c) }).filter fun w => w.failed.isNone || w.askers ≠ [] }

def askAll (k : CoreId) (l : List (SlotId × RecId × Standing)) (s : State) : State :=
  l.foldl (fun s x => match x.2.2 with
    | .held .translation _ => askFor k s x.1 x.2.1
    | _ => s) s

/-! ### The split of a wave (R31) -/

/-- The standing lets the split be chosen. -/
def Standing.able : Standing → Bool
  | .ready | .busy | .bad _ => true
  | _ => false

/-- Two splits stand at the same place. -/
def samePlace (x y : Split) : Bool := x.pc = y.pc && x.lost = y.lost

/-- Another resident split at the same place is not yet able to issue (R31, step 4). -/
def waitsForOther (l : List (SlotId × RecId × Standing)) (w : SlotId) (x : Wave) (r : RecId) : Bool :=
  x.liveSplits.any fun y => y.1 ≠ r && y.2.state ≠ .trapped && y.2.state ≠ .parked && samePlace y.2 x.splits[r]
    && !(standingIn l w y.1).able

/-- The first of two records: an age of 63 wins, then the lower PC, then the lower lowest lane. -/
def firstSplit (x : Wave) (a b : RecId) : Bool :=
  let p := x.splits[a]
  let q := x.splits[b]
  let old (y : Split) : Bool := 63 ≤ y.age
  if old p = old q then beforePc (p.pc, p.mask) (q.pc, q.mask) else old p

/-- The split that a wave would issue. -/
def chooseSplit (l : List (SlotId × RecId × Standing)) (w : SlotId) (x : Wave) : Option RecId :=
  ((liveRecs x).filter fun r => (standingIn l w r).able && !waitsForOther l w x r).foldl (fun b r => match b with
    | none => some r
    | some q => if firstSplit x r q then some r else some q) none

/-! ### The wave of a core (R43, R405) -/

/-- A ready wave, the split it would issue, and whether a busy unit skips it. -/
structure Cand where
  slot : SlotId
  wave : Wave
  split : RecId
  busy : Bool
  deriving DecidableEq, Repr

/-- A wave may be ready: of a COROUTINE group's compute waves only the current one (R44). -/
def roleAllows (s : State) (x : Wave) : Bool :=
  x.det ≠ 2 || x.kind ≠ .compute || (match s.group? x.group with
    | some g => g.cur = x.windex
    | none => true)

/-- The ready waves of a core. -/
def candidates (s : State) (k : CoreId) (l : List (SlotId × RecId × Standing)) : List Cand :=
  (s.core k).liveWaves.filterMap fun x =>
    if !roleAllows s x.2 then none
    else (chooseSplit l x.1 x.2).map fun r => ⟨x.1, x.2, r, standingIn l x.1 r = .busy⟩

/-- The logical wave index as a key (R41; log entry 36, DEDUCED). -/
def Cand.key (c : Cand) : List Nat := [c.wave.cls, c.wave.order, c.wave.windex, (c.wave.kind = .shadow : Bool).toNat]

/-- The lowest key. -/
def lowestKey (l : List Cand) : Option Cand :=
  l.foldl (fun b c => match b with
    | none => some c
    | some d => if c.key < d.key then some c else some d) none

/-- A wave that has yielded stands back while any other wave is ready (R229). -/
def standsBack (s : State) (all : List Cand) (c : Cand) : Bool := s.cycle ≤ c.wave.yieldTo && all.any fun d => d.slot ≠ c.slot

/-- The wave that issues: a stint, a class-0 wave, a FREE wave passed over for 64 cycles, the lowest index. -/
def pick (s : State) (all : List Cand) : Option Cand :=
  let open_ := all.filter fun c => !c.busy
  let plain := open_.filter fun c => c.wave.kind ≠ .stint
  match open_.find? fun c => c.wave.kind = .stint with
  | some c => some c
  | none => match lowestKey (plain.filter fun c => c.wave.cls = 0) with
    | some c => some c
    | none => match lowestKey (plain.filter fun c => c.wave.det ≠ 2 && c.wave.age = 64) with
      | some c => some c
      | none => lowestKey (plain.filter fun c => !standsBack s all c)

/-- Notes which waves were ready and have not issued (R404). -/
def noteWaits (k : CoreId) (all : List Cand) (s : State) : State :=
  all.foldl (fun s c => onWave k c.slot (fun x => { x with waited := true }) s) s

/-! ### The issue -/

/-- Other splits of the wave that merge into the chosen one (R31, step 5). -/
def mergers (x : Wave) (r : RecId) : List RecId :=
  (liveRecs x).filter fun q => q ≠ r && (x.splits[q]).state = .runnable && samePlace x.splits[q] x.splits[r]

/-- The chosen split with those merged into it: their lanes join, their records are free (R31, R60). What one of them keeps from
a lane fault at this bundle, the base register's value or a queue slot, the re-issue uses for all of the joined lanes, and it
makes no post-increment (R295, R426; log entry 137, DESIGN CHOICE). -/
def Wave.merge (x : Wave) (r : RecId) : Wave :=
  let qs := mergers x r
  let join (y : Split) (q : RecId) : Split :=
    { y with mask := y.mask ||| (x.splits[q]).mask, abase := y.base?.or (x.splits[q]).base?, qslot := y.slot?.or (x.splits[q]).slot?,
             apc := y.pc }
  let splits := qs.foldl (fun v q => v.set q Split.empty) (x.splits.set r (qs.foldl join x.splits[r]))
  { x with splits := splits }.refill 4

/-- The semaphores that a wave's splits have waited for since their last bundle, and the header's (R152). -/
def waitedSems (x : Wave) (rs : List RecId) (b : Bundle) : List Byte :=
  (if b.hdr.waitEn then [b.hdr.waitSem] else []) ++ rs.filterMap fun r => match (x.splits[r]).after with
    | .wait v _ => some v
    | _ => none

/-- The wave observes what the completions that it waited for bring (R141, R152). -/
def observeWaits (k : CoreId) (w : SlotId) (sems : List Byte) (s : State) : State :=
  let x := s.wave k w
  observe k w x.uid s.nextId (semGain s k x.ctx sems) s

/-- Notes that a dictionary page has been fetched from (R196). -/
def touchPage (k : CoreId) (w : SlotId) (pc : Word) (s : State) : State :=
  let x := s.wave k w
  match (s.image? x.ctx x.image).bind fun im => im.stream[pc.toNat]? with
  | some u => if u = 0xFFFF then s else onCore k (fun c => { c with dict := c.dict.map fun p =>
      if p.image = x.image && p.page = u.toNat / 64 then { p with last := s.cycle } else p }) s
  | none => s

/-- The wave's other splits in state 1, runnable, are one issue older; not those held at a collective, barrier or queue (R28). -/
def Wave.ageOthers (x : Wave) (r : RecId) : Wave :=
  { x with splits := ((idxs 4).foldl (fun v q =>
      if q ≠ r && stateCode x.splits[q] = 1 then vset v q (fun y => { y with age := min 63 (y.age + 1) }) else v) x.splits) }

/-- The issue cycle's start: the split's hold after issue is over, its waits have been observed, the other splits age, and
the header's signal performs (R28, R73). Its reads of unsettled registers take their free values (R63). -/
def openBundle (b : Bundle) (sems : List Byte) (s : State) : State :=
  let k := s.issue.core
  let w := s.issue.slot
  let s := if s.iw.unsettled = [] then s else { s with free := s.free + bundleDraws }
  let s := dropAsks s.asker (onIssue (fun i => { i with checked := true, result := .issued }) s)
  let s := onIw (fun x => { x.ageOthers s.issue.split with waited := false }) s
  let s := onIs (fun y => { y with after := .none }) s
  let s := touchPage k w s.issue.pc (observeWaits k w sems s)
  if b.hdr.sigEn then signal b.hdr.sigSem b.hdr.sigInc s else s

/-- Runs what comes after a step that has a next state. -/
def thenRun (o : Host.Outcome State Fault Refusal) (f : State → Host.Outcome State Fault Refusal) : Host.Outcome State Fault Refusal :=
  match o with
  | .next s => f s
  | .fault e => .fault e
  | .refused e => .refused e

/-- The instructions of a bundle; a bundle without slots has a row of its own (R198). -/
def bundleWork (b : Bundle) : List Instr := if b.slots = [] then [.headerOnlyBundle] else b.slots

/-- Executes instructions in order. -/
def runSlots : List Instr → State → Host.Outcome State Fault Refusal
  | [], s => .next s
  | i :: l, s => thenRun (exec i s) (runSlots l)

/-- Pops leave the window; a MARK.PAIR that a popped slot carries holds the wave's later accesses back (R35, R58, R139). -/
def QWindow.pop (x : QWindow) (n : Nat) : QWindow :=
  { x with head := Fin.ofNat 16 (x.head.val + n), count := x.count - n, headSeq := x.headSeq + BitVec.ofNat 32 n }

def Wave.pops (x : Wave) (n : Nat) : Wave :=
  let marks := (List.range n).filterMap fun i => (x.window.slots[Fin.ofNat 16 (x.window.head.val + i)]).mark
  { x with window := x.window.pop n, holdAfter := (marks.getLast?).or x.holdAfter }

/-- The post-increment of a bundle; a c-slot write of the same register wins (R216, R295). -/
def Wave.postIncrement (x : Wave) (i : Issue) : Wave :=
  match i.postinc with
  | some (a, v) => if i.cdest = some a then x else x.writeA a v
  | none => x

/-- The end of the issue: pops, post-increment, the c slot's predicates, and the next PC where no slot has set it
(R58, R216, R217). A wave that has ended or gone has no more of it. -/
def closeBundle (uid : Nat) (s : State) : State :=
  if !s.iw.live || s.iw.uid ≠ uid then s
  else
    let i := s.issue
    let s := onIw (fun x => (x.pops i.pops).postIncrement i) s
    let s := onIw (fun x => i.preds.foldl (fun x p => x.writeP p.1 p.2.2 p.2.1) x) s
    if i.flow then s else onIs (fun y => (y.close i.hdr.gap.val).goTo i.next) s

/-- A bundle whose checks have all passed issues. -/
def runBundle (b : Bundle) (sems : List Byte) (s : State) : Host.Outcome State Fault Refusal :=
  let uid := s.iw.uid
  thenRun (runSlots (bundleWork b) (openBundle b sems s)) fun s => .next (closeBundle uid s)

/-- What keeps a bundle from issuing after all: its split is held, waits for a unit, or traps as a whole. -/
def stopBundle (v : Verdict) (s : State) : State :=
  match v with
  | .hold h => markHeld h s
  | .busy => markBusy s
  | .trap c a => dropAsks s.asker (trapIssue { code := c, addr := a } s.is.mask s)
  | _ => s

/-- The chosen split at its bundle: checks in their order, lanes that fault split off, and the bundle for the rest. -/
def tryBundle (b : Bundle) (sems : List Byte) (s : State) : Host.Outcome State Fault Refusal :=
  match bundleVerdict s b.slots with
  | .go => runBundle b sems s
  | .faults l =>
    let (en, base) := match b.m with
      | some i => mEnabled s i
      | none => (0, none)
    let (go, t) := faultLanes l en base s
    let t := dropAsks s.asker t
    if go then
      match lateVerdict t b.slots with
      | .go => runBundle b sems t
      | v => .next (stopBundle v t)
    else .next t
  | v => .next (stopBundle v s)

/-- A chosen split issues: those at its PC merge into it; one that cannot fetch traps (R31, R194, R196; log entry 34, DEDUCED). -/
def issueSplit (k : CoreId) (w : SlotId) (r : RecId) (s : State) : Host.Outcome State Fault Refusal :=
  let x := s.wave k w
  let rs := r :: mergers x r
  let s := onWave k w (fun x => x.merge r) s
  let y := (s.wave k w).splits[r]
  match fetch s k (s.wave k w) y with
  | .ok b n =>
    let sems := waitedSems x rs b
    tryBundle b sems (standAt (observeSems k w (sems.filterMap fun v => semPhys s k x.ctx v) s) k w r b n)
  | .bound => .next (trapSplit k w r { code := .fetchBound } y.mask s)
  | .illegal => .next (trapSplit k w r { code := .encIllegal } y.mask s)
  | .fault c a => .next (trapSplit k w r { code := c, addr := a } y.mask s)
  | .stall _ => .next s

/-- The core's clock-driven work before the choice: this cycle's holds, roles, collective traps, walks and overlay reads. -/
def prepare (k : CoreId) (s : State) : State :=
  let s := onCore k pruneAsks s
  let l := standings s k
  let t := noteHolds k l s
  let l := standings t k
  let t := noteHolds k l t
  trapStuck k (stuckSplits k t) (trapMismatches k l (askAll k l (reachBars k s l t)))

/-- A core issues in this cycle: its tile runs and it is not halted (R383, R483). -/
def coreRuns (s : State) (k : CoreId) : Bool := !(s.core k).halted && (s.tiles[coreTile k]).state = .running

/-- One cycle's issue of a core (R43). -/
def issueCore (k : CoreId) (s : State) : Host.Outcome State Fault Refusal :=
  if !coreRuns s k then .next s
  else
    let s := prepare k s
    let l := standings s k
    let all := candidates s k l
    let s := noteWaits k all s
    match pick s all with
    | some c => issueSplit k c.slot c.split s
    | none => .next s

end Sys2Proof.Machine
end

