-- ==== Sys2Proof/Machine/Cycle.lean ====
section
/-!
DEFINITION. A cycle of the package: what its end does (R59-R61, R71, R151, R230, R240, R241, R404, R434), and the order of
what happens in it, which is the agenda of the next one (log entry 1).
-/

namespace Sys2Proof.Machine

open Sys2Proof

/-! ### The clocks of splits (R59-R61, R77) -/

/-- The split's clock ticks: it has issued, or its gap runs (log entry 47, DEDUCED). -/
def Split.ticks (x : Split) : Bool := x.state = .runnable && (x.issued || x.gap ≠ 0)

/-- A split at the end of a cycle. -/
def Split.tick (x : Split) : Split :=
  match x.state with
  | .runnable =>
    let x := { x with held := if x.hold.isSome then x.held + 1 else 0 }
    if x.issued then { x with tau := x.tau + 1, issued := false }
    else if x.gap ≠ 0 then { x with tau := x.tau + 1, gap := x.gap - 1 }
    else x
  | .resuming => { x with state := .runnable, issued := false }
  | _ => { x with issued := false }

def StackSplit.tick (x : StackSplit) : StackSplit := if x.issued then { x with tau := x.tau + 1, issued := false } else x

/-- The lanes whose clock ticks. -/
def Wave.ticking (x : Wave) : Mask :=
  let m := (idxs 4).foldl (fun m r => if (x.splits[r]).ticks then m ||| (x.splits[r]).mask else m) (0 : Mask)
  x.stack.foldl (fun m y => if y.issued then m ||| y.mask else m) m

/-- A wave at the end of a cycle: its age, its splits' clocks, and what counts down on them. A `.lin` store counts in
exited lanes too. -/
def Wave.tick (x : Wave) : Wave :=
  let m := x.ticking
  { x with
    age := if x.waited then min 64 (x.age + 1) else 0
    waited := false
    splits := vmap Split.tick x.splits
    stack := x.stack.map StackSplit.tick
    flights := x.flights.map fun f => { f with left := tickLanes m f.left }
    lins := x.lins.map fun o => { o with left := tickLanes (if o.store then m ||| x.exited else m) o.left }
    dfas := x.dfas.map fun o => { o with left := tickLanes m o.left } }

/-- A matrix operation counts on its owner lane's clock, an MXR's results on every lane's (R322, R330); the step results of
the tick that ends are in the latch (R471). -/
def tickMx (c : Core) (o : MxOp) : MxOp :=
  if !mxPresent c o then o
  else
    let m := (c.waves[o.slot]).ticking
    MxOp.settle { o with t := if laneBit m o.lane then o.t + 1 else o.t, left := tickLanes m o.left }

/-! ### What leaves a core's queues -/

/-- A queue entry has nothing left to do: a mark whose accesses have performed, a filled queue load none of whose slots
is in the window any more. -/
def opOver (c : Core) (o : MemOp) : Bool :=
  match o.kind with
  | .mark => issuedPerformed c o.wave o.slot o.id
  | .qload => o.left = 0 && o.failed = 0 && (match partnerOf c o.slot with
    | some (_, x) => c.waves[o.slot].uid ≠ o.wave || x.window.heldBy o = []
    | none => true)
  | _ => false

/-- Names of writes that are still short of .k. -/
def liveIds (c : Core) (l : List Nat) : List Nat := l.filter fun i => c.merge.any fun e => e.id = i

/-- What the core no longer needs is dropped: entries that are over, transfers of past cycles, names of writes at .k. -/
def tidyCore (cycle : Nat) (c : Core) : Core :=
  { c with
    ops := c.ops.filter fun o => !opOver c o
    armed := c.armed.filter fun a => cycle < a.cycle
    lastG := c.lastG.filter fun x => cycle ≤ x.2
    semObs := (c.semObs.map fun x => (x.1, liveIds c x.2)).filter fun x => x.2 ≠ []
    waves := vmap (fun x => if x.obs = [] then x else { x with obs := liveIds c x.obs }) c.waves }

/-- A core holds nothing that moves. -/
def coreStill (c : Core) : Bool :=
  c.liveWaves = [] && c.ops = [] && c.mx = [] && c.armed = [] && c.semObs = [] && c.lastG = [] && c.merge = []

/-- A core at the end of a cycle. -/
def tickCore (cycle : Nat) (c : Core) : Core :=
  if coreStill c then c
  else
    let ws := vmap (fun x => if x.live then x.tick else x) c.waves
    tidyCore cycle { c with mx := (c.mx.map fun o => mxRetry ws[o.slot] (tickMx c o)).filter (fun o => !mxcOver o), waves := ws }

/-! ### Groups and waves -/

/-- A group at the end of a cycle (R240, R241). -/
def tickGroup (s : State) (g : Group) : Group :=
  let g := if g.state = .running && allEnded g && (g.children ≠ 0 || g.launchQ ≠ []) then { g with state := .retiring, retireFor := 0 } else g
  match g.state with
  | .running => { g with joinFor := if groupAtJoin s g then g.joinFor + 1 else 0 }
  | .retiring => { g with retireFor := g.retireFor + 1 }
  | _ => g

/-- PREEMPT requests of waves that have stopped complete (R376). -/
def preemptDuties (k : CoreId) (s : State) : State :=
  ((s.core k).liveWaves.filter fun x => x.2.preempt.isSome && x.2.stopped).foldl (fun s x => donePreempt k x.1 s) s

/-- Ordering parts of accesses without an enabled lane that have been met leave their queues (R147). -/
def maskedDuties (k : CoreId) (s : State) : State :=
  if (s.core k).ops.any fun o => maskedReady s k o
  then onCore k (fun c => { c with ops := c.ops.filter fun o => !maskedReady s k o }) s else s

/-! ### The agenda of a cycle -/

def ev (i : Instr) : Activity := .event i

/-- An event for each element of a list. -/
def evs {α : Type} (l : List α) (f : α → Instr) : List Activity := l.map fun x => .event (f x)

/-- Matrix work that is due on a core: one event for each operation. -/
def mxEvents (c : Core) (f : MxOp → Bool) (i : Instr) : List Activity := (c.mx.filter fun m => f m && mxRuns c m).map fun _ => .event i

/-- Results and register writes that land at the start of the cycle (R61, R330). -/
def landings (k : CoreId) (c : Core) : List Activity :=
  (if c.mx.any fun m => mxrDue c m ≠ 0 then [ev (.mxrRegisterWrite k)] else [])
    ++ evs (c.liveWaves.filter fun x => x.2.flights.any fun f => f.due ≠ 0) fun x => .resultLanding k x.1

/-- Matrix steps whose banks circuit traffic takes: their owners trap before they issue (R328, R335). -/
def bankConflicts (s : State) (k : CoreId) (c : Core) : List Activity :=
  if c.armed = [] then []
  else mxEvents c (fun m => mxlStepDue m && circuitTakes s k (mxRanges m)) (.mxlStep k)
    ++ mxEvents c (fun m => mxcWriteDue m && circuitTakes s k (mxRanges m)) (.mxcSlabWrite k)

/-- A wave in which a tick trap may wait (R411). -/
def mayTrap (c : Core) (x : Wave) : Bool :=
  (x.liveSplits.any fun y => y.2.pend ≠ []) || x.flights.any (fun f => f.faults ≠ 0) || (c.armed ≠ [] && c.mx.any fun m => m.wave = x.uid)

/-- Operations on a core whose held split has ended: they perform all the same (R362, R371, R385). -/
def orphanEvents (s : State) (k : CoreId) : List Activity :=
  (s.privOps.filter fun p => p.core = k && p.held k && (holder s p).isNone).flatMap fun p =>
    match (idxs 4).find? fun r => match ((s.wave k p.slot).splits[r]).after with
      | .done _ => false
      | _ => true with
    | some r => [ev (.controlRegisterHoldEnd k p.slot r)]
    | none => []

/-- Tick traps, handler waves, pre-emption stops, and the ends of holds after issue. -/
def trapEvents (s : State) (k : CoreId) (c : Core) : List Activity :=
  let ws := c.liveWaves
  (ws.flatMap fun x => evs ((liveRecs x.2).filter fun r => (x.2.splits[r]).hold.isSome && (s.ctx x.2.ctx).watchdog ≠ 0
      && (s.ctx x.2.ctx).watchdog.toNat ≤ (x.2.splits[r]).held) fun r => .watchdog k x.1 r)
    ++ (ws.flatMap fun x => if mayTrap c x.2 then evs (liveRecs x.2) fun r => .pendingTrap k x.1 r else [])
    ++ (if c.trapQ = [] && c.trapWait = [] then [] else [ev (.handlerWaveStart k)])
    ++ (ws.flatMap fun x => match x.2.preempt with
      | some p => if p.deadline ≤ s.cycle then [ev (.preemptForcedStop k x.1)] else evs (liveRecs x.2) fun r => .preemptSafePointStop k x.1 r
      | none => [])
    ++ (ws.flatMap fun x => evs ((liveRecs x.2).filter fun r => match (x.2.splits[r]).after with
      | .done _ => true
      | _ => false) fun r => .controlRegisterHoldEnd k x.1 r)
    ++ orphanEvents s k
    ++ evs (s.privOps.filter fun p => p.core = k && p.due ≤ s.cycle && (match p.kind with
      | .mtcr .. => true
      | _ => false)) fun p => .privilegedOperationCompletion p.id

/-- Stints and barriers (R46, R230, R407). -/
def startEvents (s : State) (k : CoreId) (c : Core) : List Activity :=
  evs (c.liveWaves.filter fun x => match x.2.stint with
      | some r => r.deadline ≤ s.cycle
      | none => false) (fun x => .stintOverrun k x.1)
    ++ evs ((idxs 64).filter fun x => c.stints.any fun e => e.ctx = x) (fun x => .stintStart k x)
    ++ evs (s.groups.filter fun g => g.core = k && g.state = .running && (groupWaves s g).any fun y =>
      (liveRecs y.2).any (standsAtBar s k y.1)) fun g => .barrierRelease g.id

/-- Circuits of transfers armed for this cycle. -/
def circuitsNow (c : Core) (cycle : Nat) (send : Bool) : List (BitVec 6) :=
  ((c.armed.filter fun a => a.cycle = cycle && a.send = send).map (·.circuit)).dedup

/-- The writes of the cycle through a core's engine ports (R116, R180, R335). -/
def engineWrites (s : State) (k : CoreId) (c : Core) : List Activity :=
  evs (circuitsNow c s.cycle false) (fun x => .circuitReceive k x) ++ mxEvents c mxcWriteDue (.mxcSlabWrite k)

/-- A `.lin` access of the core is in its bank cycle, so that no gather or scatter is (R116). -/
def linBusy (c : Core) : Bool := c.liveWaves.any fun x => x.2.linDue true || x.2.linDue false

/-- The writes of the cycle through its LSU ports (R116). -/
def lsuWrites (s : State) (k : CoreId) (c : Core) : List Activity :=
  evs (c.liveWaves.filter fun x => x.2.linDue true) (fun x => .linBankAccess k x.1)
    ++ (if linBusy c then []
      else evs (c.ops.filter fun o => o.kind = .scatter && o.due ≤ s.cycle) fun o => .scratchpadScatterWrite k o.slot o.id)

/-- Its reads, and the tile writes (R116, R327, R330-R332). -/
def bankReads (s : State) (k : CoreId) (c : Core) : List Activity :=
  mxEvents c mxlStepDue (.mxlStep k)
    ++ evs (circuitsNow c s.cycle true) (fun x => .circuitSend k x)
    ++ evs ((s.flits.filter fun f => f.hop = none && f.dst = k && f.cycle ≤ s.cycle).map (·.circuit)).dedup (fun x => .flitDiscard k x)
    ++ evs (c.liveWaves.filter fun x => x.2.linDue false) (fun x => .linBankAccess k x.1)
    ++ evs (c.liveWaves.filter fun x => x.2.dfas.any fun o => (o.en &&& maskOf fun l => o.left[l] = 0) ≠ 0) (fun x => .dfaL1Read k x.1)
    ++ mxEvents c (fun m => m.op = 2 && !m.read && 1 ≤ m.t) (.mxrTileRead k)
    ++ mxEvents c (fun m => m.op = 4 && !m.read && 1 ≤ m.t) (.mxcTileRead k)
    ++ mxEvents c (fun m => m.op = 1 && m.next = m.n && m.n + 4 ≤ m.t) (.mxlTileWrite k)
    ++ mxEvents c (fun m => m.op = 3 && 2 ≤ m.t) (.mxwTileWrite k)
    ++ mxEvents c (fun m => m.op = 5 && 1 ≤ m.t) (.mxzTileWrite k)

/-- The event of a queue entry that may perform (R135). -/
def opEvent (s : State) (k : CoreId) (c : Core) (o : MemOp) : List Activity :=
  if o.kind = .fence then [ev (.fenceCompletion k o.slot o.id)]
  else if o.left = 0 || o.atG && o.kind.stores then []
  else match o.kind with
    | .ldc => evs (lanesOf o.left) fun l => .ldcUnitFill k o.slot o.id l
    | .store | .zfill => [ev (.mergeBufferEntry k o.slot o.id)]
    | .winStore => if o.sent then [] else [ev (.mergeBufferEntry k o.slot o.id)]
    | .scatter | .mark | .fence | .masked _ => []
    | .atom _ | .sumAdd | .fadd64 | .vupd => [ev (.atomicPerform k o.slot o.id)]
    | .gather => if linBusy c then [] else [ev (.loadDataArrival k o.slot o.id)]
    | .winLoad => if o.sent && remoteLanes s o ≠ 0 then [] else [ev (.loadDataArrival k o.slot o.id)]
    | .load | .qload | .l1load => [ev (.loadDataArrival k o.slot o.id)]

/-- The core's memory accesses, walks and overlay reads that are due (log entry 48, DEDUCED). -/
def accessEvents (s : State) (k : CoreId) (c : Core) : List Activity :=
  ((idxs 48).flatMap fun w => (c.ops.filter fun o => o.slot = w && o.due ≤ s.cycle).flatMap (opEvent s k c))
    ++ evs (c.walks.filter fun w => w.failed.isNone && w.due ≤ s.cycle) (fun w => .tableWalk k w.ctx w.va)
    ++ evs (c.overlays.filter fun o => o.due ≤ s.cycle) (fun o => .overlayFetch k o.image o.page)

/-- The entries of this cycle's merge step: every one that is due and that the rest allows, the number of rounds bounding
the search (R149; log entry 32, DEDUCED). -/
def mergeIds (s : State) (all : List (CoreId × MergeE)) : Nat → List Nat → List Nat
  | 0, ids => ids
  | n + 1, ids =>
    let next := (all.filter fun x => ids.contains x.2.id && stepAllows all ids s.cycle x).map (·.2.id)
    if next.length = ids.length then ids else mergeIds s all n next

def mergeEvents (s : State) : List Activity :=
  let all := allEntries s
  let due := (all.filter fun x => x.2.due ≤ s.cycle).map (·.2.id)
  match mergeIds s all (due.length + 1) due with
  | [] => []
  | ids => [ev (.mergeStep ids)]

/-- A copy moves in this cycle: an engine's rate is not the model's to say, so each request draws whether it does. -/
def copyMoves (s : State) (n : Nat) : Bool := Config.choice (s.free + n) % 2 = 0

/-- A request writes a scratchpad through its engine port, which comes before the LSU's writes of the cycle (R116). One that
also reads a scratchpad, whose reads come after them, lets a cycle with `.lin` stores there go by. -/
def CopyReq.early (s : State) (r : CopyReq) : Option Bool :=
  if r.dstKind ≠ 1 then some false
  else if r.srcKind = 1 && (s.core (Fin.ofNat 4096 r.srcNode)).liveWaves.any fun x => x.2.linDue true then none
  else some true

/-- The copies that move in a cycle: those that write a scratchpad, or the others. -/
def copyEvents (s : State) (early : Bool) : List Activity :=
  (s.copies.mapIdx fun i c =>
    if !c.started then []
    else evs ((List.range c.reqs.length).filter fun j => copyMoves s (65536 * i + j) && (match c.reqs[j]? with
      | some r => !r.over && r.early s = some early
      | none => false)) fun j => .copyByteWrite c.id j).flatten

/-- Lists that a copy engine may take up (R153). -/
def copyStarts (s : State) : List Activity := evs (s.copies.filter fun c => !c.started && c.due ≤ s.cycle) fun c => .copyEngineStart c.id

/-- Privileged operations and tile power (R373-R380, R484, R485). -/
def privEvents (s : State) : List Activity :=
  (s.privOps.flatMap fun p => match p.kind with
    | .tlbinv c cores _ _ => evs (cores.filter fun k => removalDue p k ≤ s.cycle) (fun k => .tlbRemoval k c) ++ [ev (.tlbinvCompletion p.id)]
    | .mtcr .. | .mfcr .. | .seedOp .. | .mcload .. | .swin .. => []
    | _ => if p.started then evs (p.slotsLeft.filter fun x => x.2.1.val = s.cycle % 256) (fun x => .slotEntryEffect x.1 x.2.1 x.2.2)
      else if p.due ≤ s.cycle then [ev (.privilegedOperationCompletion p.id)] else [])
  ++ (idxs 256).flatMap fun t => match (s.tiles[t]).state with
    | .changing 0 => if (s.tiles[t]).due ≤ s.cycle then [ev (.tileWakeDone t)] else []
    | .changing _ => if (s.tiles[t]).due ≤ s.cycle then [ev (.tilePowerChangeDone t)] else []
    | _ => []

/-- The queues in the order in which they are served: those of class-0 contexts go first (R399). -/
def queueOrder (s : State) : List QueueId :=
  let first (q : QueueId) : Bool := (s.ctx (s.queues[q]).ctx).class0
  (idxs 64).filter first ++ (idxs 64).filter fun q => !first q

/-- The dispatchers' work on packets and pending launches (R388-R396, R236). -/
def packetEvents (s : State) : List Activity :=
  ((queueOrder s).flatMap fun q =>
    let x := s.queues[q]
    (if mayTake s x then [ev (.packetTake q)] else [])
      ++ evs (x.taken.filter fun p => p.state = .taken && p.due ≤ s.cycle) (fun p => .packetStart q p.seq)
      ++ evs (x.taken.filter fun p => dependent s p && p.due ≤ s.cycle) (fun p => .dependenceRead q p.seq)
      ++ evs (x.taken.filter fun p => p.state = .done && p.due ≤ s.cycle) (fun p => .packetCompletion q p.seq))
  ++ evs (s.groups.filter fun g => g.launchQ.any fun r => r.due ≤ s.cycle) (fun g => .pendingLaunchRemoval g.id)

/-- Groups come back, leave and are placed; class by class, the grids that their dispatchers serve (R397, R402). -/
def groupEvents (s : State) : List Activity :=
  evs (s.groups.filter fun g => g.state = .swapped) (fun g => .joinReturn g.id)
    ++ evs (s.groups.filter fun g => g.state = .running && joinLimit s g.ctx ≤ g.joinFor) (fun g => .joinSwapOut g.id)
    ++ ([0, 1, 2, 3].flatMap fun c => evs (s.grids.filter fun d => d.cls = c && d.served && d.due ≤ s.cycle && headOfClass s d) fun d =>
      .groupPlacement d.id)
    ++ evs (s.groups.filter fun g => allEnded g) (fun g => .groupRetire g.id)
    ++ evs (s.groups.filter fun g => g.state = .retiring && joinLimit s g.ctx ≤ g.retireFor) (fun g => .retiringRelease g.id)

/-- Contexts whose parked share on a core is exceeded (R435). -/
def shareEvents (s : State) (k : CoreId) (c : Core) : List Activity :=
  evs (((c.liveWaves.filter fun x => x.2.hasParked).map fun x => x.2.ctx).dedup.filter fun x => shareExceeded s k x) fun x =>
    .parkedShareSwitch k x

/-- Everything on a core that can bring an event about. -/
def coreBusy (c : Core) : Bool :=
  !coreStill c || c.walks ≠ [] || c.overlays ≠ [] || c.stints ≠ [] || c.trapQ ≠ [] || c.trapWait ≠ []

/-- Cores with something to do: work of their own, a register operation, or a flit to take. -/
def busyCores (s : State) : List CoreId :=
  (idxs 4096).filter fun k => coreBusy (s.core k) || s.privOps.any (fun p => p.core = k) || s.flits.any fun f => f.hop = none && f.dst = k

/-- Cores on which a wave stands or may be put in this cycle. -/
def issueCores (s : State) : List CoreId :=
  let placing := s.grids.any Grid.served || s.groups.any fun g => g.state = .swapped
  (idxs 4096).filter fun k => placing || (s.core k).liveWaves ≠ [] || (s.core k).stints ≠ [] || (s.core k).trapQ ≠ []
    || (s.core k).trapWait ≠ []

/-- Inputs whose cycle has come (log entry 110, DESIGN CHOICE). -/
def dueInputs (s : State) : List Activity := evs (s.inputs.filter fun x => x.1 ≤ s.cycle) (·.2)

/-- The order of a cycle (log entry 1): what arrives, landings, traps, starts and releases, the banks' engine writes, then
their LSU writes, then reads (R116), memory, privileged operations, dispatch, and last each core's issue. -/
def cycleAgenda (s : State) : List Activity :=
  if s.hub.halted then dueInputs s
  else
    let cores := (busyCores s).map fun k => (k, s.core k)
    dueInputs s
      ++ (cores.flatMap fun x => landings x.1 x.2 ++ bankConflicts s x.1 x.2 ++ trapEvents s x.1 x.2 ++ startEvents s x.1 x.2)
      ++ (((idxs 256).filter fun t => (tileCores t).any fun k => (s.core k).line.isSome).map fun t => ev (.tileBarrierRelease t))
      ++ (cores.flatMap fun x => engineWrites s x.1 x.2) ++ copyEvents s true
      ++ (cores.flatMap fun x => lsuWrites s x.1 x.2 ++ bankReads s x.1 x.2) ++ copyEvents s false
      ++ (cores.flatMap fun x => accessEvents s x.1 x.2) ++ mergeEvents s ++ copyStarts s ++ privEvents s
      ++ packetEvents s ++ groupEvents s ++ (cores.flatMap fun x => shareEvents s x.1 x.2)
      ++ (issueCores s).map .issue

/-! ### The end of a cycle -/

/-- The lines of the tile barriers at the start of a cycle (R46). -/
def raiseLines (s : State) : State :=
  ((idxs 4096).filter fun k => (s.core k).line.isSome || (s.core k).liveWaves ≠ []).foldl (fun t k =>
    onCore k (fun c => { c with line := lineNow s k }) t) s

/-- The splits held at a tile barrier whose lines are all up note when they are released (R46). -/
def noteLines (s : State) : State :=
  let at_ := (idxs 4096).filter fun k => (s.core k).liveWaves.any fun x => x.2.liveSplits.any fun y => y.2.syncAt.isSome || (s.core k).line.isSome
  at_.foldl (fun t k => (coreRecs s k).foldl (fun t x => onSplit k x.1 x.2 (fun y => noteSync s k x.1 x.2 y) t) t) s

/-- What the package does at the end of a cycle besides its clocks. -/
def cycleDuties (s : State) : State :=
  let cores := busyCores s
  let s := cores.foldl (fun s k => preemptDuties k (maskedDuties k (sweepStores k s))) s
  let s := moveFlits (passDuties { s with groups := s.groups.map (tickGroup s) })
  let s := switchDuties (retryDuties (domainDuties (sendArrives (settleGrids (dropCopies s)))))
  onHub (tickPtp s.clockKhz) s

/-- The end of a cycle: duties, clocks, semaphore additions, then the next cycle and its agenda. -/
def endCycle (s : State) : State :=
  let s := cycleDuties s
  let s := { s with cores := vmap (fun c => applyAdds (tickCore s.cycle c)) s.cores }
  let s := noteLines (raiseLines { s with cycle := s.cycle + 1 })
  { s with agenda := cycleAgenda s, inputs := s.inputs.filter fun x => s.cycle < x.1, free := s.free + 65536 * s.copies.length }

/-! ### A program placed by hand (log entry 8) -/

/-- An image whose stream is one literal bundle at position 0. -/
def oneBundleImage (w : Nat) : Image :=
  { handle := 1, ctx := 0, va := 0, key := [], class0 := false, plan := none, resident := 0, dict := [], dictOff := 0,
    stream := 0xFFFF :: (List.range 24).map fun i => BitVec.ofNat 16 (w / 2 ^ (16 * i)),
    inside := (List.range 24).map (· + 1), entries := [⟨0, 256, none⟩], claims := [], shadows := [], stints := [], windows := [] }

/-- A wave that stands at position 0 of the image, due. -/
def oneBundleWave : Wave :=
  { Wave.free with live := true, uid := 1, kind := .compute, cls := 1, image := 1, nregs := 256, splits := startSplits 0 0 }

/-- Core 0 is the next to issue, and finds the bundle. -/
def fetchPlaced (w : Nat) (s : State) : State :=
  { onWave 0 0 (fun _ => oneBundleWave) { s with images := [oneBundleImage w] } with nextId := 2, agenda := [.issue 0] }

end Sys2Proof.Machine
end

