-- ==== Sys2Proof/Machine/Step.lean ====
section
/-!
DEFINITION. One step of the package: the next activity of the cycle, or its end.
-/

namespace Sys2Proof.Machine

open Sys2Proof

/-- One step: an event is executed, a core issues, or the cycle ends. -/
def step (s : State) : Host.Outcome State Fault Refusal :=
  match s.agenda with
  | [] => .next (endCycle s)
  | .event i :: rest => exec i { s with agenda := rest }
  | .issue k :: rest => issueCore k { s with agenda := rest }

/-- A state in which core 0 issues the given bundle next: its bits stand in the index stream as a literal bundle (R193),
and a wave of context 0 with one split of every lane stands at it, in wave context 0 (log entry 8). -/
def State.withFetchWord (s : State) (_nbits w : Nat) : State := fetchPlaced w s

end Sys2Proof.Machine
end

