-- ==== Sys2Proof/Safety.lean ====
section
/-!
DEFINITION. The words in which claims about the package are made: when a slot runs, what an operand and a number is, what
a trigger, a memory access and a completion leave, what stays, and the states that every run keeps to. They are written
from the rules, beside the machine and not by its functions, wherever a rule gives the words.
-/

namespace Sys2Proof.Machine

open Sys2Proof

/-! ### When a slot runs -/

/-- A slot issues: its word is legal (R213), and in this state no hold of R218 and no trap of R411 stands against it. -/
def Passes (s : State) (i : Instr) : Prop := WellFormed i ∧ (s.issue.checked = true ∨ slotVerdict s i = .go)

/-- The lanes of the issuing split in which a slot acts (R69, R203, R204). -/
def Acts (s : State) (g : Guard) (p : Path) (l : Lane) : Prop :=
  laneBit s.is.mask l = true ∧ ((g.pred = 0 ∨ laneBit s.iw.p[g.pred] l = true) ↔ g.neg = false)
    ∧ (p = .all ∨ p = .leaf s.issue.leaf[l])

/-! ### Operands (R56-R58, R200) -/

/-- A queue slot's value, some places past the head of the wave's window (R35). -/
def queueAt (s : State) (places : Nat) (l : Lane) : Nat :=
  (s.iw.window.slots[Fin.ofNat 16 (s.iw.window.head.val + places)]).val[l].toNat

/-- A reader of a V register gets a number in a lane: the word that stands there; or, where a load has arrived whose semaphore
no header wait has observed, the one that stood there before (R63). -/
def VReads (s : State) (n : Fin 256) (l : Lane) (x : Nat) : Prop :=
  x = s.iw.v[n][l].toNat ∨ ∃ u ∈ s.iw.unsettled, u.reg = n ∧ laneBit u.lanes l = true ∧ x = u.old[l].toNat

/-- What a port holds in a lane after the transport of a specifier: `old` is what it held, `pops` the queue slots that
earlier specifiers of the bundle took, `wide` a 64-bit operand. -/
def Reads (s : State) (src : Src) (wide : Bool) (pops : Nat) (l : Lane) (old x : DWord) : Prop :=
  match src, wide with
  | .keep, _ => x = old
  | .v n, false => VReads s n l x.toNat
  | .v n, true => ∃ lo hi, VReads s n l lo ∧ VReads s (Fin.ofNat 256 (n.val + 1)) l hi ∧ x.toNat = lo + 2 ^ 32 * hi
  | .a n, false => x.toNat = if n = 0 then 0 else s.iw.a[n].toNat % 2 ^ 32
  | .a n, true => x = if n = 0 then 0 else s.iw.a[n]
  | .p n, _ => x = if n = 0 ∨ laneBit s.iw.p[n] l = true then 1 else 0
  | .latch u true, false => x.toNat = (s.iw.unit u).q[l].toNat / 2 ^ 32
  | .latch u false, false => x.toNat = (s.iw.unit u).q[l].toNat % 2 ^ 32
  | .latch u _, true => x = (s.iw.unit u).q[l]
  | .sys v, _ => x.toNat = (sysVal s s.issue.core s.iw v l).toNat
  | .peek k, false => x.toNat = queueAt s (pops + k.val) l
  | .peek k, true => x.toNat = queueAt s (pops + k.val) l + 2 ^ 32 * queueAt s (pops + k.val + 1) l
  | .pop, false => x.toNat = queueAt s pops l
  | .pop, true => x.toNat = queueAt s pops l + 2 ^ 32 * queueAt s (pops + 1) l
  | .imm k, false => x.toNat < 2 ^ 32 ∧ (x.setWidth 32).toInt = (k.val : Int) - 64
  | .imm k, true => x.toInt = (k.val : Int) - 64
  | .lit k, false => x.toNat = (s.issue.lits.getD k.val 0).toNat
  | .lit k, true => x.toNat = (s.issue.lits.getD k.val 0).toNat + 2 ^ 32 * (s.issue.lits.getD (k.val + 1) 0).toNat

/-! ### Integers (R86, R247, R250) -/

/-- A port at an integer or bit type: its low bits, signed for I types. -/
def intAt (t : Ty) (x : DWord) : Int :=
  if tySigned t then (x.setWidth (tyBits t)).toInt else (x.setWidth (tyBits t)).toNat

/-- The bounds of an integer type (R86). -/
def intMin (t : Ty) : Int := if tySigned t then -2 ^ (tyBits t - 1) else 0
def intMax (t : Ty) : Int := if tySigned t then 2 ^ (tyBits t - 1) - 1 else 2 ^ tyBits t - 1

/-- `Fit`: y holds the exact value x at a type, clamped under saturation, else modulo 2^w; a narrow value fills its
32-bit word as R86 states, and nothing stands above the word. -/
def Fits (t : Ty) (sat : Bool) (x : Int) (y : DWord) : Prop :=
  (if sat then intAt t y = max (intMin t) (min (intMax t) x) else (intAt t y - x) % 2 ^ tyBits t = 0)
    ∧ (tyBits t < 64 → y.toNat < 2 ^ 32 ∧ intAt (if tySigned t then .i32 else .n32) y = intAt t y)

/-- The low bits of a port at a type's width, zero above. -/
def cut (t : Ty) (x : DWord) : DWord := (x.setWidth (tyBits t)).setWidth 64

/-- 1 when a relation holds, else 0. -/
def truth (p : Prop) [Decidable p] : DWord := if p then 1 else 0

/-! ### Floating-point numbers (R78-R80, R89, R95) -/

/-- The rational number that a finite value is; none for an infinity and a NaN. -/
def Val.rat : Val → Option ℚ
  | .zero _ => some 0
  | .fin neg n d => some ((if neg then -1 else 1) * ((n : ℚ) / d))
  | _ => none

/-- The number line with both infinities, on which compares order values; none for a NaN. -/
def Val.ext : Val → Option (WithBot (WithTop ℚ))
  | .nan => none
  | .inf neg => some (if neg then ⊥ else ((⊤ : WithTop ℚ) : WithBot (WithTop ℚ)))
  | .zero _ => some (((0 : ℚ) : WithTop ℚ) : WithBot (WithTop ℚ))
  | .fin neg n d => some ((((if neg then -1 else 1) * ((n : ℚ) / d) : ℚ) : WithTop ℚ) : WithBot (WithTop ℚ))

/-- A port at a floating type. -/
def floatAt (t : Ty) (x : DWord) : Val := decodeF (fmtOfTy t) (x.toNat % 2 ^ tyBits t)

/-- A port is a signalling NaN: one whose highest fraction bit is 0; those of E4M3 count as quiet (R80). -/
def Signals (t : Ty) (x : DWord) : Prop := floatAt t x = .nan ∧ t ≠ .e4m3 ∧ x.getLsbD (fFrac (fmtOfTy t) - 1) = false

/-- y is `RoundTo` of an exact value at a floating type under a mode, with R91 when sat is set; k is its condition beside
an invalid operation that the exact value came from (R89, R92). -/
def Rounded (t : Ty) (mode : RMode) (sat : Bool) (v : Val) (invalid : Prop) (y : DWord) (k : Cond) : Prop :=
  y = BitVec.ofNat 64 (roundTo (fmtOfTy t) mode sat v).1
    ∧ (invalid → k = condInvalid) ∧ (¬invalid → k = (roundTo (fmtOfTy t) mode sat v).2)

/-- w is the exact sum of u and v: NaN with a NaN or with opposite infinities; a zero sum has the sign that IEEE 754
gives it (R95). -/
def IsSum (mode : RMode) (u v w : Val) : Prop :=
  match u, v with
  | .nan, _ => w = .nan
  | _, .nan => w = .nan
  | .inf s, .inf t => w = if s = t then .inf s else .nan
  | .inf s, _ => w = .inf s
  | _, .inf s => w = .inf s
  | u, v => ∃ x y, u.rat = some x ∧ v.rat = some y ∧ w.rat = some (x + y)
      ∧ (x + y = 0 → w = .zero (if u.isNeg = v.isNeg then u.isNeg else mode = .rdn))

/-- A sum of opposite infinities (R92). -/
def SumInvalid (u v : Val) : Prop := ∃ s, u = .inf s ∧ v = .inf !s

/-- w is the exact product of u and v, with the sign that IEEE 754 gives a zero. -/
def IsProduct (u v w : Val) : Prop :=
  match u, v with
  | .nan, _ => w = .nan
  | _, .nan => w = .nan
  | .inf _, .zero _ => w = .nan
  | .zero _, .inf _ => w = .nan
  | .inf s, v => w = .inf (s ^^ v.isNeg)
  | u, .inf s => w = .inf (s ^^ u.isNeg)
  | u, v => ∃ x y, u.rat = some x ∧ v.rat = some y ∧ w.rat = some (x * y) ∧ (x * y = 0 → w = .zero (u.isNeg ^^ v.isNeg))

/-- A product 0 × ∞ (R92, R258). -/
def ProductInvalid (u v : Val) : Prop := ∃ s t, (u = .inf s ∧ v = .zero t) ∨ (u = .zero s ∧ v = .inf t)

/-- w is the exact fused (±A × B) ± C of R258. -/
def IsFused (mode : RMode) (negP negC : Bool) (a b c w : Val) : Prop :=
  ∃ p, IsProduct a b p ∧ IsSum mode (if negP then p.neg else p) (if negC then c.neg else c) w

/-- The fused operation is invalid: its product, or its sum. -/
def FusedInvalid (negP negC : Bool) (a b c : Val) : Prop :=
  ProductInvalid a b ∨ ∃ p, IsProduct a b p ∧ SumInvalid (if negP then p.neg else p) (if negC then c.neg else c)

/-- n is x rounded to an integer under a mode (R89). -/
def IntRounds (mode : RMode) (x : ℚ) (n : Int) : Prop :=
  match mode with
  | .rne => |x - n| ≤ 1 / 2 ∧ (|x - n| = 1 / 2 → n % 2 = 0)
  | .rna => |x - n| ≤ 1 / 2 ∧ (|x - n| = 1 / 2 → |x| ≤ |(n : ℚ)|)
  | .rtz => |(n : ℚ)| ≤ |x| ∧ |x - n| < 1 ∧ (n = 0 ∨ (0 < x ↔ 0 < n))
  | .rup => x ≤ n ∧ (n : ℚ) < x + 1
  | .rdn => (n : ℚ) ≤ x ∧ x < n + 1
  | .sr bits => ∃ r : Int, (r : ℚ) ≤ |x| ∧ |x| < r + 1 ∧
      |n| = (if (bits : Int) < ⌊(|x| - r) * 2 ^ 32⌋ then r + 1 else r) ∧ (n = 0 ∨ (0 < x ↔ 0 < n))

/-- The Hazel generator on a 128-bit key and counter (R273), in 64-bit arithmetic. -/
def hazelOf (key ctr : QWord) : DWord :=
  let kl : DWord := key.setWidth 64
  let kh : DWord := (key >>> 64).setWidth 64
  let round (p : DWord × DWord) (r : DWord) : DWord × DWord :=
    let x := (p.1 + kl + r) * 9
    let y := (p.2 ^^^ x.rotateLeft 32) + kh
    (x ^^^ y.rotateLeft 8, y)
  let p := [0, 1, 2, 3].foldl round (ctr.setWidth 64, (ctr >>> 64).setWidth 64)
  p.1 ^^^ p.2

/-- The random bits of stochastic rounding of a wave in a lane for a stream word, element 0 (R90). -/
def srWord (w : Wave) (l : Lane) (stream : Word) : Nat :=
  ((hazelOf w.seed (BitVec.ofNat 128 (2 ^ 127 + w.groupNo * 2 ^ 96 + w.windex * 2 ^ 91 + l.val * 2 ^ 86 + stream.toNat * 2 ^ 32))).setWidth 32).toNat

/-- The canonical NaN of a floating type (R80). -/
def canonical : Ty → DWord
  | .f64 => 0x7FF8000000000000 | .f16 => 0x7E00 | .bf16 => 0x7FC0 | .e4m3 => 0x7F | .e5m2 => 0x7E | _ => 0x7FC00000

/-- w is v divided by a positive integer, an infinity, a NaN or a zero unchanged. -/
def IsQuotient (v : Val) (k : Nat) (w : Val) : Prop :=
  match v.rat with
  | some x => w.rat = some (x / k) ∧ w.isNeg = v.isNeg
  | none => w = v

/-- `RoundTo(F32, m, v)` as an encoding. -/
def toF32 (m : RMode) (v : Val) (n : Nat) : Prop := n = (roundTo .f32 m false v).1

/-- `WelfordUpdate` of a triple by a sample below the count's limit (R107): new mean and new M2. -/
def WelfordStep (m : RMode) (n mean m2 x mean' m2' : Nat) : Prop :=
  ∃ d d2 s1 q s2 s3 p s4, IsSum m (decodeF .f32 x) (decodeF .f32 mean).neg s1 ∧ toF32 m s1 d
    ∧ IsQuotient (decodeF .f32 d) (n + 1) q ∧ IsSum m (decodeF .f32 mean) q s2 ∧ toF32 m s2 mean'
    ∧ IsSum m (decodeF .f32 x) (decodeF .f32 mean').neg s3 ∧ toF32 m s3 d2
    ∧ IsProduct (decodeF .f32 d) (decodeF .f32 d2) p ∧ IsSum m (decodeF .f32 m2) p s4 ∧ toF32 m s4 m2'

/-- `WelfordMerge` of two non-empty triples whose counts fit (R108): merged mean and M2. -/
def WelfordJoin (m : RMode) (na ma va nb mb vb mean m2 : Nat) : Prop :=
  ∃ d s1 p1 q s2 sq p2 q2 s3 s4, IsSum m (decodeF .f32 mb) (decodeF .f32 ma).neg s1 ∧ toF32 m s1 d
    ∧ IsProduct (decodeF .f32 d) (.fin false nb 1) p1 ∧ IsQuotient p1 (na + nb) q ∧ IsSum m (decodeF .f32 ma) q s2 ∧ toF32 m s2 mean
    ∧ IsProduct (decodeF .f32 d) (decodeF .f32 d) sq ∧ IsProduct sq (.fin false (na * nb) 1) p2 ∧ IsQuotient p2 (na + nb) q2
    ∧ IsSum m (decodeF .f32 va) (decodeF .f32 vb) s3 ∧ IsSum m s3 q2 s4 ∧ toF32 m s4 m2

/-! ### Byte strings (R284-R290) -/

/-- Byte i of a port. -/
def byteAt (x : DWord) (i : Nat) : Nat := x.toNat / 256 ^ i % 256

/-- One byte of the reflected CRC-32C remainder (R288). -/
def crcStep (crc : Word) (b : Nat) : Word :=
  (List.range 8).foldl (fun (c : Word) _ => if c.getLsbD 0 then (c >>> 1) ^^^ 0x82F63B78 else c >>> 1) (crc ^^^ BitVec.ofNat 32 b)

/-! ### Triggers (R54, R61, R62, R65, R69) -/

/-- ALT-1's latency of a unit in ticks, for the FP64 class or not (R62); a DFA step takes 8. -/
def alt1 (u : VUnit) (fp64 : Bool) : Nat :=
  match u with
  | .ial => 1 | .fma => if fp64 then 6 else 4 | .xf => 12 | .xl => 3 | .str => 6 | .lsu => 0

/-- A slot triggers a unit: the instruction completes with one more result in flight, for the lanes the slot enables, due
after so many ticks; in each of those lanes the ports after the transports, the result and its conditions are in a
relation. -/
def Triggers (i : Instr) (u : VUnit) (ticks : Nat) (f : VSlot) (s : State)
    (R : Lane → DWord → DWord → DWord → DWord → Cond → Prop) : Prop :=
  ∃ t fl, exec i s = .next t ∧ t.iw.flights = s.iw.flights ++ [fl] ∧ fl.unit = u ∧ fl.dep = f.dep
    ∧ fl.left = Lanes.all ticks ∧ (∀ l, laneBit fl.en l = true ↔ Acts s f.guard f.path l)
    ∧ ∀ l, Acts s f.guard f.path l →
        R l (t.iw.unit u).a[l] (t.iw.unit u).b[l] (t.iw.unit u).t[l] fl.val[l] fl.cond[l]

/-- A trigger whose result signals nothing. -/
def Yields (i : Instr) (u : VUnit) (ticks : Nat) (f : VSlot) (s : State) (R : DWord → DWord → DWord → DWord → Prop) : Prop :=
  Triggers i u ticks f s fun _ a b c y k => R a b c y ∧ k = 0

/-- An instruction's place in the opcode map: its unit and operation number, the types it takes, whether it saturates. -/
def Listed (i : Instr) (u : VUnit) (op : Nat) (f : VSlot) (ok : Ty → Bool) (sat : Bool) : Prop :=
  (∃ n, vInfo i = some (⟨u, op, f⟩, n)) ∧ (legal i = true → ok f.ty = true ∧ (f.sat = true → sat = true))

/-- A trigger of XL: what each acting lane receives stands in a relation to the `.a` and `.b` ports of every lane. -/
def Crosses (i : Instr) (f : VSlot) (s : State) (P : Lanes DWord → Lanes DWord → Lane → DWord → Cond → Prop) : Prop :=
  ∃ t fl, exec i s = .next t ∧ t.iw.flights = s.iw.flights ++ [fl] ∧ fl.unit = .xl ∧ fl.dep = f.dep ∧ fl.left = Lanes.all 3
    ∧ (∀ l, laneBit fl.en l = true ↔ Acts s f.guard f.path l)
    ∧ ∀ l, Acts s f.guard f.path l → P (t.iw.unit .xl).a (t.iw.unit .xl).b l fl.val[l] fl.cond[l]

/-- The effective members of an XL slot, ascending: the lanes its mask names that act (R275, R277). -/
def Members (s : State) (f : VSlot) (ms : List Lane) : Prop :=
  ms.Pairwise (· < ·) ∧ ∃ m : Mask, Reads s f.c false 0 0 0 (m.setWidth 64)
    ∧ ∀ l, l ∈ ms ↔ laneBit m l = true ∧ Acts s f.guard f.path l

/-! ### Floating reductions (R104, R105) -/

/-- One combine of the tree on encodings, absent ones being pads. -/
def joinCodes (k : Comb) (t : FFmt) (mode : RMode) : Option Nat → Option Nat → Option Nat
  | none, none => none
  | some a, none => some (if isNaN t a then fNaN t else a)
  | none, some b => some (if isNaN t b then fNaN t else b)
  | some a, some b => some (combine k t mode a b).1

/-- The result of level h at index i of the tree over the members' encodings. -/
def treeAt (k : Comb) (t : FFmt) (mode : RMode) (x : Nat → Option Nat) : Nat → Nat → Option Nat
  | 0, i => x i
  | h + 1, i => joinCodes k t mode (treeAt k t mode x h (2 * i)) (treeAt k t mode x h (2 * i + 1))

/-- The zero of a sum whose contributors are all zeros: −0 when there is one and each is −0 (R105). -/
def SumOfZeros (t : FFmt) (l : List Nat) (y : Nat) : Prop :=
  (∀ a ∈ l, (decodeF t a).isZero = true) ∧ y = if l ≠ [] ∧ ∀ a ∈ l, fieldNeg t a = true then 2 ^ (fBits t - 1) else 0

/-- The unsaturated prefix of a floating scan over encodings, left to right (R104, R105, R282). -/
inductive ScanTo (k : Comb) (t : FFmt) (mode : RMode) : List Nat → Nat → Prop
  | one (a y : Nat) (h : k ≠ .add ∨ (decodeF t a).isZero = false) (e : joinCodes k t mode none (some a) = some y) : ScanTo k t mode [a] y
  | more (l : List Nat) (a x y : Nat) (p : ScanTo k t mode l x) (h : k ≠ .add ∨ ∃ b ∈ l ++ [a], (decodeF t b).isZero = false)
      (e : joinCodes k t mode (some x) (some a) = some y) : ScanTo k t mode (l ++ [a]) y
  | zeros (l : List Nat) (y : Nat) (h : k = .add) (n : l ≠ []) (z : SumOfZeros t l y) : ScanTo k t mode l y

/-! ### Memory accesses (R293-R297, R301) -/

/-- The issuing split issues again, at the same bundle, a lane that faulted there: its trap record saved A[base] (R295). -/
def SavedBase (s : State) (f : MSlot) (y : DWord) : Prop := s.is.apc = s.is.pc ∧ s.is.abase = some (f.base, y)

/-- A[base] as an m slot reads it: on the re-issue of a lane that faulted, the value that its trap record saved (R295). -/
def IsBase (s : State) (f : MSlot) (x : DWord) : Prop :=
  (∀ y, SavedBase s f y → x = y) ∧ ((∀ y, ¬SavedBase s f y) → x = if f.base = 0 then 0 else s.iw.a[f.base])

/-- The effective address over LSU.a: 64 bits in translated space, 32 bits in the scratchpad and the L1 (R293). -/
def EffAddr (s : State) (f : MSlot) (near : Bool) (port ea : DWord) : Prop :=
  ∃ b, IsBase s f b ∧ if near then ea.toNat = (b.toNat % 2 ^ 32 + port.toNat % 2 ^ 32) % 2 ^ 32 else ea = b + port

/-- Bits of an access (R294). -/
def accessBits (f : MSlot) : Nat :=
  match f.size with | .b1 => 8 | .b2 => 16 | .b4 => 32 | .b8 => 64 | .b16 => 128

/-- The m slots that enter a memory queue, each with the kind of its entry, whether it addresses the scratchpad or the L1,
and the bits at which it reads b, 0 for none (R294, R301). -/
def queueForms (f : MSlot) : List (Instr × MKind × Bool × Nat) :=
  let w := max 32 (accessBits f)
  let loads : List (Instr × MKind × Bool × Nat) := [(.ldG f, .load, false, 0), (.ldY f, .load, false, 0), (.ldAcqG f, .load, false, 0), (.ldAcqY f, .load, false, 0),
   (.ldW f, .winLoad, false, 0), (.ldAcqW f, .winLoad, false, 0), (.ldL1 f, .l1load, true, 0), (.ldS f, .gather, true, 0),
   (.ldQ f, .qload, false, 0), (.ldc f, .ldc, false, 32), (.stG f, .store, false, w), (.stY f, .store, false, w),
   (.stRelG f, .store, false, w), (.stRelY f, .store, false, w), (.stW f, .winStore, false, w), (.stRelW f, .winStore, false, w),
   (.stS f, .scatter, true, w), (.zfill f, .zfill, false, 32), (.vupd f, .vupd, false, w), (.faddX f, .sumAdd, false, 32),
   (.faddY64 f, .fadd64, false, 64)]
  let atoms : List (Instr × MKind × Bool × Nat) := [(.atomGAdd f, .atom 0, false, w), (.atomGMin f, .atom 1, false, w), (.atomGMax f, .atom 2, false, w),
   (.atomGAnd f, .atom 3, false, w), (.atomGOr f, .atom 4, false, w), (.atomGXor f, .atom 5, false, w),
   (.atomGXchg f, .atom 6, false, w), (.atomGCas f, .atom 7, false, 2 * accessBits f),
   (.atomYAdd f, .atom 0, false, w), (.atomYMin f, .atom 1, false, w), (.atomYMax f, .atom 2, false, w),
   (.atomYAnd f, .atom 3, false, w), (.atomYOr f, .atom 4, false, w), (.atomYXor f, .atom 5, false, w),
   (.atomYXchg f, .atom 6, false, w), (.atomYCas f, .atom 7, false, 2 * accessBits f)]
  loads ++ atoms

/-- The b operand x of a lane and its LSU.b port: a specifier at 32 or 64 bits, four registers at 128, none at 0 (R294). -/
def BOperand (s : State) (f : MSlot) (near : Bool) (bits : Nat) (l : Lane) (old port : DWord) (x : QWord) : Prop :=
  let pops := s.issue.pops + if f.a = .pop then (if near then 1 else 2) else 0
  if bits = 128 then ∃ (r : Fin 256) (w : Nat → Nat), f.b = .v r ∧ port = x.setWidth 64
    ∧ (∀ i, i < 4 → VReads s (Fin.ofNat 256 (r.val + i)) l (w i)) ∧ x.toNat = (List.range 4).foldl (fun n i => n + 2 ^ (32 * i) * w i) 0
  else if bits = 0 then port = old
  else Reads s f.b (bits = 64) pops l old port ∧ x = port.setWidth 128

/-- The semaphore addition of a completion, in the cycle after it (R151, R297). -/
def doneAdds (sem : Option (Fin 512)) (n : Int) : List (SemRef × Int) := sem.toList.map fun p => (.phys p, n)

/-- What an update of an element of some bits does with an operand: the value it deposits and the one it writes, none for a
CAS whose comparison fails (R309-R312). -/
def UpdateIs (kind : MKind) (bits old b : Nat) (dep : Nat) (new : Option Nat) : Prop :=
  let v (x : Nat) : Int := (BitVec.ofNat bits x).toInt
  let x := b % 2 ^ bits
  match kind with
  | .atom fn => dep = old ∧ (match fn.val with
    | 0 => new = some ((old + b) % 2 ^ bits)
    | 1 => (new = some old ∨ new = some x) ∧ ∀ n, new = some n → v n = min (v old) (v x)
    | 2 => (new = some old ∨ new = some x) ∧ ∀ n, new = some n → v n = max (v old) (v x)
    | 3 => ∃ n, new = some n ∧ ∀ j, n.testBit j = (old.testBit j && x.testBit j)
    | 4 => ∃ n, new = some n ∧ ∀ j, n.testBit j = (old.testBit j || x.testBit j)
    | 5 => ∃ n, new = some n ∧ ∀ j, n.testBit j = (old.testBit j ^^ x.testBit j)
    | 6 => new = some x
    | _ => new = if old = x then some (b / 2 ^ bits % 2 ^ bits) else none)
  | .sumAdd => dep = cellRead old ∧ new = some (cellAdd old (b % 2 ^ 32))
  | .fadd64 => dep = old ∧ ∃ w, IsSum .rne (decodeF .f64 old) (decodeF .f64 (b % 2 ^ 64)) w ∧ new = some (roundTo .f64 .rne false w).1
  | _ => dep = old ∧ new = some ((old + b) % 2 ^ bits)

/-- Lanes update memory one after the other: each reads its element's bytes, and writes the new value's, if any. -/
inductive UpdatesRun (R : Lane → Nat → Nat → Option Nat → Prop) (span : Lane → Nat × Nat) : List Lane → Mem → (Lane → Nat) → Mem → Prop
  | nil (m : Mem) (old : Lane → Nat) : UpdatesRun R span [] m old m
  | cons (l : Lane) (ls : List Lane) (m m' m'' : Mem) (old : Lane → Nat) (new : Option Nat)
      (h : R l (memNat m (span l).1 (span l).2) (old l) new)
      (e : ∀ a, memRead m' a = match new with
        | some n => if (span l).1 ≤ a ∧ a < (span l).1 + (span l).2 then BitVec.ofNat 8 (n / 256 ^ (a - (span l).1)) else memRead m a
        | none => memRead m a)
      (r : UpdatesRun R span ls m' old m'') : UpdatesRun R span (l :: ls) m old m''

/-- A lane of a mask accesses a byte: its access has a first byte and a width. -/
def Covers (m : Mask) (first : Lane → Nat) (width a : Nat) (l : Lane) : Prop :=
  laneBit m l = true ∧ first l ≤ a ∧ a < first l + width

/-! ### Page tables (R437-R440) -/

/-- Bits hi to lo of a word as a number. -/
def bitsOf (x : DWord) (hi lo : Nat) : Nat := x.toNat / 2 ^ lo % 2 ^ (hi + 1 - lo)

/-- The index that a level takes from an address (R438). -/
def vaIndex (va : DWord) : Nat → Nat
  | 4 => bitsOf va 56 48 | 3 => bitsOf va 47 39 | 2 => bitsOf va 38 30 | 1 => bitsOf va 29 21 | _ => bitsOf va 20 16

/-- Where an entry of a table lies in HBM. -/
def entryPa (table : Nat) (va : DWord) (n : Nat) : Nat := table + 8 * vaIndex va n

/-- The entry that a context's walk of an address reads at a level. -/
inductive WalkReads (s : State) (c : CtxId) (va : DWord) : Nat → DWord → Prop
  | root (h : bitsOf (s.ctx c).ptroot 0 0 = 1) (a : Nat) (e : a = entryPa (bitsOf (s.ctx c).ptroot 47 12 * 4096) va 4)
      (r : paReach s c a = true) (b : a < hbmTop) : WalkReads s c va 4 (BitVec.ofNat 64 (memNat s.mem a 8))
  | next (n : Nat) (e : DWord) (h : WalkReads s c va (n + 1) e) (v : bitsOf e 8 0 = 1) (z : bitsOf e 63 48 = 0 ∧ bitsOf e 11 9 = 0)
      (a : Nat) (p : a = entryPa (bitsOf e 47 12 * 4096) va n) (r : paReach s c a = true) (b : a < hbmTop) :
      WalkReads s c va n (BitVec.ofNat 64 (memNat s.mem a 8))

/-! ### The matrix sequencer (R100-R103, R323) -/

/-- The low 32 bits of an A register (R200). -/
def offsetOf (s : State) (n : Fin 32) : Nat := if n = 0 then 0 else s.iw.a[n].toNat % 2 ^ 32

/-- Two signed halves of a literal word of the bundle. -/
def lowHalf (s : State) (k : Nat) : Int := ((s.issue.lits.getD k 0).setWidth 16).toInt
def highHalf (s : State) (k : Nat) : Int := (((s.issue.lits.getD k 0) >>> 16).setWidth 16).toInt

/-- Rows and columns of a format's tile, its cell's bytes, and the byte of a cell (R118, R323). -/
def tileDim (t : Fmt) : Nat := if t = .fp64 ∨ t = .fp32 then 8 else 16
def cellBytes (t : Fmt) : Nat := if t = .fp64 then 8 else 4
def cellByte (t : Fmt) (i j : Nat) : Nat := if t = .fp64 then (8 * i + j) * 8 else (16 * i + j) * 4

/-- Element e of row r of a slab: slices of s bytes, elements of w bits, lowest first (R323). -/
def slabAt (m : Mem) (t : Fmt) (off r e : Nat) : Nat :=
  memNat m off (fmtSlab t) / 2 ^ (8 * fmtSlice t * r + fmtWidth t * e) % 2 ^ fmtWidth t

/-- w is the exact sum of a value and products. -/
def IsDot (c : Val) : List (Val × Val) → Val → Prop
  | [], w => w = c
  | (a, b) :: l, w => ∃ p x, IsProduct a b p ∧ IsSum .rne c p x ∧ IsDot x l w

/-- A cell of the latch after one K-step, from what it held and the elements of its row and column with their block scales
(R84, R100-R102). -/
def StepIs (t : Fmt) (mode : MxMode) (sa sb c : Nat) (ab : List (Nat × Nat)) (y : Nat) : Prop :=
  let acc : FFmt := if t = .fp64 then .f64 else .f32
  let v (s n : Nat) : Val := if fmtMx t then mxValue (fmtElem t) s n else decodeF (fmtElem t) n
  match t with
  | .i8 => y < 2 ^ 32 ∧ ((y : Int) - ((c : Int) + (ab.map fun x => (BitVec.ofNat 8 x.1).toInt * (BitVec.ofNat 8 x.2).toInt).sum)) % 2 ^ 32 = 0
  | .bin => y = (c + (ab.filter fun x => if mode = .xorPop then x.1 ≠ x.2 else x.1 = 1 ∧ x.2 = 1).length) % 2 ^ 32
  | _ => ∃ w, IsDot (decodeF acc c) (ab.map fun x => (v sa x.1, v sb x.2)) w ∧ y = (roundTo acc .rne false w).1

/-- w is v times a power of two. -/
def IsScaled (v : Val) (e : Int) (w : Val) : Prop :=
  match v.rat with
  | some x => w.rat = some (x * (2 : ℚ) ^ e) ∧ w.isNeg = v.isNeg
  | none => w = v

/-- The code that MXC gives a source value in the formats without blocks (R334). -/
def ConvertsTo (m : MxOp) (src y : Nat) : Prop :=
  match m.fmt with
  | .bin => y = if src < 2 ^ 31 ∧ decodeF .f32 src ≠ .nan then 1 else 0
  | .i8 => ∃ n : Int, IntRounds (rmode m.rnd) (((BitVec.ofNat 32 src).toInt : ℚ) * 2 ^ m.exp) n ∧ y < 256
      ∧ if m.sat then (BitVec.ofNat 8 y).toInt = max (-128) (min 127 n) else ((y : Int) - n) % 256 = 0
  | t => ∃ w, IsScaled (decodeF (if t = .fp64 then .f64 else .f32) src) m.exp w ∧ y = (roundTo (fmtElem t) (rmode m.rnd) m.sat w).1

/-! ### Flow of control (R29, R59, R194, R211, R217) -/

/-- The issuing split has closed its bundle, its lanes kept, and stands at a position; a position outside the 32-bit range
leaves it at the bundle, lost. -/
def GoesTo (s t : State) (target : Int) : Prop :=
  t.issue.flow = true ∧ t.is.mask = s.is.mask ∧ t.is.state = s.is.state ∧ t.is.gap = s.issue.hdr.gap.val ∧ t.is.issued = true
    ∧ t.is.age = 0 ∧ t.is.hold = none
    ∧ (0 ≤ target ∧ target < 2 ^ 32 → (t.is.pc.toNat : Int) = target ∧ t.is.lost = false)
    ∧ (¬(0 ≤ target ∧ target < 2 ^ 32) → t.is.pc = s.is.pc ∧ t.is.lost = true)

/-- A split of the issuing wave, resident or on its stack, with just these lanes, at a position or lost. -/
def SplitAt (t : State) (m : Mask) (target : Option Word) : Prop :=
  (∃ r : RecId, (t.iw.splits[r]).state ≠ .free ∧ (t.iw.splits[r]).mask = m
      ∧ (match target with | some p => (t.iw.splits[r]).pc = p ∧ (t.iw.splits[r]).lost = false | none => (t.iw.splits[r]).lost = true))
    ∨ ∃ x ∈ t.iw.stack, x.mask = m ∧ (match target with | some p => x.pc = p ∧ x.lost = false | none => x.lost = true)

/-- What a c slot of the user level may change of its wave: its splits and stack, one A register, what it has observed, and
the notes of its hold, yield, stint and step. -/
def ControlFrame (s t : State) : Prop :=
  { t.iw with splits := s.iw.splits, stack := s.iw.stack, a := s.iw.a, obs := s.iw.obs, yieldTo := s.iw.yieldTo,
              stint := s.iw.stint, ahead := s.iw.ahead, arrived := s.iw.arrived } = s.iw
    ∧ (∀ w, w ≠ s.issue.slot → t.wave s.issue.core w = s.wave s.issue.core w) ∧ (∀ k, k ≠ s.issue.core → t.core k = s.core k)
    ∧ (∀ c, c = s.core s.issue.core →
        { t.core s.issue.core with waves := c.waves, ops := c.ops, adds := c.adds, stints := c.stints } = c)
    ∧ { t with cores := s.cores, issue := s.issue, groups := s.groups, grids := s.grids, copies := s.copies, privOps := s.privOps,
               free := s.free, nextId := s.nextId } = s
    ∧ ∀ a, memRead t.mem a = memRead s.mem a

/-! ### Copies (R340, R341) -/

/-- The fields of the request at a scratchpad offset. -/
def RequestAt (m : Mem) (o : Nat) (r : CopyReq) : Prop :=
  r.src.toNat = memNat m o 8 ∧ r.dst.toNat = memNat m (o + 8) 8 ∧ r.length = memNat m (o + 16) 4 ∧ r.rows = memNat m (o + 20) 2
    ∧ r.flow.toNat = memNat m (o + 22) 1 ∧ (r.ordered = true ↔ memNat m (o + 23) 1 % 2 = 1)
    ∧ r.srcStride = (BitVec.ofNat 32 (memNat m (o + 24) 4)).toInt ∧ r.dstStride = (BitVec.ofNat 32 (memNat m (o + 28) 4)).toInt
    ∧ r.srcNode = memNat m (o + 32) 2 ∧ r.dstNode = memNat m (o + 34) 2 ∧ r.srcKind = memNat m (o + 36) 1
    ∧ r.dstKind = memNat m (o + 37) 1 ∧ r.vsem.toNat = memNat m (o + 38) 1

/-- An end of a request names its address by a kind: translated, a core's scratchpad, or a pod peer. -/
def EndLegal (kind node addr : Nat) : Prop :=
  (kind = 0 ∧ node = 0) ∨ (kind = 1 ∧ node < 4096 ∧ addr < 2 ^ 32) ∨ (kind = 2 ∧ node < 1024)

/-- The request at an offset keeps its limits. -/
def RequestLegal (m : Mem) (o : Nat) : Prop :=
  let len := memNat m (o + 16) 4
  let rows := memNat m (o + 20) 2
  1 ≤ len ∧ len ≤ 0x1000000 ∧ 1 ≤ rows ∧ len * rows ≤ 0x7FFFFFFF ∧ memNat m (o + 23) 1 ≤ 1 ∧ memNat m (o + 38) 1 ≤ 247
    ∧ memNat m (o + 39) 25 = 0 ∧ EndLegal (memNat m (o + 36) 1) (memNat m (o + 32) 2) (memNat m o 8)
    ∧ EndLegal (memNat m (o + 37) 1) (memNat m (o + 34) 2) (memNat m (o + 8) 8)

/-- The address of a position of a request: its rows follow one another by a stride (R342). -/
def RowAddr (base : DWord) (stride : Int) (length p : Nat) (a : DWord) : Prop :=
  ((a.toNat : Int) - (base.toNat + (p / length : Nat) * stride + (p % length : Nat))) % 2 ^ 64 = 0

/-! ### Control registers (R360, R361) -/

/-- A selector names a register: the issuer's own with the self bit, or a target of its block. -/
def Selects (k : CoreId) (own : CtxId) (sel : Word) (tg : CrTarget) (idx : Nat) : Prop :=
  match tg with
  | .ctx c => idx < 14 ∧ ((sel.toNat = 2 ^ 31 + idx ∧ c = own) ∨ sel.toNat = c.val * 2 ^ 16 + idx)
  | .core j => idx < 4 ∧ ((sel.toNat = 2 ^ 31 + 0x1000 + idx ∧ j = k) ∨ sel.toNat = j.val * 2 ^ 16 + 0x1000 + idx)
  | .tile t => idx < 4 ∧ ((sel.toNat = 2 ^ 31 + 0x2000 + idx ∧ t.val = k.val / 16) ∨ sel.toNat = t.val * 2 ^ 16 + 0x2000 + idx)
  | .die d => idx < 3 ∧ ((sel.toNat = 2 ^ 31 + 0x3000 + idx ∧ d.val = k.val / 512) ∨ sel.toNat = d.val * 2 ^ 16 + 0x3000 + idx)
  | .queue q => idx < 7 ∧ sel.toNat = q.val * 2 ^ 16 + 0x4000 + idx

/-- A register of the issuing core, its tile or its die. -/
def OwnTarget (k : CoreId) : CrTarget → Prop
  | .ctx _ | .queue _ => False
  | .core j => j = k
  | .tile t => t.val = k.val / 16
  | .die d => d.val = k.val / 512

/-- The values of the context registers. -/
def CtxHolds (x : Ctx) (idx : Nat) (v : DWord) : Prop :=
  match idx with
  | 0 => v.toNat = x.level.toNat + 4 * x.class0.toNat + 256 * x.dbgBrk.toNat + 65536 * x.partition.toNat
  | 1 => v = x.area
  | 2 => v = x.ptroot
  | 3 => v.toNat = x.gen.toNat
  | 4 => v.toNat = x.fptrap.toNat
  | 5 => v.toNat = x.stepRound.toNat
  | 6 => v.toNat = x.joinSwap.toNat
  | 7 => v.toNat = x.preemptLimit.toNat
  | 8 => v.toNat = x.parkPct.toNat
  | 9 => v = x.handler
  | 10 => v.toNat = x.watchdog.toNat
  | 11 => v.toNat = x.seedDepth % 2 ^ 64
  | 12 => v.toNat = x.state % 2 ^ 64
  | _ => v.toNat = x.faultCnt.toNat

/-- The value of a register; of TILE.PWR_ACK and HOSTQ.STATUS nothing is said here. -/
def RegisterIs (s : State) (tg : CrTarget) (idx : Nat) (v : DWord) : Prop :=
  match tg, idx with
  | .ctx c, n => CtxHolds (s.ctx c) n v
  | .core j, 0 => v.toNat = j.val + if isSteward s j then 4096 else 0
  | .core j, 1 => (s.tiles[coreTile j]).state = .running →
      ∀ c : CtxId, v.getLsbD c.val = true ↔ (∃ w, (s.wave j w).live = true ∧ (s.wave j w).ctx = c) ∨ ∃ y ∈ (s.core j).claims, y.ctx = c
  | .core j, 2 => (s.tiles[coreTile j]).state = .running →
      v.toNat = (s.core j).liveWaves.length + 256 * ((s.core j).liveWaves.filter fun w => w.2.hasParked).length
  | .core j, 3 => (s.tiles[coreTile j]).state = .running → v.toNat = s.cycle % 2 ^ 64
  | .tile t, 0 => v.toNat = (s.tiles[t]).req.toNat + 256 * (s.tiles[t]).fence.toNat
  | .tile t, 2 => v.toNat = (s.tiles[t]).keep.toNat
  | .tile _, 3 => v = 0
  | .die d, 0 => v.toNat = d.val
  | .die d, 1 => v.toNat = d.val / (8 / 2 ^ s.layout.toNat) + 16 * s.layout.toNat
  | .die _, 2 => v.toNat = s.hub.ptp % 2 ^ 64
  | .queue q, 0 => v = (s.queues[q]).base
  | .queue q, 1 => v = (s.queues[q]).cpl
  | .queue q, 2 => (s.queues[q]).sizeLog2 < 16 → (s.queues[q]).classMin < 4 →
      v.toNat = (s.queues[q]).ctx.val + 2 ^ 8 * (s.queues[q]).classMin + 2 ^ 16 * (s.queues[q]).sizeLog2 + 2 ^ 24 * (s.queues[q]).enable.toNat
  | .queue _, 3 => v = 0
  | .queue q, 4 => v.toNat = (s.queues[q]).consumed.toNat
  | .queue q, 5 => v.toNat = (s.queues[q]).doneSeq.toNat
  | _, _ => True

/-- A context after a write of one of its registers but CTX.AREA; only machine level changes level and partition (R359). -/
def CtxWritten (machine : Bool) (idx : Nat) (v : DWord) (x y : Ctx) : Prop :=
  match idx with
  | 0 => y = { x with class0 := v.getLsbD 2, dbgBrk := v.getLsbD 8, level := if machine then v.setWidth 2 else x.level,
                      partition := if machine then (v >>> 16).setWidth 4 else x.partition }
  | 2 => y = { x with ptroot := v &&& 0x0000FFFFFFFFF001 }
  | 4 => y = { x with fptrap := v.setWidth 3 }
  | 5 => y = { x with stepRound := v.getLsbD 0 }
  | 6 => y = { x with joinSwap := v.setWidth 32 }
  | 7 => y = { x with preemptLimit := v.setWidth 32 }
  | 8 => y = { x with parkPct := (v.setWidth 7).setWidth 32 }
  | 9 => y = { x with handler := v &&& 0xFFFFFFFF0000FFFF }
  | 10 => y = { x with watchdog := v.setWidth 32 }
  | _ => y = x

/-- The value of an MTCR's source: an A register, or a 32-bit immediate or literal (R219). -/
def MtcrReads (s : State) (f : CSlot) (v : DWord) : Prop :=
  (∀ n, f.src = .a n → v = if n = 0 then 0 else s.iw.a[n]) ∧ ((∀ n, f.src ≠ .a n) → Reads s f.src false 0 0 0 v)

/-! ### Operands of privileged instructions (R372) -/

/-- The A register of a c slot's src holds a value. -/
def SrcIs (s : State) (f : CSlot) (x : DWord) : Prop := ∃ n : Fin 32, f.src = .a n ∧ x = if n = 0 then 0 else s.iw.a[n]

/-- A wave operand names a wave of the issuing core that is live, in the context it says, within reach. -/
def NamesWave (s : State) (f : CSlot) (w : SlotId) : Prop :=
  ∃ x, SrcIs s f x ∧ (s.wave s.issue.core w).live = true ∧ x.toNat = w.val + 2 ^ 16 * (s.wave s.issue.core w).ctx.val
    ∧ targetReach s s.iw.ctx (.ctx (s.wave s.issue.core w).ctx) = true

/-- A context operand names a context, by its number or by the self flag, with other bits as given. -/
def NamesCtx (s : State) (f : CSlot) (c : CtxId) (rest : Nat) : Prop :=
  ∃ x, SrcIs s f x ∧ x.toNat / 128 * 128 = rest ∧ (x.getLsbD 6 = true → c = s.iw.ctx) ∧ (x.getLsbD 6 = false → c.val = x.toNat % 64)

/-- An operation begins for the issuing split: it enters the list of those in progress. -/
def Begins (s t : State) (sem : Option (Fin 512)) (p : PrivOp) : Prop :=
  t.privOps = s.privOps ++ [p] ∧ p.id = s.nextId ∧ p.core = s.issue.core ∧ p.slot = s.issue.slot ∧ p.wave = s.iw.uid
    ∧ p.ctx = s.iw.ctx ∧ p.lanes = s.is.mask ∧ p.started = false ∧ p.sem = sem ∧ s.cycle ≤ p.due

/-- An operation is over: it leaves the list and adds to its semaphore. -/
def OpDone (s t : State) (p : PrivOp) : Prop :=
  t.privOps = s.privOps.filter (fun q => q.id ≠ p.id) ∧ (t.core p.core).addsNext = (s.core p.core).addsNext ++ doneAdds p.sem 1

/-! ### Traps (R410-R413) -/

/-- A split as it stands once it has trapped: its place, clock, gap and age stay; `pc` is the bundle that its record names
where that is not the split's (R299). -/
def TrappedAs (x : Split) (code : TrapCode) (arg : Byte) (addr : DWord) (record : Word) (pc : Option Word) (y : Split) : Prop :=
  y = { x with state := .trapped, code := code.code, arg := arg, addr := addr, record := record, resolve := false, mask0 := x.mask,
               epc := pc, hold := none, held := 0, syncAt := none, released := x.released && decide (code = .preempt) }

/-! ### Records and memory of the machine's own writes -/

/-- A serial for a new grid of a context: the counter's, unless a live grid of the context still has it, and then one that none
has (R23). -/
def FreshSerial (s : State) (c : CtxId) (n : Word) : Prop :=
  (s.grids.length < 2 ^ 32 → ∀ d ∈ s.grids, d.ctx = c → d.serial ≠ n)
    ∧ ((∀ d ∈ s.grids, d.ctx = c → d.serial ≠ (s.ctx c).serial) → n = (s.ctx c).serial)

/-- No store waits in a merge buffer, and memory is canonical. -/
def Plain (s : State) : Prop := (∀ k, (s.core k).merge = []) ∧ Memory.wf s.mem = true

/-- A fault record has been entered in a context's ring, if its area can be reached (R428). -/
def RecordIn (s t : State) (c : CtxId) (kind code d0 d1 : Nat) : Prop :=
  ∀ pa, Plain s → (s.ctx c).area ≠ 0 → areaAddr s c (0x400 + 64 * ((s.ctx c).faultCnt.toNat % 64)) true = .ok pa →
    (t.ctx c).faultCnt = (s.ctx c).faultCnt + 1 ∧ memNat t.mem pa 1 = kind % 256 ∧ memNat t.mem (pa + 1) 1 = code % 256
      ∧ memNat t.mem (pa + 0x20) 8 = d0 % 2 ^ 64 ∧ memNat t.mem (pa + 0x28) 8 = d1 % 2 ^ 64 ∧ memNat t.mem (pa + 0x38) 8 = s.cycle % 2 ^ 64

/-- The number of fields of a byte string, taken from an address on. -/
def Holds (t : State) (as : List Nat) (bs : List Byte) : Prop := ∀ i, i < bs.length → memRead t.mem (as.getD i 0) = bs.getD i 0

/-- The waves of a group that stand on its core. -/
def OnCore (s : State) (g : Group) (w : SlotId) : Prop :=
  w ∈ g.slots ∧ (s.wave g.core w).live = true ∧ (s.wave g.core w).group = g.id

/-- A context that a group takes back, or starts in, shows a wave's registers, latches and splits. -/
def SameWave (x y : Wave) : Prop :=
  y.live = x.live ∧ y.uid = x.uid ∧ y.kind = x.kind ∧ y.v = x.v ∧ y.a = x.a ∧ y.p = x.p ∧ y.units = x.units ∧ y.flights = x.flights
    ∧ y.lins = x.lins ∧ y.exited = x.exited ∧ y.stack = x.stack
    ∧ ∀ r : RecId, (y.splits[r]).state = (x.splits[r]).state ∧ (y.splits[r]).pc = (x.splits[r]).pc ∧ (y.splits[r]).mask = (x.splits[r]).mask
        ∧ (y.splits[r]).gap = (x.splits[r]).gap ∧ (y.splits[r]).tau = (x.splits[r]).tau

/-! ### Domains and messages between modules -/

/-- The local context bound to a domain, and its binding. -/
def BoundTo (s : State) (d : Word) (c : CtxId) (b : Domain) : Prop :=
  (s.ctx c).domain = some b ∧ b.id = d ∧ ∀ x : CtxId, x.val < c.val → ∀ y, (s.ctx x).domain = some y → y.id ≠ d

/-- A domain's row in the directory. -/
def RowOf (s : State) (d : Word) (r : DomainRow) : Prop := s.hub.rows.find? (fun x => x.domain = d) = some r

/-- A domain's row after an event: that row, and every other row as it was. -/
def RowNow (s t : State) (d : Word) (r : DomainRow) : Prop :=
  RowOf t d r ∧ t.hub.rows.filter (fun x => x.domain ≠ d) = s.hub.rows.filter (fun x => x.domain ≠ d)

/-- The header of a message from this module to another: source, destination, flow 0 and kind (R460). -/
def MessageHdr (s : State) (h : PktHdr) (m : BitVec 10) (kind : Nat) : Prop :=
  h.src = s.hub.module ∧ h.dst = m ∧ h.flow = 0 ∧ h.kind = kind

/-- A message has gone to some modules: on the first path to each, where it waits for its acknowledgement; a module without a
path counts as lost to the domain. Nothing else has left (R462, R468). -/
def Posted (s t : State) (d : Word) (ms : List (BitVec 10)) (kind : Nat) (fields : List Nat) : Prop :=
  ∃ l : List OutMsg, t.outbox = s.outbox ++ l
    ∧ (∀ x ∈ l, ∃ (m : BitVec 10) (station : Nat) (h : PktHdr), m ∈ ms ∧ MessageHdr s h m kind ∧ x = .mbohus station h fields)
    ∧ ∀ m ∈ ms,
        (∀ station route, pathFor s m 0 0 = some (station, route) →
          (∃ h : PktHdr, MessageHdr s h m kind ∧ h.route = route ∧ .mbohus station h fields ∈ l)
          ∧ ∃ x ∈ t.hub.sent, x.dst = m ∧ x.domain = some d ∧ x.msg = (kind, fields) ∧ x.attempt = 0)
        ∧ (pathFor s m 0 0 = none → ∀ r ∈ t.hub.rows, r.domain = d → m ∈ r.lost)

/-- Only the hub and what leaves it have changed. -/
def HubOnly (s t : State) : Prop := { t with hub := s.hub, outbox := s.outbox } = s

/-- The modules of the other ranks of a domain of P participants. -/
def otherModules (r : DomainRow) (b : Domain) : List (BitVec 10) :=
  ((List.range b.p).filter fun i => i ≠ b.rank).filterMap fun i => (r.ids[i]?).map fun m => m.setWidth 10

/-- The order of writes to one element: source rank, then sequence, then the copy's byte order (R165, R170). -/
def Precedes (e f : BarnWrite) : Prop :=
  e.rank.toNat < f.rank.toNat ∨ (e.rank = f.rank ∧ (e.seq.toNat < f.seq.toNat ∨ (e.seq = f.seq ∧ e.order < f.order)))

/-- The value a window's rule gives an element that held v, from its writes in order (R170). -/
def AppliedValue (d : Win) (v : Nat) (ws : List BarnWrite) (n : Nat) : Prop :=
  let xs := v :: ws.map (·.value.toNat)
  (d.rule = 0 ∨ d.rule = 2 → ∀ e, ws.head? = some e → ((ws.filter fun f => f.rank = e.rank).getLast?).map (·.value.toNat) = some n)
    ∧ (d.rule = 1 → (ws.getLast?).map (·.value.toNat) = some n)
    ∧ (d.rule = 3 → n = xs.sum % 2 ^ (8 * d.elem))
    ∧ (d.rule = 4 → n ∈ xs ∧ ∀ x ∈ xs, elemInt d n ≤ elemInt d x)
    ∧ (d.rule = 5 → n ∈ xs ∧ ∀ x ∈ xs, elemInt d x ≤ elemInt d n)
    ∧ (d.rule = 6 → ∀ i, n.testBit i = xs.any fun x => x.testBit i)

/-- One byte of a pod packet: a fault of the walk or a page that may not be written stops the packet there; otherwise the byte
is in memory (R342, R343). -/
def PacketByte (s t : State) (c : CtxId) (va : DWord) (b : Byte) (cause : Nat) : Prop :=
  (∀ e, walk s c va = .error e → cause = (if e.1 = .eccUncorr then 5 else 2) ∧ t = s)
    ∧ ∀ y, walk s c va = .ok y →
        (y.kind = 2 ∨ y.permits (s.ctx c).level false true = false → cause = 3 ∧ t = s)
        ∧ (y.kind ≠ 2 → y.permits (s.ctx c).level false true = true → cause = 0
            ∧ { t with mem := s.mem, zeroLines := s.zeroLines, bad := s.bad, releases := s.releases, cores := s.cores } = s
            ∧ (Plain s → y.sumcell = false → t.cores = s.cores ∧ memRead t.mem (y.addr va) = b ∧ ∀ a, a ≠ y.addr va → memRead t.mem a = memRead s.mem a))

/-- Only the acknowledgement of a packet has left, on the first path to its source, if there is one (R460-R463). -/
def AckTo (s t : State) (src : BitVec 10) (c : CtxId) (flow : Byte) (seq : Word) (cause : Nat) : Prop :=
  { t with outbox := s.outbox } = s
    ∧ (∀ station route, pathFor s src flow 0 = some (station, route) →
        t.outbox = s.outbox ++ [.ack station ⟨route, s.hub.module, src, c, flow, pktAck, seq⟩ cause])
    ∧ (pathFor s src flow 0 = none → t.outbox = s.outbox)

/-- How a message arrives: its source has been heard. One already delivered is acknowledged again, one already held waits. A new
one is held, and then all of its source that follow on the last one delivered take effect and are acknowledged in sequence, each
as the next is expected (R463, R466-R468). -/
def Receives (i : MsgHead → Instr) (m : PodMsg) : Prop :=
  ∀ (s : State) (h : MsgHead),
    let u := heard h.src s
    let old : Prop := 2 ^ 31 ≤ (h.seq - nextMessage s h.src).toNat
    let known : Prop := ∃ x ∈ s.hub.heldMsgs, x.1 = h.src ∧ x.2.1 = h.seq
    let number (j : Nat) : Word := nextMessage s h.src + BitVec.ofNat 32 j
    (old → ∃ t : State, exec (i h) s = .next t ∧ AckTo u t h.src 0 0 h.seq 1)
    ∧ (¬old → known → exec (i h) s = .next u)
    ∧ (¬old → ¬known → ∃ (n : Nat) (f : Nat → State) (y : Nat → PodMsg), exec (i h) s = .next (f n)
        ∧ f 0 = { u with hub := { u.hub with heldMsgs := u.hub.heldMsgs ++ [(h.src, h.seq, m)] } }
        ∧ (∀ x ∈ (f n).hub.heldMsgs, x.1 = h.src → x.2.1 ≠ number n)
        ∧ ∀ j, j < n →
            let x := (h.src, number j, y j)
            let v : State := { f j with hub := { (f j).hub with
              heldMsgs := (f j).hub.heldMsgs.erase x, inSeq := (h.src, number (j + 1)) :: (f j).hub.inSeq.filter fun q => q.1 ≠ h.src } }
            x ∈ (f j).hub.heldMsgs ∧ AckTo (deliverMsg h.src (y j) v) (f (j + 1)) h.src 0 0 (number j) 1)

/-- A pod packet is written, in the context its source belongs to, and acknowledged with the outcome (R341-R343, R463). -/
def Delivered (s t : State) (p : HeldPacket) : Prop :=
  ∃ (cause : Nat) (m : State), AckTo m t p.src p.ctx p.flow p.seq cause
    ∧ (packetCtx s p.src = none → cause = 3 ∧ m = s)
    ∧ ∀ c, packetCtx s p.src = some c →
        let va (i : Nat) : DWord := BitVec.ofNat 64 (p.dst + i)
        ∃ (f : Nat → State) (k : Nat → Nat), f 0 = s
          ∧ (∀ i, i < p.data.length → PacketByte (f i) (f (i + 1)) c (va i) (p.data.getD i 0) (k i))
          ∧ (p.data.length = 1 ∨ (∀ i y, i < p.data.length → walk (f i) c (va i) = .ok y → y.sumcell = false) →
              ∃ n, n ≤ p.data.length ∧ (∀ i, i < n → k i = 0) ∧ (n < p.data.length → k n ≠ 0 ∧ cause = k n) ∧ (n = p.data.length → cause = 0)
                ∧ m = f n)

/-! ### Memory's canonical form -/

/-- Every memory of the package is in its one canonical form: addresses strictly rising, no zero byte listed. -/
def Canonical (s : State) : Prop :=
  Memory.wf s.mem = true
    ∧ ∀ k : CoreId, Memory.wf (s.core k).scratch = true ∧ Memory.wf (s.core k).l1 = true ∧ Memory.wf (s.core k).acc = true

end Sys2Proof.Machine
end

