-- ==== Sys2Proof/Certificates/Slice0/Obligations.lean ====
section
/-!
DEFINITION. The statements about the package that the provers prove. Each docstring names the rule it comes from.
-/

open Sys2Proof Sys2Proof.Machine

/-! ### The v slot -/

/-- Every v slot that nothing stands against completes, and in each acting lane its unit's ports then hold the operands
its specifiers name: a into `.a`, b into `.b`, the trigger operand into `.t`; every other lane keeps its ports. PSET does
nothing else (R54-R58, R69, R247). -/
def Obligations.VectorTransports : Prop :=
  ∀ (i : Instr) (w : VWord) (n : VInfo) (s : State), vInfo i = some (w, n) → Passes s i →
    ∃ t : State, exec i s = .next t
      ∧ (∀ l, Acts s w.f.guard w.f.path l →
          let pa := (vPops w n).1
          let pb := (vPops w n).2.1
          let u := s.iw.unit w.unit
          let v := t.iw.unit w.unit
          Reads s w.f.a (wideUse n.a w.f.ty) s.issue.pops l u.a[l] v.a[l]
            ∧ Reads s w.f.b (wideUse n.b w.f.ty) (s.issue.pops + pa) l u.b[l] v.b[l]
            ∧ Reads s w.f.c (wideUse n.c w.f.ty) (s.issue.pops + pa + pb) l u.t[l] v.t[l])
      ∧ (∀ l, ¬Acts s w.f.guard w.f.path l →
          (t.iw.unit w.unit).a[l] = (s.iw.unit w.unit).a[l] ∧ (t.iw.unit w.unit).b[l] = (s.iw.unit w.unit).b[l]
            ∧ (t.iw.unit w.unit).t[l] = (s.iw.unit w.unit).t[l])
      ∧ (w.op = 0 → t.iw.flights = s.iw.flights ∧ t.iw.dfas = s.iw.dfas ∧ (t.core s.issue.core).fmaBusy = (s.core s.issue.core).fmaBusy
          ∧ (t.core s.issue.core).xfBusy = (s.core s.issue.core).xfBusy ∧ (t.core s.issue.core).strBusy = (s.core s.issue.core).strBusy)

/-- The frame of every v slot: besides its unit's ports, the result in flight (for DFA, the step waiting for its read),
the chain records and the unit's repeat interval, nothing changes: no latch, no register, no predicate, no other wave or
core, and no byte of memory (R54, R65, R69, R250). -/
def Obligations.VectorSlotFrame : Prop :=
  ∀ (i : Instr) (w : VWord) (n : VInfo) (s : State), vInfo i = some (w, n) → Passes s i →
    ∃ t : State, exec i s = .next t
      ∧ { t.iw with units := s.iw.units, flights := s.iw.flights, dfas := s.iw.dfas, chainOpen := s.iw.chainOpen,
                    chainTy := s.iw.chainTy } = s.iw
      ∧ (∀ u, (t.iw.unit u).q = (s.iw.unit u).q) ∧ (∀ u, u ≠ w.unit → t.iw.unit u = s.iw.unit u)
      ∧ (w.f.chain = .none → t.iw.chainOpen = s.iw.chainOpen ∧ t.iw.chainTy = s.iw.chainTy)
      ∧ (∀ v, v ≠ s.issue.slot → t.wave s.issue.core v = s.wave s.issue.core v)
      ∧ (∀ c, c = s.core s.issue.core →
          { t.core s.issue.core with waves := c.waves, fmaBusy := c.fmaBusy, xfBusy := c.xfBusy, strBusy := c.strBusy } = c)
      ∧ (∀ k, k ≠ s.issue.core → t.core k = s.core k)
      ∧ { t with cores := s.cores, nextId := s.nextId, issue := s.issue } = s
      ∧ (∀ a, memRead t.mem a = memRead s.mem a)

/-- IAL arithmetic: each operation's exact value goes through `Fit`; the compares write 1 or 0, ordering values by the type's
signedness, SETEQ and SETNE comparing bit patterns too; each lands one tick later (R62, R251, R256). -/
def Obligations.IntegerArithmetic : Prop :=
  ∀ (s : State) (f : VSlot),
    let v := intAt f.ty
    let any (t : Ty) : Bool := tyInt t || t = .b32 || t = .b64
    (Passes s (.add f) → Yields (.add f) .ial 1 f s fun a b _ y => Fits f.ty f.sat (v a + v b) y)
    ∧ (Passes s (.sub f) → Yields (.sub f) .ial 1 f s fun a b _ y => Fits f.ty f.sat (v a - v b) y)
    ∧ (Passes s (.mul f) → Yields (.mul f) .ial 1 f s fun a b _ y => Fits f.ty f.sat (v a * v b) y)
    ∧ (Passes s (.mulhi f) → Yields (.mulhi f) .ial 1 f s fun a b _ y => Fits f.ty false ⌊(v a * v b : ℚ) / 2 ^ tyBits f.ty⌋ y)
    ∧ (Passes s (.mad f) → Yields (.mad f) .ial 1 f s fun a b c y => Fits f.ty f.sat (v a * v b + v c) y)
    ∧ (Passes s (.abs f) → Yields (.abs f) .ial 1 f s fun a _ _ y => Fits f.ty f.sat |v a| y)
    ∧ (Passes s (.neg f) → Yields (.neg f) .ial 1 f s fun a _ _ y => Fits f.ty f.sat (-v a) y)
    ∧ (Passes s (.min f) → Yields (.min f) .ial 1 f s fun a b _ y => Fits f.ty false (min (v a) (v b)) y)
    ∧ (Passes s (.max f) → Yields (.max f) .ial 1 f s fun a b _ y => Fits f.ty false (max (v a) (v b)) y)
    ∧ (Passes s (.seteq f) → Yields (.seteq f) .ial 1 f s fun a b _ y => y = truth (v a = v b))
    ∧ (Passes s (.setne f) → Yields (.setne f) .ial 1 f s fun a b _ y => y = truth (v a ≠ v b))
    ∧ (Passes s (.setlt f) → Yields (.setlt f) .ial 1 f s fun a b _ y => y = truth (v a < v b))
    ∧ (Passes s (.setle f) → Yields (.setle f) .ial 1 f s fun a b _ y => y = truth (v a ≤ v b))
    ∧ (Passes s (.setgt f) → Yields (.setgt f) .ial 1 f s fun a b _ y => y = truth (v a > v b))
    ∧ (Passes s (.setge f) → Yields (.setge f) .ial 1 f s fun a b _ y => y = truth (v a ≥ v b))
    ∧ Listed (.add f) .ial 0x01 f tyInt true ∧ Listed (.sub f) .ial 0x02 f tyInt true
    ∧ Listed (.mul f) .ial 0x03 f tyInt true ∧ Listed (.mulhi f) .ial 0x04 f tyInt false
    ∧ Listed (.mad f) .ial 0x05 f tyInt true ∧ Listed (.abs f) .ial 0x06 f tySigned true
    ∧ Listed (.neg f) .ial 0x07 f tyInt true ∧ Listed (.min f) .ial 0x08 f tyInt false
    ∧ Listed (.max f) .ial 0x09 f tyInt false ∧ Listed (.seteq f) .ial 0x1A f any false
    ∧ Listed (.setne f) .ial 0x1B f any false ∧ Listed (.setlt f) .ial 0x1C f tyInt false
    ∧ Listed (.setle f) .ial 0x1D f tyInt false ∧ Listed (.setgt f) .ial 0x1E f tyInt false
    ∧ Listed (.setge f) .ial 0x1F f tyInt false

/-- Shifts, rotates and bit fields: the count is bits [7:0] of B; BFX takes and BFI replaces the field of C (R252, R253). -/
def Obligations.ShiftsAndFields : Prop :=
  ∀ (s : State) (f : VSlot),
    let v := intAt f.ty
    let w := tyBits f.ty
    let n (b : DWord) : Nat := b.toNat % 256
    let len (c : DWord) : Nat := min (c.toNat / 256 % 256) w
    let bit (t : Ty) : Bool := t = .b32 || t = .b64
    (Passes s (.shl f) → Yields (.shl f) .ial 1 f s fun a b _ y => Fits f.ty f.sat (v a * 2 ^ n b) y)
    ∧ (Passes s (.shr f) → Yields (.shr f) .ial 1 f s fun a b _ y => Fits f.ty false ⌊(v a : ℚ) / 2 ^ n b⌋ y)
    ∧ (Passes s (.rotl f) → Yields (.rotl f) .ial 1 f s fun a b _ y =>
        y = ((a.setWidth w).rotateLeft (n b)).setWidth 64)
    ∧ (Passes s (.rotr f) → Yields (.rotr f) .ial 1 f s fun a b _ y =>
        y = ((a.setWidth w).rotateRight (n b)).setWidth 64)
    ∧ (Passes s (.bfx f) → Yields (.bfx f) .ial 1 f s fun a _ c y =>
        let bits : Int := ⌊(v a : ℚ) / 2 ^ n c⌋ % 2 ^ len c
        Fits f.ty false (if tySigned f.ty then bits.bmod (2 ^ len c) else bits) y)
    ∧ (Passes s (.bfi f) → Yields (.bfi f) .ial 1 f s fun a b c y =>
        y = cut f.ty y ∧ ∀ j, j < w →
          y.getLsbD j = if n c ≤ j ∧ j < n c + len c then a.getLsbD (j - n c) else b.getLsbD j)
    ∧ Listed (.shl f) .ial 0x0F f tyInt true ∧ Listed (.shr f) .ial 0x10 f tyInt false
    ∧ Listed (.rotl f) .ial 0x11 f bit false ∧ Listed (.rotr f) .ial 0x12 f bit false
    ∧ Listed (.bfx f) .ial 0x13 f (fun t => tyCode t < 4) false ∧ Listed (.bfi f) .ial 0x14 f bit false

/-- Logic, selection, bit counts and PERM, bit by bit (R252, R254, R255, R257). -/
def Obligations.BitOperations : Prop :=
  ∀ (s : State) (f : VSlot),
    let w := tyBits f.ty
    let two (t : Ty) : Bool := t = .b32 || t = .b64
    (Passes s (.and f) → Yields (.and f) .ial 1 f s fun a b _ y => y = cut f.ty (a &&& b))
    ∧ (Passes s (.or f) → Yields (.or f) .ial 1 f s fun a b _ y => y = cut f.ty (a ||| b))
    ∧ (Passes s (.xor f) → Yields (.xor f) .ial 1 f s fun a b _ y => y = cut f.ty (a ^^^ b))
    ∧ (Passes s (.not f) → Yields (.not f) .ial 1 f s fun a _ _ y => y = cut f.ty (~~~a))
    ∧ (Passes s (.andn f) → Yields (.andn f) .ial 1 f s fun a b _ y => y = cut f.ty (a &&& ~~~b))
    ∧ (Passes s (.mov f) → Yields (.mov f) .ial 1 f s fun a _ _ y => y = cut f.ty a)
    ∧ (Passes s (.sel f) → Yields (.sel f) .ial 1 f s fun a b c y => y = cut f.ty (if c.getLsbD 0 then a else b))
    ∧ (Passes s (.plog f) → Yields (.plog f) .ial 1 f s fun a b c y => y = cut f.ty y ∧ ∀ j, j < 32 →
        y.getLsbD j = c.getLsbD (2 * (a.getLsbD j).toNat + (b.getLsbD j).toNat))
    ∧ (Passes s (.popc f) → Yields (.popc f) .ial 1 f s fun a _ _ y =>
        y.toNat = ((List.range w).filter fun j => a.getLsbD j).length)
    ∧ (Passes s (.clz f) → Yields (.clz f) .ial 1 f s fun a _ _ y => y.toNat ≤ w
        ∧ (∀ j, w - y.toNat ≤ j → j < w → a.getLsbD j = false) ∧ (y.toNat < w → a.getLsbD (w - 1 - y.toNat) = true))
    ∧ (Passes s (.ctz f) → Yields (.ctz f) .ial 1 f s fun a _ _ y => y.toNat ≤ w
        ∧ (∀ j, j < y.toNat → a.getLsbD j = false) ∧ (y.toNat < w → a.getLsbD y.toNat = true))
    ∧ (Passes s (.brev f) → Yields (.brev f) .ial 1 f s fun a _ _ y => y = cut f.ty y ∧ ∀ j, j < w →
        y.getLsbD j = a.getLsbD (w - 1 - j))
    ∧ (Passes s (.perm f) → Yields (.perm f) .ial 1 f s fun a b c y => y = cut f.ty y ∧ ∀ i, i < 4 → ∀ j, j < 8 →
        let sel := c.toNat / 16 ^ i % 16
        let bit (q : Nat) : Bool := if sel % 8 < 4 then a.getLsbD (8 * (sel % 8) + q) else b.getLsbD (8 * (sel % 8 - 4) + q)
        y.getLsbD (8 * i + j) = if sel < 8 then bit j else bit 7)
    ∧ Listed (.and f) .ial 0x0A f two false ∧ Listed (.or f) .ial 0x0B f two false
    ∧ Listed (.xor f) .ial 0x0C f two false ∧ Listed (.not f) .ial 0x0D f two false
    ∧ Listed (.andn f) .ial 0x0E f two false ∧ Listed (.popc f) .ial 0x15 f two false
    ∧ Listed (.clz f) .ial 0x16 f two false ∧ Listed (.ctz f) .ial 0x17 f two false
    ∧ Listed (.brev f) .ial 0x18 f two false ∧ Listed (.perm f) .ial 0x19 f (fun t => t = .b32) false

/-- The arithmetic family outside chains rounds the exact value once; signalling NaNs, ∞ − ∞ and 0 × ∞ are invalid (R258). -/
def Obligations.FloatArithmetic : Prop :=
  ∀ (s : State) (f : VSlot), f.chain = .none →
    let v := floatAt f.ty
    let sg := Signals f.ty
    let ticks := alt1 .fma (f.ty = .f64)
    let out := Rounded f.ty (rmode f.rnd) f.sat
    (Passes s (.fadd f) → Triggers (.fadd f) .fma ticks f s fun _ a b _ y k =>
      ∃ w, IsSum (rmode f.rnd) (v a) (v b) w ∧ out w (sg a ∨ sg b ∨ SumInvalid (v a) (v b)) y k)
    ∧ (Passes s (.fsub f) → Triggers (.fsub f) .fma ticks f s fun _ a b _ y k =>
      ∃ w, IsSum (rmode f.rnd) (v a) (v b).neg w ∧ out w (sg a ∨ sg b ∨ SumInvalid (v a) (v b).neg) y k)
    ∧ (Passes s (.fmul f) → Triggers (.fmul f) .fma ticks f s fun _ a b _ y k =>
      ∃ w, IsProduct (v a) (v b) w ∧ out w (sg a ∨ sg b ∨ ProductInvalid (v a) (v b)) y k)
    ∧ (∀ i negP negC, (i, negP, negC) ∈ [(Instr.fma f, false, false), (.fms f, false, true), (.fnma f, true, false), (.fnms f, true, true)] →
        Passes s i → Triggers i .fma ticks f s fun _ a b c y k =>
          ∃ w, IsFused (rmode f.rnd) negP negC (v a) (v b) (v c) w
            ∧ out w (sg a ∨ sg b ∨ sg c ∨ FusedInvalid negP negC (v a) (v b) (v c)) y k)

/-- Chain control: open marks every lane of the split with the slot's type, continue keeps the records, close clears
them; an open or continue step keeps its value in the chain format and lands it as binary64 rounded toward zero; a close
step and a slot outside chains keep none (R96-R98). -/
def Obligations.ChainSteps : Prop :=
  ∀ (i : Instr) (s : State) (f : VSlot), i ∈ [.fadd f, .fsub f, .fmul f, .fma f, .fms f, .fnma f, .fnms f] → Passes s i →
    ∃ (t : State) (fl : Flight), exec i s = .next t ∧ t.iw.flights = s.iw.flights ++ [fl]
      ∧ (f.chain = .opn → (∀ l, laneBit t.iw.chainOpen l = (laneBit s.iw.chainOpen l || laneBit s.is.mask l))
          ∧ ∀ l, t.iw.chainTy[l] = if laneBit s.is.mask l then f.ty else s.iw.chainTy[l])
      ∧ (f.chain = .cont → t.iw.chainOpen = s.iw.chainOpen ∧ t.iw.chainTy = s.iw.chainTy)
      ∧ (f.chain = .close → (∀ l, laneBit t.iw.chainOpen l = (laneBit s.iw.chainOpen l && !laneBit s.is.mask l))
          ∧ t.iw.chainTy = s.iw.chainTy)
      ∧ (f.chain = .none ∨ f.chain = .close → fl.chain = none)
      ∧ (f.chain = .opn ∨ f.chain = .cont → ∃ kept : Lanes W56, fl.chain = some kept ∧ ∀ l, Acts s f.guard f.path l →
          fl.val[l] = BitVec.ofNat 64 (roundTo .f64 .rtz false (w56Decode kept[l])).1)

/-- Minimum, maximum, the sign operations, FCLASS, FSCALE and FRND (R259, R261-R263). -/
def Obligations.FloatSelections : Prop :=
  ∀ (s : State) (f : VSlot),
    let v := floatAt f.ty
    let sg := Signals f.ty
    let w := tyBits f.ty
    let ticks := alt1 .fma (f.ty = .f64)
    let pick (lower : Bool) (a b y : DWord) (k : Cond) : Prop :=
      (sg a ∨ sg b → k = condInvalid) ∧ (¬(sg a ∨ sg b) → k = 0)
      ∧ (v a = .nan → v b = .nan → y = canonical f.ty) ∧ (v a = .nan → v b ≠ .nan → y = cut f.ty b)
      ∧ (v a ≠ .nan → v b = .nan → y = cut f.ty a)
      ∧ (∀ x z, (v a).ext = some x → (v b).ext = some z →
          (x < z ∨ (x = z ∧ (v a).isNeg = true ∧ (v b).isNeg = false) → y = cut f.ty (if lower then a else b))
          ∧ (z < x ∨ (x = z ∧ (v a).isNeg = false ∧ (v b).isNeg = true) → y = cut f.ty (if lower then b else a)))
    (Passes s (.fmin f) → Triggers (.fmin f) .fma ticks f s fun _ a b _ y k => pick true a b y k)
    ∧ (Passes s (.fmax f) → Triggers (.fmax f) .fma ticks f s fun _ a b _ y k => pick false a b y k)
    ∧ (Passes s (.fabs f) → Yields (.fabs f) .fma ticks f s fun a _ _ y => y = cut f.ty y
        ∧ ∀ j, j < w → y.getLsbD j = (j ≠ w - 1 && a.getLsbD j))
    ∧ (Passes s (.fneg f) → Yields (.fneg f) .fma ticks f s fun a _ _ y => y = cut f.ty y
        ∧ ∀ j, j < w → y.getLsbD j = (a.getLsbD j ^^ (j = w - 1)))
    ∧ (Passes s (.fcps f) → Yields (.fcps f) .fma ticks f s fun a b _ y => y = cut f.ty y
        ∧ ∀ j, j < w → y.getLsbD j = if j = w - 1 then b.getLsbD j else a.getLsbD j)
    ∧ (Passes s (.fclass f) → Yields (.fclass f) .fma ticks f s fun a _ _ y =>
        let sub := a.toNat / 2 ^ fFrac (fmtOfTy f.ty) % 2 ^ fExp (fmtOfTy f.ty) = 0
        (v a = .inf true → y = 1) ∧ (v a = .inf false → y = 128) ∧ (v a = .zero true → y = 8) ∧ (v a = .zero false → y = 16)
        ∧ (sg a → y = 256) ∧ (v a = .nan → ¬sg a → y = 512)
        ∧ (∀ n d, v a = .fin true n d → y = if sub then 4 else 2) ∧ (∀ n d, v a = .fin false n d → y = if sub then 32 else 64))
    ∧ (Passes s (.fscale f) → Triggers (.fscale f) .fma ticks f s fun _ a b _ y k =>
        let e := (b.setWidth 32).toInt
        (∀ x, (v a).rat = some x → x ≠ 0 → ∃ w, w.rat = some (x * (2 : ℚ) ^ e) ∧ Rounded f.ty (rmode f.rnd) f.sat w False y k)
        ∧ ((v a).rat = none ∨ (v a).rat = some 0 → Rounded f.ty (rmode f.rnd) f.sat (v a) (sg a) y k))
    ∧ (Passes s (.frnd f) → Triggers (.frnd f) .fma ticks f s fun _ a _ _ y k =>
        (sg a → k = condInvalid) ∧ (¬sg a → k = 0)
        ∧ (∀ x, (v a).rat = some x → ∃ (w : Val) (m : Int), w.rat = some (m : ℚ) ∧ w.isNeg = (v a).isNeg
            ∧ IntRounds (rmode f.rnd) x m ∧ y = BitVec.ofNat 64 (roundTo (fmtOfTy f.ty) .rne f.sat w).1)
        ∧ (v a = .nan → y = canonical f.ty)
        ∧ (∀ n, v a = .inf n → y = BitVec.ofNat 64 (roundTo (fmtOfTy f.ty) .rne f.sat (v a)).1))

/-- The floating compares on the number line with both infinities; a NaN is unordered (R260). -/
def Obligations.FloatCompares : Prop :=
  ∀ (s : State) (f : VSlot),
    let v (x : DWord) := (floatAt f.ty x).ext
    let ticks := alt1 .fma (f.ty = .f64)
    let quiet (a b : DWord) (k : Cond) : Prop :=
      (Signals f.ty a ∨ Signals f.ty b → k = condInvalid) ∧ (¬(Signals f.ty a ∨ Signals f.ty b) → k = 0)
    let loud (a b : DWord) (k : Cond) : Prop := (v a = none ∨ v b = none → k = condInvalid) ∧ (v a ≠ none → v b ≠ none → k = 0)
    (Passes s (.fseteq f) → Triggers (.fseteq f) .fma ticks f s fun _ a b _ y k =>
      y = truth (v a = v b ∧ v a ≠ none) ∧ quiet a b k)
    ∧ (Passes s (.fsetne f) → Triggers (.fsetne f) .fma ticks f s fun _ a b _ y k =>
      y = truth (v a ≠ v b ∨ v a = none) ∧ quiet a b k)
    ∧ (Passes s (.fsetlt f) → Triggers (.fsetlt f) .fma ticks f s fun _ a b _ y k =>
      (y = 1 ∨ y = 0) ∧ (y = 1 ↔ ∃ x z, v a = some x ∧ v b = some z ∧ x < z) ∧ loud a b k)
    ∧ (Passes s (.fsetle f) → Triggers (.fsetle f) .fma ticks f s fun _ a b _ y k =>
      (y = 1 ∨ y = 0) ∧ (y = 1 ↔ ∃ x z, v a = some x ∧ v b = some z ∧ x ≤ z) ∧ loud a b k)
    ∧ (Passes s (.fsetun f) → Triggers (.fsetun f) .fma ticks f s fun _ a b _ y k =>
      y = truth (v a = none ∨ v b = none) ∧ quiet a b k)

/-- The conversions: floats round once, integers saturate or wrap, out of range and NaN go to the bounds and zero with
invalid; CVT.RNA ties away, CVT.SR draws on the wave's seed (R264-R266, R89, R90). -/
def Obligations.Conversions : Prop :=
  ∀ (s : State) (d : Ty) (f : VSlot),
    let ticks := alt1 .fma (tyRead d = 64 || tyRead f.ty = 64)
    let conv (mode : RMode) (a y : DWord) (k : Cond) : Prop :=
      let v := floatAt f.ty a
      (tyFloat f.ty → tyFloat d → Rounded d mode f.sat v (Signals f.ty a) y k)
      ∧ (¬tyFloat f.ty → tyFloat d → ∃ w, w.rat = some (intAt f.ty a : ℚ) ∧ (intAt f.ty a = 0 → w = .zero false)
          ∧ Rounded d mode f.sat w False y k)
      ∧ (tyFloat f.ty → ¬tyFloat d →
          (v = .nan → y = 0 ∧ k = condInvalid)
          ∧ (∀ neg, v = .inf neg → Fits d false (if neg then intMin d else intMax d) y ∧ k = condInvalid)
          ∧ (∀ x, v.rat = some x → ∃ m : Int, IntRounds mode x m ∧ Fits d true m y
              ∧ k = if intMin d ≤ m ∧ m ≤ intMax d then 0 else condInvalid))
      ∧ (¬tyFloat f.ty → ¬tyFloat d → Fits d f.sat (intAt f.ty a) y ∧ k = 0)
    (Passes s (.cvt d f) → Triggers (.cvt d f) .fma ticks f s fun _ a _ _ y k => conv (rmode f.rnd) a y k)
    ∧ (Passes s (.cvtRna d f) → Triggers (.cvtRna d f) .fma ticks f s fun _ a _ _ y k => conv .rna a y k)
    ∧ (Passes s (.cvtSr d f) → Triggers (.cvtSr d f) .fma ticks f s fun l a _ c y k =>
        Rounded d (.sr (srWord s.iw l (c.setWidth 32))) f.sat (floatAt f.ty a) (Signals f.ty a) y k)

/-- WUPD and WMRG: mean and M2 in the latch's halves, the count beside them; a count overflow is invalid and leaves the
(first) triple (R267, R268, R106-R108). -/
def Obligations.WelfordOperations : Prop :=
  ∀ (s : State) (f : VSlot),
    let m := rmode f.rnd
    let lo (x : DWord) : Nat := x.toNat % 2 ^ 32
    let hi (x : DWord) : Nat := x.toNat / 2 ^ 32
    let out (i : Instr) (P : DWord → DWord → DWord → Nat → Nat → Nat → Cond → Prop) : Prop :=
      ∃ (t : State) (fl : Flight), ∃ cnt : Lanes Word, exec i s = .next t ∧ t.iw.flights = s.iw.flights ++ [fl] ∧ fl.unit = .fma ∧ fl.dep = f.dep
        ∧ fl.left = Lanes.all 4 ∧ fl.count = some cnt
        ∧ ∀ l, Acts s f.guard f.path l →
            P (t.iw.unit .fma).a[l] (t.iw.unit .fma).b[l] (t.iw.unit .fma).t[l] cnt[l].toNat (lo fl.val[l]) (hi fl.val[l]) fl.cond[l]
    (Passes s (.wupd f) → out (.wupd f) fun a b c n mean m2 k =>
      if lo c = 0xFFFFFFFF then n = lo c ∧ mean = lo a ∧ m2 = hi a ∧ k = condInvalid
      else n = lo c + 1 ∧ WelfordStep m (lo c) (lo a) (hi a) (lo b) mean m2)
    ∧ (Passes s (.wmrg f) → out (.wmrg f) fun a b c n mean m2 k =>
      if 0xFFFFFFFF < lo c + hi c then n = lo c ∧ mean = lo a ∧ m2 = hi a ∧ k = condInvalid
      else if hi c = 0 then n = lo c ∧ mean = lo a ∧ m2 = hi a
      else if lo c = 0 then n = hi c ∧ mean = lo b ∧ m2 = hi b
      else n = lo c + hi c ∧ WelfordJoin m (lo c) (lo a) (hi a) (hi c) (lo b) (hi b) mean m2)

/-- The special functions at the inputs whose result R271 lists or is a rational number: special values with their
conditions, reciprocals, quotients, roots of squares, powers and logarithms of two (R270, R271). A choice of the model
here, no rule of the spec: log entry 10. -/
def Obligations.SpecialFunctions : Prop :=
  ∀ (s : State) (f : VSlot),
    let v := floatAt f.ty
    let is (x : Val) (c : Cond) (y : DWord) (k : Cond) : Prop :=
      y = BitVec.ofNat 64 (roundTo (fmtOfTy f.ty) (rmode f.rnd) f.sat x).1 ∧ k = c
    let num (q : ℚ) (y : DWord) (k : Cond) : Prop := ∃ w, w.rat = some q ∧ Rounded f.ty (rmode f.rnd) f.sat w False y k
    let runs (i : Instr) (P : DWord → DWord → Cond → Prop) : Prop := Passes s i →
      Triggers i .xf 12 f s fun _ a _ _ y k =>
        P a y k ∧ (v a = .nan → y = canonical f.ty ∧ (Signals f.ty a → k = condInvalid) ∧ (¬Signals f.ty a → k = 0))
    let negative (a : DWord) : Prop := v a = .inf true ∨ ∃ x, (v a).rat = some x ∧ x < 0
    (runs (.rcp f) fun a y k => (∀ n, v a = .zero n → is (.inf n) condDivZero y k) ∧ (∀ n, v a = .inf n → is (.zero n) 0 y k)
        ∧ ∀ x, (v a).rat = some x → x ≠ 0 → num x⁻¹ y k)
    ∧ (runs (.rsqrt f) fun a y k => (∀ n, v a = .zero n → is (.inf n) condDivZero y k) ∧ (v a = .inf false → is (.zero false) 0 y k)
        ∧ (negative a → is .nan condInvalid y k))
    ∧ (runs (.sqrt f) fun a y k => (∀ n, v a = .zero n → is (.zero n) 0 y k) ∧ (v a = .inf false → is (.inf false) 0 y k)
        ∧ (negative a → is .nan condInvalid y k) ∧ ∀ r : ℚ, 0 < r → (v a).rat = some (r * r) → num r y k)
    ∧ (∀ i ∈ [Instr.exp f, .exp2 f], runs i fun a y k => (∀ n, v a = .zero n → is (.fin false 1 1) 0 y k)
        ∧ (v a = .inf true → is (.zero false) 0 y k) ∧ (v a = .inf false → is (.inf false) 0 y k))
    ∧ (runs (.exp2 f) fun a y k => ∀ e : Int, e ≠ 0 → |e| ≤ 2000 → (v a).rat = some (e : ℚ) → num ((2 : ℚ) ^ e) y k)
    ∧ (∀ i ∈ [Instr.log f, .log2 f], runs i fun a y k => (∀ n, v a = .zero n → is (.inf true) condDivZero y k)
        ∧ (v a = .inf false → is (.inf false) 0 y k) ∧ (negative a → is .nan condInvalid y k)
        ∧ ((v a).rat = some 1 → is (.zero false) 0 y k))
    ∧ (runs (.log2 f) fun a y k => ∀ e : Int, e ≠ 0 → (v a).rat = some ((2 : ℚ) ^ e) → num e y k)
    ∧ (runs (.sin f) fun a y k => (∀ n, v a = .zero n → is (.zero n) 0 y k) ∧ ∀ n, v a = .inf n → is .nan condInvalid y k)
    ∧ (runs (.cos f) fun a y k => (∀ n, v a = .zero n → is (.fin false 1 1) 0 y k) ∧ ∀ n, v a = .inf n → is .nan condInvalid y k)
    ∧ (runs (.tanh f) fun a y k => (∀ n, v a = .zero n → is (.zero n) 0 y k) ∧ ∀ n, v a = .inf n → is (.fin n 1 1) 0 y k)
    ∧ (runs (.sigm f) fun a y k => (∀ n, v a = .zero n → is (.fin false 1 2) 0 y k) ∧ (v a = .inf true → is (.zero false) 0 y k)
        ∧ (v a = .inf false → is (.fin false 1 1) 0 y k))
    ∧ (Passes s (.div f) → Triggers (.div f) .xf 12 f s fun _ a b _ y k =>
        let sign := (v a).isNeg ^^ (v b).isNeg
        let zero (x : DWord) : Prop := (v x).isZero = true
        let inf (x : DWord) : Prop := ∃ n, v x = .inf n
        let finite (x : DWord) : Prop := ∃ q, (v x).rat = some q ∧ q ≠ 0
        (v a = .nan ∨ v b = .nan → y = canonical f.ty) ∧ ((zero a ∧ zero b) ∨ (inf a ∧ inf b) → is .nan condInvalid y k)
        ∧ (finite a → zero b → is (.inf sign) condDivZero y k) ∧ (inf a → (finite b ∨ zero b) → is (.inf sign) 0 y k)
        ∧ ((zero a ∧ finite b) ∨ (inf b ∧ (finite a ∨ zero a)) → is (.zero sign) 0 y k)
        ∧ ∀ x z, (v a).rat = some x → (v b).rat = some z → x ≠ 0 → z ≠ 0 → num (x / z) y k)

/-- Integer division truncates, gives −1 or the greatest value by zero and the dividend as remainder; HAZEL draws on the
seed of the wave's grid (R272-R274). -/
def Obligations.DivisionAndHazel : Prop :=
  ∀ (s : State) (f : VSlot),
    let v := intAt f.ty
    (Passes s (.idiv f) → Yields (.idiv f) .xf 12 f s fun a b _ y =>
      Fits f.ty f.sat (if v b = 0 then (if tySigned f.ty then -1 else 2 ^ tyBits f.ty - 1) else (v a).tdiv (v b)) y)
    ∧ (Passes s (.irem f) → Yields (.irem f) .xf 12 f s fun a b _ y => Fits f.ty false (if v b = 0 then v a else (v a).tmod (v b)) y)
    ∧ (Passes s (.hazel f) → Yields (.hazel f) .xf 12 f s fun a b _ y => y = hazelOf s.iw.seed (b ++ a))

/-- Shuffles and votes over the effective members (R277-R280). -/
def Obligations.LaneExchange : Prop :=
  ∀ (s : State) (f : VSlot) (ms : List Lane), Members s f ms →
    let at_ (x : Lanes DWord) (l : Lane) : DWord := cut f.ty x[l]
    let src (b : Lanes DWord) (l : Lane) : Lane := Fin.ofNat 32 b[l].toNat
    (Passes s (.shfl f) → Crosses (.shfl f) f s fun a b l y k => k = 0 ∧
      (src b l ∈ ms → y = at_ a (src b l)) ∧ (src b l ∉ ms → y = at_ a l))
    ∧ (Passes s (.push f) → Crosses (.push f) f s fun a b l y k => k = 0 ∧
      (∀ p ∈ ms, src b p = l → (∀ q ∈ ms, src b q = l → q ≤ p) → y = at_ a p) ∧ ((∀ p ∈ ms, src b p ≠ l) → y = at_ a l))
    ∧ (Passes s (.voteAll f) → Crosses (.voteAll f) f s fun a _ _ y k => k = 0 ∧ (y = 0 ∨ y = 1) ∧ (y = 1 ↔ ∀ p ∈ ms, at_ a p ≠ 0))
    ∧ (Passes s (.voteAny f) → Crosses (.voteAny f) f s fun a _ _ y k => k = 0 ∧ (y = 0 ∨ y = 1) ∧ (y = 1 ↔ ∃ p ∈ ms, at_ a p ≠ 0))
    ∧ (Passes s (.voteBal f) → Crosses (.voteBal f) f s fun a _ _ y k => k = 0 ∧ y.toNat < 2 ^ 32
      ∧ ∀ p : Lane, y.getLsbD p.val = true ↔ p ∈ ms ∧ at_ a p ≠ 0)

/-- The integer and bitwise reductions and the integer scans over the effective members in ascending order, exact and
through `Fit`, with the values of an empty set; an acting lane that is no member keeps its own operand in a scan (R281, R282). -/
def Obligations.IntegerReductions : Prop :=
  ∀ (s : State) (f : VSlot) (ms : List Lane), Members s f ms →
    let v (a : Lanes DWord) (l : Lane) : Int := intAt f.ty a[l]
    let least (l : List Int) : Int := l.foldl min (intMax f.ty)
    let most (l : List Int) : Int := l.foldl max (intMin f.ty)
    let red (i : Instr) (g : List Int → Int) (sat : Bool) : Prop := Passes s i →
      Crosses i f s fun a _ _ y k => k = 0 ∧ Fits f.ty sat (g (ms.map (v a))) y
    let scan (i : Instr) (g : List Int → Int) (sat : Bool) : Prop := Passes s i →
      Crosses i f s fun a _ l y k => k = 0 ∧ (l ∈ ms → Fits f.ty sat (g ((ms.filter (· ≤ l)).map (v a))) y)
        ∧ (l ∉ ms → Fits f.ty false (v a l) y)
    let bit (i : Instr) (g : DWord → DWord → DWord) (e : DWord) : Prop := Passes s i →
      Crosses i f s fun a _ _ y k => k = 0 ∧ y = cut f.ty ((ms.map fun l => a[l]).foldl g e)
    (tyInt f.ty = true →
      red (.redAdd f) List.sum f.sat ∧ red (.redMul f) List.prod f.sat ∧ red (.redMin f) least false ∧ red (.redMax f) most false
        ∧ scan (.scanAdd f) List.sum f.sat ∧ scan (.scanMul f) List.prod f.sat ∧ scan (.scanMin f) least false
        ∧ scan (.scanMax f) most false)
    ∧ bit (.redAnd f) (· &&& ·) (BitVec.allOnes 64) ∧ bit (.redOr f) (· ||| ·) 0 ∧ bit (.redXor f) (· ^^^ ·) 0

/-- The floating reductions combine in the tree of R104 and the scans left to right, with the zero rule of R105 and R91 on
what each lane receives; an acting lane that is no member keeps its own operand in a scan (R104, R105, R281, R282). -/
def Obligations.FloatReductions : Prop :=
  ∀ (s : State) (f : VSlot) (ms : List Lane), Members s f ms → tyFloat f.ty = true →
    let t := fmtOfTy f.ty
    let code (a : Lanes DWord) (l : Lane) : Nat := a[l].toNat % 2 ^ tyBits f.ty
    let member (a : Lanes DWord) (p : Nat) : Option Nat := if h : p < 32 then (if (⟨p, h⟩ : Lane) ∈ ms then some (code a ⟨p, h⟩) else none) else none
    let lands (x : Nat) (y : DWord) : Prop := y = BitVec.ofNat 64 (saturate t f.sat x)
    let red (i : Instr) (g : Comb) : Prop := Passes s i →
      Crosses i f s fun a _ _ y _ =>
        (g = .add ∧ (∀ l ∈ ms, (decodeF t (code a l)).isZero = true) → ∃ x, SumOfZeros t (ms.map (code a)) x ∧ lands x y)
        ∧ (g ≠ .add ∨ (∃ l ∈ ms, (decodeF t (code a l)).isZero = false) →
            lands ((treeAt g t (rmode f.rnd) (member a) 5 0).getD (padCode g t)) y)
    let scan (i : Instr) (g : Comb) : Prop := Passes s i →
      Crosses i f s fun a _ l y _ =>
        (l ∈ ms → ∃ x, ScanTo g t (rmode f.rnd) ((ms.filter (· ≤ l)).map (code a)) x ∧ lands x y) ∧ (l ∉ ms → y = cut f.ty a[l])
    red (.redAdd f) .add ∧ red (.redMul f) .mul ∧ red (.redMin f) .min ∧ red (.redMax f) .max
      ∧ scan (.scanAdd f) .add ∧ scan (.scanMul f) .mul ∧ scan (.scanMin f) .min ∧ scan (.scanMax f) .max

/-- The string operations, byte by byte; a DFA step leaves its table offset and accept flag for the L1 read one tick later
(R284-R292). -/
def Obligations.StringOperations : Prop :=
  ∀ (s : State) (f : VSlot),
    let n := tyBits f.ty / 8
    let same (a b : DWord) (i : Nat) : Prop := byteAt a i = byteAt b i
    let low (c : DWord) : Nat := c.toNat % 2 ^ 32
    let bit (t : Ty) : Bool := t = .b32 || t = .b64
    (Passes s (.scmp f) → Yields (.scmp f) .str 6 f s fun a b c y =>
      (low c ≠ 0 → y.toNat = low c) ∧ (low c = 0 → (∀ i : Nat, i < n → same a b i) → y = 0)
      ∧ (low c = 0 → ∀ i : Nat, i < n → (∀ j : Nat, j < i → same a b j) → ¬same a b i → y = if byteAt a i < byteAt b i then 0xFFFFFFFF else 1))
    ∧ (Passes s (.seq f) → Yields (.seq f) .str 6 f s fun a b c y =>
      (y = 0 ∨ y = 1) ∧ (y = 1 ↔ ∀ i : Nat, i < min (c.toNat % 16) n → same a b i))
    ∧ (Passes s (.spfx f) → Yields (.spfx f) .str 6 f s fun a b c y =>
      (2 ^ 31 ≤ low c → y.toNat = low c)
      ∧ (low c < 2 ^ 31 → ∀ p : Nat, p ≤ n → (∀ i : Nat, i < p → same a b i) → (p < n → ¬same a b p) →
          y.toNat = min (low c + p) (2 ^ 31 - 1) + if p < n then 2 ^ 31 else 0))
    ∧ (Passes s (.sfind f) → Yields (.sfind f) .str 6 f s fun a b c y =>
      let hit (i : Nat) : Prop := b.toNat % 16 ≤ i ∧ byteAt a i = c.toNat % 256
      (∀ i : Nat, i < n → hit i → (∀ j : Nat, j < i → ¬hit j) → y.toNat = i) ∧ ((∀ i : Nat, i < n → ¬hit i) → y.toNat = n))
    ∧ (Passes s (.crc32c f) → Yields (.crc32c f) .str 6 f s fun a b _ y =>
      y = (((List.range n).map (byteAt a)).foldl crcStep (b.setWidth 32)).setWidth 64)
    ∧ (Passes s (.hmix f) → Yields (.hmix f) .str 6 f s fun a b _ y =>
      (f.ty = .b32 → let h : Word := (a ^^^ b).setWidth 32 * 0x01000193; y = (h ^^^ (h >>> 15)).setWidth 64)
      ∧ (f.ty = .b64 → let h : DWord := (a ^^^ b) * 0x100000001B3; y = h ^^^ (h >>> 29)))
    ∧ (Passes s (.fold f) → Yields (.fold f) .str 6 f s fun a _ _ y => y = cut f.ty y ∧ ∀ i : Nat, i < n →
      byteAt y i = if 0x41 ≤ byteAt a i ∧ byteAt a i ≤ 0x5A then byteAt a i + 0x20 else byteAt a i)
    ∧ Listed (.scmp f) .str 0x01 f bit false ∧ Listed (.seq f) .str 0x02 f bit false
    ∧ Listed (.spfx f) .str 0x03 f bit false ∧ Listed (.sfind f) .str 0x04 f bit false
    ∧ Listed (.crc32c f) .str 0x05 f bit false ∧ Listed (.hmix f) .str 0x06 f bit false
    ∧ Listed (.dfa f) .str 0x07 f (fun t => t = .b32) false ∧ Listed (.fold f) .str 0x08 f bit false
    ∧ (Passes s (.dfa f) → ∃ (t : State) (o : DfaOp), exec (.dfa f) s = .next t ∧ t.iw.dfas = s.iw.dfas ++ [o] ∧ o.dep = f.dep ∧ o.left = Lanes.all 1
      ∧ (∀ l, laneBit o.en l = true ↔ Acts s f.guard f.path l)
      ∧ ∀ l : Lane, laneBit o.acc l = (t.iw.unit .str).a[l].getLsbD 31
        ∧ o.off[l].toNat = ((t.iw.unit .str).t[l].toNat % 65536 + (t.iw.unit .str).a[l].toNat % 32768 * 512
            + (t.iw.unit .str).b[l].toNat % 256 * 2) % 65536)

/-- Landing: a due result reaches its unit's latch in the lanes it was triggered for, and its deposit target with it; a
later trigger's result prevails; a result with an enabled condition stays back and raises ARITH; no other lane of a latch
or register changes (R61, R65, R67, R68, R94). The premise holds of every state that runs reach: names grow. -/
def Obligations.ResultLanding : Prop :=
  ∀ (k : CoreId) (w : SlotId) (s : State), (∀ f ∈ (s.wave k w).flights, f.id < s.nextId) →
    let x := s.wave k w
    let lands (f : Flight) (l : Lane) : Prop := laneBit f.en l = true ∧ laneBit f.raised l = false ∧ f.left[l] = 0 ∧ f.cond[l] &&& f.enb = 0
    ∃ t : State, exec (.resultLanding k w) s = .next t
      ∧ (∀ a f b l, x.flights = a ++ [f] ++ b → lands f l → (∀ g ∈ b, ¬lands g l) →
          ((t.wave k w).unit f.unit).q[l] = f.val[l]
          ∧ (∀ d, f.dep = .v d → (t.wave k w).v[d][l] = f.val[l].setWidth 32
              ∧ (f.wide = true → (t.wave k w).v[Fin.ofNat 256 (d.val + 1)][l] = (f.val[l] >>> 32).setWidth 32))
          ∧ (∀ (n : Lanes Word) (d : Fin 256), f.count = some n → f.dep = .v d → d ≠ 0 → (t.wave k w).v[d.val - 1][l] = n[l])
          ∧ (∀ d : Fin 7, f.dep = .p d → laneBit (t.wave k w).p[d.val + 1] l = f.val[l].getLsbD 0))
      ∧ (∀ l, (∀ f ∈ x.flights, ¬lands f l) →
          (∀ u, ((t.wave k w).unit u).q[l] = (x.unit u).q[l]) ∧ (∀ d : Fin 256, (t.wave k w).v[d][l] = x.v[d][l])
          ∧ (∀ d : Fin 8, laneBit (t.wave k w).p[d] l = laneBit x.p[d] l))
      ∧ (∀ r : RecId, ∀ f ∈ x.flights, ∀ l, laneBit f.en l = true → laneBit f.raised l = false → f.left[l] = 0 →
          f.cond[l] &&& f.enb ≠ 0 → x.splits[r].state ≠ .free → laneBit x.splits[r].mask l = true →
          ∃ p ∈ (t.wave k w).splits[r].pend, p.code = .arith ∧ laneBit p.lanes l = true)
      ∧ (∀ a, memRead t.mem a = memRead s.mem a)

/-! ### The m slot -/

/-- An m slot enters its memory queue for the lanes it enables, with its address from A[base] and LSU.a, its b operand,
its deposit and its semaphore; without an enabled lane it completes at once, and what an acquire or a release orders stays in
the queue as an entry without lanes (R147, R207, R293, R294, R297, R301). -/
def Obligations.QueueEntries : Prop :=
  ∀ (s : State) (f : MSlot) (i : Instr) (kind : MKind) (near : Bool) (bits : Nat),
    (i, kind, near, bits) ∈ queueForms f → Passes s i →
    let acq : Prop := i ∈ [.ldAcqG f, .ldAcqY f, .ldAcqW f] ∨ f.order = .acq ∨ f.order = .ar
    let rel : Prop := i ∈ [.stRelG f, .stRelY f, .stRelW f] ∨ f.order = .rel ∨ f.order = .ar
    ∃ t : State, exec i s = .next t
      ∧ ((∀ l, ¬Acts s f.guard f.path l) →
          (¬acq → ¬rel → (t.core s.issue.core).ops = (s.core s.issue.core).ops)
          ∧ (acq ∨ rel → ∃ op, (t.core s.issue.core).ops = (s.core s.issue.core).ops ++ [op] ∧ op.id = s.nextId
              ∧ op.kind = .masked kind.stores ∧ op.en = 0 ∧ op.left = 0 ∧ (op.acq = true ↔ acq) ∧ (op.rel = true ↔ rel))
          ∧ (t.core s.issue.core).addsNext = (s.core s.issue.core).addsNext
              ++ if kind = .ldc then [] else doneAdds (semPhys s s.issue.core s.iw.ctx f.sem) 1)
      ∧ ((∃ l, Acts s f.guard f.path l) →
          (t.core s.issue.core).addsNext = (s.core s.issue.core).addsNext
          ∧ ∃ op, (t.core s.issue.core).ops = (s.core s.issue.core).ops ++ [op]
            ∧ op.id = s.nextId ∧ op.kind = kind ∧ op.wave = s.iw.uid ∧ op.size = f.size ∧ op.dep = f.dep ∧ op.scope = f.scope
            ∧ op.sem = semPhys s s.issue.core s.iw.ctx f.sem ∧ op.left = op.en
            ∧ (∀ l, laneBit op.en l = true ↔ Acts s f.guard f.path l)
            ∧ (op.acq = true ↔ acq) ∧ (op.rel = true ↔ rel)
            ∧ ∀ l, Acts s f.guard f.path l →
                Reads s f.a (!near) s.issue.pops l (s.iw.unit .lsu).a[l] (t.iw.unit .lsu).a[l]
                ∧ EffAddr s f near (t.iw.unit .lsu).a[l] op.ea[l]
                ∧ BOperand s f near bits l (s.iw.unit .lsu).b[l] (t.iw.unit .lsu).b[l] op.data[l]
                ∧ (kind = .ldc → op.len[l] = op.data[l].toNat % 2 ^ 32)
                ∧ (near = true → op.acc[l] = ⟨op.ea[l].toNat, false, 0⟩)
                ∧ (near = false → ∀ p, translated s s.issue.core s.iw.ctx op.ea[l] = .page p →
                    op.acc[l] = ⟨if p.sumcell then p.pa + 40 * ((op.ea[l].toNat - p.page) / 4) else p.pa + (op.ea[l].toNat - p.page),
                                p.sumcell, p.win⟩))

/-- LD.Q takes the slots at the tail of its pair's window for the whole wave: lanes that are masked off hold zero at once,
enabled ones wait for their data (R35, R308). -/
def Obligations.QueueLoadSlots : Prop :=
  ∀ (s : State) (f : MSlot) (p : SlotId), Passes s (.ldQ f) → s.iw.partner = some p → (s.is.apc ≠ s.is.pc ∨ s.is.qslot = none) → s.issue.off = none →
    let n := if f.size = .b8 then 2 else 1
    let x := (s.wave s.issue.core p).window
    ∃ t : State, exec (.ldQ f) s = .next t
      ∧ (t.wave s.issue.core p).window.head = x.head ∧ (t.wave s.issue.core p).window.count = x.count + n
      ∧ (∀ i, i < n → ∀ slot : QSlot, slot = (t.wave s.issue.core p).window.slots[Fin.ofNat 16 (x.head.val + x.count + i)] →
          slot.load = s.nextId ∧ (∀ l, laneBit slot.got l = true ↔ ¬Acts s f.guard f.path l)
          ∧ (slot.full = true ↔ ∀ l, ¬Acts s f.guard f.path l) ∧ ∀ l : Lane, slot.val[l] = 0)
      ∧ ∀ q : Fin 16, (∀ i, i < n → q ≠ Fin.ofNat 16 (x.head.val + x.count + i)) →
          (t.wave s.issue.core p).window.slots[q] = x.slots[q]

/-- `.lin` accesses take their bank cycle seven ticks later, with data read at issue; PREF only transports; MARK, MARK.PAIR
and FENCE enter the queues whatever the guards (R117, R139, R147, R304, R314-R316). Choices of the model
here, no rule of the spec: log entries 50, 51. -/
def Obligations.OtherMemorySlots : Prop :=
  ∀ (s : State) (f : MSlot),
    (∀ i store, (i, store) ∈ [(Instr.ldSLin f, false), (.stSLin f, true)] → Passes s i →
      ∃ (t : State) (o : LinOp), exec i s = .next t ∧ t.iw.lins = s.iw.lins ++ [o] ∧ (t.core s.issue.core).ops = (s.core s.issue.core).ops
        ∧ o.store = store ∧ o.size = f.size ∧ o.left = Lanes.all 7
        ∧ o.dep = (match f.dep with | some r => .v r | none => .none)
        ∧ (∀ l, laneBit o.en l = true ↔ Acts s f.guard f.path l)
        ∧ ∀ l, Acts s f.guard f.path l →
            Reads s f.a false s.issue.pops l (s.iw.unit .lsu).a[l] (t.iw.unit .lsu).a[l]
            ∧ EffAddr s f true (t.iw.unit .lsu).a[l] (o.off[l].setWidth 64)
            ∧ (store = true → BOperand s f true (max 32 (accessBits f)) l (s.iw.unit .lsu).b[l] (t.iw.unit .lsu).b[l] (o.data[l].setWidth 128)))
    ∧ (Passes s (.pref f) → ∃ t : State, exec (.pref f) s = .next t ∧ t.cores = (onIw (fun x => { x with units := t.iw.units }) s).cores
        ∧ ∀ l, Acts s f.guard f.path l → Reads s f.a true s.issue.pops l (s.iw.unit .lsu).a[l] (t.iw.unit .lsu).a[l])
    ∧ (Passes s (.mark f) → ∃ (t : State) (op : MemOp), exec (.mark f) s = .next t ∧ (t.core s.issue.core).ops = (s.core s.issue.core).ops ++ [op]
        ∧ op.id = s.nextId ∧ op.kind = .mark ∧ op.wave = s.iw.uid ∧ op.en = 0 ∧ op.pair = none)
    ∧ (Passes s (.fence f) → ∃ (t : State) (op : MemOp), exec (.fence f) s = .next t ∧ (t.core s.issue.core).ops = (s.core s.issue.core).ops ++ [op]
        ∧ op.id = s.nextId ∧ op.kind = .fence ∧ op.wave = s.iw.uid ∧ op.en = 0 ∧ op.scope = f.scope
        ∧ op.sem = if f.size = .b2 then semPhys s s.issue.core s.iw.ctx f.sem else none)
    ∧ (Passes s (.markPair f) → ∃ (t : State) (op : MemOp), exec (.markPair f) s = .next t ∧ op ∈ (t.core s.issue.core).ops
        ∧ op.id = s.nextId ∧ op.kind = .mark ∧ op.wave = s.iw.uid ∧ op.en = 0
        ∧ (s.iw.kind = .shadow → op.pair = none ∧ t.iw.markNext = some s.nextId)
        ∧ (∀ p, s.iw.kind = .compute → s.iw.partner = some p → op.pair = some s.nextId
            ∧ ∀ e ∈ (s.core s.issue.core).ops, e.kind = .qload → e.wave = (s.wave s.issue.core p).uid → s.iw.window.heldBy e ≠ [] →
                { e with left := e.en } ∈ (t.core s.issue.core).ops
                ∧ ∀ q ∈ s.iw.window.heldBy e, (t.iw.window.slots[q.2]).full = false
                    ∧ ∀ l, laneBit (t.iw.window.slots[q.2]).got l = true → laneBit e.en l = false))

/-- The frame of every m slot: besides the ports LSU.a and LSU.b, its entry in a queue or among the `.lin` accesses, the
addition of an instruction without lanes, a window source's slot and count, the note of class 0's Yard requests, and for LD.Q
and MARK.PAIR the pair's window, nothing changes: no register, no predicate, no latch, and no byte of memory, scratchpad or L1
(R69, R165, R183, R293, R296). -/
def Obligations.MemorySlotFrame : Prop :=
  ∀ (i : Instr) (w : MWord) (n : MInfo) (s : State), mInfo i = some (w, n) → Passes s i →
    ∃ t : State, exec i s = .next t
      ∧ { t.iw with units := s.iw.units, lins := s.iw.lins, window := s.iw.window, markNext := s.iw.markNext, splits := s.iw.splits } = s.iw
      ∧ (∀ u, u ≠ .lsu → t.iw.unit u = s.iw.unit u)
      ∧ (t.iw.unit .lsu).t = (s.iw.unit .lsu).t ∧ (t.iw.unit .lsu).q = (s.iw.unit .lsu).q
      ∧ (∀ l, ¬Acts s w.f.guard w.f.path l →
          (t.iw.unit .lsu).a[l] = (s.iw.unit .lsu).a[l] ∧ (t.iw.unit .lsu).b[l] = (s.iw.unit .lsu).b[l])
      ∧ (i ≠ .ldSLin w.f → i ≠ .stSLin w.f → t.iw.lins = s.iw.lins)
      ∧ (i ≠ .ldQ w.f → i ≠ .markPair w.f →
          t.iw.window = s.iw.window ∧ t.iw.markNext = s.iw.markNext ∧ t.iw.splits = s.iw.splits)
      ∧ (∀ r : RecId, { t.iw.splits[r] with qslot := (s.iw.splits[r]).qslot, apc := (s.iw.splits[r]).apc } = s.iw.splits[r])
      ∧ (∀ v, v ≠ s.issue.slot →
          { t.wave s.issue.core v with window := (s.wave s.issue.core v).window } = s.wave s.issue.core v
          ∧ (i ≠ .ldQ w.f ∨ s.iw.partner ≠ some v → t.wave s.issue.core v = s.wave s.issue.core v))
      ∧ (∀ c, c = s.core s.issue.core →
          { t.core s.issue.core with waves := c.waves, ops := c.ops, addsNext := c.addsNext, ctxSlots := c.ctxSlots } = c)
      ∧ (∀ k, k ≠ s.issue.core → t.core k = s.core k)
      ∧ { t with cores := s.cores, ctxs := s.ctxs, yard0 := s.yard0, nextId := s.nextId, free := s.free, issue := s.issue } = s
      ∧ (∀ x : CtxId, { t.ctx x with counts := (s.ctx x).counts } = s.ctx x)
      ∧ (i ≠ .stW w.f → i ≠ .stRelW w.f → t.ctxs = s.ctxs ∧ (t.core s.issue.core).ctxSlots = (s.core s.issue.core).ctxSlots)
      ∧ (s.iw.cls ≠ 0 → t.yard0 = s.yard0)
      ∧ { t.issue with pops := s.issue.pops, postinc := s.issue.postinc } = s.issue
      ∧ ∀ a, memRead t.mem a = memRead s.mem a

/-- Post-increment: once the bundle closes, A[base] has grown by 32 times the access width, 64 for an LDC, whatever the
lanes; a c-slot write of the register wins; a re-issue after a lane fault adds nothing (R216, R295). -/
def Obligations.PostIncrement : Prop :=
  ∀ (s : State) (i : Instr) (w : MWord) (n : MInfo), mInfo i = some (w, n) → Passes s i → w.f.postinc = true → s.iw.live = true →
    s.issue.postinc = none →
    ∃ t : State, exec i s = .next t
      ∧ (s.is.apc ≠ s.is.pc ∨ s.is.abase = none → t.issue.cdest ≠ some w.f.base →
          (closeBundle s.iw.uid t).iw.readA w.f.base
            = s.iw.readA w.f.base + BitVec.ofNat 64 (32 * if i = .ldc w.f then 64 else accessBits w.f / 8))
      ∧ ((s.is.apc = s.is.pc ∧ s.is.abase ≠ none) ∨ t.issue.cdest = some w.f.base →
          (closeBundle s.iw.uid t).iw.readA w.f.base = s.iw.readA w.f.base)

/-! ### The memory system -/

/-- Load data arrive: each waiting lane's deposit registers take the bytes read, zero-extended, and stand unsettled beside the
words that stood there before; nothing else of the register file changes; the entry leaves its queue and 1 is added to its
semaphore in the next cycle. A queue load fills its slots (R63, R65, R134, R151, R294, R302, R305, R306, R308). A window load
of a remote owner arrives once it has been answered (R465). Choices of the model
here, no rule of the spec: log entries 31, 33. -/
def Obligations.LoadArrival : Prop :=
  ∀ (s : State) (k : CoreId) (w : SlotId) (id : Nat) (o : MemOp),
    findOp s k w id = some o → o.kind.loads = true → o.kind ≠ .ldc → opReady s k o = true → o.failed = 0 →
    s.bad = [] → (s.core k).eccSp = [] → (s.core k).eccL1 = [] → remoteLanes s o = 0 → waveHere s k w o.wave = true →
    ∃ (t : State) (x : Lanes Nat), exec (.loadDataArrival k w id) s = .next t ∧ t.mem = s.mem
      ∧ (t.core k).scratch = (s.core k).scratch ∧ (t.core k).l1 = (s.core k).l1
      ∧ (∀ l, laneBit o.left l = true → ∀ j, j < sizeBytes o.size →
          (o.kind = .load ∨ o.kind = .qload → o.acc[l].cell = false →
            x[l] / 256 ^ j % 256 = (viewByte s k o.wave id (o.acc[l].pa + j)).1.toNat)
          ∧ (o.kind = .gather → (∀ e ∈ (s.core k).ops, e.kind = .scatter → e.wave ≠ o.wave ∨ id ≤ e.id) →
            x[l] / 256 ^ j % 256 = (memRead (s.core k).scratch (o.acc[l].pa + j)).toNat)
          ∧ (o.kind = .l1load → (∀ f ∈ (s.core k).l1Fills, ∀ e ∈ (s.core k).ops, e.id ≠ f.op) →
            x[l] / 256 ^ j % 256 = (memRead (s.core k).l1 (o.acc[l].pa + j)).toNat))
      ∧ (∀ l : Lane, o.acc[l].cell = false → x[l] < 256 ^ sizeBytes o.size)
      ∧ (o.kind ≠ .qload →
          (t.core k).ops.map (·.id) = ((s.core k).ops.map (·.id)).filter (· ≠ id)
          ∧ (t.core k).addsNext = (s.core k).addsNext ++ doneAdds o.sem 1
          ∧ (∀ d, o.dep = some d → ∀ i, i < max 1 (sizeBytes o.size / 4) → ∀ l, laneBit o.left l = true →
              ((t.wave k w).v[Fin.ofNat 256 (d.val + i)])[l].toNat = x[l] / 2 ^ (32 * i) % 2 ^ 32)
          ∧ (∀ d, o.dep = some d → ∀ i, i < max 1 (sizeBytes o.size / 4) → ∃ u ∈ (t.wave k w).unsettled,
              u.op = id ∧ u.sem = o.sem ∧ u.reg = Fin.ofNat 256 (d.val + i) ∧ u.lanes = o.left ∧ u.since = s.cycle + 1
              ∧ u.old = (s.wave k w).v[Fin.ofNat 256 (d.val + i)])
          ∧ (∀ (r : Fin 256) (l : Lane), (laneBit o.left l = false ∨ o.dep = none
              ∨ ∀ d, o.dep = some d → ∀ i, i < max 1 (sizeBytes o.size / 4) → r ≠ Fin.ofNat 256 (d.val + i)) →
              ((t.wave k w).v[r])[l] = ((s.wave k w).v[r])[l]))
      ∧ (o.kind = .qload → (t.wave k w).v = (s.wave k w).v
          ∧ (t.core k).addsNext = (s.core k).addsNext ++ (if o.atG then [] else doneAdds o.sem 1)
          ∧ ∀ p, (s.wave k w).partner = some p → ∀ q ∈ (s.wave k p).window.heldBy o, ∀ slot,
              slot = (t.wave k p).window.slots[q.2] →
              slot.got = ((s.wave k p).window.slots[q.2]).got ||| o.left ∧ (slot.full = true ↔ slot.got = fullMask)
              ∧ ∀ l, laneBit o.left l = true → slot.val[l].toNat = x[l] / 2 ^ (32 * q.1) % 2 ^ 32)

/-- Which byte a wave's read returns: its own latest earlier store that is still queued, else the latest entry of the core's
merge buffer, else memory (R134, R136). -/
def Obligations.StoreForwarding : Prop :=
  ∀ (s : State) (k : CoreId) (uid id a : Nat),
    ((s.core k).ops.map (·.id)).Pairwise (· < ·) → ((s.core k).merge.map (·.id)).Pairwise (· < ·) →
    let own (e : MemOp) (l : Lane) (b : ByteW) : Prop :=
      e ∈ (s.core k).ops ∧ e.wave = uid ∧ e.id < id ∧ e.atG = false ∧ laneBit e.left l = true ∧ laneWrites e l a = some b
    (∀ e l b, own e l b → (∀ e' l' b', own e' l' b' → e'.id < e.id ∨ (e'.id = e.id ∧ l' ≤ l)) → b.keep = 0 →
      (viewByte s k uid id a).1 = b.val)
    ∧ ((∀ e l b, ¬own e l b) →
        (∀ m ∈ (s.core k).merge, ∀ b, mergeByte m a = some b → (∀ m' ∈ (s.core k).merge, (mergeByte m' a).isSome → m'.id ≤ m.id) →
          b.keep = 0 → (viewByte s k uid id a).1 = b.val)
        ∧ ((∀ m ∈ (s.core k).merge, mergeByte m a = none) → (viewByte s k uid id a).1 = memRead s.mem a))

/-- A store performs at .g: an entry of the merge buffer for each lane, or for each range of a ZFILL, that writes the lane's
bytes; memory itself does not change yet. A release at .w or .g completes there. A window store puts an entry for each
element into its owner's Barn, tagged and numbered (R126, R133, R149, R151, R165, R302, R313, R451). Choices of the model
here, no rule of the spec: log entries 66, 67. -/
def Obligations.StoreEntry : Prop :=
  ∀ (s : State) (k : CoreId) (w : SlotId) (id : Nat) (o : MemOp),
    findOp s k w id = some o → opReady s k o = true → o.atG = false → o.sent = false → o.failed = 0 →
    (o.kind = .store ∨ o.kind = .zfill → mergeAccepts s k o.wave = true → o.zero ≠ [] ∨ o.kind = .store →
      ∃ (t : State) (es : List MergeE), exec (.mergeBufferEntry k w id) s = .next t ∧ t.mem = s.mem ∧ (t.core k).merge = (s.core k).merge ++ es
        ∧ (∀ e ∈ es, e.op = id ∧ e.wave = o.wave)
        ∧ (o.kind = .store → es.map (·.lane) = lanesOf o.left ∧ ∀ e ∈ es, o.acc[e.lane].cell = false → ∀ a,
            mergeByte e a = if o.acc[e.lane].pa ≤ a ∧ a < o.acc[e.lane].pa + sizeBytes o.size
              then some ⟨a, BitVec.ofNat 8 (o.data[e.lane].toNat / 256 ^ (a - o.acc[e.lane].pa)), 0⟩ else none)
        ∧ (o.kind = .zfill → es.map (fun e => (e.lane, e.zeros)) = o.zero.map fun z => (z.1, some (z.2.1, z.2.2)))
        ∧ (t.core k).addsNext = (s.core k).addsNext ++ if o.rel ∧ (o.scope = .w ∨ o.scope = .g) then doneAdds o.sem 1 else [])
    ∧ (o.kind = .store ∨ o.kind = .zfill → mergeAccepts s k o.wave = false → exec (.mergeBufferEntry k w id) s = .next s)
    ∧ (o.kind = .winStore → o.seqN < 2 ^ 27 → (s.ctx o.ctx).domain ≠ none → (∀ d : DieId, (s.dies[d]).barn.length + 512 ≤ 1048576) →
        ∃ t : State, exec (.mergeBufferEntry k w id) s = .next t ∧ t.mem = s.mem
          ∧ ∀ l, laneBit o.left l = true → ∀ d, (s.ctx o.ctx).windows[o.acc[l].win] = some d → ownsWindow s o.ctx d = true → d.elem ≠ 0 →
              ∀ j, j < sizeBytes o.size / d.elem →
                ∃ b ∈ (t.dies[d.home]).barn, b.ctx = o.ctx ∧ b.w =
                  { window := o.acc[l].win, elem := o.acc[l].pa / d.elem + j,
                    value := BitVec.ofNat 64 (o.data[l].toNat / 2 ^ (8 * d.elem * j) % 2 ^ (8 * d.elem)),
                    step := o.tag, rank := o.rank, seq := BitVec.ofNat 32 (o.seqN * 32 + l.val), order := 0 })

/-- The entries of one merge step reach .k together: a byte takes the value of the last entry that writes it, in the order of
core, context slot and age, and a zero range's bytes zero; every other byte of memory stays (R121, R133, R149). Choices of the model
here, no rule of the spec: log entries 14, 32. -/
def Obligations.MergeStepWrites : Prop :=
  ∀ (s : State) (ids : List Nat), ids ≠ [] →
    let all := allEntries s
    let go := all.filter fun x => ids.contains x.2.id && stepAllows all ids s.cycle x
    go.length = ids.length → Memory.wf s.mem = true → (∀ x ∈ go, (x.2.bytes.map (·.addr)).Nodup) →
    ∃ t : State, exec (.mergeStep ids) s = .next t
      ∧ (∀ a, (∀ x ∈ go, entryHits x.2 a = false) → memRead t.mem a = memRead s.mem a)
      ∧ (∀ a, ∀ x ∈ go, ∀ b, mergeByte x.2 a = some b → b.keep = 0 →
          (∀ y ∈ go, entryHits y.2 a = true → y = x ∨ (stepBefore y x = true ∧ stepBefore x y = false)) → memRead t.mem a = b.val)
      ∧ ∀ k, (t.core k).merge = (s.core k).merge.filter fun e => !(go.any fun x => x.2.id = e.id)

/-- Atomics, FADD.X, FADD.Y64 and VUPD: lane by lane, ascending, the element is read and the new one written; the deposit
receives the old element (for FADD.X the cell as a load reads it); no other byte of memory changes (R309-R312). -/
def Obligations.UpdatesPerform : Prop :=
  ∀ (s : State) (k : CoreId) (w : SlotId) (id : Nat) (o : MemOp),
    findOp s k w id = some o → o.kind.updates = true → opReady s k o = true → o.failed = 0 → s.bad = [] →
    waveHere s k w o.wave = true → (∀ c, (s.core c).merge = []) → Memory.wf s.mem = true →
    (∀ l : Lane, o.acc[l].cell = true → o.kind = .sumAdd) →
    ∃ (t : State) (old : Lane → Nat), exec (.atomicPerform k w id) s = .next t
      ∧ UpdatesRun (fun l n r m => UpdateIs o.kind (8 * sizeBytes o.size) n o.data[l].toNat r m) (laneSpan o) (lanesOf o.left) s.mem old t.mem
      ∧ (t.core k).addsNext = (s.core k).addsNext ++ doneAdds o.sem 1
      ∧ (t.core k).ops.map (·.id) = ((s.core k).ops.map (·.id)).filter (· ≠ id)
      ∧ (∀ d, o.dep = some d → ∀ i, i < max 1 (sizeBytes o.size / 4) → ∀ l, laneBit o.left l = true →
          ((t.wave k w).v[Fin.ofNat 256 (d.val + i)])[l].toNat = old l / 2 ^ (32 * i) % 2 ^ 32)
      ∧ (o.dep = none → (t.wave k w).v = (s.wave k w).v)

/-- Exact-sum cells: adding a finite number adds exactly, in any order; a load rounds the sum once, and an invalid sum, an
overflow or a NaN reads as the canonical NaN (R124-R126). -/
def Obligations.ExactSumCells : Prop :=
  ∀ (c x : Nat), c < 2 ^ 320 → x < 2 ^ 32 →
    (∀ q, (decodeF .f32 x).rat = some q → (cellSum (cellAdd c x) : ℚ) = cellSum c + q * 2 ^ 149 ∨ (cellAdd c x).testBit 315 = true)
    ∧ (∀ q, (decodeF .f32 x).rat = some q → |(cellSum c : ℚ) + q * 2 ^ 149| < 2 ^ 311 →
        (cellSum (cellAdd c x) : ℚ) = cellSum c + q * 2 ^ 149 ∧ ((cellAdd c x).testBit 315 = c.testBit 315))
    ∧ (decodeF .f32 x = .nan → cellRead (cellAdd c x) = 0x7FC00000)
    ∧ (c.testBit 312 = false → c.testBit 313 = false → c.testBit 314 = false → c.testBit 315 = false → cellSum c ≠ 0 →
        ∃ v : Val, v.rat = some ((cellSum c : ℚ) / 2 ^ 149) ∧ cellRead c = (roundTo .f32 .rne false v).1)
    ∧ (∀ y, y < 2 ^ 32 → (∃ q, (decodeF .f32 x).rat = some q) → (∃ q, (decodeF .f32 y).rat = some q) →
        |(cellSum c : ℚ)| ≤ 2 ^ 310 → cellAdd (cellAdd c x) y = cellAdd (cellAdd c y) x)

/-- The core's own storage. ST.S writes its lanes' bytes, the higher-numbered lane's staying; a `.lin` store writes its banks,
and a `.lin` load, when no store has the cycle, reads them and lands one tick later; a DFA step reads its table entry and
lands seven ticks later; an LDC reads a unit of 64 bytes, writes it to the L1 later and then adds 64, and for a unit that a
higher lane names too adds 64 alone (R116, R117, R291, R292, R304, R305, R307). Choices of the model
here, no rule of the spec: log entries 6, 56, 57. -/
def Obligations.LocalStorage : Prop :=
  ∀ (s : State) (k : CoreId) (w : SlotId),
    let x := s.wave k w
    (∀ id o, findOp s k w id = some o → o.kind = .scatter → opReady s k o = true → o.failed = 0 →
      Memory.wf (s.core k).scratch = true →
      ∃ t : State, exec (.scratchpadScatterWrite k w id) s = .next t ∧ t.mem = s.mem
        ∧ (t.core k).ops.map (·.id) = ((s.core k).ops.map (·.id)).filter (· ≠ id)
        ∧ (t.core k).addsNext = (s.core k).addsNext ++ doneAdds o.sem 1
        ∧ ∀ a, (∀ l, Covers o.left (fun l => o.acc[l].pa) (sizeBytes o.size) a l → (∀ m, Covers o.left (fun l => o.acc[l].pa) (sizeBytes o.size) a m → m ≤ l) →
            memRead (t.core k).scratch a = BitVec.ofNat 8 (o.data[l].toNat / 256 ^ (a - o.acc[l].pa)))
          ∧ ((∀ l, ¬Covers o.left (fun l => o.acc[l].pa) (sizeBytes o.size) a l) → memRead (t.core k).scratch a = memRead (s.core k).scratch a))
    ∧ (x.linDue true = true → (s.core k).eccSp = [] → Memory.wf (s.core k).scratch = true →
        let hits (o : LinOp) (a : Nat) (l : Lane) : Prop :=
          o ∈ x.lins ∧ o.store = true ∧ o.left[l] = 0 ∧ Covers o.en (fun l => (o.off[l]).toNat) (sizeBytes o.size) a l
        ∃ t : State, exec (.linBankAccess k w) s = .next t ∧ t.mem = s.mem ∧ (t.core k).ops = (s.core k).ops
          ∧ ∀ a, (∀ o l, hits o a l → (∀ o' m, hits o' a m → o' = o ∧ m ≤ l) →
              memRead (t.core k).scratch a = BitVec.ofNat 8 (o.data[l].toNat / 256 ^ (a - (o.off[l]).toNat)))
            ∧ ((∀ o l, ¬hits o a l) → memRead (t.core k).scratch a = memRead (s.core k).scratch a))
    ∧ (x.linDue true = false → (∀ y ∈ (s.core k).liveWaves, y.2.linDue true = false) → (s.core k).eccSp = [] →
        ∃ t : State, exec (.linBankAccess k w) s = .next t ∧ (t.core k).scratch = (s.core k).scratch
          ∧ ∀ o ∈ x.lins, o.store = false → ∀ l, laneBit o.en l = true → o.left[l] = 0 →
              ∃ f ∈ (t.wave k w).flights, f.id = o.id ∧ f.unit = .lsu ∧ f.dep = o.dep ∧ laneBit f.en l = true ∧ f.left[l] = 1
                ∧ f.val[l] = BitVec.ofNat 64 (memNat (s.core k).scratch (o.off[l]).toNat (sizeBytes o.size)))
    ∧ ((s.core k).eccL1 = [] → (∀ f ∈ (s.core k).l1Fills, x.uid ∈ f.seen) →
        ∃ t : State, exec (.dfaL1Read k w) s = .next t ∧ (t.core k).l1 = (s.core k).l1
          ∧ ∀ o ∈ x.dfas, ∀ l, laneBit o.en l = true → o.left[l] = 0 →
              ∃ f ∈ (t.wave k w).flights, f.id = o.id ∧ f.unit = .str ∧ f.dep = o.dep ∧ laneBit f.en l = true ∧ f.left[l] = 7
                ∧ (let b (i : Nat) : Nat := (memRead (s.core k).l1 (((o.off[l]).toNat + i) % 65536)).toNat
                  (o.off[l]).toNat < 65536 → f.val[l].toNat = b 0 + 256 * b 1 % 32768 + if laneBit o.acc l = true ∨ 128 ≤ b 1 then 2 ^ 31 else 0))
    ∧ (∀ id o l p, findOp s k w id = some o → o.kind = .ldc → laneBit o.left l = true → unitFill (s.core k) o l = none →
        ldcPage s k o l = .ok p → opReady s k (o.reach l p) = true → s.bad = [] →
        let dropped : Prop := ∃ m, laneBit o.en m = true ∧ l < m ∧ o.len[m] = o.len[l]
        ∃ t : State, exec (.ldcUnitFill k w id l) s = .next t ∧ t.mem = s.mem ∧ (t.core k).l1 = (s.core k).l1
          ∧ (dropped → (t.core k).addsNext = (s.core k).addsNext ++ doneAdds o.sem 64
              ∧ ∀ e ∈ (t.core k).ops, e.id = id → laneBit e.left l = false)
          ∧ (¬dropped → (t.core k).addsNext = (s.core k).addsNext
              ∧ ∃ f ∈ (t.core k).l1Fills, f.op = id ∧ f.lane = l ∧ f.off = o.len[l] ∧ f.old = []
                ∧ f.new = (List.range 64).map fun i => (viewByte s k o.wave id (p.addr o.ea[l] + i)).1))
    ∧ (∀ id o l f, findOp s k w id = some o → o.kind = .ldc → laneBit o.left l = true → unitFill (s.core k) o l = some f →
        f.due ≤ s.cycle → Memory.wf (s.core k).l1 = true →
        ∃ t : State, exec (.ldcUnitFill k w id l) s = .next t ∧ t.mem = s.mem
          ∧ (t.core k).addsNext = (s.core k).addsNext ++ doneAdds o.sem 64
          ∧ (∀ e ∈ (t.core k).ops, e.id = id → laneBit e.left l = false)
          ∧ ∀ a, memRead (t.core k).l1 a = if f.off ≤ a ∧ a < f.off + f.new.length then f.new.getD (a - f.off) 0 else memRead (s.core k).l1 a)
    ∧ (∀ id o, findOp s k w id = some o → o.kind = .fence → fenceReady s k o = true →
        ∃ t : State, exec (.fenceCompletion k w id) s = .next t ∧ t.mem = s.mem
          ∧ (t.core k).ops = (s.core k).ops.filter (fun e => e.id ≠ id)
          ∧ (t.core k).addsNext = (s.core k).addsNext ++ doneAdds o.sem 1)

/-- A walk reads one entry of a table per level and ends at a leaf; each malformed entry is an XLATE at the address walked.
A finished walk enters the core's TLB of 256 entries and the tile's of 8,192, a failed one waits for the access that asked for
it (R298, R437-R440, R443). A choice of the model
here, no rule of the spec: log entry 87. -/
def Obligations.PageWalks : Prop :=
  ∀ (s : State) (c : CtxId) (va : DWord), s.bad = [] → bitsOf va 63 57 = 0 →
    (∀ n e, WalkReads s c va n e →
      (bitsOf e 0 0 = 0 → walk s c va = .error (.xlate, va))
      ∧ (bitsOf e 1 0 = 1 → n = 0 ∨ bitsOf e 8 2 ≠ 0 ∨ bitsOf e 63 48 ≠ 0 ∨ bitsOf e 11 9 ≠ 0 → walk s c va = .error (.xlate, va))
      ∧ (bitsOf e 1 0 = 3 →
          let size := 2 ^ (if n = 2 then 30 else if n = 1 then 21 else 16)
          let pa := bitsOf e 47 12 * 4096
          (n = 3 ∨ n = 4 ∨ bitsOf e 63 56 ≠ 0 ∨ bitsOf e 11 9 ≠ 0 ∨ bitsOf e 6 5 = 3 ∨ pa % size ≠ 0 ∨ (bitsOf e 6 5 ≠ 2 ∧ bitsOf e 55 48 ≠ 0)
              ∨ (bitsOf e 8 8 = 1 ∧ ¬(bitsOf e 6 5 = 1 ∧ n = 0)) ∨ (bitsOf e 6 5 = 2 ∧ bitsOf e 7 7 = 1) ∨ (bitsOf e 6 5 = 1 ∧ n = 2)
              ∨ (bitsOf e 6 5 ≠ 2 ∧ (paReach s c pa = false ∨ paReach s c (pa + size - 1) = false)) →
            walk s c va = .error (.xlate, va))
          ∧ (∀ p, walk s c va = .ok p → p.ctx = c ∧ p.size = size ∧ p.page = va.toNat / size * size ∧ p.pa = pa
              ∧ p.kind = bitsOf e 6 5 ∧ (p.sumcell = true ↔ bitsOf e 8 8 = 1) ∧ (p.det = true ↔ bitsOf e 7 7 = 1)
              ∧ (p.user = true ↔ bitsOf e 4 4 = 1) ∧ (p.write = true ↔ bitsOf e 3 3 = 1) ∧ (p.read = true ↔ bitsOf e 2 2 = 1)
              ∧ (bitsOf e 6 5 = 2 → p.win.val = bitsOf e 55 48))
          ∧ (n ≤ 2 → bitsOf e 63 56 = 0 → bitsOf e 11 7 = 0 → bitsOf e 55 48 = 0 → bitsOf e 6 5 = 0 → pa % size = 0 → pa < hbmTop →
              paReach s c pa = true → paReach s c (pa + size - 1) = true → ∃ p, walk s c va = .ok p)))
    ∧ ∀ (k : CoreId) (x : Walk), (s.core k).walks.find? (fun y => y.ctx = c && y.va = va && y.failed.isNone && y.due ≤ s.cycle) = some x →
        ∃ t : State, exec (.tableWalk k c va) s = .next t ∧ t.mem = s.mem
          ∧ (∀ p, walk s c va = .ok p → (t.core k).walks = (s.core k).walks.erase x
              ∧ (∃ l : List Tlb, (t.core k).tlb = p :: l ∧ l.Sublist (s.core k).tlb ∧ l.length < 256)
              ∧ ∃ l : List Tlb, (t.tiles[coreTile k]).tlb = p :: l ∧ l.Sublist (s.tiles[coreTile k]).tlb ∧ l.length < 8192)
          ∧ (∀ err, walk s c va = .error err → (t.core k).tlb = (s.core k).tlb
              ∧ (x.askers ≠ [] → { x with failed := some err } ∈ (t.core k).walks))

/-- An overlay read ends: the page's entries, 48 bytes each as they stand in the image where its miss was translated to, are in
the dictionary RAM, unpinned (R193, R196, R444). -/
def Obligations.OverlayPages : Prop :=
  ∀ (s : State) (k : CoreId) (handle : Word) (page : Nat) (o : OverlayRead),
    (s.core k).overlays.find? (fun o => o.image = handle && o.page = page && o.due ≤ s.cycle) = some o →
    (∀ x ∈ o.src, s.badIn x.1 x.2 = false) →
    let l := o.src.flatMap fun x => (List.range x.2).map fun i => memRead s.mem (x.1 + i)
    ∃ t : State, exec (.overlayFetch k handle page) s = .next t ∧ t.mem = s.mem ∧ (t.core k).overlays = (s.core k).overlays.erase o
      ∧ ∃ p ∈ (t.core k).dict, p.image = handle ∧ p.page = page ∧ p.pinned = false
        ∧ p.entries.length = l.length / 48
        ∧ ∀ i (h : i < p.entries.length), p.entries[i] = leNat ((l.drop (48 * i)).take 48)

/-! ### The x slot -/

/-- An x slot issues for its whole wave, owned by the split's lowest lane: a matrix operation enters the sequencer with its
tile, offsets, increments and registers; KICK hands its list to the copy engines; CSEND and CRECV are armed for a cycle of
the grid. Nothing else changes (R165, R179, R180, R318-R321, R326, R329-R333, R339, R344). -/
def Obligations.XSlots : Prop :=
  ∀ (s : State) (f : XSlot),
    let k := s.issue.core
    let owner (l : Lane) : Prop := s.is.mask ≠ 0 → laneBit s.is.mask l = true ∧ ∀ j, laneBit s.is.mask j = true → l ≤ j
    let part := f.count.toNat / 256 % 16
    let reg := f.count.toNat % 256
    let wide := f.fmt = .fp64
    let enters (i : Instr) (op : Nat) (P : MxOp → Prop) : Prop := Passes s i →
      ∃ (t : State) (m : MxOp), exec i s = .next t ∧ { t with cores := s.cores, nextId := s.nextId } = s ∧ (∀ j, j ≠ k → t.core j = s.core j)
        ∧ { t.core k with mx := (s.core k).mx } = s.core k ∧ (t.core k).mx = (s.core k).mx ++ [m]
        ∧ m.op = op ∧ m.id = s.nextId ∧ m.wave = s.iw.uid ∧ m.slot = s.issue.slot ∧ owner m.lane ∧ m.t = 0
        ∧ m.fmt = f.fmt ∧ m.tile = f.tile.toNat ∧ m.next = 0 ∧ P m
    let arms (i : Instr) (send : Bool) : Prop := Passes s i →
      ∃ (t : State) (a : Armed), exec i s = .next t ∧ { t with cores := s.cores, nextId := s.nextId } = s ∧ (∀ j, j ≠ k → t.core j = s.core j)
        ∧ { t.core k with armed := (s.core k).armed } = s.core k ∧ (t.core k).armed = (s.core k).armed ++ [a]
        ∧ a.send = send ∧ a.circuit = f.circuit ∧ a.off = offsetOf s f.ra ∧ a.wave = s.iw.uid ∧ a.ctx = s.iw.ctx
        ∧ a.cycle = s.iw.epoch + if f.rb = 0 then 0 else s.iw.a[f.rb].toNat
    enters (.mxl f) 1 (fun m => m.n = f.count.toNat ∧ m.init = f.init ∧ m.mode = f.mode ∧ m.pa = offsetOf s f.ra ∧ m.pb = offsetOf s f.rb
        ∧ (f.incr = 7 → m.incA = 64 ∧ m.incB = 64)
        ∧ (f.incr ≠ 7 → m.incA = lowHalf s f.incr.toNat ∧ m.incB = highHalf s f.incr.toNat
            ∧ (fmtMx f.fmt = true → m.dispA = lowHalf s (f.incr.toNat + 1) ∧ m.dispB = highHalf s (f.incr.toNat + 1)))
        ∧ m.latch = List.replicate (tileDim f.fmt * tileDim f.fmt) (if f.fmt = .i8 ∨ f.fmt = .bin then 0 else if wide then 2 ^ 63 else 2 ^ 31))
    ∧ enters (.mxr f) 2 (fun m => m.n = part ∧ m.regs.val = reg ∧ m.read = false ∧ m.en = fullMask ∧ m.left = Lanes.all 4)
    ∧ enters (.mxw f) 3 (fun m => m.n = part ∧ m.src.length = 32 * (if part = 8 then fmtParts f.fmt else 1)
        ∧ ∀ j, j < (if part = 8 then fmtParts f.fmt else 1) → ∀ l : Lane,
            let r : Fin 256 := Fin.ofNat 256 (reg + j * if wide then 2 else 1)
            ∃ lo hi : Nat, VReads s r l lo ∧ (wide → VReads s (Fin.ofNat 256 (r.val + 1)) l hi)
              ∧ m.src.getD (32 * j + l.val) 0 = lo + if wide then hi * 2 ^ 32 else 0)
    ∧ enters (.mxc f) 4 (fun m => m.pa = offsetOf s f.ra ∧ m.read = false
        ∧ (f.incr = 7 → m.incA = 64 ∧ m.exp = 0 ∧ m.rnd = .rne ∧ m.sat = false ∧ m.col = false)
        ∧ ∀ p, p = s.issue.lits.getD f.incr.toNat 0 → f.incr ≠ 7 →
            m.incA = lowHalf s f.incr.toNat ∧ m.exp = ((p >>> 16).setWidth 8).toInt ∧ m.sat = p.getLsbD 26 ∧ m.col = p.getLsbD 27
            ∧ (fmtMx f.fmt = true → m.dispA = lowHalf s (f.incr.toNat + 1))
            ∧ m.rnd = match p.toNat / 2 ^ 24 % 4 with | 0 => .rne | 1 => .rtz | 2 => .rup | _ => .rdn)
    ∧ enters (.mxz f) 5 (fun m => m.n = f.count.toNat)
    ∧ (Passes s (.kick f) → ∃ (t : State) (c : CopyList), exec (.kick f) s = .next t ∧ (∀ j, j ≠ k → t.core j = s.core j)
        ∧ { t.core k with ctxSlots := (s.core k).ctxSlots } = s.core k ∧ t.copies = s.copies ++ [c] ∧ t.mem = s.mem
        ∧ c.id = s.nextId ∧ c.core = k ∧ c.wave = s.iw.uid ∧ c.ctx = s.iw.ctx ∧ owner c.lane ∧ c.off = offsetOf s f.ra
        ∧ c.count = f.count.toNat ∧ c.started = false ∧ c.tag = (s.ctx s.iw.ctx).step + (if s.iw.ahead then 1 else 0)
        ∧ winCount t c.ctx c.rank c.tag = winCount s c.ctx c.rank c.tag + 1 ∧ c.seqN = winCount s c.ctx c.rank c.tag)
    ∧ arms (.csend f) true ∧ arms (.crecv f) false

/-- An MXL step reads its slabs, and a block's scales at its first step, and rounds each cell once; its result is due three
ticks later. The step's banks taken by a circuit leave it for later and pend BANK_MX. After the last step the latch, with every
result, is written to the tile's cells and no other byte (R84, R100-R103, R118, R323, R324, R327, R328, R337, R471). Choices of
the model here, no rule of the spec: log entries 111, 115. -/
def Obligations.MatrixSteps : Prop :=
  ∀ (s : State) (k : CoreId) (m : MxOp),
    let c := s.core k
    let d := tileDim m.fmt
    let now : List Nat := (m.results.getLast?.map (·.2)).getD m.latch
    (mxDue c mxlStepDue = some m → circuitTakes s k (mxRanges m) = false → slabBad c (mxRanges m) = false →
      meetsBad c.eccAcc (mxlTiles m) = false → now.length = d * d →
      let pa := ((m.pa : Int) + m.next * m.incA).toNat
      let pb := ((m.pb : Int) + m.next * m.incB).toNat
      let starts := fmtMx m.fmt = true ∧ m.next % (if m.fmt = .mx4 then 4 else 8) = 0
      let sa (i : Nat) : Nat := if starts then (memRead c.scratch (((pa : Int) + m.dispA).toNat + i)).toNat else m.scaleA.getD i 0
      let sb (j : Nat) : Nat := if starts then (memRead c.scratch (((pb : Int) + m.dispB).toNat + j)).toNat else m.scaleB.getD j 0
      let old (i j : Nat) : Nat :=
        if m.next = 0 ∧ m.init = true then memNat (accView c m.id) (1024 * m.tile + cellByte m.fmt i j) (cellBytes m.fmt)
        else now.getD (d * i + j) 0
      ∃ (t : State) (m' : MxOp) (r : List Nat), exec (.mxlStep k) s = .next t ∧ m' ∈ (t.core k).mx ∧ m'.id = m.id ∧ m'.next = m.next + 1
        ∧ { t.core k with mx := c.mx } = c ∧ m'.results = m.results ++ [(m.next + 4, r)]
        ∧ ∀ i j, i < d → j < d →
            StepIs m.fmt m.mode (sa i) (sb j) (old i j)
              ((List.range (fmtK m.fmt)).map fun e => (slabAt c.scratch m.fmt pa i e, slabAt c.scratch m.fmt pb j e))
              (r.getD (d * i + j) 0))
    ∧ (mxDue c mxlStepDue = some m → circuitTakes s k (mxRanges m) = true →
        ∃ t : State, exec (.mxlStep k) s = .next t ∧ { m with failed := true } ∈ (t.core k).mx ∧ (t.core k).acc = c.acc
          ∧ ∀ r, (s.wave k m.slot).recOf m.lane = some r → ∃ p ∈ ((t.wave k m.slot).splits[r]).pend, p.code = .bankMx)
    ∧ (mxDue c (fun m => m.op = 1 && m.next = m.n && m.n + 4 ≤ m.t) = some m → now.length = d * d → Memory.wf c.acc = true →
        ∃ t : State, exec (.mxlTileWrite k) s = .next t ∧ (t.core k).mx = c.mx.filter (fun x => x.id ≠ m.id)
          ∧ { t.core k with mx := c.mx, acc := c.acc, eccAcc := c.eccAcc } = c
          ∧ (∀ i j, i < d → j < d → memNat (t.core k).acc (1024 * m.tile + cellByte m.fmt i j) (cellBytes m.fmt)
              = now.getD (d * i + j) 0 % 2 ^ (8 * cellBytes m.fmt))
          ∧ ∀ a, (∀ i j, i < d → j < d → ¬(1024 * m.tile + cellByte m.fmt i j ≤ a ∧ a < 1024 * m.tile + cellByte m.fmt i j + cellBytes m.fmt)) →
              memRead (t.core k).acc a = memRead c.acc a)

/-- MXR reads its tile and writes its parts to the registers of every lane; MXW writes its parts to the tile; MXZ zeroes its
tiles; MXC reads its source and writes slab after slab of converted elements (R329-R335, R337). -/
def Obligations.MatrixMoves : Prop :=
  ∀ (s : State) (k : CoreId) (m : MxOp),
    let c := s.core k
    let d := tileDim m.fmt
    let parts := if m.n = 8 then fmtParts m.fmt else 1
    let part (j : Nat) : Nat := if m.n = 8 then j else m.n
    (mxDue c (fun m => m.op = 2 && !m.read && 1 ≤ m.t) = some m → c.eccAcc = [] →
      ∃ (t : State) (m' : MxOp), exec (.mxrTileRead k) s = .next t ∧ m' ∈ (t.core k).mx ∧ m'.id = m.id ∧ m'.read = true ∧ { t.core k with mx := c.mx } = c
        ∧ ∀ i j, i < d → j < d →
            m'.src.getD (d * i + j) 0 = memNat (accView c m.id) (1024 * m.tile + cellByte m.fmt i j) (cellBytes m.fmt))
    ∧ (m ∈ c.mx → (∀ x ∈ c.mx, x ≠ m → mxrDue c x = 0) → (s.wave k m.slot).flights = [] → parts ≤ 8 →
        ∃ t : State, exec (.mxrRegisterWrite k) s = .next t ∧ t.mem = s.mem ∧ (t.core k).acc = c.acc
          ∧ (∀ l, laneBit (mxrDue c m) l = true → ∀ j, j < parts →
              let r : Fin 256 := Fin.ofNat 256 (m.regs.val + j * if m.fmt = .fp64 then 2 else 1)
              let x := m.src.getD (32 * part j + l.val) 0
              ((t.wave k m.slot).v[r])[l].toNat = x % 2 ^ 32
              ∧ (m.fmt = .fp64 → ((t.wave k m.slot).v[Fin.ofNat 256 (r.val + 1)])[l].toNat = x / 2 ^ 32 % 2 ^ 32))
          ∧ (∀ l, laneBit (mxrDue c m) l = false → ∀ r : Fin 256, ((t.wave k m.slot).v[r])[l] = ((s.wave k m.slot).v[r])[l]))
    ∧ (mxDue c (fun m => m.op = 3 && 2 ≤ m.t) = some m → m.src.length = 32 * parts → (∀ j, j < parts → part j < fmtParts m.fmt) → Memory.wf c.acc = true →
        let at_ (j : Nat) (l : Lane) : Nat := 1024 * m.tile + cellByte m.fmt ((32 * part j + l.val) / d) ((32 * part j + l.val) % d)
        ∃ t : State, exec (.mxwTileWrite k) s = .next t ∧ (t.core k).mx = c.mx.filter (fun x => x.id ≠ m.id)
          ∧ { t.core k with mx := c.mx, acc := c.acc, eccAcc := c.eccAcc } = c
          ∧ (∀ j, j < parts → ∀ l, memNat (t.core k).acc (at_ j l) (cellBytes m.fmt) = m.src.getD (32 * j + l.val) 0 % 2 ^ (8 * cellBytes m.fmt))
          ∧ ∀ a, (∀ j, j < parts → ∀ l, ¬(at_ j l ≤ a ∧ a < at_ j l + cellBytes m.fmt)) → memRead (t.core k).acc a = memRead c.acc a)
    ∧ (mxDue c (fun m => m.op = 5 && 1 ≤ m.t) = some m →
        ∃ t : State, exec (.mxzTileWrite k) s = .next t ∧ (t.core k).mx = c.mx.filter (fun x => x.id ≠ m.id)
          ∧ { t.core k with mx := c.mx, acc := c.acc, eccAcc := c.eccAcc } = c
          ∧ ∀ a, memRead (t.core k).acc a = if 1024 * m.tile ≤ a ∧ a < 1024 * (m.tile + m.n) then 0 else memRead c.acc a)
    ∧ (mxDue c (fun m => m.op = 4 && !m.read && 1 ≤ m.t) = some m → c.eccAcc = [] →
        ∃ (t : State) (m' : MxOp), exec (.mxcTileRead k) s = .next t ∧ m' ∈ (t.core k).mx ∧ m'.id = m.id ∧ m'.read = true ∧ { t.core k with mx := c.mx } = c
          ∧ (fmtCode m.fmt ≤ 6 → ∀ i j, i < d → j < d →
              m'.src.getD (d * i + j) 0 = memNat (accView c m.id) (1024 * m.tile + cellByte m.fmt i j) (cellBytes m.fmt))
          ∧ (7 ≤ fmtCode m.fmt → ∀ h i j, h < 2 → i < 16 → j < 16 →
              m'.src.getD (256 * h + 16 * i + j) 0 = memNat (accView c m.id) (1024 * (m.tile + h) + (16 * i + j) * 4) 4))
    ∧ (mxDue c mxcWriteDue = some m → m.next < m.n → circuitTakes s k (mxRanges m) = false → fmtMx m.fmt = false → Memory.wf c.scratch = true →
        let off := ((m.pa : Int) + m.next * m.incA).toNat
        let src (r q : Nat) : Nat :=
          if m.fmt = .bin then
            (if m.col then m.src.getD (256 * (q / 16) + 16 * (q % 16) + r) 0 else m.src.getD (256 * (q / 16) + 16 * r + q % 16) 0)
          else m.src.getD (if m.col then d * q + r else d * r + q) 0
        ∃ t : State, exec (.mxcSlabWrite k) s = .next t ∧ (t.core k).acc = c.acc ∧ t.mem = s.mem
          ∧ (∀ r e, r < d → e < fmtK m.fmt → ConvertsTo m (src r (m.next * fmtK m.fmt + e)) (slabAt (t.core k).scratch m.fmt off r e))
          ∧ ∀ a, ¬(off ≤ a ∧ a < off + fmtSlab m.fmt) → memRead (t.core k).scratch a = memRead c.scratch a)

/-! ### The c slot: user level -/

/-- JMP and RET send the whole split to its target, CALL also writes the next position into its A register; NOP, a bundle
without slots, and a released BAR change nothing of their own. BR divides its split: for each leaf that some lane reaches there
is a split of just the lanes that reach it, at that leaf's target: the next position, or the bundle's position plus one of four
16-bit offsets (R29, R198, R211, R224-R227, R230). Choices of the model
here, no rule of the spec: log entries 26, 45. -/
def Obligations.JumpsAndBranches : Prop :=
  ∀ (s : State) (f : CSlot),
    (Passes s (.jmp f) → ∃ t : State, exec (.jmp f) s = .next t ∧ ControlFrame s t ∧ t.iw.a = s.iw.a ∧ (∀ r, r ≠ s.issue.split → t.iw.splits[r] = s.iw.splits[r])
        ∧ GoesTo s t (s.issue.pc.toNat + (s.issue.lits.getD f.lit.toNat 0).toInt))
    ∧ (∀ n : Fin 32, f.src = .a n → Passes s (.call f) → ∃ t : State, exec (.call f) s = .next t ∧ ControlFrame s t
        ∧ (∀ r, r ≠ s.issue.split → t.iw.splits[r] = s.iw.splits[r])
        ∧ GoesTo s t (s.issue.pc.toNat + (s.issue.lits.getD f.lit.toNat 0).toInt)
        ∧ (∀ p, s.issue.next = some p → n ≠ 0 → (t.iw.a[n]).toNat = p.toNat) ∧ (∀ m : Fin 32, m ≠ n ∨ m = 0 → t.iw.a[m] = s.iw.a[m]))
    ∧ (∀ n : Fin 32, f.src = .a n → Passes s (.ret f) → ∃ t : State, exec (.ret f) s = .next t ∧ ControlFrame s t ∧ t.iw.a = s.iw.a
        ∧ (∀ r, r ≠ s.issue.split → t.iw.splits[r] = s.iw.splits[r])
        ∧ GoesTo s t (if n = 0 then 0 else s.iw.a[n].toNat))
    ∧ (Passes s (.nop f) → exec (.nop f) s = .next s) ∧ (Passes s .headerOnlyBundle → exec .headerOnlyBundle s = .next s)
    ∧ (Passes s (.bar f) → exec (.bar f) s = .next s)
    ∧ (Passes s (.br f) → s.is.state = .runnable →
        let target (k : Fin 5) : Option Word :=
          let at_ (o : Int) : Option Word :=
            if 0 ≤ (s.issue.pc.toNat : Int) + o ∧ (s.issue.pc.toNat : Int) + o < 2 ^ 32
            then some (BitVec.ofInt 32 ((s.issue.pc.toNat : Int) + o)) else none
          if k = 0 then s.issue.next else if k = 1 then at_ (lowHalf s f.lit.toNat) else if k = 2 then at_ (highHalf s f.lit.toNat)
          else if k = 3 then at_ (lowHalf s (f.lit.toNat + 1)) else at_ (highHalf s (f.lit.toNat + 1))
        ∃ t : State, exec (.br f) s = .next t ∧ ControlFrame s t ∧ t.iw.a = s.iw.a
          ∧ ∀ k l, laneBit s.is.mask l = true → s.issue.leaf[l] = k →
              ∃ m : Mask, (∀ j, laneBit m j = true ↔ laneBit s.is.mask j = true ∧ s.issue.leaf[j] = k) ∧ SplitAt t m (target k))

/-- END ends the split's lanes: they leave their record and every result in flight; the last lane of a wave ends the wave,
which counts as ended for its group, ends its shadow, and for a stint performs the signals and frees the context (R33, R36,
R38, R228). A choice of the model
here, no rule of the spec: log entry 18. -/
def Obligations.EndOfLanes : Prop :=
  ∀ (s : State) (f : CSlot), Passes s (.endLanes f) →
    let left : Mask := s.iw.exited ||| s.is.mask
    ∃ t : State, exec (.endLanes f) s = .next t ∧ t.issue.flow = true ∧ t.mem = s.mem
      ∧ (left ≠ fullMask → t.iw.exited = left ∧ t.iw.v = s.iw.v ∧ t.iw.a = s.iw.a
          ∧ (∀ r : RecId, (t.iw.splits[r]).state ≠ .free → (t.iw.splits[r]).mask &&& s.is.mask = 0)
          ∧ (∀ x ∈ t.iw.flights, x.en &&& s.is.mask = 0) ∧ (∀ x ∈ t.iw.lins, x.store = false → x.en &&& s.is.mask = 0))
      ∧ (left = fullMask → s.iw.kind = .compute → t.iw.exited = fullMask
          ∧ (∀ g, s.group? s.iw.group = some g → ∃ h, t.group? s.iw.group = some h ∧ s.iw.windex ∈ h.ended)
          ∧ ∀ p, s.iw.partner = some p → (t.wave s.issue.core p).exited = fullMask)
      ∧ (left = fullMask → s.iw.kind = .stint → t.iw.live = false
          ∧ ∀ r, s.iw.stint = some r → (SemRef.s254 s.iw.ctx, 1) ∈ (t.core s.issue.core).adds
              ∧ ∀ g ∈ r.signals, ∀ p, semPhys s s.issue.core s.iw.ctx g.1 = some p → (SemRef.phys p, g.2.toInt) ∈ (t.core s.issue.core).adds)

/-- Holds, semaphores and traps of the user level. WAIT and CONV hold the split after issue; SIG adds; YIELD passes the role
or stands back 16 cycles; TRAP and an enabled BRK pend DEBUG_BREAK; TOKEN.PASS hands the commit token on, at once or as soon as
the holding group's token-gated accesses have performed (R48, R49, R71, R73, R158, R229, R232, R233, R242, R244-R246). Choices of the model
here, no rule of the spec: log entries 22, 23, 24. -/
def Obligations.UserControl : Prop :=
  ∀ (s : State) (f : CSlot),
    let k := s.issue.core
    let pends (i : Instr) (arg : Byte) : Prop := ∃ t : State, exec i s = .next t ∧ ControlFrame s t
      ∧ t.is.pend = s.is.pend ++ [{ code := .debugBreak, arg := arg, lanes := s.is.mask, addr := Lanes.all 0, record := 0xFFFFFFFF, pc := none }]
    (Passes s (.wait f) → ∃ (t : State) (thr : Word), exec (.wait f) s = .next t ∧ ControlFrame s t ∧ t.is = { s.is with after := .wait f.sem thr }
        ∧ Reads s f.src false s.issue.pops (lowLane s.is.mask) 0 (thr.setWidth 64))
    ∧ (Passes s (.convHold f) → ∃ t : State, exec (.convHold f) s = .next t ∧ ControlFrame s t ∧ t.is = { s.is with after := .conv })
    ∧ (∀ p, semPhys s k s.iw.ctx f.sem = some p → Passes s (.sig f) → ∃ t : State, exec (.sig f) s = .next t ∧ ControlFrame s t
        ∧ (t.core k).adds = (s.core k).adds ++ [(.phys p, f.imm.toInt)] ∧ t.iw.splits = s.iw.splits)
    ∧ (Passes s (.yield f) → ∃ t : State, exec (.yield f) s = .next t ∧ ControlFrame s t
        ∧ (s.iw.det ≠ 2 → t.iw = { s.iw with yieldTo := s.cycle + 16 } ∧ t.groups = s.groups)
        ∧ (s.iw.det = 2 → t.iw = s.iw)
        ∧ ∀ g n, s.iw.det = 2 → s.iw.kind = .compute → s.group? s.iw.group = some g → g.cur = s.iw.windex → g.cur < g.w →
            n < g.w → n ∉ g.ended → n ≠ g.cur →
            ∃ h, t.group? s.iw.group = some h ∧ h.cur ∉ g.ended ∧ h.cur < g.w
              ∧ (h.cur + g.w - g.cur - 1) % g.w ≤ (n + g.w - g.cur - 1) % g.w)
    ∧ (Passes s (.trap f) → pends (.trap f) f.imm)
    ∧ (Passes s (.brk f) → (s.ctx s.iw.ctx).dbgBrk = true → pends (.brk f) 0xFF)
    ∧ (Passes s (.brk f) → (s.ctx s.iw.ctx).dbgBrk = false → exec (.brk f) s = .next s)
    ∧ (Passes s (.tokenPass f) → s.iw.det = 0 → exec (.tokenPass f) s = .next s)
    ∧ (Passes s (.tokenPass f) → s.iw.det ≠ 0 → ∀ g d, s.group? s.iw.group = some g → s.grid? g.grid = some d → d.token = g.no → d.token < d.g →
        ∃ (t : State) (e : Grid), exec (.tokenPass f) s = .next t ∧ ControlFrame s t ∧ t.grid? g.grid = some e
          ∧ (tokenClear (s.core k) g.id = false → e = { d with passing := true })
          ∧ (tokenClear (s.core k) g.id = true → e.passing = false
              ∧ ∀ n, n < d.g → n ∉ d.retired → n ≠ d.token → e.token ∉ d.retired ∧ e.token < d.g
                ∧ (e.token + d.g - d.token - 1) % d.g ≤ (n + d.g - d.token - 1) % d.g))

/-- STINT enters its queue and takes one entry of S253; LAUNCH with a free entry copies its record, takes one of S255 and
answers 1 in its predicate, and with none answers 0 and does nothing; a JOIN that passes only observes; STEP fences at .k,
answers the last boundary's outcome and leaves the wave ahead (R37, R51, R162, R163, R234-R237, R239, R243). -/
def Obligations.QueuedControl : Prop :=
  ∀ (s : State) (f : CSlot),
    let k := s.issue.core
    let m := (s.core k).scratch
    (∀ n : Fin 32, f.src = .a n → Passes s (.stint f) → ∃ (t : State) (e : StintEntry), exec (.stint f) s = .next t ∧ ControlFrame s t
        ∧ (t.core k).stints = (s.core k).stints ++ [e] ∧ (t.core k).adds = (s.core k).adds ++ [(.s253 s.iw.ctx, -1)]
        ∧ e.ctx = s.iw.ctx ∧ e.image = s.iw.image ∧ e.index = f.imm.toNat ∧ e.arg = (if n = 0 then 0 else s.iw.a[n])
        ∧ ∀ (v : Byte) (thr : Nat), (v, thr) ∈ e.conds ↔ ∃ i, i < 4 ∧ ∃ x : Word, s.issue.lits[f.lit.toNat + i]? = some x ∧ x.getLsbD 31 = true
            ∧ v = x.setWidth 8 ∧ thr = x.toNat / 256 % 2 ^ 23)
    ∧ (∀ (g : Group) (off : DWord), s.group? s.iw.group = some g → 1 ≤ g.s255 → Reads s f.src false s.issue.pops (lowLane s.is.mask) 0 off → Passes s (.launch f) →
        let o := off.toNat
        ∃ (t : State) (h : Group) (r : LaunchRec), exec (.launch f) s = .next t ∧ ControlFrame s t ∧ t.group? s.iw.group = some h
          ∧ h.s255 = g.s255 - 1 ∧ h.launchQ = g.launchQ ++ [r] ∧ h.f = g.f + (if r.flags.getLsbD 0 then 1 else 0) ∧ r.f = g.f
          ∧ r.image.toNat = memNat m o 4 ∧ r.entry.toNat = memNat m (o + 4) 2 ∧ r.waves = memNat m (o + 6) 1
          ∧ r.flags.toNat = memNat m (o + 7) 1 ∧ r.groups = memNat m (o + 8) 4 ∧ r.params.toNat = memNat m (o + 16) 8
          ∧ r.join.toNat = memNat m (o + 24) 8
          ∧ t.issue.preds = s.issue.preds ++ [(f.pred, s.is.mask, s.is.mask)])
    ∧ (∀ g, s.group? s.iw.group = some g → g.s255 = 0 → Passes s (.launch f) → ∃ t : State, exec (.launch f) s = .next t ∧ ControlFrame s t
        ∧ t.groups = s.groups ∧ t.cores = s.cores ∧ t.issue.preds = s.issue.preds ++ [(f.pred, 0, s.is.mask)])
    ∧ (Passes s (.join f) → ∃ t : State, exec (.join f) s = .next t ∧ ControlFrame s t ∧ t.iw.splits = s.iw.splits ∧ t.iw.a = s.iw.a
        ∧ t.groups = s.groups ∧ ∀ x ∈ s.iw.obs, x ∈ t.iw.obs)
    ∧ (Passes s (.step f) → (s.ctx s.iw.ctx).refusedStep.contains (s.iw.uid, (s.ctx s.iw.ctx).step) = false →
        ∃ (t : State) (op : MemOp), exec (.step f) s = .next t ∧ ControlFrame s t ∧ (t.core k).ops = (s.core k).ops ++ [op]
          ∧ op.id = s.nextId ∧ op.wave = s.iw.uid ∧ op.kind = .fence ∧ op.scope = .k ∧ op.sem = none
          ∧ (t.iw.ahead = true ↔ s.iw.ahead = true ∨ ((s.ctx s.iw.ctx).domain ≠ none ∧ s.iw.member = true))
          ∧ (f.pred = 0 → t.issue.preds = s.issue.preds)
          ∧ ∀ c, c = s.ctx s.iw.ctx → f.pred ≠ 0 →
              t.issue.preds = s.issue.preds ++
                [(f.pred, (if c.domain = none ∨ c.step = 0 ∨ c.outcome = 0 then fullMask else 0), s.is.mask)])

/-! ### Copies and circuits -/

/-- A copy engine starts on a list when every access before its KICK has performed: it reads the requests from the
scratchpad, and one that breaks its format fails with cause 1, one whose semaphore is not mapped with cause 3. It moves
bytes one by one from source to destination, where no other user of the banks' engine ports needs them, in sequence for an
ordered flow, each adding 1 to the request's semaphore; a byte outside the context's banks fails the request with cause 3
(R116, R153, R339-R343). Choices of the model
here, no rule of the spec: log entries 59, 60, 61. -/
def Obligations.CopyEngines : Prop :=
  ∀ (s : State) (id : Nat) (c : CopyList), s.copy? id = some c →
    let m := (s.core c.core).scratch
    (c.started = false → c.due ≤ s.cycle → engineFree s c.core = true → kickReady s c = true →
        kReady s c.core c.wave c.slot c.id c.obs = true →
      (∃ t : State, exec (.copyEngineStart id) s = .next t ∧ (∀ k, (t.core k).scratch = (s.core k).scratch)
          ∧ ∀ d : CopyList, t.copy? id = some d → d.started = true ∧ d.reqs.length = c.count
            ∧ ∀ i r, d.reqs[i]? = some r → RequestAt m (c.off + 64 * i) r ∧ r.pos = 0 ∧ r.written = []
              ∧ (¬RequestLegal m (c.off + 64 * i) → r.failed = some 1)
              ∧ (RequestLegal m (c.off + 64 * i) → r.sem = none → r.failed = some 3)
              ∧ r.sem = semPhys s c.core c.ctx r.vsem)
      ∧ (1 ≤ c.count → (∀ i, i < c.count → RequestLegal m (c.off + 64 * i)
            ∧ (semPhys s c.core c.ctx (memRead m (c.off + 64 * i + 38))).isSome) →
          ∃ (t : State) (d : CopyList), exec (.copyEngineStart id) s = .next t ∧ t.copy? id = some d ∧ d.started = true
            ∧ { t with copies := s.copies, copyStarts := s.copyStarts } = s ∧ ∀ r ∈ d.reqs, r.failed = none))
    ∧ ∀ (n : Nat) (r : CopyReq), c.reqs[n]? = some r → c.started = true → r.over = false → flowTurn s c n r = true →
        flowRoom s c r = true → 1 ≤ r.length → r.ecc = false → (∀ p, p < r.total → portFree s c r p = true) →
        let turn (p : Nat) : Prop := p < r.total ∧ (r.ordered = true → p = r.pos) ∧ (r.ordered = false → p ∉ r.written)
        (r.srcKind = 1 → r.dstKind = 1 → (s.core (Fin.ofNat 4096 r.srcNode)).eccSp = [] →
          (∀ p a, p < r.total → RowAddr r.src r.srcStride r.length p a → claimsByte s (Fin.ofNat 4096 r.srcNode) c.ctx a.toNat = true) →
          (∀ p a, p < r.total → RowAddr r.dst r.dstStride r.length p a → claimsByte s (Fin.ofNat 4096 r.dstNode) c.ctx a.toNat = true) →
          Memory.wf (s.core (Fin.ofNat 4096 r.dstNode)).scratch = true →
          ∃ t p a b, exec (.copyByteWrite id n) s = .next t ∧ turn p ∧ RowAddr r.src r.srcStride r.length p a
            ∧ RowAddr r.dst r.dstStride r.length p b ∧ t.mem = s.mem
            ∧ (∀ x, memRead (t.core (Fin.ofNat 4096 r.dstNode)).scratch x = if x = b.toNat
                then memRead (s.core (Fin.ofNat 4096 r.srcNode)).scratch a.toNat else memRead (s.core (Fin.ofNat 4096 r.dstNode)).scratch x)
            ∧ (t.core c.core).addsNext = (s.core c.core).addsNext ++ doneAdds r.sem 1
            ∧ ∀ k, k ≠ c.core → k ≠ Fin.ofNat 4096 r.dstNode → t.core k = s.core k)
        ∧ (∀ (x y : Tlb), r.srcKind = 0 → r.dstKind = 0 → s.bad = [] → (∀ k, (s.core k).merge = []) → Memory.wf s.mem = true →
          (∀ p a, p < r.total → RowAddr r.src r.srcStride r.length p a → copyPage s c a = .ok x) →
          (∀ p a, p < r.total → RowAddr r.dst r.dstStride r.length p a → copyPage s c a = .ok y) →
          x.kind < 2 → y.kind < 2 → x.sumcell = false → y.sumcell = false → x.permits (s.ctx c.ctx).level true false = true →
          y.permits (s.ctx c.ctx).level false true = true →
          ∃ t p a b, exec (.copyByteWrite id n) s = .next t ∧ turn p ∧ RowAddr r.src r.srcStride r.length p a
            ∧ RowAddr r.dst r.dstStride r.length p b
            ∧ (∀ z, memRead t.mem z = if z = y.pa + (b.toNat - y.page) then memRead s.mem (x.pa + (a.toNat - x.page)) else memRead s.mem z)
            ∧ (t.core c.core).addsNext = (s.core c.core).addsNext ++ doneAdds r.sem 1
            ∧ ∀ k, k ≠ c.core → t.core k = s.core k)
        ∧ (r.dstKind = 1 → (∀ a, claimsByte s (Fin.ofNat 4096 r.dstNode) c.ctx a = false) →
          ∃ t : State, exec (.copyByteWrite id n) s = .next t ∧ (∀ k, (t.core k).scratch = (s.core k).scratch)
            ∧ ∀ d q, t.copy? id = some d → d.reqs[n]? = some q → q.failed = some 3)

/-- Circuits: an armed send injects the 64 bytes of its cycle as a flit at its tile's router; at the end of a cycle each flit
passes its router as the slot-table entry of the cycle connects it, two cycles to the next tile, 32 through the hub, and eight
to a core of the tile; an armed receive writes the flit that arrives in its cycle; a flit that no armed receive takes is
dropped (R176-R181, R344, R378). A choice of the model here, no rule of the spec: log entry 27. -/
def Obligations.Circuits : Prop :=
  ∀ (s : State) (k : CoreId) (n : BitVec 6),
    ((s.core k).eccSp = [] →
      ∃ t fs, exec (.circuitSend k n) s = .next t ∧ t.flits = s.flits ++ fs ∧ { t with flits := s.flits } = s
        ∧ List.Forall₂ (fun (a : Armed) (f : Flit) => f.grid = a.grid ∧ f.circuit = n ∧ f.data.length = 64
            ∧ (∀ j, j < 64 → f.data.getD j 0 = memRead (s.core k).scratch (a.off + j))
            ∧ f.hop = some (coreTile k, 0) ∧ f.dst = k ∧ f.cycle = s.cycle) (armedNow s k n true) fs)
    ∧ (∀ (f : Flit) (x : TileId) (input o : Nat), f ∈ s.flits → f.hop = some (x, input) → f.cycle ≤ s.cycle →
        (s.tiles[x]).eccSlots.contains (s.cycle % 256) = false → o < 6 →
        let w := (s.tiles[x]).slots[Fin.ofNat 256 s.cycle]
        let joins (q : Nat) : Prop := bitsOf w (4 * q + 3) (4 * q + 3) = 1 ∧ bitsOf w (4 * q + 2) (4 * q) = input
        (input = 0 → bitsOf w 31 28 = f.dst.val % 16) → joins o → (∀ q, q < o → ¬joins q) →
        { moveFlits s with flits := s.flits } = s
          ∧ (o = 0 → ∃ g ∈ (moveFlits s).flits, g.hop = none ∧ g.dst.val = 16 * x.val + bitsOf w 27 24 ∧ g.cycle = f.cycle + 8
              ∧ g.grid = f.grid ∧ g.circuit = f.circuit ∧ g.data = f.data)
          ∧ (o ≠ 0 → ∀ p, Config.routerLink x.val o (s.cycle % 256) = some p → ∃ g ∈ (moveFlits s).flits,
              g.hop = some (Fin.ofNat 256 p.1, p.2) ∧ g.cycle = f.cycle + (if o = 5 then 32 else 2)
                ∧ g.grid = f.grid ∧ g.circuit = f.circuit ∧ g.data = f.data))
    ∧ (∀ (a : Armed) (f : Flit), armedNow s k n false = [a] → f ∈ s.flits → flitHere s k a.grid n f = true →
        (∀ g ∈ s.flits, flitHere s k a.grid n g = true → g = f) → f.data.length = 64 → Memory.wf (s.core k).scratch = true →
        ∃ t : State, exec (.circuitReceive k n) s = .next t ∧ t.flits = s.flits.erase f ∧ t.mem = s.mem
          ∧ (∀ c, c ≠ k → t.core c = s.core c)
          ∧ { t.core k with scratch := (s.core k).scratch, eccSp := (s.core k).eccSp } = s.core k
          ∧ ∀ x, memRead (t.core k).scratch x =
              if a.off ≤ x ∧ x < a.off + 64 then f.data.getD (x - a.off) 0 else memRead (s.core k).scratch x)
    ∧ ∃ t : State, exec (.flitDiscard k n) s = .next t ∧ { t with flits := s.flits } = s
        ∧ ∀ f, f ∈ t.flits ↔ f ∈ s.flits ∧ ¬(f.hop = none ∧ f.dst = k ∧ f.circuit = n ∧ f.cycle = s.cycle ∧ ∀ a ∈ armedNow s k n false, a.grid ≠ f.grid)

/-! ### Privileged instructions -/

/-- MFCR reads a register of its own core, tile or die, or a context's or a queue's, in its issue cycle, and another one
under a hold; MTCR writes one of its own core, tile or die for the next cycle, and every other under a hold, which ends
when the write has acted. A read-only register stays. A base in CTX.AREA makes a context live, none tears it down
(R359-R362, R369). Choices of the model
here, no rule of the spec: log entries 17, 71. -/
def Obligations.ControlRegisters : Prop :=
  ∀ (s : State) (f : CSlot) (tg : CrTarget) (idx : Nat),
    let k := s.issue.core
    let sel := s.issue.lits.getD f.lit.toNat 0
    let d : Fin 32 := Fin.ofNat 32 f.imm.toNat
    let now (c : CtxId) (q : QueueId) : Prop := OwnTarget k tg ∨ tg = .ctx c ∨ tg = .queue q
    (Selects k s.iw.ctx sel tg idx → Passes s (.mfcr f) →
      ((∃ c q, now c q) → ∃ t : State, exec (.mfcr f) s = .next t ∧ ControlFrame s t ∧ t.iw.splits = s.iw.splits ∧ t.privOps = s.privOps
          ∧ (∀ m : Fin 32, m ≠ d ∨ m = 0 → t.iw.a[m] = s.iw.a[m]) ∧ (d ≠ 0 → RegisterIs s tg idx t.iw.a[d]))
      ∧ ((∀ c q, ¬now c q) → ∃ (t : State) (p : PrivOp), exec (.mfcr f) s = .next t ∧ ControlFrame s t ∧ t.iw.a = s.iw.a ∧ Begins s t none p
          ∧ p.kind = .mfcr sel d ∧ t.is = { s.is with after := .done p.id }))
    ∧ (Selects k s.iw.ctx sel tg idx → Passes s (.mtcr f) → ∃ (t : State) (p : PrivOp) (v : DWord), exec (.mtcr f) s = .next t
          ∧ ControlFrame s t ∧ t.iw.a = s.iw.a ∧ Begins s t none p ∧ p.kind = .mtcr sel v ∧ MtcrReads s f v
          ∧ (OwnTarget k tg → p.due = s.cycle ∧ t.is = s.is) ∧ (¬OwnTarget k tg → t.is = { s.is with after := .done p.id }))
    ∧ ∀ (w : SlotId) (r : RecId) (p : PrivOp) (v : DWord) (sel : Word), s.priv? p.id = some p → p.due ≤ s.cycle → Selects p.core p.ctx sel tg idx →
        (∀ n : Fin 32, ((s.wave p.core w).splits[r]).after = .done p.id → p.kind = .mfcr sel n → p.slot = w → waveHere s p.core w p.wave = true →
          ∃ t : State, exec (.controlRegisterHoldEnd p.core w r) s = .next t ∧ t.privOps = s.privOps.filter (fun q => q.id ≠ p.id) ∧ t.mem = s.mem
            ∧ t.ctxs = s.ctxs ∧ (∀ m : Fin 32, m ≠ n ∨ m = 0 → (t.wave p.core w).a[m] = (s.wave p.core w).a[m])
            ∧ (n ≠ 0 → RegisterIs s tg idx ((t.wave p.core w).a[n])))
        ∧ (((s.wave p.core w).splits[r]).after = .done p.id → p.kind = .mtcr sel v →
          ∃ t : State, exec (.controlRegisterHoldEnd p.core w r) s = .next t ∧ t.privOps = s.privOps.filter (fun q => q.id ≠ p.id)
            ∧ (∀ c, tg = .ctx c → idx ≠ 1 → CtxWritten (decide ((s.ctx p.ctx).level = 2)) idx v (s.ctx c) (t.ctx c)
                ∧ (∀ x, x ≠ c → t.ctx x = s.ctx x) ∧ t.cores = s.cores ∧ t.mem = s.mem)
            ∧ (∀ c, tg = .ctx c → idx = 1 →
                let base := v &&& 0x01FFFFFFFFFF0000
                (t.ctx c).area = base ∧ (base ≠ 0 → (s.ctx c).area = 0 → (t.ctx c).state = 1 ∧ (t.ctx c).seedDepth = 1)
                ∧ (base = 0 → (s.ctx c).area ≠ 0 → (t.ctx c).state = 0 ∧ (t.ctx c).domain = none
                    ∧ ∀ g ∈ t.groups, g.ctx = c → g.fatal = true)
                ∧ (base = 0 → (s.ctx c).area = 0 → t.ctxs = s.ctxs))
            ∧ (∀ j, tg = .core j → t.cores = s.cores ∧ t.ctxs = s.ctxs)
            ∧ (∀ x, tg = .tile x → idx = 2 → (t.tiles[x]) = { s.tiles[x] with keep := v.setWidth 4 }))
        ∧ (p.kind = .mtcr sel v → OwnTarget p.core tg → p.started = false →
          ∃ t : State, exec (.privilegedOperationCompletion p.id) s = .next t ∧ t.privOps = s.privOps.filter (fun q => q.id ≠ p.id)
            ∧ t.ctxs = s.ctxs ∧ (∀ j, tg = .core j → t.cores = s.cores)
            ∧ (∀ x, tg = .tile x → idx = 2 → (t.tiles[x]) = { s.tiles[x] with keep := v.setWidth 4 })
            ∧ (∀ x, tg = .die x → idx = 1 → (∀ c : CtxId, 2 ≤ c.val → (s.ctx c).state = 0) → t.layout = (v >>> 4).setWidth 2))

/-- The operations that go on after issue: HUSK.SAVE, HUSK.LOAD, SLOT.LD, WIN.LD, ATTEST and CTX.SWIN enter the list of those
in progress and let the wave go on; SEED.OP and MCLOAD hold their split until they have performed. TLBINV raises the context's
generation and has a removal to make at each core within reach; IMG.INV gives the table entry and A[d] an unused handle
(R370, R371, R373, R374, R377-R380, R382, R384, R385). -/
def Obligations.PrivilegedStarts : Prop :=
  ∀ (s : State) (f : CSlot),
    let k := s.issue.core
    let sem := semPhys s k s.iw.ctx f.sem
    let d : Fin 32 := Fin.ofNat 32 f.imm.toNat
    let va : DWord := if d = 0 then 0 else s.iw.a[d]
    let word (i : Nat) : Nat := (s.issue.lits.getD (f.lit.toNat + i) 0).toNat
    let starts (i : Instr) (kind : PrivKind) : Prop := Passes s i →
      ∃ (t : State) (p : PrivOp), exec i s = .next t ∧ ControlFrame s t ∧ t.iw = s.iw ∧ Begins s t sem p ∧ p.kind = kind
    let holds (i : Instr) (kind : PrivKind) : Prop := Passes s i →
      ∃ (t : State) (p : PrivOp), exec i s = .next t ∧ ControlFrame s t ∧ t.iw.a = s.iw.a ∧ Begins s t none p ∧ p.kind = kind
        ∧ t.is = { s.is with after := .done p.id }
    (∀ w, NamesWave s f w → starts (.huskSave f) (.huskSave w va) ∧ starts (.huskLoad f) (.huskLoad w va))
    ∧ (∀ x, SrcIs s f x → starts (.slotLd f) (.slotLd x (word 0)) ∧ starts (.winLd f) (.winLd x) ∧ starts (.attest f) (.attest x)
        ∧ holds (.mcload f) (.mcload x f.pred))
    ∧ (∀ c, NamesCtx s f c 0 → holds (.seedOpPop f) (.seedOp 1 c 0 f.pred) ∧ holds (.seedOpFork f) (.seedOp 2 c 0 f.pred)
        ∧ holds (.seedOpPush f) (.seedOp 0 c (BitVec.ofNat 128 (word 0 + 2 ^ 32 * word 1 + 2 ^ 64 * word 2 + 2 ^ 96 * word 3)) f.pred))
    ∧ (∀ c (dies : List DieId) m, NamesCtx s f c (256 * m) → m < 256 → (∀ x, x ∈ dies ↔ m.testBit x.val = true) → Passes s (.ctxSwin f) →
        ∃ (t : State) (p : PrivOp) (l : List DieId), exec (.ctxSwin f) s = .next t ∧ Begins s t sem p ∧ p.kind = .swin c l ∧ (∀ x, x ∈ l ↔ x ∈ dies)
          ∧ ControlFrame s { t with ctxs := s.ctxs } ∧ t.iw = s.iw ∧ t.ctx c = { s.ctx c with state := 4 } ∧ ∀ x, x ≠ c → t.ctx x = s.ctx x)
    ∧ (∀ c, NamesCtx s f c 0 → Passes s (.tlbinv f) →
        ∃ (t : State) (p : PrivOp) (l : List CoreId), exec (.tlbinv f) s = .next t ∧ Begins s t sem p ∧ p.kind = .tlbinv c l [] []
          ∧ (∀ x, x ∈ l ↔ coreReach s s.iw.ctx x = true) ∧ ControlFrame s { t with ctxs := s.ctxs } ∧ t.iw = s.iw
          ∧ t.ctx c = { s.ctx c with gen := (s.ctx c).gen + 1 } ∧ ∀ x, x ≠ c → t.ctx x = s.ctx x)
    ∧ (∀ x, SrcIs s f x → (handlesUsed s).length + 2 ≤ 2 ^ 32 → Passes s (.imgInv f) →
        ∃ (t : State) (p : PrivOp) (new : Word), exec (.imgInv f) s = .next t ∧ Begins s t sem p ∧ p.kind = .imgInv (x.setWidth 32) new
          ∧ new ≠ 0 ∧ new ∉ handlesUsed s ∧ t.handleCtr = new + 1 ∧ t.iw.splits = s.iw.splits
          ∧ (d ≠ 0 → t.iw.a[d] = new.setWidth 64) ∧ (∀ m : Fin 32, m ≠ d ∨ m = 0 → t.iw.a[m] = s.iw.a[m])
          ∧ ∀ i pa, tableIndex s s.iw.ctx (x.setWidth 32) = i → areaAddr s s.iw.ctx (0x1400 + 16 * i) true = .ok pa →
              (∀ c, (s.core c).merge = []) → Memory.wf s.mem = true →
              memNat t.mem pa 4 = new.toNat ∧ ∀ a, a < pa ∨ pa + 4 ≤ a → memRead t.mem a = memRead s.mem a)

/-- Privileged instructions that act at once: RTE resumes a wave's trapped split, ends the lanes that its edited record leaves
out, and refuses one that takes another split's lanes; PARK and UNPARK; PREEMPT asks a wave to stop; SEMMAP.W and SEMMAP.R;
HALT; CTX.SWOUT stops placement on the named dies and asks for the switch-out, of a step domain's context at the next switch
instant (R366, R408, R375, R376, R381, R383, R423, R430). Choices of the model
here, no rule of the spec: log entries 74, 75, 76. -/
def Obligations.PrivilegedActions : Prop :=
  ∀ (s : State) (f : CSlot),
    let k := s.issue.core
    let d : Fin 32 := Fin.ofNat 32 f.imm.toNat
    (∀ w r, NamesWave s f w → Passes s (.rte f) →
      let x := s.wave k w
      let y := x.splits[r]
      y.state = .trapped → (∀ q : RecId, q ≠ r → (x.splits[q]).state ≠ .trapped) →
      let taken : Mask := y.mask &&& ~~~y.mask0
      let others (l : Lane) : Prop := laneBit x.exited l = true ∨ (∃ q : RecId, q ≠ r ∧ (x.splits[q]).state ≠ .free
          ∧ laneBit (if (x.splits[q]).state = .parked then (x.splits[q]).mask0 else (x.splits[q]).mask) l = true)
        ∨ ∃ z ∈ x.stack, laneBit z.mask l = true
      ((∃ l, laneBit taken l = true ∧ others l) → ∃ t : State, exec (.rte f) s = .next t ∧ t.mem = s.mem
          ∧ (t.wave k w).splits[r] = { y with code := TrapCode.splitOverlap.code, arg := 0 }
          ∧ ⟨x.uid, w, r, s.cycle⟩ ∈ (t.core k).trapQ ++ (t.core k).trapWait)
      ∧ ((∀ l, laneBit taken l = true → ¬others l) →
          (y.resolve = false → y.mask0 &&& ~~~y.mask = 0 → ∃ t : State, exec (.rte f) s = .next t ∧ t.mem = s.mem
              ∧ ((t.wave k w).splits[r]).state = .resuming ∧ ((t.wave k w).splits[r]).pc = y.pc ∧ ((t.wave k w).splits[r]).mask = y.mask
              ∧ ((t.wave k w).splits[r]).code = 0 ∧ (t.wave k w).exited = x.exited ∧ (∀ q : RecId, q ≠ r → (t.wave k w).splits[q] = x.splits[q])
              ∧ (∀ e, e ∈ (t.core k).trapQ ++ (t.core k).trapWait ↔
                  e ∈ (s.core k).trapQ ++ (s.core k).trapWait ∧ ¬(e.wave = x.uid ∧ e.split = r))
              ∧ ∀ c, c ≠ k → t.core c = s.core c)
          ∧ (y.resolve = true ∨ y.mask0 &&& ~~~y.mask ≠ 0 → x.exited ||| y.mask0 ||| y.mask ≠ fullMask →
              ∃ t : State, exec (.rte f) s = .next t
                ∧ (t.wave k w).exited = x.exited ||| (if y.resolve then y.mask0 ||| y.mask else y.mask0 &&& ~~~y.mask))))
    ∧ (∀ w, NamesWave s f w → Passes s (.park f) → ∃ t : State, exec (.park f) s = .next t ∧ { t with cores := s.cores } = s
        ∧ (∀ c, c ≠ k → t.core c = s.core c) ∧ { t.core k with waves := (s.core k).waves, trapQ := (s.core k).trapQ, trapWait := (s.core k).trapWait } = s.core k
        ∧ { t.wave k w with splits := (s.wave k w).splits } = s.wave k w ∧ (∀ v, v ≠ w → t.wave k v = s.wave k v)
        ∧ (∀ e, e ∈ (t.core k).trapQ ++ (t.core k).trapWait ↔
            e ∈ (s.core k).trapQ ++ (s.core k).trapWait ∧ e.wave ≠ (s.wave k w).uid)
        ∧ ∀ r : RecId, (t.wave k w).splits[r] = if ((s.wave k w).splits[r]).state = .trapped
            then { (s.wave k w).splits[r] with state := .parked } else (s.wave k w).splits[r])
    ∧ (∀ w, NamesWave s f w → Passes s (.unpark f) → ∃ t : State, exec (.unpark f) s = .next t ∧ { t with cores := s.cores } = s
        ∧ (∀ c, c ≠ k → t.core c = s.core c) ∧ { t.core k with waves := (s.core k).waves, trapQ := (s.core k).trapQ, trapWait := (s.core k).trapWait } = s.core k
        ∧ { t.wave k w with splits := (s.wave k w).splits } = s.wave k w ∧ (∀ v, v ≠ w → t.wave k v = s.wave k v)
        ∧ ∀ r : RecId, (t.wave k w).splits[r] = (if ((s.wave k w).splits[r]).state = .parked
              then { (s.wave k w).splits[r] with state := .trapped } else (s.wave k w).splits[r])
            ∧ (((s.wave k w).splits[r]).state = .parked → ((s.wave k w).splits[r]).code ≠ TrapCode.preempt.code →
                ⟨(s.wave k w).uid, w, r, s.cycle⟩ ∈ (t.core k).trapQ ++ (t.core k).trapWait))
    ∧ (∀ w, NamesWave s f w → Passes s (.preempt f) → ∃ t : State, exec (.preempt f) s = .next t ∧ { t with cores := s.cores } = s
        ∧ (∀ c, c ≠ k → t.core c = s.core c) ∧ { t.core k with waves := (s.core k).waves } = s.core k
        ∧ (∀ v, v ≠ w → t.wave k v = s.wave k v) ∧ { t.wave k w with preempt := (s.wave k w).preempt } = s.wave k w
        ∧ ∃ q, (t.wave k w).preempt = some q ∧ ⟨k, semPhys s k s.iw.ctx f.sem, s.iw.group⟩ ∈ q.sems
            ∧ ((s.wave k w).preempt = none → q.deadline = s.cycle + (s.ctx (s.wave k w).ctx).preemptLimit.toNat + 1)
            ∧ ∀ q0, (s.wave k w).preempt = some q0 → q.deadline = q0.deadline ∧ ∀ x ∈ q0.sems, x ∈ q.sems)
    ∧ (∀ (x : DWord) (c : CtxId), SrcIs s f x → bitsOf x 31 24 = 0 → bitsOf x 14 9 = 0 →
        (x.getLsbD 22 = true → bitsOf x 21 16 = 0 ∧ c = s.iw.ctx) → (x.getLsbD 22 = false → c.val = bitsOf x 21 16) → f.sem.toNat < 248 →
        (Passes s (.semmapW f) → ∃ t : State, exec (.semmapW f) s = .next t ∧ { t with cores := s.cores } = s
          ∧ (∀ c, c ≠ k → t.core c = s.core c) ∧ { t.core k with semMap := (s.core k).semMap, sems := (s.core k).sems } = s.core k
          ∧ (∀ e v, (t.core k).semMap[e][Fin.ofNat 248 v] = if e = c ∧ v % 248 = f.sem.toNat
              then ⟨x.getLsbD 15, Fin.ofNat 512 (bitsOf x 8 0)⟩ else (s.core k).semMap[e][Fin.ofNat 248 v])
          ∧ ∀ n : Fin 512, (t.core k).sems[n] = if x.getLsbD 23 = true ∧ n.val = bitsOf x 8 0 then (x >>> 32).setWidth 32 else (s.core k).sems[n])
        ∧ (Passes s (.semmapR f) → ∃ t : State, exec (.semmapR f) s = .next t ∧ ControlFrame s t ∧ t.iw.splits = s.iw.splits
          ∧ (∀ m : Fin 32, m ≠ d ∨ m = 0 → t.iw.a[m] = s.iw.a[m])
          ∧ (d ≠ 0 → t.iw.a[d].toNat = ((s.core k).semMap[c][Fin.ofNat 248 f.sem.toNat]).phys.val
              + 2 ^ 15 * ((s.core k).semMap[c][Fin.ofNat 248 f.sem.toNat]).valid.toNat + 2 ^ 16 * bitsOf x 22 16)))
    ∧ (Passes s (.halt f) → s.iw.exited ||| s.is.mask ≠ fullMask →
        ∃ t : State, exec (.halt f) s = .next t ∧ (t.core k).halted = true ∧ t.issue.flow = true ∧ t.mem = s.mem ∧ t.iw.exited = s.iw.exited ||| s.is.mask)
    ∧ (∀ c m (release : Bool), NamesCtx s f c (256 * m + 65536 * release.toNat) → m < 256 → Passes s (.ctxSwout f) →
        ∃ (t : State) (o : Swout), exec (.ctxSwout f) s = .next t ∧ t.cores = s.cores ∧ t.mem = s.mem ∧ (∀ x, x ≠ c → t.ctx x = s.ctx x)
          ∧ (t.ctx c).state = 2 ∧ (t.ctx c).swout = (s.ctx c).swout ++ [o]
          ∧ (∀ x : DieId, x ∈ (t.ctx c).outDies ↔ m.testBit x.val = true ∨ x ∈ (s.ctx c).outDies)
          ∧ (∀ x : DieId, x ∈ o.dies ↔ m.testBit x.val = true) ∧ o.release = release ∧ o.oneCore = none
          ∧ o.sems = [⟨k, semPhys s k s.iw.ctx f.sem, s.iw.group⟩] ∧ (o.stopping = true ↔ (s.ctx c).domain = none)
          ∧ ((s.ctx c).domain ≠ none → ∃ n, o.instant = some n ∧ n % 2 ^ 18 = 0 ∧ s.hub.ptp ≤ n ∧ n < s.hub.ptp + 2 ^ 18))

/-- Privileged operations complete. HUSK.SAVE writes the image of R419 and HUSK.LOAD takes trapped splits and their lanes from
one; SLOT.LD checks every entry before one goes to its router, and each takes effect in a cycle of its slot index; WIN.LD
fills a window-table entry or binds a domain; ATTEST signs; IMG.INV renames placing grids; TLBINV drops a core's entries and is
complete when the requests, copies and overlay reads with old translations have performed; a seed operation acts on the context's stack; MCLOAD
installs a newer verified revision. Each then adds to its semaphore or ends its hold (R197, R366, R370, R371, R373, R374,
R377-R380, R384, R385, R419, R422, R444, R445, R448-R450, R490). Choices of the model
here, no rule of the spec: log entries 72, 77, 87. -/
def Obligations.PrivilegedCompletions : Prop :=
  ∀ (s : State) (p : PrivOp), s.priv? p.id = some p →
    let plain : Prop := (∀ k, (s.core k).merge = []) ∧ Memory.wf s.mem = true
    let pred (t : State) (n : Fin 8) (ok : Bool) : Prop := waveHere s p.core p.slot p.wave = true → n ≠ 0 →
      ∀ l, laneBit p.lanes l = true → laneBit ((t.wave p.core p.slot).p[n]) l = ok
    (privReady s p = true → ∃ t : State, exec (.privilegedOperationCompletion p.id) s = .next t
      ∧ (∀ w va as, p.kind = .huskSave w va → addrsVia (fun v => engineAddr s p.ctx v false true) va 6144 = .ok as → as.Nodup → plain →
          let x := s.wave p.core w
          ∃ img : List Byte, img.length = 6144 ∧ OpDone s t p ∧ (∀ i, i < 6144 → memRead t.mem (as.getD i 0) = img.getD i 0)
            ∧ (∀ a, a ∉ as → memRead t.mem a = memRead s.mem a)
            ∧ fieldAt img 0 2 = 1 ∧ fieldAt img 4 2 = p.core.val ∧ fieldAt img 6 1 = w.val ∧ fieldAt img 7 1 = x.ctx.val
            ∧ fieldAt img 16 4 = x.exited.toNat
            ∧ (∀ r : RecId, (x.splits[r]).state ≠ .free → fieldAt img (0x40 + 48 * r.val) 4 = (x.splits[r]).pc.toNat
                ∧ fieldAt img (0x44 + 48 * r.val) 4 = (x.splits[r]).mask.toNat ∧ fieldAt img (0x4C + 48 * r.val) 1 = (x.splits[r]).code.toNat)
            ∧ (∀ l : Lane, fieldAt img (0x1C0 + 4 * l.val) 1 = (x.laneCode[l]).toNat)
            ∧ (∀ n : Fin 32, n ≠ 0 → fieldAt img (0x238 + 8 * n.val) 8 = (x.a[n]).toNat)
            ∧ ∀ l : Lane, fieldAt img (0x380 + 8 * l.val) 8 = ((x.unit .ial).a[l]).toNat
                ∧ (raisedIn x .fma l = none → fieldAt img (0xA80 + 8 * l.val) 8 = ((x.unit .fma).q[l]).toNat))
      ∧ (∀ w va l, p.kind = .huskLoad w va → engineRead s p.ctx va 6144 = .ok l →
          let x := s.wave p.core w
          let y := t.wave p.core w
          let frozen (r : RecId) : Prop := (x.splits[r]).state = .trapped ∨ (x.splits[r]).state = .parked
          OpDone s t p ∧ t.mem = s.mem ∧ y.v = x.v
            ∧ (∀ r, frozen r → (y.splits[r]).pc.toNat = fieldAt l (0x40 + 48 * r.val) 4 ∧ (y.splits[r]).mask.toNat = fieldAt l (0x44 + 48 * r.val) 4
                ∧ (y.splits[r]).code.toNat = fieldAt l (0x4C + 48 * r.val) 1 ∧ (y.splits[r]).state = (x.splits[r]).state)
            ∧ (∀ r, ¬frozen r → y.splits[r] = x.splits[r])
            ∧ ∀ m : Lane, (∀ r, frozen r → laneBit (x.splits[r]).mask0 m = false) → ∀ u, (y.unit u).a[m] = (x.unit u).a[m]
                ∧ (y.unit u).b[m] = (x.unit u).b[m] ∧ (y.unit u).t[m] = (x.unit u).t[m] ∧ (y.unit u).q[m] = (x.unit u).q[m]
                ∧ ∀ n : Fin 8, laneBit (y.p[n]) m = laneBit (x.p[n]) m)
      ∧ (∀ va n l, p.kind = .slotLd va n → engineRead s p.ctx va (16 * n) = .ok l →
          let e (i : Nat) : List Byte := (l.drop (16 * i)).take 16
          t.tiles = s.tiles
            ∧ ((∀ i, i < n → slotEntryOk s p.ctx (e i) = true) → ∃ q, t.priv? p.id = some q ∧ q.started = true ∧ q.slotsLeft.length = n
                ∧ ∀ i x, q.slotsLeft[i]? = some x → x.1.val = 32 * fieldAt (e i) 0 1 + fieldAt (e i) 1 1 ∧ x.2.1.val = fieldAt (e i) 2 1
                    ∧ x.2.2.toNat = fieldAt (e i) 8 8)
            ∧ (∀ i, i < n → slotEntryOk s p.ctx (e i) = false → t.privOps = s.privOps.filter (fun q => q.id ≠ p.id)
                ∧ (t.core p.core).addsNext = (s.core p.core).addsNext
                ∧ (waveHere s p.core p.slot p.wave = true → ∀ r : RecId, ((s.wave p.core p.slot).splits[r]).state ≠ .free →
                    ((s.wave p.core p.slot).splits[r]).mask &&& p.lanes ≠ 0 →
                    ∃ c ∈ ((t.wave p.core p.slot).splits[r]).pend, c.code = .access)))
      ∧ (∀ va l, p.kind = .winLd va → engineRead s p.ctx va 64 = .ok l →
          (fieldAt l 0 1 = 2 → windowFieldsOk s p.ctx l = true → waitsRelease (s.ctx p.ctx) = false → OpDone s t p
            ∧ ∀ n : Fin 256, (t.ctx p.ctx).windows[n] = if n.val ≠ fieldAt l 4 2 then (s.ctx p.ctx).windows[n]
              else if fieldAt l 16 8 = 0 then none
              else some { rule := fieldAt l 1 1, elem := fieldAt l 2 1, signed := fieldAt l 3 1 = 1, owner := fieldAt l 6 2,
                          base := BitVec.ofNat 64 (fieldAt l 8 8), length := fieldAt l 16 8, home := Fin.ofNat 8 (fieldAt l 24 1),
                          committed := fieldAt l 32 8 })
          ∧ (fieldAt l 0 1 = 2 → windowFieldsOk s p.ctx l = true → waitsRelease (s.ctx p.ctx) = true →
              (t.ctx p.ctx).windows = (s.ctx p.ctx).windows ∧ (t.core p.core).addsNext = (s.core p.core).addsNext
              ∧ (t.ctx p.ctx).pendWins.length = (s.ctx p.ctx).pendWins.length + 1)
          ∧ (fieldAt l 0 1 = 1 → domainFieldsOk s p.ctx l = true → (s.ctx p.ctx).domain = none → OpDone s t p
              ∧ ∃ d, (t.ctx p.ctx).domain = some d ∧ d.id.toNat = fieldAt l 8 4 ∧ d.rank = fieldAt l 4 2 ∧ d.p = fieldAt l 6 2))
      ∧ (∀ va l as, p.kind = .attest va → engineRead s p.ctx va 32 = .ok l → addrsVia (fun v => engineAddr s p.ctx v false true) (va + 32) 64 = .ok as → as.Nodup → plain →
          OpDone s t p ∧ Config.attestKey.verify (BitVec.ofNat 256 (beNat l)) (Config.sm2Sign p.draw (BitVec.ofNat 256 (beNat l))) = true ∧ (∀ a, a ∉ as → memRead t.mem a = memRead s.mem a)
            ∧ ∀ i, i < 64 → memRead t.mem (as.getD i 0)
                = BitVec.ofNat 8 ((Config.sm2Sign p.draw (BitVec.ofNat 256 (beNat l))).toNat / 256 ^ (63 - i)))
      ∧ (∀ old new, p.kind = .imgInv old new → OpDone s t p ∧ t.mem = s.mem ∧ t.grids = s.grids.map fun g =>
          if g.ctx = p.ctx ∧ g.image = old ∧ g.state = .placing then { g with image := new } else g))
    ∧ (∀ (tile : TileId) (slot : Fin 256) (word : DWord),
        s.privOps.find? (fun q => q.started && q.due ≤ s.cycle && q.slotsLeft.contains (tile, slot, word)) = some p →
        (s.cycle % 256 ≠ slot.val → exec (.slotEntryEffect tile slot word) s = .next s)
        ∧ (s.cycle % 256 = slot.val → ∃ t : State, exec (.slotEntryEffect tile slot word) s = .next t ∧ t.mem = s.mem
            ∧ (∀ x, x ≠ tile → t.tiles[x] = s.tiles[x]) ∧ (∀ n : Fin 256, (t.tiles[tile]).slots[n] = if n = slot then word else (s.tiles[tile]).slots[n])
            ∧ (p.slotsLeft = [(tile, slot, word)] → OpDone s t p)
            ∧ (p.slotsLeft ≠ [(tile, slot, word)] → ∃ q, t.priv? p.id = some q ∧ q.slotsLeft = p.slotsLeft.erase (tile, slot, word))))
    ∧ (∀ k c cores old dies, removalOf s k c = some p → p.kind = .tlbinv c cores old dies → ∃ (t : State) (q : PrivOp) (l : List (CoreId × Nat)),
        exec (.tlbRemoval k c) s = .next t ∧ (t.core k).tlb = (s.core k).tlb.filter (fun e => e.ctx ≠ c) ∧ t.mem = s.mem
          ∧ (∀ x, x ≠ k → t.core x = s.core x)
          ∧ { t.core k with tlb := (s.core k).tlb, walks := (s.core k).walks, ops := (s.core k).ops, overlays := (s.core k).overlays } = s.core k
          ∧ ((t.core k).ops.map fun o => { o with pages := [] }) = ((s.core k).ops.map fun o => { o with pages := [] })
          ∧ (∀ o ∈ (t.core k).overlays, o.ctx = c → o.old = true)
          ∧ t.priv? p.id = some q ∧ q.kind = .tlbinv c (cores.filter (fun x => x ≠ k)) (old ++ l) dies
          ∧ ∀ i, (k, i) ∈ l ↔ ∃ o ∈ (s.core k).ops, o.ctx = c ∧ o.kind ≠ .ldc ∧ o.id = i)
    ∧ (∀ c old dies, p.kind = .tlbinv c [] old dies →
        ((∀ x ∈ old, oldDone s x = true) → (∀ d ∈ s.copies, ¬(d.ctx = c ∧ d.started = true ∧ oldPageOpen d = true)) →
          (∀ k, (∀ o ∈ (s.core k).ops, o.ctx = c → oldUnits (s.core k) o = false) ∧ ∀ o ∈ (s.core k).overlays, o.ctx = c → o.old = false) →
          ∃ t : State, exec (.tlbinvCompletion p.id) s = .next t ∧ OpDone s t p ∧ t.mem = s.mem)
        ∧ ((∃ x ∈ old, oldDone s x = false) → exec (.tlbinvCompletion p.id) s = .next s))
    ∧ ∀ r, ((s.wave p.core p.slot).splits[r]).after = .done p.id → heldReady s p = true →
        (∀ op c seed n, p.kind = .seedOp op c seed n →
          let depth := (s.ctx c).seedDepth
          let at_ (t : State) (i pa : Nat) (v : Nat) : Prop := areaAddr s c (0x40 + 32 * i) true = .ok pa → plain →
            memNat t.mem pa 16 = v ∧ memNat t.mem (pa + 16) 4 = 0 ∧ memNat t.mem (pa + 20) 12 = 0
              ∧ ∀ a, a < pa ∨ pa + 32 ≤ a → memRead t.mem a = memRead s.mem a
          ∃ t : State, exec (.controlRegisterHoldEnd p.core p.slot r) s = .next t ∧ t.privOps = s.privOps.filter (fun q => q.id ≠ p.id)
            ∧ ((s.ctx c).area = 0 ∨ (op ≠ 1 ∧ depth = 16) ∨ (op = 1 ∧ depth = 1) → pred t n false ∧ (t.ctx c).seedDepth = depth)
            ∧ ((s.ctx c).area ≠ 0 → op = 1 → depth ≠ 1 → pred t n true ∧ (t.ctx c).seedDepth = depth - 1 ∧ t.mem = s.mem)
            ∧ ∀ pa, (s.ctx c).area ≠ 0 → depth ≠ 16 → areaAddr s c (0x40 + 32 * depth) true = .ok pa →
                (op = 0 → pred t n true ∧ (t.ctx c).seedDepth = depth + 1 ∧ at_ t depth pa seed.toNat)
                ∧ ∀ pb l, op = 2 → 1 ≤ depth → s.bad = [] → plain → pb + 32 ≤ pa →
                    areaAddr s c (0x40 + 32 * (depth - 1)) true = .ok pb → areaRead s c (0x40 + 32 * (depth - 1)) 20 = some l →
                    (∀ m, (∀ a, a < pb ∨ pb + 32 ≤ a → memRead m a = memRead s.mem a) →
                      areaAddr { s with mem := m } c (0x40 + 32 * depth) true = .ok pa) →
                    let count := fieldAt l 16 4
                    let half (i : Nat) : Nat := (hazelOf (BitVec.ofNat 128 (fieldAt l 0 16)) (BitVec.ofNat 128 (2 ^ 127 + count * 2 ^ 64 + i))).toNat
                    (count = 0xFFFFFFFF → pred t n false ∧ (t.ctx c).seedDepth = depth ∧ t.mem = s.mem)
                    ∧ (count ≠ 0xFFFFFFFF → pred t n true ∧ (t.ctx c).seedDepth = depth + 1
                        ∧ memNat t.mem pa 16 = half 4 + half 5 * 2 ^ 64 ∧ memNat t.mem (pa + 16) 4 = 0
                        ∧ memNat t.mem pb 16 = fieldAt l 0 16 ∧ memNat t.mem (pb + 16) 4 = count + 1))
        ∧ (∀ va n, p.kind = .mcload va n → ∃ t : State, exec (.controlRegisterHoldEnd p.core p.slot r) s = .next t ∧ t.mem = s.mem
            ∧ t.privOps = s.privOps.filter (fun q => q.id ≠ p.id)
            ∧ (∀ v, microcode s p.ctx va = some v → t.mcRev = v ∧ s.mcRev < v ∧ pred t n true)
            ∧ (microcode s p.ctx va = none → t.mcRev = s.mcRev ∧ pred t n false))

/-! ### Traps and handlers -/

/-- Taking a trap. A watchdog, a waiting condition and a pre-emption stop each leave a trapped split with its code, argument
and PC, and, but for a pre-emption, an entry in the core's trap queue: those of class-0 waves ahead of all others, those of one
cycle in ascending record number, and outside the queue while its 64 entries are taken; a condition of some lanes takes them into the lowest
free record and the rest run on. A stint that traps ends without its signals (R376, R410-R414, R427, R430, R431, R434). Choices of the model
here, no rule of the spec: log entries 37, 39. -/
def Obligations.TakingTraps : Prop :=
  ∀ (s : State) (k : CoreId) (w : SlotId) (r : RecId),
    let x := s.wave k w
    let y := x.splits[r]
    let entry : TrapEntry := ⟨x.uid, w, r, s.cycle⟩
    let queues (t : State) (e : TrapEntry) : Prop :=
      (∀ z, z ∈ (t.core k).trapQ ++ (t.core k).trapWait ↔ z = e ∨ z ∈ (s.core k).trapQ ++ (s.core k).trapWait)
      ∧ (64 ≤ (s.core k).trapQ.length → (t.core k).trapQ = (s.core k).trapQ)
      ∧ ((s.core k).trapWait = [] → (s.core k).trapQ.length < 64 → ∃ a b, (s.core k).trapQ = a ++ b ∧ (t.core k).trapQ = a ++ e :: b
          ∧ (∀ z ∈ a, (x.cls = 0 → (s.wave k z.slot).cls = 0)
              ∧ ¬(z.at_ = s.cycle ∧ e.split < z.split ∧ ((s.wave k z.slot).cls = 0 ↔ x.cls = 0)))
          ∧ (x.cls ≠ 0 → (∀ z ∈ (s.core k).trapQ, z.at_ = s.cycle → z.split ≤ e.split) → b = []))
    let rest (t : State) : Prop := t.mem = s.mem ∧ (∀ c, c ≠ k → t.core c = s.core c) ∧ (∀ v, v ≠ w → t.wave k v = s.wave k v)
      ∧ { t.wave k w with splits := x.splits, laneCode := x.laneCode } = x
    (∀ h, x.live = true → y.state = .runnable → y.hold = some h → (s.ctx x.ctx).watchdog ≠ 0 →
      ((s.ctx x.ctx).watchdog.toNat ≤ y.held → x.kind ≠ .stint → ∃ t : State, exec (.watchdog k w r) s = .next t ∧ rest t ∧ queues t entry
          ∧ TrappedAs y .watchdog h.code 0 0xFFFFFFFF none (t.wave k w).splits[r] ∧ ∀ q : RecId, q ≠ r → (t.wave k w).splits[q] = x.splits[q])
      ∧ ((s.ctx x.ctx).watchdog.toNat ≤ y.held → x.kind = .stint → ∃ t : State, exec (.watchdog k w r) s = .next t ∧ (t.wave k w).live = false
          ∧ (t.core k).trapQ = (s.core k).trapQ ∧ (t.core k).adds = (s.core k).adds)
      ∧ (y.held < (s.ctx x.ctx).watchdog.toNat → exec (.watchdog k w r) s = .next s))
    ∧ (y.hold = none → exec (.watchdog k w r) s = .next s)
    ∧ (∀ p : Pending, x.live = true → x.kind ≠ .stint → y.state = .runnable → y.pend = [p] →
        let addr : DWord := p.addr[lowLane (p.lanes &&& y.mask)]
        (p.code = .arith ∨ p.code = .bankMx ∨ y.gap = 0 →
          (y.mask &&& p.lanes = y.mask → y.mask ≠ 0 → p.code ≠ .preempt → ∃ t : State, exec (.pendingTrap k w r) s = .next t ∧ rest t ∧ queues t entry
              ∧ TrappedAs { y with pend := [] } p.code p.arg addr p.record p.pc (t.wave k w).splits[r]
              ∧ ∀ q : RecId, q ≠ r → (t.wave k w).splits[q] = x.splits[q])
          ∧ (∀ q : RecId, y.mask &&& p.lanes ≠ y.mask → y.mask &&& p.lanes ≠ 0 → (x.splits[q]).state = .free →
              (∀ q' : RecId, q' < q → (x.splits[q']).state ≠ .free) → ∃ t : State, exec (.pendingTrap k w r) s = .next t ∧ rest t ∧ queues t ⟨x.uid, w, q, s.cycle⟩
                ∧ TrappedAs { y with pend := [], mask := y.mask &&& p.lanes } p.code p.arg addr p.record p.pc (t.wave k w).splits[q]
                ∧ (t.wave k w).splits[r] = { y with pend := [], mask := y.mask &&& ~~~p.lanes }
                ∧ ∀ z : RecId, z ≠ r → z ≠ q → (t.wave k w).splits[z] = x.splits[z])
          ∧ (y.mask &&& p.lanes ≠ y.mask → y.mask &&& p.lanes ≠ 0 → p.code ≠ .preempt → (∀ q : RecId, (x.splits[q]).state ≠ .free) →
              ∃ t : State, exec (.pendingTrap k w r) s = .next t ∧ rest t ∧ queues t entry
                ∧ TrappedAs { y with pend := [] } p.code p.arg addr p.record p.pc (t.wave k w).splits[r]
                ∧ ∀ l : Lane, (t.wave k w).laneCode[l] = if laneBit (y.mask &&& p.lanes) l then p.code.code else x.laneCode[l]))
        ∧ (p.code ≠ .arith → p.code ≠ .bankMx → y.gap ≠ 0 → exec (.pendingTrap k w r) s = .next s))
    ∧ (y.pend = [] → exec (.pendingTrap k w r) s = .next s)
    ∧ (x.kind ≠ .stint → x.preempt.isSome → atSafePoint s k w r = true → ∃ t : State, exec (.preemptSafePointStop k w r) s = .next t ∧ rest t
        ∧ (t.core k).trapQ = (s.core k).trapQ ∧ TrappedAs y .preempt 0 0 0xFFFFFFFF none (t.wave k w).splits[r]
        ∧ ∀ q : RecId, q ≠ r → (t.wave k w).splits[q] = x.splits[q])
    ∧ (x.preempt = none → exec (.preemptSafePointStop k w r) s = .next s ∧ exec (.preemptForcedStop k w) s = .next s)
    ∧ ∀ p, x.preempt = some p → x.live = true → x.kind ≠ .stint →
        (s.cycle < p.deadline → exec (.preemptForcedStop k w) s = .next s)
        ∧ (p.deadline ≤ s.cycle → ∃ t : State, exec (.preemptForcedStop k w) s = .next t ∧ rest t ∧ (t.core k).trapQ = (s.core k).trapQ
            ∧ ∀ q : RecId, ((x.splits[q]).state = .runnable → TrappedAs (x.splits[q]) .preempt 1 0 0xFFFFFFFF none (t.wave k w).splits[q])
                ∧ ((x.splits[q]).state ≠ .runnable → (t.wave k w).splits[q] = x.splits[q]))

/-- The trap queue's first entry starts a handler wave: in the handler context, at the entry that CTX.HANDLER of the trapped
context names, as a grid whose serial no live grid of the context has, with the wave operand, trap word, address and record index in A1 to A4 and every other register zero; the
entry leaves the queue. A trap without a handler is fatal: its group's waves end and its grid fails (R23, R414-R416). Choices of the model
here, no rule of the spec: log entries 19, 20, 101, 102. -/
def Obligations.HandlerWaves : Prop :=
  ∀ (s : State) (k : CoreId) (e : TrapEntry) (l : List TrapEntry), (s.core k).trapQ = e :: l → e ∉ l →
    (s.core k).trapWait = [] → (∀ x ∈ (s.core k).trapQ, entryStands s k x = true) →
    let x := s.wave k e.slot
    let y := x.splits[e.split]
    (∀ h im en w, (∀ q ∈ (s.core k).trapQ, entryFatal s k q = false) → handlerCtx s x.ctx = some h → handlerImage s x.ctx h = some (im, en) →
      liveHandlers (s.core k) = [] → handlerRoom (s.core k) h = some w → handlerAllowed s k h = true →
      ∃ t : State, exec (.handlerWaveStart k) s = .next t ∧ t.mem = s.mem ∧ (t.core k).trapQ = l
        ∧ (∀ v, v ≠ w → t.wave k v = s.wave k v) ∧ (∀ c, c ≠ k → t.core c = s.core c)
        ∧ (t.ctx h).serial = (t.wave k w).serial + 1
        ∧ FreshSerial s h (t.wave k w).serial
        ∧ ∀ z, z = t.wave k w → z.live = true ∧ z.kind = .handler ∧ z.ctx = h ∧ z.det = 0 ∧ z.cls = 1 ∧ z.partner = none ∧ z.windex = 0
            ∧ z.groupNo = 0 ∧ z.depth = 0 ∧ z.seed = 0 ∧ z.epoch = s.cycle
            ∧ (z.splits[(0 : RecId)]).pc = BitVec.ofNat 32 en.pc ∧ (z.splits[(0 : RecId)]).mask = fullMask ∧ (z.splits[(0 : RecId)]).state = .runnable
            ∧ (∀ (n : Fin 256) (m : Lane), z.v[n][m] = 0) ∧ (∀ n : Fin 8, n ≠ 0 → z.p[n] = 0)
            ∧ (z.a[(1 : Fin 32)]).toNat = e.slot.val + 2 ^ 16 * x.ctx.val
            ∧ (z.a[(2 : Fin 32)]).toNat = y.code.toNat + 2 ^ 8 * y.arg.toNat + 2 ^ 16 * e.split.val + 2 ^ 32 * (y.epc.getD y.pc).toNat
            ∧ z.a[(3 : Fin 32)] = (if y.code ∈ [TrapCode.xlate.code, TrapCode.access.code, TrapCode.align.code, TrapCode.eccUncorr.code] then y.addr else 0)
            ∧ (z.a[(4 : Fin 32)]).toNat = y.record.toNat ∧ ∀ n : Fin 32, n.val ∉ [1, 2, 3, 4] → z.a[n] = 0)
    ∧ (∀ g, entryFatal s k e = true → s.group? x.group = some g → ∃ t : State, exec (.handlerWaveStart k) s = .next t
        ∧ (∃ g', t.group? x.group = some g' ∧ g'.fatal = true ∧ g'.ended = List.range g.w)
        ∧ (∀ d, t.grid? g.grid = some d → d.failed = true)
        ∧ ∀ w ∈ g.slots, (s.wave g.core w).live = true → (s.wave g.core w).group = x.group →
            (t.wave g.core w).exited = fullMask ∧ ∀ q : RecId, ((t.wave g.core w).splits[q]).state = .free)

/-! ### Barriers, stints, swapping -/

/-- A group barrier releases every split held at it once every live lane of the group's waves has arrived with its accesses
performed, and each wave then has observed what all had; a held split is released from its tile barrier four cycles after the
last of the lines that its mask names rose, whatever they do meanwhile. A stint starts when its conditions hold, none runs, and a context is free, with A1 as its only
register; one that overruns its cycles ends without its signals (R37, R38, R45, R46, R230, R231, R407, R427). Choices of the model
here, no rule of the spec: log entries 13, 25. -/
def Obligations.BarriersAndStints : Prop :=
  ∀ (s : State),
    (∀ (n : Nat) (g : Group), s.group? n = some g →
      let wave (w : SlotId) : Wave := s.wave g.core w
      let main (w : SlotId) : Prop := OnCore s g w ∧ (wave w).kind ≠ .stint ∧ (wave w).kind ≠ .shadow
      let held (w : SlotId) (r : RecId) : Prop :=
        OnCore s g w ∧ (wave w).kind ≠ .stint ∧ ((wave w).splits[r]).state ≠ .free ∧ heldAtBar s g.core w r = true
      ((∃ w, main w ∧ waveAtBar s g.core w (wave w) = false) → exec (.barrierRelease n) s = .next s)
      ∧ ((∀ w, main w → waveAtBar s g.core w (wave w) = true) → (∃ w r, held w r) →
          ∃ t : State, exec (.barrierRelease n) s = .next t ∧ { t with cores := s.cores, groups := s.groups } = s
            ∧ ((∀ w, OnCore s g w → (wave w).det ≠ 2) → t.groups = s.groups) ∧ (∀ k, k ≠ g.core → t.core k = s.core k)
            ∧ { t.core g.core with waves := (s.core g.core).waves } = s.core g.core
            ∧ (∀ w, { t.wave g.core w with splits := (wave w).splits, obs := (wave w).obs } = wave w)
            ∧ (∀ w r, (held w r → (t.wave g.core w).splits[r] = { (wave w).splits[r] with released := true })
                ∧ (¬held w r → (t.wave g.core w).splits[r] = (wave w).splits[r]))
            ∧ ∀ w v, main w → main v → ∀ i ∈ arrivalObs s g.core (wave w), i ∈ (t.wave g.core v).obs))
    ∧ (∀ tile : TileId, ∃ t : State, exec (.tileBarrierRelease tile) s = .next t ∧ { t with cores := s.cores } = s
        ∧ (∀ k, coreTile k ≠ tile → t.core k = s.core k)
        ∧ (∀ k, coreTile k = tile → { t.core k with waves := (s.core k).waves, line := (s.core k).line } = s.core k
            ∧ ((t.core k).line = none ∨ (t.core k).line = some ((s.core k).line.getD s.cycle)))
        ∧ ∀ k w r, coreTile k = tile → (s.wave k w).live = true → ((s.wave k w).splits[r]).state ≠ .free →
            let due : Prop := heldAtSync s k w r ≠ none ∧ ∃ c, ((s.wave k w).splits[r]).syncAt = some c ∧ c ≤ s.cycle
            (due → (t.wave k w).splits[r] = { (s.wave k w).splits[r] with released := true })
            ∧ (¬due → (t.wave k w).splits[r] = (s.wave k w).splits[r]))
    ∧ (∀ (k : CoreId) (w : SlotId) (r : RecId) (y : Split) (m : Nat), heldAtSync s k w r = some m →
        let line (i : Nat) : Option Nat := (s.core (Fin.ofNat 4096 ((coreTile k).val * 16 + i))).line
        ∀ i, i < 16 → m.testBit i = true →
          (line i = none → noteSync s k w r y = y)
          ∧ ∀ n, line i = some n → (∀ j, j < 16 → m.testBit j = true → ∃ c, line j = some c ∧ c ≤ n) →
              noteSync s k w r y = { y with syncAt := some (y.syncAt.getD (n + 4)) })
    ∧ (∀ (k : CoreId) (c : CtxId) (e : StintEntry) (x : Stint) (w : SlotId),
        (s.core k).stints.find? (fun e => e.ctx = c && stintReady s k e) = some e → stintEntry s e = some x →
        (s.core k).room0 (e.wave.cls = 0) [x.regs] = some [w] →
        (((∃ v, (s.wave k v).live = true ∧ (s.wave k v).kind = .stint) ∨ stintBarred s k c = true) → exec (.stintStart k c) s = .next s)
        ∧ ((∀ v, (s.wave k v).live = true → (s.wave k v).kind ≠ .stint) → stintBarred s k c = false →
            ∃ t : State, exec (.stintStart k c) s = .next t ∧ t.mem = s.mem ∧ (∀ j, j ≠ k → t.core j = s.core j)
              ∧ (∀ v, v ≠ w → t.wave k v = s.wave k v) ∧ (t.core k).stints = (s.core k).stints.erase e
              ∧ (t.core k).adds = (s.core k).adds ++ [(.s253 c, 1)]
              ∧ ∀ z, z = t.wave k w → z.live = true ∧ z.kind = .stint ∧ z.ctx = c ∧ z.image = e.image ∧ z.nregs = x.regs
                  ∧ (z.splits[(0 : RecId)]).pc = BitVec.ofNat 32 x.pc ∧ (z.splits[(0 : RecId)]).mask = fullMask
                  ∧ (z.splits[(0 : RecId)]).state = .runnable
                  ∧ (∀ (r : Fin 256) (l : Lane), z.v[r][l] = 0) ∧ (∀ m : Fin 32, z.a[m] = if m = 1 then e.arg else 0)
                  ∧ ∃ q, z.stint = some q ∧ q.signals = x.signals ∧ q.deadline = s.cycle + 1 + x.cycles ∧ q.index = e.index))
    ∧ ∀ (k : CoreId) (w : SlotId) (q : StintRun), (s.wave k w).kind = .stint → (s.wave k w).live = true → (s.wave k w).stint = some q →
        (s.cycle < q.deadline → exec (.stintOverrun k w) s = .next s)
        ∧ (q.deadline ≤ s.cycle → ∃ t : State, exec (.stintOverrun k w) s = .next t ∧ (t.wave k w).live = false
            ∧ (t.core k).adds = (s.core k).adds ∧ (t.core k).trapQ = (s.core k).trapQ
            ∧ RecordIn s t (s.wave k w).ctx 2 0x14 q.index q.arg.toNat)

/-- Waves that leave their core and come back. A group held long enough at JOIN gives up its contexts and keeps its claims; it
returns as it left once its counters read zero and there is room, and makes the claims again that it has lost. A group retiring long enough gives its contexts up too. A
core whose parked share is exceeded asks for a switch-out there and a kind-7 record is entered. A group that has ended, and
whose accesses and children are over, retires: it frees contexts and claims, the token moves on, and the last one of a grid
ends it once what its waves had observed has performed at .k (R21, R49, R113, R240, R241, R402, R435). Choices of the model
here, no rule of the spec: log entries 38, 88, 89, 90. -/
def Obligations.LeavingAndReturning : Prop :=
  ∀ (s : State) (n : Nat),
    (∀ g : Group, s.group? n = some g →
      let leaves (t : State) (st : GroupState) : Prop := ∃ h, t.group? n = some h ∧ h.state = st
        ∧ (t.core g.core).claims = (s.core g.core).claims ∧ (t.core g.core).ops = (s.core g.core).ops
        ∧ (∀ w, OnCore s g w → (t.wave g.core w).live = false) ∧ (∀ w, ¬OnCore s g w → t.wave g.core w = s.wave g.core w)
      (joinOutReady s g = true → ∃ t : State, exec (.joinSwapOut n) s = .next t ∧ leaves t .swapped
          ∧ ∀ h, t.group? n = some h → ∀ w, OnCore s g w → ∃ i, (w, s.wave g.core w, i) ∈ h.away)
      ∧ (joinOutReady s g = false → exec (.joinSwapOut n) s = .next s)
      ∧ (g.state = .retiring → max 1 (s.ctx g.ctx).joinSwap.toNat ≤ g.retireFor →
          ∃ t : State, exec (.retiringRelease n) s = .next t ∧ t.mem = s.mem ∧ leaves t .retiringOut)
      ∧ (g.state ≠ .retiring ∨ g.retireFor < max 1 (s.ctx g.ctx).joinSwap.toNat → exec (.retiringRelease n) s = .next s)
      ∧ (∀ ws, wantsReturn s g = true → mxlAllows s g = true → roomBack s g = some ws → ws.length = g.away.length → ws.Nodup →
          (g.away.map (·.1)).Nodup → ∃ (t : State) (h : Group), exec (.joinReturn n) s = .next t ∧ t.mem = s.mem ∧ t.group? n = some h
            ∧ h.state = .running ∧ h.away = []
            ∧ ((∃ c ∈ (s.core g.core).claims, c.group = n) → (t.core g.core).claims = (s.core g.core).claims)
            ∧ ((∀ c ∈ (s.core g.core).claims, c.group ≠ n) → (t.core g.core).claims = (s.core g.core).claims ++ imageClaims s g)
            ∧ (∀ w, w ∉ ws → t.wave g.core w = s.wave g.core w)
            ∧ ∀ (i : Nat) (a : SlotId × Wave × Nat) (w : SlotId), g.away[i]? = some a → ws[i]? = some w → SameWave a.2.1 (t.wave g.core w))
      ∧ (wantsReturn s g = false ∨ mxlAllows s g = false ∨ roomBack s g = none → exec (.joinReturn n) s = .next s)
      ∧ (mayRetire s g = false → exec (.groupRetire n) s = .next s)
      ∧ (mayRetire s g = true → ∃ t : State, exec (.groupRetire n) s = .next t
          ∧ (∀ h ∈ t.groups, h.id ≠ n) ∧ (t.core g.core).claims = (s.core g.core).claims.filter (fun c => c.group ≠ n)
          ∧ (∀ w, OnCore s g w → (t.wave g.core w).live = false) ∧ (∀ w, ¬OnCore s g w → t.wave g.core w = s.wave g.core w)
          ∧ (∀ d : Grid, s.grid? g.grid = some d → (∃ h ∈ s.groups, h.grid = g.grid ∧ h.id ≠ n) → ∃ e, t.grid? g.grid = some e
              ∧ e.retired = g.no :: d.retired
              ∧ (d.det ≠ 0 → d.token = g.no → d.token < d.g → ∀ m, m < d.g → m ∉ g.no :: d.retired →
                  e.token ∉ g.no :: d.retired ∧ e.token < d.g
                  ∧ (e.token + d.g - d.token - 1) % d.g ≤ (m + d.g - d.token - 1) % d.g)
              ∧ (d.det = 0 ∨ d.token ≠ g.no → e.token = d.token))
          ∧ ∀ (d : Grid), s.grid? g.grid = some d → (∀ h ∈ s.groups, h.grid = g.grid → h.id = n) → d.next = d.g →
              (∀ k, ∀ x ∈ (s.core k).merge, x.id ∉ d.obs ∧ ∀ w, OnCore s g w → x.id ∉ (s.wave g.core w).obs) →
              (∀ e ∈ t.grids, e.id ≠ g.grid)
              ∧ ∀ q seq p, d.queue = some (q, seq) → s.packet? q seq = some p → p.state ≠ .done →
                  ∃ p', t.packet? q seq = some p' ∧ p'.state = .done ∧ p'.status = if d.failed then (if p.status = 0 then 1 else p.status) else 0))
    ∧ ∀ (k : CoreId) (c : CtxId),
        let live (w : SlotId) : Bool := (s.wave k w).live && (s.wave k w).ctx = c
        let all := ((idxs 48).filter live).length
        let parked := ((idxs 48).filter fun w => live w && (idxs 4).any fun r => ((s.wave k w).splits[r]).state = .parked).length
        ((s.ctx c).swout = [] → min (s.ctx c).parkPct.toNat 100 * all < 100 * parked →
          ∃ (t : State) (o : Swout), exec (.parkedShareSwitch k c) s = .next t ∧ (t.ctx c).swout = [o] ∧ o.oneCore = some k
            ∧ (∀ j, (t.core j).waves = (s.core j).waves) ∧ RecordIn s t c 7 0 all parked)
        ∧ ((s.ctx c).swout ≠ [] ∨ 100 * parked ≤ min (s.ctx c).parkPct.toNat 100 * all → exec (.parkedShareSwitch k c) s = .next s)

/-! ### Packets, launches and placement -/

/-- A packet is taken in sequence when its queue is active: its fields come from its 64 bytes; one that breaks its format or
class is done with that status, and a LAUNCH enters a grid of depth 0. It starts once earlier fences and seed packets allow it:
NOP and YSEM_ADD are done, a seed packet performs on the stack, a LAUNCH makes its grid eligible, and a dependence that does
not hold waits. A finished packet writes its record, adds to its signal word, and DONE_SEQ follows (R388-R393, R396, R459). Choices of the model
here, no rule of the spec: log entries 95, 96, 97, 98. -/
def Obligations.PacketsOfQueues : Prop :=
  ∀ (s : State) (q : QueueId),
    let x := s.queues[q]
    let expect := x.consumed + 1
    let slot := expect.toNat % 2 ^ x.sizeLog2
    (mayTake s x = false → exec (.packetTake q) s = .next s)
    ∧ (∀ l, mayTake s x = true → ringRead s x.ctx (x.base + BitVec.ofNat 64 (64 * slot)) 64 = .ok l →
        (fieldAt l 0 4 ≠ expect.toNat → ∃ t : State, exec (.packetTake q) s = .next t ∧ { t with queues := s.queues } = s
            ∧ (∀ z : QueueId, t.queues[z] = if z = q then { x with seqErr := true } else s.queues[z]))
        ∧ (fieldAt l 0 4 = expect.toNat → ∃ (t : State) (p : Packet), exec (.packetTake q) s = .next t ∧ t.mem = s.mem ∧ t.cores = s.cores
            ∧ (t.queues[q]).consumed = expect ∧ (t.queues[q]).taken = x.taken ++ [p] ∧ (t.queues[q]).doneSeq = x.doneSeq
            ∧ (∀ z : QueueId, z ≠ q → t.queues[z] = s.queues[z])
            ∧ p.seq = expect ∧ p.op = fieldAt l 4 1 ∧ p.pflags.toNat = fieldAt l 5 1 ∧ p.tag.toNat = fieldAt l 56 8
            ∧ p.depAddr.toNat = fieldAt l 32 8 ∧ p.sigAddr.toNat = fieldAt l 48 8
            ∧ (packetOk l = false → p.state = .done ∧ p.status = 2 ∧ t.grids = s.grids)
            ∧ (packetOk l = true → classRefused s x p = true → p.state = .done ∧ p.status = 6 ∧ t.grids = s.grids)
            ∧ (packetOk l = true → classRefused s x p = false → p.state = .taken)
            ∧ (packetOk l = true → p.op ≠ 1 → t.grids = s.grids)
            ∧ (packetOk l = true → classRefused s x p = false → p.op = 1 → ∃ d, t.grids = s.grids ++ [d] ∧ p.grid = d.id ∧ d.ctx = x.ctx
                ∧ d.image.toNat = fieldAt l 8 4 ∧ d.entry.toNat = fieldAt l 12 2 ∧ d.w = fieldAt l 14 1 ∧ d.g = fieldAt l 16 4
                ∧ d.params.toNat = fieldAt l 24 8 ∧ d.depth = 0 ∧ d.parent = none ∧ d.queue = some (q, expect) ∧ d.state = .waiting
                ∧ d.eligible = none ∧ FreshSerial s x.ctx d.serial ∧ (t.ctx x.ctx).serial = d.serial + 1)))
    ∧ ∀ (seq : Word) (p : Packet), s.packet? q seq = some p → p.seq = seq →
        let finished (t : State) (st : Nat) : Prop := ∃ r, t.packet? q seq = some r ∧ r.state = .done ∧ r.status = BitVec.ofNat 16 st
        let eligible (t : State) : Prop := ∀ d, s.grid? p.grid = some d → ∃ e, t.grid? p.grid = some e
          ∧ e.eligible = (if d.eligible = none then some s.cycle else d.eligible) ∧ e.state = d.state
        let performs (i : Instr) : Prop := ∃ t : State, exec i s = .next t ∧ t.cores = s.cores
          ∧ (p.op = 1 → eligible t ∧ t.mem = s.mem)
          ∧ (p.op = 0 ∨ p.op = 5 → finished t 0 ∧ t.mem = s.mem ∧ t.grids = s.grids)
          ∧ (p.op = 3 → (s.ctx x.ctx).area ≠ 0 → ((s.ctx x.ctx).seedDepth = 1 → finished t 7 ∧ (t.ctx x.ctx).seedDepth = 1)
              ∧ ((s.ctx x.ctx).seedDepth ≠ 1 → finished t 0 ∧ (t.ctx x.ctx).seedDepth = (s.ctx x.ctx).seedDepth - 1))
          ∧ (p.op = 2 ∨ p.op = 4 → (s.ctx x.ctx).area ≠ 0 → (s.ctx x.ctx).seedDepth = 16 → finished t 7)
          ∧ (∀ pa, p.op = 2 → (s.ctx x.ctx).area ≠ 0 → (s.ctx x.ctx).seedDepth ≠ 16 → Plain s →
              areaAddr s x.ctx (0x40 + 32 * (s.ctx x.ctx).seedDepth) true = .ok pa →
              finished t 0 ∧ (t.ctx x.ctx).seedDepth = (s.ctx x.ctx).seedDepth + 1
              ∧ memNat t.mem pa 16 = p.image.toNat + 2 ^ 32 * p.entry.toNat + 2 ^ 48 * (p.waves % 256) + 2 ^ 56 * p.lflags.toNat
                  + 2 ^ 64 * (p.groups % 2 ^ 32) + 2 ^ 96 * p.extra.toNat)
        let fields : Prop := p.waves < 256 ∧ p.groups < 2 ^ 32 ∧ Plain s
        (mayStart s x p = false → exec (.packetStart q seq) s = .next s)
        ∧ (mayStart s x p = true → p.pflags.getLsbD 1 = false → fields → p.op ≤ 5 → performs (.packetStart q seq))
        ∧ (p.state = .started → p.performed = false → dependent s p = false → fields →
            (p.op = 0 → performs (.cmdNop q seq)) ∧ (p.op = 1 → performs (.cmdLaunch q seq)) ∧ (p.op = 2 → performs (.seedPush q seq))
            ∧ (p.op = 3 → performs (.seedPop q seq)) ∧ (p.op = 4 → performs (.seedFork q seq)) ∧ (p.op = 5 → performs (.ysemAdd q seq)))
        ∧ (p.pflags.getLsbD 1 = true → fields → ∀ i, (i = .packetStart q seq ∧ mayStart s x p = true)
              ∨ (i = .dependenceRead q seq ∧ dependent s p = true ∧ p.due ≤ s.cycle) →
            (readDependence s x.ctx p = .holds → p.op ≤ 5 → performs i)
            ∧ (readDependence s x.ctx p = .below → ∃ (t : State) (r : Packet), exec i s = .next t ∧ t.grids = s.grids ∧ t.mem = s.mem ∧ t.cores = s.cores
                ∧ t.packet? q seq = some r ∧ r.state = .started ∧ r.performed = p.performed ∧ s.cycle < r.due)
            ∧ (readDependence s x.ctx p = .bad → ∃ t : State, exec i s = .next t ∧ finished t 3 ∧ t.mem = s.mem ∧ ∀ d ∈ t.grids, d.id ≠ p.grid))
        ∧ (∀ as, p.state = .done → p.due ≤ s.cycle → Plain s → as.Nodup →
            let word (n k : Nat) (t : State) : Nat := leNat ((List.range n).map fun i => memRead t.mem (as.getD (k + i) 0))
            let rest (t : State) : Prop := (t.queues[q]).taken = x.taken.filter (fun y => y.seq ≠ seq)
              ∧ (t.queues[q]).doneSeq = (match x.taken.filter (fun y => y.seq ≠ seq) with | [] => x.consumed | y :: _ => y.seq - 1)
              ∧ word 4 0 t = seq.toNat ∧ word 2 6 t = 0 ∧ word 8 8 t = p.tag.toNat
            (p.pflags.getLsbD 2 = false ∨ p.status = 2 ∨ p.status = 6 →
              addrsVia (fun v => ringAddr s x.ctx v false true) (x.cpl + BitVec.ofNat 64 (16 * (seq.toNat % 2 ^ x.sizeLog2))) 16 = .ok as →
              ∃ t : State, exec (.packetCompletion q seq) s = .next t ∧ rest t ∧ word 2 4 t = p.status.toNat
                ∧ ∀ a, a ∉ as → memRead t.mem a = memRead s.mem a)
            ∧ (∀ y, p.pflags.getLsbD 2 = true → p.status ≠ 2 → p.status ≠ 6 → walk s x.ctx p.sigAddr = .ok y → y.kind = 1 → y.sumcell = false →
                y.permits (s.ctx x.ctx).level true true = true → p.sigAddr.toNat % 4 = 0 →
                (∀ i, i < 4 → y.addr p.sigAddr + i ∉ as) →
                (∀ m, (∀ a, a < y.addr p.sigAddr ∨ y.addr p.sigAddr + 4 ≤ a → memRead m a = memRead s.mem a) →
                  addrsVia (fun v => ringAddr { s with mem := m } x.ctx v false true) (x.cpl + BitVec.ofNat 64 (16 * (seq.toNat % 2 ^ x.sizeLog2))) 16 = .ok as) →
                s.bad = [] →
                ∃ t : State, exec (.packetCompletion q seq) s = .next t ∧ rest t ∧ word 2 4 t = p.status.toNat
                  ∧ memNat t.mem (y.addr p.sigAddr) 4 = (memNat s.mem (y.addr p.sigAddr) 4 + p.sigInc.toNat) % 2 ^ 32))
        ∧ (p.state ≠ .done ∨ s.cycle < p.due → exec (.packetCompletion q seq) s = .next s)

/-- A pending launch enters the grid list as a child one level deeper, its seed forked from its parent's when it asks for it,
and S255 rises. The dispatcher refuses a grid without an image or entry with ACCESS, and places the next group of the others
on the core it chooses, all its waves in one cycle: registers zero but A1, at the entry's first bundle; the last group takes the
grid out of the list. A run's digest and its signature answer ATTEST_RUN (R20, R23, R51, R236, R237, R397, R398, R454). Choices of the model
here, no rule of the spec: log entries 27, 93, 94. -/
def Obligations.LaunchesAndPlacement : Prop :=
  ∀ (s : State),
    (∀ (n : Nat) (g : Group), s.group? n = some g →
      (∀ r l, g.launchQ = r :: l → r.due ≤ s.cycle → listFull s g.ctx = false →
        ∃ (t : State) (h : Group) (d : Grid), exec (.pendingLaunchRemoval n) s = .next t ∧ t.mem = s.mem ∧ t.cores = s.cores
          ∧ t.group? n = some h ∧ h.launchQ = l ∧ h.s255 = g.s255 + 1 ∧ h.children = g.children + 1 ∧ t.grids = s.grids ++ [d]
          ∧ d.ctx = g.ctx ∧ d.image = r.image ∧ d.entry = r.entry ∧ d.g = r.groups ∧ d.w = r.waves ∧ d.params = r.params ∧ d.join = r.join
          ∧ d.depth = g.depth + 1 ∧ d.parent = some n ∧ d.queue = none ∧ d.state = .waiting ∧ d.eligible = some s.cycle
          ∧ FreshSerial s g.ctx d.serial ∧ (t.ctx g.ctx).serial = d.serial + 1
          ∧ d.cls = r.flags.toNat / 4 % 4 ∧ d.det = r.flags.toNat / 16 % 4 ∧ (d.cohort = true ↔ r.flags.toNat / 2 % 2 = 1)
          ∧ ∀ e : Grid, s.grid? g.grid = some e →
              d.seed = if r.flags.toNat % 2 = 1
                then (hazelOf e.seed (BitVec.ofNat 128 (g.no * 2 ^ 96 + r.f * 2 ^ 64 + 1))) ++ (hazelOf e.seed (BitVec.ofNat 128 (g.no * 2 ^ 96 + r.f * 2 ^ 64)))
                else e.seed)
      ∧ (g.launchQ = [] ∨ listFull s g.ctx = true → exec (.pendingLaunchRemoval n) s = .next s))
    ∧ (∀ (n : Nat) (d : Grid), s.grid? n = some d →
        let served : Prop := d.served = true ∧ d.due ≤ s.cycle ∧ headOfClass s d = true ∧ heldByClass s d = false ∧ (s.ctx d.ctx).area ≠ 0
        ((d.served = false ∨ s.cycle < d.due ∨ headOfClass s d = false ∨ heldByClass s d = true ∨ (s.ctx d.ctx).area = 0) → exec (.groupPlacement n) s = .next s)
        ∧ (served → d.state = .waiting → seedBusy s d.ctx = false →
            (gridImage s d (gridHandle s d) = none ∨ ∃ im, gridImage s d (gridHandle s d) = some im ∧ im.entries[d.entry.toNat]? = none) →
            ∃ t : State, exec (.groupPlacement n) s = .next t ∧ (∀ e ∈ t.grids, e.id ≠ n) ∧ t.groups.map (·.id) = s.groups.map (·.id)
              ∧ ∀ q seq p, d.queue = some (q, seq) → s.packet? q seq = some p → p.state ≠ .done →
                  ∃ r, t.packet? q seq = some r ∧ r.state = .done ∧ r.status = 3)
        ∧ (∀ im en k ws, served → d.state = .placing → gridImage s d d.image = some im → im.entries[d.entry.toNat]? = some en → im.plan = none →
            d.cohort = false → chooseCore (keepImage im s) d im en d.next = some (k, ws) → en.shadow = none → ws.length = d.w → ws.Nodup →
            ∃ (t : State) (h : Group) (e : Grid), exec (.groupPlacement n) s = .next t ∧ (∀ c, c ≠ k → t.core c = s.core c)
              ∧ t.groups = s.groups ++ [h] ∧ h.grid = n ∧ h.no = d.next ∧ h.core = k ∧ h.slots = ws ∧ h.state = .running ∧ h.s255 = 4 ∧ h.ended = []
              ∧ h.ctx = d.ctx ∧ h.depth = d.depth
              ∧ t.grid? n = some e ∧ e.next = d.next + 1 ∧ (e.state = .placed ↔ d.next + 1 = d.g)
              ∧ (t.core k).claims = (s.core k).claims ++ im.claims.map (fun c => { c with ctx := d.ctx, group := h.id })
              ∧ (∀ w, w ∉ ws → t.wave k w = s.wave k w)
              ∧ ∀ i w, ws[i]? = some w → ∀ z, z = t.wave k w → z.live = true ∧ z.kind = .compute ∧ z.ctx = d.ctx ∧ z.group = h.id ∧ z.windex = i
                  ∧ z.groupNo = d.next ∧ z.serial = d.serial ∧ z.seed = d.seed ∧ z.epoch = d.epoch ∧ z.cls = d.cls ∧ z.det = d.det ∧ z.nregs = en.regs
                  ∧ z.partner = none ∧ (z.splits[(0 : RecId)]).pc = BitVec.ofNat 32 en.pc ∧ (z.splits[(0 : RecId)]).mask = fullMask
                  ∧ (z.splits[(0 : RecId)]).state = .runnable ∧ (∀ (r : Fin 256) (l : Lane), z.v[r][l] = 0) ∧ (∀ m : Fin 8, m ≠ 0 → z.p[m] = 0)
                  ∧ ∀ m : Fin 32, z.a[m] = if m = 1 then d.params else 0))
    ∧ ∀ (q : Byte) (seq : Word) (nonce : List Byte), s.hub.halted = false →
        let x := s.queues[(Fin.ofNat 64 q.toNat : QueueId)]
        let at_ := x.cpl + BitVec.ofNat 64 (16 * 2 ^ x.sizeLog2 + 64 * (seq.toNat % 2 ^ x.sizeLog2))
        let answers (status : Nat) (data : List Nat) : Prop := ∃ t : State, exec (.attestRun q seq nonce) s = .next t
          ∧ { t with outbox := s.outbox, free := s.free } = s ∧ t.outbox = s.outbox ++ [.nums 6 (status :: data)]
        (64 ≤ q.toNat ∨ nonce.length ≠ 32 → answers 1 []) ∧ (∀ e, q.toNat < 64 → nonce.length = 32 → engineRead s x.ctx at_ 64 = .error e → answers 2 [])
        ∧ (∀ l, q.toNat < 64 → nonce.length = 32 → engineRead s x.ctx at_ 64 = .ok l →
            (fieldAt l 0 4 ≠ seq.toNat → answers 2 [])
            ∧ (fieldAt l 0 4 = seq.toNat → ∃ sig : BitVec 512, Config.attestKey.verify (Config.sm3 (Config.attestZ ++ (l.drop 8).take 32 ++ nonce)) sig = true ∧
                answers 0 (((l.drop 8).take 32).map (·.toNat) ++ (List.range 64).map fun i => sig.toNat / 256 ^ (63 - i) % 256)))

/-! ### Registers that have rows of their own -/

/-- A doorbell on a link that has a device fixes the last packet to take, or none when it is farther ahead than the ring; the reset field acts only while
the queue is off. DIE.PART changes the layout only while no context but 0 and 1 is in use. A tile leaves the running state only
when the request is not refused, changes within its time, and keeps after a wake only the arrays it was told to keep; a request
or a wake during a change acts at its end (R387, R391, R446, R483-R485). Choices of the model
here, no rule of the spec: log entries 68, 69, 73. -/
def Obligations.QueueRegistersAndPower : Prop :=
  ∀ (s : State),
    (∀ (q : QueueId) (v : Word) (link : Fin 2) (on : Bool),
      let x := s.queues[q]
      let only (i : Instr) (y : HostQ) : Prop := ∃ t : State, exec i s = .next t ∧ { t with queues := s.queues } = s
        ∧ ∀ z : QueueId, t.queues[z] = if z = q then y else s.queues[z]
      (link ≠ 0 → s.hub.x8 = false → exec (.hostqDoorbell q v link) s = .next s)
        ∧ (link = 0 ∨ s.hub.x8 = true → only (.hostqDoorbell q v link)
          { x with limit := (if (v.toNat + 2 ^ 32 - x.consumed.toNat) % 2 ^ 32 ≤ 2 ^ x.sizeLog2 then v else x.consumed), seqErr := false, link := link })
        ∧ only (.hostqCfgEnable q on) { x with enable := on }
        ∧ only (.hostqCfgReset q) (if x.enable = true then x else { x with consumed := 0, doneSeq := 0, limit := 0 }))
    ∧ (∀ l : BitVec 2,
        ((∃ c : CtxId, 2 ≤ c.val ∧ (s.ctx c).state ≠ 0) → exec (.diePartWrite l) s = .next s)
        ∧ ((∀ c : CtxId, 2 ≤ c.val → (s.ctx c).state = 0) → exec (.diePartWrite l) s = .next { s with layout := l }))
    ∧ ∀ (tile : TileId),
        let x := s.tiles[tile]
        let still : Prop := ∀ n : Nat, x.state ≠ .changing n
        let onlyTile (t : State) (y : Tile) : Prop := { t with tiles := s.tiles, free := s.free } = s
          ∧ ∀ z : TileId, t.tiles[z] = if z = tile then y else s.tiles[z]
        let idle : Prop := (∀ k ∈ tileCores tile, coreIdle s k = true) ∧ routerUsed s tile = false
        let claimed (kept : Nat → Bool) : Prop := ∃ k ∈ tileCores tile, ∃ c ∈ (s.core k).claims, kept c.kind = false
        let pinned : Prop := ∃ k ∈ tileCores tile, pinned0 s k = true
        let refused (req : Nat) (fence : Bool) : Prop :=
          (req = 1 ∧ (¬(fence = true ∧ idle) ∨ claimed (fun n => x.keep.getLsbD n) ∨ (pinned ∧ x.keep.getLsbD 3 = false)))
          ∨ (req = 2 ∧ ((∃ k ∈ tileCores tile, (s.core k).claims ≠ []) ∨ pinned ∨ (x.state = .running ∧ ¬(fence = true ∧ idle))))
        let moves (req : Nat) : Prop := (x.state = .running ∧ (req = 1 ∨ req = 2)) ∨ (x.state = .retained ∧ req = 2)
        let begins (t : State) (y : Tile) (target ns : Nat) : Prop := t.free = s.free + 1 ∧ ∃ n, n ≤ ns * s.clockKhz / 1000000
          ∧ onlyTile t { y with state := .changing target, due := s.cycle + 1 + n,
                                from_ := match x.state with | .retained => 1 | .off => 2 | _ => 0 }
        let request (i : Instr) (req : Nat) (fence : Bool) : Prop := ∃ t : State, exec i s = .next t
          ∧ (still →
              let y := { x with fence := fence, refused := false, req := BitVec.ofNat 2 req }
              (¬moves req → t.free = s.free ∧ onlyTile t y)
              ∧ (moves req → refused req fence → t.free = s.free ∧ onlyTile t { y with refused := true })
              ∧ (moves req → ¬refused req fence → begins t y req 4000))
          ∧ (¬still → t.free = s.free ∧ onlyTile t { x with reqHeld := some (BitVec.ofNat 64 (req + fence.toNat * 256)) })
        let ends (i : Instr) (u : State) : Prop := ∃ m : State,
          (x.reqHeld = none → m = u)
          ∧ (∀ v j, x.reqHeld = some v →
              (j = .tilePwrReqRun tile ∧ v.toNat % 4 = 0) ∨ (j = .tilePwrReqRetain tile ∧ v.toNat % 4 = 1) ∨ (j = .tilePwrReqOff tile ∧ v.toNat % 4 = 2) →
              exec j { u with tiles := u.tiles.set tile { u.tiles[tile] with fence := v.getLsbD 8 } } = .next m)
          ∧ (x.wakeHeld = false → exec i s = .next m) ∧ (x.wakeHeld = true → exec i s = exec (.tileWake tile) m)
        request (.tilePwrReqRun tile) 0 x.fence ∧ request (.tilePwrReqRetain tile) 1 x.fence ∧ request (.tilePwrReqOff tile) 2 x.fence
        ∧ (∀ on : Bool, x.req.toNat < 3 → request (.tilePwrReqFence tile on) x.req.toNat on)
        ∧ (x.state = .running ∨ x.state = .changing 0 → exec (.tileWake tile) s = .next s)
        ∧ (x.state = .changing 1 ∨ x.state = .changing 2 →
            ∃ t : State, exec (.tileWake tile) s = .next t ∧ t.free = s.free ∧ onlyTile t { x with wakeHeld := true })
        ∧ (x.state = .retained → ∃ t : State, exec (.tileWake tile) s = .next t ∧ begins t x 0 10000)
        ∧ (x.state = .off → ∃ t : State, exec (.tileWake tile) s = .next t ∧ begins t x 0 60000)
        ∧ ((still ∨ s.cycle < x.due) → exec (.tilePowerChangeDone tile) s = .next s ∧ exec (.tileWakeDone tile) s = .next s)
        ∧ (∀ st n, x.state = .changing n → (n = 1 ∧ st = .retained) ∨ (n = 2 ∧ st = .off) → x.due ≤ s.cycle →
            exec (.tileWakeDone tile) s = .next s
            ∧ ∀ u : State, u.free = s.free → onlyTile u { x with state := st, reqHeld := none, wakeHeld := false } → ends (.tilePowerChangeDone tile) u)
        ∧ (x.state = .changing 0 → x.due ≤ s.cycle → exec (.tilePowerChangeDone tile) s = .next s
            ∧ ∃ u : State, ends (.tileWakeDone tile) u ∧ { u with tiles := s.tiles, cores := s.cores } = s
              ∧ (∀ z : TileId, u.tiles[z] = if z = tile then { x with state := .running, req := 0, reqHeld := none, wakeHeld := false } else s.tiles[z])
              ∧ ∀ k : CoreId,
                  let kept (b : Nat) : Prop := coreTile k ≠ tile ∨ (x.from_ = 1 ∧ x.keep.getLsbD b = true)
                  { u.core k with scratch := (s.core k).scratch, acc := (s.core k).acc, l1 := (s.core k).l1, dict := (s.core k).dict, eccSp := (s.core k).eccSp, eccAcc := (s.core k).eccAcc, eccL1 := (s.core k).eccL1 } = s.core k
                  ∧ (kept 0 → (u.core k).scratch = (s.core k).scratch ∧ (u.core k).eccSp = (s.core k).eccSp)
                  ∧ (¬kept 0 → (u.core k).scratch = [] ∧ (u.core k).eccSp = [])
                  ∧ (kept 1 → (u.core k).acc = (s.core k).acc ∧ (u.core k).eccAcc = (s.core k).eccAcc)
                  ∧ (¬kept 1 → (u.core k).acc = [] ∧ (u.core k).eccAcc = [])
                  ∧ (kept 2 → (u.core k).l1 = (s.core k).l1 ∧ (u.core k).eccL1 = (s.core k).eccL1)
                  ∧ (¬kept 2 → (u.core k).l1 = [] ∧ (u.core k).eccL1 = [])
                  ∧ (kept 3 → (u.core k).dict = (s.core k).dict) ∧ (¬kept 3 → (u.core k).dict = []))

/-! ### Step domains -/

/-- The coordinator holds the ARRIVEs of a boundary and then sends APPLY; an owner that applies computes every written element
by its window's rule, frees the step's entries, reports the conflicts and then APPLIED, or FAIL where it meets uncorrectable
data; the coordinator that holds all of them releases with one outcome; a release commits the applied bytes, begins the next step,
lets the waiting descriptors govern and leaves STEP_CONFLICT pending at the waves it concerns. A message for another step, or to a
module that is not the coordinator, changes nothing. Every message takes effect in its turn and is acknowledged (R162, R168-R173,
R379, R449, R463, R466, R467, R480). Choices of the model here, no rule of the spec: log entries 65, 78, 79, 132. -/
def Obligations.PodBoundaries : Prop :=
  (∀ (d : Word) (rank : BitVec 16) (step : Word) (b : Bool), Receives (fun h => .arrive h ⟨d, step⟩ rank b) (.arrive d rank step b)
    ∧ Receives (fun h => .apply h ⟨d, step⟩ b) (.apply d step b)
    ∧ Receives (fun h => .applied h ⟨d, step⟩ rank b) (.applied d rank step b))
  ∧ (∀ (c : CtxId) (source : BitVec 28) (d step : Word) (o : BitVec 2) (y : DWord),
    Receives (fun h => .conflict h c source ⟨step, y⟩) (.conflict c source step y)
    ∧ Receives (fun h => .release h ⟨d, step⟩ o y) (.release d step o y))
  ∧ ∀ (s : State) (src : BitVec 10) (d : Word) (c : CtxId) (b : Domain) (r : DomainRow), BoundTo s d c b → RowOf s d r → b.formed = true →
    let x := s.ctx c
    (∀ (rank : BitVec 16) (step : Word) (refused : Bool),
      (b.rank ≠ 0 → deliverMsg src (.arrive d rank step refused) s = s)
      ∧ (b.rank = 0 →
          let held := (rank.toNat, step, refused) :: r.arrives.filter fun y => !(y.1 = rank.toNat && y.2.1 = step)
          let all : Prop := ∀ i, i < b.p ∨ i = 0 → ∃ y ∈ held, y.1 = i ∧ y.2.1 = x.step
          let discard : Prop := ∃ y ∈ held, y.2.1 = x.step ∧ y.2.2 = true
          ((¬all ∨ r.applySent = some x.step) → ∃ t : State, deliverMsg src (.arrive d rank step refused) s = t ∧ HubOnly s t
              ∧ t.outbox = s.outbox ∧ RowNow s t d { r with arrives := held })
          ∧ (all → r.applySent ≠ some x.step → ∀ k : Bool, (k = true ↔ discard) → ∃ (m : State) (y : DomainRow),
              deliverMsg src (.arrive d rank step refused) s = deliverMsg src (.apply d x.step k) m
              ∧ HubOnly s m ∧ RowOf m d y ∧ y.arrives = held ∧ y.applySent = some x.step
              ∧ Posted s m d (otherModules r b) msgApply [d.toNat, x.step.toNat, k.toNat])))
    ∧ (∀ (step : Word) (discard : Bool),
        (x.step ≠ step → deliverMsg src (.apply d step discard) s = s)
        ∧ (x.step = step →
            let es := s.dies.toList.flatMap fun y => y.barn.filter fun e => e.ctx = c && e.w.step = step
            let ws := es.map (·.w)
            let to_ (w : Fin 256) (n : Nat) : List BarnWrite := ws.filter fun e => e.window = w && e.elem = n
            let flawed : Prop := (∃ e ∈ es, e.bad = true)
              ∨ ∃ e ∈ ws, ∃ y, x.windows[e.window] = some y ∧ s.badIn (y.committed + y.elem * e.elem) y.elem = true
            let gives (t : State) : Prop := deliverMsg src (.apply d step discard) s = t
            let replies (k : Bool) (m : State) : Prop :=
              (b.rank = 0 → gives (deliverMsg src (.applied d 0 step k) m))
              ∧ (b.rank ≠ 0 → ∃ t : State, gives t ∧ HubOnly m t
                  ∧ Posted m t d ((r.ids[0]?).map (·.setWidth 10)).toList msgApplied [d.toNat, b.rank, step.toNat, k.toNat])
            let waits (m : State) : Prop := (∃ y ∈ m.hub.sent, y.domain = some d ∧ y.msg.1 = msgConflict) ∨ ∃ y, RowOf m d y ∧ y.lost ≠ []
            let reports (k : Bool) (m : State) : Prop :=
              (¬waits m → replies k m)
              ∧ (waits m → ∃ t : State, gives t ∧ HubOnly m t ∧ t.outbox = m.outbox
                ∧ ∀ y, RowOf m d y → RowNow m t d { y with owed := some (step, k) })
            let freed (m : State) : Prop := ∀ i : DieId, (m.dies[i]).barn = (s.dies[i]).barn.filter fun e => !(e.ctx = c && e.w.step = step)
            (discard = true → ∃ m : State, { m with dies := s.dies } = s ∧ freed m ∧ replies false m)
            ∧ (discard = false → flawed → ∃ m : State, { m with dies := s.dies } = s ∧ freed m ∧ gives (sendFail d m))
            ∧ (discard = false → ¬flawed → ∃ (m : State) (k : Bool), freed m ∧ reports k m ∧ (m.ctx c).step = step
                ∧ (m.ctx c).windows = x.windows
                ∧ (k = true ↔ ∃ w y n, x.windows[w] = some y ∧ y.rule = 0 ∧ ∃ e ∈ to_ w n, ∃ f ∈ to_ w n, e.rank ≠ f.rank)
                ∧ (k = false → m.mem = s.mem ∧ m.cores = s.cores ∧ m.hub = s.hub ∧ m.outbox = s.outbox)
                ∧ (∀ a ∈ (m.ctx c).staged, ∃ w y n i, x.windows[w] = some y ∧ to_ w n ≠ [] ∧ i < y.elem ∧ a.1 = y.committed + y.elem * n + i)
                ∧ (∀ (w : Fin 256) (y : Win) (n v : Nat) (l : List BarnWrite), x.windows[w] = some y → y.rule ≤ 6 →
                    l.Perm (to_ w n) → l.Pairwise Precedes → l ≠ [] → (∀ e ∈ l, e.value.toNat < 2 ^ (8 * y.elem)) →
                    AppliedValue y (memNat s.mem (y.committed + y.elem * n) y.elem) l v →
                    ∀ i, i < y.elem → (y.committed + y.elem * n + i, BitVec.ofNat 8 (v / 256 ^ i)) ∈ (m.ctx c).staged)
                ∧ ∀ w y n e f, x.windows[w] = some y → y.rule = 0 → e ∈ to_ w n → f ∈ to_ w n → e.rank ≠ f.rank →
                    let addr : DWord := y.base + BitVec.ofNat 64 (y.elem * n)
                    (e.rank.toNat / 2 ^ 18 ≠ b.rank → ∀ o station route, (r.ids[e.rank.toNat / 2 ^ 18]?).map (·.setWidth 10) = some o →
                        pathFor s o 0 0 = some (station, route) →
                        ∃ h : PktHdr, MessageHdr s h o msgConflict ∧ h.route = route
                          ∧ .mbohus station h [d.toNat, e.rank.toNat, step.toNat, addr.toNat] ∈ m.outbox)
                    ∧ (∀ z ∈ x.writers, e.rank.toNat / 2 ^ 18 = b.rank → elemAt s c addr = some (w, n) →
                        z.source = e.rank → z.step = step → z.window = w → z.elem = n →
                        uidLives s (placeOf s z.wave).1 (placeOf s z.wave).2 z.wave = true →
                        ⟨e.rank, z.wave, z.slot, step, addr⟩ ∈ (m.ctx c).conflicts))))
    ∧ (∀ (rank : BitVec 28) (step : Word) (addr : DWord),
        let mine (w : Fin 256) (n : Nat) (z : WinWriter) : Bool := z.source = rank && z.step = step && z.window = w && z.elem = n
        let lives (u : Nat) : Prop := uidLives s (placeOf s u).1 (placeOf s u).2 u = true
        (elemAt s c addr = none → deliverMsg src (.conflict c rank step addr) s = s)
        ∧ ∀ w n, elemAt s c addr = some (w, n) → ∃ t : State, deliverMsg src (.conflict c rank step addr) s = t
            ∧ (∀ z ∈ x.writers, mine w n z = true → lives z.wave → ⟨rank, z.wave, z.slot, step, addr⟩ ∈ (t.ctx c).conflicts)
            ∧ ((∀ z ∈ x.writers, mine w n z = true → lives z.wave) → { t with ctxs := s.ctxs } = s ∧ (∀ y, y ≠ c → t.ctx y = s.ctx y)
                ∧ ∃ l, t.ctx c = { x with conflicts := x.conflicts ++ l } ∧ l.Nodup
                  ∧ ∀ y, y ∈ l ↔ ∃ z ∈ x.writers, mine w n z = true ∧ y = ⟨rank, z.wave, z.slot, step, addr⟩)
            ∧ ∀ z ∈ x.writers, mine w n z = true → ¬lives z.wave →
                (∀ y ∈ x.writers, mine w n y = true → y.wave = z.wave ∧ y.slot = z.slot) → RecordIn s t c 4 0x0F step.toNat addr.toNat)
    ∧ (∀ (rank : BitVec 16) (step : Word) (conflict : Bool),
        (b.rank ≠ 0 ∨ x.step ≠ step → deliverMsg src (.applied d rank step conflict) s = s)
        ∧ (b.rank = 0 → x.step = step →
            let held := (rank.toNat, step, conflict) :: r.applied.filter fun y => !(y.1 = rank.toNat && y.2.1 = step)
            let all : Prop := ∀ i, i < b.p → ∃ y ∈ held, y.1 = i ∧ y.2.1 = step
            let over_ : Prop := ∃ y ∈ r.arrives, y.2.1 = step ∧ y.2.2 = true
            let clash : Prop := ∃ y ∈ held, y.2.1 = step ∧ y.2.2 = true
            (¬all → ∃ t : State, deliverMsg src (.applied d rank step conflict) s = t ∧ HubOnly s t ∧ t.outbox = s.outbox
              ∧ RowNow s t d { r with applied := held })
            ∧ (all → ∀ o : BitVec 2, (over_ → o = 2) → (¬over_ → clash → o = 1) → (¬over_ → ¬clash → o = 0) → ∃ m : State,
                deliverMsg src (.applied d rank step conflict) s = deliverMsg src (.release d step o (BitVec.ofNat 64 s.hub.ptp)) m
                ∧ HubOnly s m ∧ Posted s m d (otherModules r b) msgRelease [d.toNat, step.toNat, o.toNat, (BitVec.ofNat 64 s.hub.ptp).toNat])))
    ∧ ∀ (step : Word) (o : BitVec 2) (stamp : DWord),
        (x.step ≠ step ∨ b.stopped = true → deliverMsg src (.release d step o stamp) s = s)
        ∧ (x.step = step → b.stopped = false →
            let due := x.conflicts.filter fun y => y.step = step
            ∃ t : State, deliverMsg src (.release d step o stamp) s = t ∧ (t.ctx c).step = step + 1 ∧ (t.ctx c).outcome = o
              ∧ (t.ctx c).arrivedSent = false ∧ (t.ctx c).staged = [] ∧ (t.ctx c).pendWins = [] ∧ (t.ctx c).pendOvf = []
              ∧ (∀ a y z, x.pendOvf.getLast? = some (a, y, z) → (t.ctx c).domain = some { b with ovfBase := a, ovfLen := y })
              ∧ (x.pendOvf = [] → (t.ctx c).domain = some b)
              ∧ (Plain s → due = [] → (x.staged.map (·.1)).Nodup → (∀ y ∈ x.staged, memRead t.mem y.1 = y.2)
                  ∧ ∀ a, a ∉ x.staged.map (·.1) → memRead t.mem a = memRead s.mem a)
              ∧ ((x.pendWins.map fun y => y.1 % 256).Nodup → ∀ w : Fin 256,
                  (∀ n g q, (n, g, q) ∈ x.pendWins → n % 256 = w.val → (t.ctx c).windows[w] = g)
                  ∧ ((∀ y ∈ x.pendWins, y.1 % 256 ≠ w.val) → (t.ctx c).windows[w] = x.windows[w]))
              ∧ (∀ n g y p, (n, g, y) ∈ x.pendWins → y.sem = some p → (.phys p, 1) ∈ (t.core y.core).addsNext)
              ∧ (∀ a n y p, (a, n, y) ∈ x.pendOvf → y.sem = some p → (.phys p, 1) ∈ (t.core y.core).addsNext)
              ∧ (∀ k w, (s.wave k w).live = true → (s.wave k w).ctx = c → (t.wave k w).ahead = false
                  ∧ (due = [] → t.wave k w = { s.wave k w with ahead := false, arrived := none }))
              ∧ (∀ k w, (s.wave k w).live = false ∨ (s.wave k w).ctx ≠ c → due = [] → t.wave k w = s.wave k w)
              ∧ (∀ k w, ∀ y ∈ due, (s.wave k w).live = true → (s.wave k w).uid = y.wave → (s.wave k w).ended = false →
                  (∀ j v, (s.wave j v).live = true → (s.wave j v).uid = y.wave → j = k ∧ v = w) →
                  ∀ i : RecId, ((s.wave k w).splits[i]).state ≠ .free →
                    ∃ p ∈ ((t.wave k w).splits[i]).pend, p.code = .stepConflict ∧ p.addr = Lanes.all y.addr)
              ∧ ∀ f n, f ∈ x.swout → f.instant = some n → n ≤ stamp.toNat → { f with stopping := true } ∈ (t.ctx c).swout)

/-- A FORM counts when it agrees with the directory row, and the domain is formed at the step the FORMs carry once every rank's
has come; ARRIVEs that came before that close its boundary. A window write enters the Barn of the window's home die, then the
overflow area, and is refused when neither takes it; its source hears of it and completes the store. READ returns committed bytes,
which reach the lane that asked. A peer is silent after eight heartbeat intervals without a message or when a message to it has
failed: FAIL goes to every participant, and a participant that gets it ends the waves of the bound context, discards the open
steps and keeps binding, windows and step. Every message takes effect in its turn and is acknowledged (R166, R167, R173, R174,
R447, R449, R451, R460, R463-R465, R468, R487). Choices of the model here, no rule of the spec: log entries 67, 82, 83, 132, 134. -/
def Obligations.PodMessages : Prop :=
  (∀ (d step : Word) (p rank : BitVec 16) (entries : List BarnWrite) (c : CtxId) (e : BarnWrite) (refused : Bool) (w : Fin 256)
      (off n tag : Nat) (data : List Byte),
    Receives (fun h => .form h d p rank step) (.form d p rank step) ∧ Receives (fun h => .write h d entries) (.write d entries)
    ∧ Receives (fun h => .wack h c ⟨e, refused⟩) (.wack c e refused)
    ∧ Receives (fun h => .read h d w off n (.request step tag)) (.read d (.request w off n step tag))
    ∧ Receives (fun h => .read h d w off n (.answer tag data)) (.read d (.answer tag data))
    ∧ Receives (fun h => .heartbeat h d) .heartbeat ∧ Receives (fun h => .fail h ⟨d, step⟩ rank) (.fail d rank))
  ∧ ∀ (s : State) (d : Word) (src : BitVec 10),
    (deliverMsg src .heartbeat s = s ∧ heard src s = { s with hub := { s.hub with rows := s.hub.rows.map fun x =>
        { x with peers := x.peers.map fun y => if y.1 = src then (src, s.cycle) else y } } })
    ∧ (∀ (p rank : BitVec 16) (step : Word),
        let form := deliverMsg src (.form d p rank step) s
        ((∀ r, ¬RowOf s d r) → form = s)
        ∧ ∀ r, RowOf s d r →
            let good : Prop := r.p = p.toNat ∧ rank.toNat < p.toNat ∧ (r.ids[rank.toNat]?).map (·.setWidth 10) = some src
            let forms := (p.toNat, rank.toNat, src, step) :: r.forms.filter fun f => f.2.1 ≠ rank.toNat
            let all : Prop := ∀ i, i < r.p → ∃ f ∈ forms, f.2.1 = i
            (¬good → HubOnly s form ∧ form.outbox = s.outbox ∧ RowNow s form d { r with mismatched := r.mismatched + 1 })
            ∧ (good → ((∀ c b, BoundTo s d c b → b.formed = true) ∨ ¬all) → HubOnly s form ∧ form.outbox = s.outbox
                ∧ RowNow s form d { r with forms := forms })
            ∧ ∀ c b, good → BoundTo s d c b → b.formed = false → all → ∃ (t : State) (y : DomainRow) (n : Word),
                { t with hub := s.hub, ctxs := s.ctxs } = s
                ∧ (∀ x, x ≠ c → t.ctx x = s.ctx x)
                ∧ t.ctx c = { s.ctx c with domain := some { b with formed := true, stopped := false }, step := n }
                ∧ (∃ f ∈ forms, f.2.2.2 = n) ∧ (∀ f ∈ forms, f.2.2.2.toNat ≤ n.toNat)
                ∧ RowNow s t d y ∧ y.forms = forms ∧ y.lost = [] ∧ y.arrives = r.arrives ∧ y.applySent = r.applySent
                ∧ y.peers = ((r.ids.map fun m => m.setWidth 10).filter fun m => m ≠ s.hub.module).map (fun m => (m, s.cycle))
                ∧ let closes : Prop := b.rank = 0 ∧ r.applySent ≠ some n ∧ ∀ i, i < b.p ∨ i = 0 → ∃ z ∈ r.arrives, z.1 = i ∧ z.2.1 = n
                  (¬closes → form = t)
                  ∧ (closes → ∀ k : Bool, (k = true ↔ ∃ z ∈ r.arrives, z.2.1 = n ∧ z.2.2 = true) → ∃ (u : State) (z : DomainRow),
                      form = deliverMsg src (.apply d n k) u ∧ HubOnly t u ∧ RowOf u d z ∧ z.applySent = some n
                      ∧ Posted t u d (otherModules r b) msgApply [d.toNat, n.toNat, k.toNat]))
    ∧ (∀ (entries : List BarnWrite),
        (((∀ c b, ¬BoundTo s d c b) ∨ (∃ c b, BoundTo s d c b ∧ b.stopped = true) ∨ 256 < 16 * entries.length) →
          deliverMsg src (.write d entries) s = s)
        ∧ ∀ c b, BoundTo s d c b → b.stopped = false → 16 * entries.length ≤ 256 → ∃ f : Nat → State, f 0 = s
            ∧ (∀ i e, entries[i]? = some e → exec (.barnEntry c e) (f i) = .next (f (i + 1)))
            ∧ deliverMsg src (.write d entries) s = f entries.length)
    ∧ (∀ (w : Fin 256) (off n : Nat) (step : Word) (tag : Nat),
        let ask : PodMsg := .read d (.request w off n step tag)
        ((∀ c b, ¬BoundTo s d c b) → deliverMsg src ask s = s)
        ∧ ∀ c b, BoundTo s d c b →
            ((s.ctx c).windows[w] = none → deliverMsg src ask s = s)
            ∧ ∀ y, (s.ctx c).windows[w] = some y → ∃ (t : State) (l : List Nat), deliverMsg src ask s = t ∧ HubOnly s t
                ∧ Posted s t d [src] msgReadData (d.toNat :: w.val :: off :: n :: tag :: l) ∧ l.length = n
                ∧ ∀ i, i < n →
                    ((step.toNat ≤ (s.ctx c).step.toNat ∨ ∀ x ∈ (s.ctx c).staged, x.1 ≠ y.committed + off + i) →
                      l[i]? = some (memRead s.mem (y.committed + off + i)).toNat)
                    ∧ ∀ x, (s.ctx c).step.toNat < step.toNat → (s.ctx c).staged.find? (fun x => x.1 = y.committed + off + i) = some x →
                        l[i]? = some x.2.toNat)
    ∧ (∀ (tag : Nat) (data : List Byte),
        let asked (o : MemOp) : Bool := o.id = tag / 32 && o.kind = .winLoad && o.sent
        let answer : PodMsg := .read d (.answer tag data)
        ((∀ k, ∀ o ∈ (s.core k).ops, asked o = false) → deliverMsg src answer s = s)
        ∧ ∀ k, (∃ o ∈ (s.core k).ops, asked o = true) → (∀ j, j ≠ k → ∀ o ∈ (s.core j).ops, asked o = false) →
            let l : Lane := Fin.ofNat 32 tag
            ∃ t : State, deliverMsg src answer s = t ∧ { t with cores := s.cores } = s ∧ (∀ j, j ≠ k → t.core j = s.core j)
              ∧ t.core k = { s.core k with ops := (s.core k).ops.map fun o => if asked o = true
                  then { o with got := o.got ||| oneLane l, data := o.data.set l (BitVec.ofNat 128 (leNat data)) } else o })
    ∧ (∀ (c : CtxId) (e : BarnWrite),
        let k := rankCore e.rank
        let mine (o : MemOp) : Bool := o.kind = .winStore && o.sent && o.ctx = c && o.rank = e.rank && o.tag = e.step && o.seqN = e.seq.toNat / 32
        let acked (t : State) (refused : Bool) : Prop :=
          (∀ o, (s.core k).ops.find? mine = some o → ((s.core k).ops.map (·.id)).Nodup →
            let l : Lane := Fin.ofNat 32 e.seq.toNat
            let left := o.len.set l (o.len[l] - 1)
            let last : Prop := ∀ j : Lane, left[j] = 0
            (last → o.failed = 0 → (∀ x ∈ (t.core k).ops, x.id ≠ o.id) ∧ ∀ p, o.sem = some p → (.phys p, 1) ∈ (t.core k).addsNext)
            ∧ (¬last → { o with len := left } ∈ (t.core k).ops)
            ∧ (refused = true → (o.wave, e.step) ∈ (t.ctx c).refusedStep)
            ∧ (refused = true → uidLives s k o.slot o.wave = true → waveHere s k o.slot o.wave = true → (s.wave k o.slot).ahead = true →
                e.step = (s.ctx c).step →
                ∀ i : RecId, ((s.wave k o.slot).splits[i]).state ≠ .free → ∃ p ∈ ((t.wave k o.slot).splits[i]).pend, p.code = .stepOverflow))
          ∧ ∀ y z r, (s.core k).ops.find? mine = none →
              s.copies.find? (fun x => x.ctx = c && x.rank = e.rank && x.tag = e.step && x.seqN = e.seq.toNat / 32) = some y →
              s.copy? y.id = some z → z.reqs[e.order / 2 ^ 31]? = some r → ∃ z', t.copy? y.id = some z'
                ∧ z'.reqs[e.order / 2 ^ 31]? = some { r with acks := r.acks.tail, done := r.done + r.acks.headD 0 }
                ∧ ∀ p, r.failed = none → r.sem = some p → (.phys p, (r.acks.headD 0 : Int)) ∈ (t.core z.core).addsNext
        (∀ refused : Bool, (deliverMsg src (.wack c e refused) s).dies = s.dies ∧ acked (deliverMsg src (.wack c e refused) s) refused)
        ∧ ((s.ctx c).domain = none → exec (.barnEntry c e) s = .next s)
        ∧ ∀ (b : Domain) (refused : Bool), (s.ctx c).domain = some b →
            let full (y : Win) : Prop := 1048576 ≤ ((s.dies[y.home]).barn.filter fun x => !x.overflow).length
            let spilled : Nat := (s.dies.toList.flatMap fun x => x.barn.filter fun y => y.overflow && y.ctx = c).length
            let room : Prop := spilled < b.ovfLen / 16
            let there : Prop := ∃ pa, ringAddr s c (b.ovfBase + BitVec.ofNat 64 (16 * spilled)) true true = .ok pa
            (refused = true ↔ ∀ y, (s.ctx c).windows[e.window] = some y → full y ∧ ¬(room ∧ there)) →
            ∃ t : State, exec (.barnEntry c e) s = .next t
              ∧ (refused = true → t.dies = s.dies)
              ∧ (refused = false → ∀ y, (s.ctx c).windows[e.window] = some y → ∃ o : Bool, (o = true ↔ full y)
                  ∧ ∀ i : DieId, t.dies[i] = if i = y.home then { s.dies[i] with barn := (s.dies[i]).barn ++ [⟨c, e, y.home, o, false⟩] } else s.dies[i])
              ∧ (e.rank.toNat / 2 ^ 18 = b.rank → acked t refused)
              ∧ (e.rank.toNat / 2 ^ 18 ≠ b.rank →
                  (there → { t with hub := s.hub, outbox := s.outbox, dies := s.dies } = s)
                  ∧ Posted s t b.id (rankModule s b.id (e.rank.toNat / 2 ^ 18)).toList msgWack
                      [b.id.toNat, e.window.val, e.elem, e.rank.toNat, e.step.toNat, e.seq.toNat, e.order, refused.toNat]))
    ∧ (∀ (peer : BitVec 10),
        let silent (c : CtxId) (b : Domain) (r : DomainRow) : Prop := BoundTo s d c b ∧ RowOf s d r ∧ b.formed = true
          ∧ ((∃ y ∈ r.peers, y.1 = peer ∧ y.2 + 8 * max 1 (65536 * s.clockKhz / 1000000) ≤ s.cycle) ∨ peer ∈ r.lost)
        ((∀ c b r, ¬silent c b r) → exec (.heartbeatLoss d peer) s = .next s)
        ∧ (∀ c b r, silent c b r → exec (.heartbeatLoss d peer) s = .next (sendFail d s)))
    ∧ (∀ c b r, BoundTo s d c b → RowOf s d r → b.rank < 1024 → ∃ m : State, HubOnly s m
          ∧ sendFail d s = deliverMsg src (.fail d (BitVec.ofNat 16 b.rank)) m
          ∧ Posted s m d (otherModules r b) msgFail [d.toNat, (s.ctx c).step.toNat, b.rank])
    ∧ ∀ (rank : BitVec 16),
        (((∀ c b, ¬BoundTo s d c b) ∨ ∃ c b, BoundTo s d c b ∧ b.stopped = true) → deliverMsg src (.fail d rank) s = s)
        ∧ ∀ c b, BoundTo s d c b → b.stopped = false → (s.groups.map (·.id)).Nodup → ∃ t : State, deliverMsg src (.fail d rank) s = t
            ∧ (t.ctx c).domain = some { b with formed := false, stopped := true } ∧ (t.ctx c).step = (s.ctx c).step
            ∧ (t.ctx c).windows = (s.ctx c).windows ∧ (t.ctx c).staged = [] ∧ (t.ctx c).conflicts = [] ∧ (t.ctx c).refusedStep = []
            ∧ (t.ctx c).started = false ∧ (t.ctx c).arrivedSent = false
            ∧ (∀ i : DieId, t.dies[i] = { s.dies[i] with barn := (s.dies[i]).barn.filter fun e => e.ctx ≠ c })
            ∧ (∀ k, ∀ o ∈ (t.core k).ops, o.ctx = c → o.sent = false)
            ∧ (∀ x ∈ t.hub.sent, x.domain = some d → x.msg.1 = msgFail)
            ∧ (∀ l ∈ t.copies, l.ctx = c → ∀ q ∈ l.reqs, q.dstKind = 0 → q.acks = [])
            ∧ (∀ n g, s.group? n = some g → (g.ctx ≠ c → t.group? n = some g)
                ∧ (g.ctx = c → (∃ h, t.group? n = some h ∧ h.fatal = true ∧ h.ended = List.range g.w)
                    ∧ ∀ w ∈ g.slots, (s.wave g.core w).live = true → (s.wave g.core w).group = n → (s.wave g.core w).kind ≠ .stint →
                        (t.wave g.core w).exited = fullMask ∧ ∀ q : RecId, ((t.wave g.core w).splits[q]).state = .free))
            ∧ (∀ k w, (t.wave k w).live = true → (t.wave k w).kind = .stint → (t.wave k w).ctx ≠ c)
            ∧ (∀ e ∈ t.grids, e.ctx = c → e.failed = true) ∧ t.grids.map (·.id) = s.grids.map (·.id)
            ∧ (∀ (q : QueueId) (n : Word) (p : Packet), (s.queues[q]).ctx = c → s.packet? q n = some p → ∃ p', t.packet? q n = some p'
                ∧ (p.op = 1 → p.state ≠ .done → p' = { p with state := .done, status := 8 }) ∧ (p.op ≠ 1 ∨ p.state = .done → p' = p))
            ∧ (∀ r, RowOf s d r → RowNow s t d { r with forms := [], arrives := [], applied := [], applySent := none, peers := [], lost := [], owed := none })
            ∧ RecordIn s t 0 11 0 d.toNat (s.ctx c).step.toNat

/-! ### The outside of the package -/

/-- A data packet accepted before is only acknowledged again; an unordered one is written on arrival; ordered ones are written in
sequence, the others held. An acknowledgement ends a packet: copied bytes count at their semaphore, or their request fails with the
cause. A packet not acknowledged in time goes out again, with its number, on the next path; after four attempts its flow fails. The
grandmaster's times correct the hub's: a forward correction steps it, a backward one is slewed. The host reads and writes HBM and
the words of the register window; an invalid access of the window reads all ones (R343, R456-R460, R462, R463, R469, R479).
Choices of the model here, no rule of the spec: log entries 62, 63, 64, 84, 103, 104, 117, 128, 132. -/
def Obligations.PodPackets : Prop :=
  (∀ (station : Fin 16) (dom : Byte) (m : PtpMsg), Receives (fun h => .ptpEventMessage ⟨h, station, dom, m⟩) (.ptp station dom m))
  ∧ ∀ (s : State),
    (∀ (src : BitVec 10) (ctx : CtxId) (flow : Byte) (ordered : Bool) (seq : Word) (dst : Nat) (data : List Byte), data ≠ [] →
      let i : Instr := .ualinkPacketArrival src ctx flow ordered seq dst data
      let p : HeldPacket := ⟨src, ctx, flow, seq, dst, data⟩
      let key := (src, ctx, flow, seq)
      let u := heard src s
      let mine (x : HeldPacket) (n : Word) : Prop := x.src = src ∧ x.ctx = ctx ∧ x.flow = flow ∧ x.seq = n
      (256 < data.length → exec i s = .next s)
      ∧ (data.length ≤ 256 →
        (key ∈ s.hub.accepted → (p ∈ s.hub.held → exec i s = .next u)
          ∧ (p ∉ s.hub.held → ∃ t : State, exec i s = .next t ∧ AckTo u t src ctx flow seq 0))
        ∧ (key ∉ s.hub.accepted → ordered = false → ∃ t : State, exec i s = .next t
            ∧ Delivered { u with hub := { u.hub with accepted := key :: s.hub.accepted } } t p)
        ∧ (key ∉ s.hub.accepted → ordered = true → ∃ (t : State) (n : Nat) (f : Nat → State) (x : Nat → HeldPacket), exec i s = .next t
            ∧ f 0 = s ∧ { t with hub := s.hub } = f n ∧ (∀ j, j < n → Delivered (f j) (f (j + 1)) (x j))
            ∧ (∀ j, j < n → x j ∈ s.hub.held ++ [p] ∧ mine (x j) (flowNext s src ctx flow + BitVec.ofNat 32 j))
            ∧ flowNext t src ctx flow = flowNext s src ctx flow + BitVec.ofNat 32 n
            ∧ (∀ y ∈ t.hub.held, y ∈ s.hub.held ++ [p] ∧ ¬mine y (flowNext t src ctx flow))
            ∧ (∀ y ∈ s.hub.held ++ [p], y ∈ t.hub.held ∨ ∃ j, j < n ∧ x j = y)
            ∧ ∀ m c g, (m, c, g) ≠ (src, ctx, flow) → flowNext t m c g = flowNext s m c g)))
    ∧ (∀ (src : BitVec 10) (ctx : CtxId) (flow : Byte) (ordered : Bool) (seq : Word) (cause : Nat),
        let i : Instr := .ualinkPacketArrival src ctx flow ordered seq cause []
        let u := heard src s
        let find := s.hub.sent.find? fun x => x.dst = src && x.seq = seq
          && (if cause = 1 then x.copy.isNone else x.copy.isSome && x.ctx = ctx && x.flow = flow)
        (find = none → exec i s = .next u)
        ∧ ∀ x, find = some x → ∃ m : State, m = { u with hub := { u.hub with sent := s.hub.sent.erase x } }
            ∧ (∀ id n, x.copy = some (id, n) → ∃ t : State, exec i s = .next t
                ∧ ∀ l r, s.copy? id = some l → (s.copies.map (·.id)).Nodup → l.reqs[n]? = some r →
                    let now (y : CopyReq) : Prop := (∀ z ∈ t.copies, z.id = id → z.reqs[n]? = some y)
                      ∧ (y.acks ≠ [] → ∃ z ∈ t.copies, z.id = id)
                    (cause = 0 → { t with copies := s.copies, cores := s.cores } = m
                      ∧ now { r with acks := r.acks.tail, done := r.done + r.acks.headD 0 }
                      ∧ (∀ q, r.failed = none → r.sem = some q →
                          (t.core l.core).addsNext = (s.core l.core).addsNext ++ [(.phys q, (r.acks.headD 0 : Int))])
                      ∧ (r.failed ≠ none ∨ r.sem = none → t.cores = s.cores))
                    ∧ (cause ≠ 0 → now { r with acks := r.acks.tail, failed := some cause }
                      ∧ RecordIn s t l.ctx 3 TrapCode.copyError.code.toNat l.off n))
            ∧ (x.copy = none → x.domain = none → exec i s = .next m)
            ∧ ∀ d, x.copy = none → x.domain = some d →
                let waits : Prop := (∃ y ∈ m.hub.sent, y.domain = some d ∧ y.msg.1 = msgConflict) ∨ ∃ r, RowOf m d r ∧ r.lost ≠ []
                ((waits ∨ ∀ r, RowOf m d r → r.owed = none) → exec i s = .next m)
                ∧ ∀ c b r step k, ¬waits → RowOf m d r → r.owed = some (step, k) → BoundTo s d c b → ∃ v : State, HubOnly m v ∧ v.outbox = s.outbox
                    ∧ RowNow m v d { r with owed := none }
                    ∧ (b.rank = 0 → exec i s = .next (deliverMsg src (.applied d 0 step k) v))
                    ∧ (b.rank ≠ 0 → ∃ t : State, exec i s = .next t ∧ HubOnly v t
                        ∧ Posted v t d ((r.ids[0]?).map (·.setWidth 10)).toList msgApplied [d.toNat, b.rank, step.toNat, k.toNat]))
    ∧ (∀ (dst : BitVec 10) (ctx : CtxId) (flow : Byte) (seq : Word),
        let i : Instr := .packetRetryTimeout dst ctx flow seq
        let find := s.hub.sent.find? fun x => x.dst = dst && x.ctx = ctx && x.flow = flow && x.seq = seq && x.due ≤ s.cycle
        (find = none → exec i s = .next s)
        ∧ ∀ x, find = some x →
            (∀ station route, x.attempt < 3 → pathFor s dst flow (x.attempt + 1) = some (station, route) →
              let h (kind : Nat) : PktHdr := ⟨route, s.hub.module, dst, ctx, flow, kind, seq⟩
              exec i s = .next { s with
                hub := { s.hub with sent := s.hub.sent.map fun y =>
                  if y = x then { y with attempt := y.attempt + 1, due := s.cycle + 16000 * s.clockKhz / 1000000 } else y },
                outbox := s.outbox ++ [if x.copy.isSome = true then .packet station (h pktData) x.addr x.data
                  else .mbohus station (h x.msg.1) x.msg.2] })
            ∧ (3 ≤ x.attempt ∨ pathFor s dst flow (x.attempt + 1) = none → ∃ t : State, exec i s = .next t
                ∧ t.hub.sent = s.hub.sent.erase x ∧ t.outbox = s.outbox
                ∧ (∀ id n l r, x.copy = some (id, n) → s.copy? id = some l → (s.copies.map (·.id)).Nodup → l.reqs[n]? = some r →
                    (∀ z ∈ t.copies, z.id = id → z.reqs[n]? = some { r with acks := r.acks.tail, failed := some 4 })
                    ∧ (r.acks.tail ≠ [] → ∃ z ∈ t.copies, z.id = id)
                    ∧ RecordIn s t l.ctx 3 TrapCode.copyError.code.toNat l.off n)
                ∧ ∀ d, x.copy = none → x.domain = some d → HubOnly s t ∧ ∀ r ∈ t.hub.rows, r.domain = d → dst ∈ r.lost))
    ∧ (∀ (src : BitVec 10) (station : Fin 16) (dom : Byte),
        let after (m : PtpMsg) : State := deliverMsg src (.ptp station dom m) s
        let clock (h : Hub) : State := { s with hub := h }
        let mine : Prop := src = s.hub.grandmaster.setWidth 10 ∧ dom = s.hub.ptpDomain ∧ ∃ route, pathFor s src 0 0 = some (station.val, route)
        (¬mine → ∀ m, after m = s)
        ∧ (mine → after .sync = clock { s.hub with ptpSync := some s.hub.ptp, ptpFollow := none, ptpReq := none })
        ∧ (mine → ∀ t1 : Nat,
            (s.hub.ptpSync = none ∨ s.hub.ptpFollow ≠ none → after (.followUp t1) = s)
            ∧ (s.hub.ptpSync ≠ none → s.hub.ptpFollow = none → HubOnly s (after (.followUp t1))
                ∧ (after (.followUp t1)).hub.ptpSync = s.hub.ptpSync ∧ (after (.followUp t1)).hub.ptpFollow = some t1
                ∧ (after (.followUp t1)).hub.ptpReq = some s.hub.ptp ∧ (after (.followUp t1)).hub.ptp = s.hub.ptp
                ∧ ∃ h : PktHdr, MessageHdr s h src msgDelayReq
                  ∧ (after (.followUp t1)).outbox = s.outbox ++ [.mbohus station.val h [s.hub.ptpDomain.toNat]]))
        ∧ (mine → ∀ t4 : Nat,
            (s.hub.ptpSync = none ∨ s.hub.ptpFollow = none ∨ s.hub.ptpReq = none → after (.delayResp t4) = s)
            ∧ ∀ t2 t1 t3 : Nat, s.hub.ptpSync = some t2 → s.hub.ptpFollow = some t1 → s.hub.ptpReq = some t3 → ∀ offset : Int,
                (2 * offset = (t1 - t2 : Int) + (t4 - t3) ∨ 2 * offset + 1 = (t1 - t2 : Int) + (t4 - t3)) → ∃ h : Hub,
                after (.delayResp t4) = clock h ∧ (h.locked = true ↔ -100 ≤ offset ∧ offset ≤ 100)
                ∧ (0 ≤ offset → (h.ptp : Int) = s.hub.ptp + offset ∧ h.slew = 0)
                ∧ (offset < 0 → h.ptp = s.hub.ptp ∧ (h.slew : Int) = -offset)
                ∧ h.ptpSync = none ∧ h.ptpFollow = none ∧ h.ptpReq = none))
    ∧ ∀ (link : Fin 2),
        let serves : Prop := s.hub.halted = false ∧ (link = 0 ∨ s.hub.x8 = true)
        (∀ (addr n : Nat),
          ((0xC000000000 < addr + n ∨ ¬serves) → exec (.cxlMemRead ⟨link, addr⟩ n) s = .next s)
          ∧ (addr + n ≤ 0xC000000000 → serves → ∃ l : List Byte,
              exec (.cxlMemRead ⟨link, addr⟩ n) s = .next { s with outbox := s.outbox ++ [.bytes (0x20000 + link.val) l] }
              ∧ (s.badIn addr n = false → l.length = n ∧ ∀ i, i < n → l.getD i 0 = memRead s.mem (addr + i))
              ∧ (s.badIn addr n = true → l = [])))
        ∧ (∀ (addr : Nat) (data : List Byte),
            ((0xC000000000 < addr + data.length ∨ ¬serves) → exec (.cxlMemWrite ⟨link, addr⟩ data) s = .next s)
            ∧ (addr + data.length ≤ 0xC000000000 → serves → ∃ t : State, exec (.cxlMemWrite ⟨link, addr⟩ data) s = .next t
                ∧ { t with mem := s.mem, zeroLines := s.zeroLines, bad := s.bad, releases := s.releases, cores := s.cores, outbox := s.outbox } = s
                ∧ t.outbox = s.outbox ++ [.bytes (0x20002 + link.val) []]
                ∧ (Plain s → t.cores = s.cores ∧ ∀ a, memRead t.mem a
                    = if addr ≤ a ∧ a < addr + data.length then data.getD (a - addr) 0 else memRead s.mem a)))
        ∧ (∀ (offset size : Nat) (data : Option (List Byte)), ¬serves → exec (.bar0InvalidAccess ⟨link, offset, size⟩ data) s = .next s)
        ∧ (serves →
            let table (offset : Nat) (q : QueueId) (j : Nat) : Prop := j < 4 ∧ offset = 0x8000 + 16 * q.val + 4 * j
            let reg (offset : Nat) (q : QueueId) (j : Nat) : Prop := j < 4 ∧ offset = 16 * q.val + 4 * j
            let there (offset : Nat) : Prop := (∃ q j, reg offset q j ∨ table offset q j) ∨ offset = 0x9000 ∨ offset = 0x9004
            let reads (offset size : Nat) (l : List Byte) : Prop :=
              exec (.bar0InvalidAccess ⟨link, offset, size⟩ none) s = .next { s with outbox := s.outbox ++ [.bytes (link.val * 0x10000 + offset) l] }
            let writes (offset : Nat) (l : List Byte) (t : State) : Prop := exec (.bar0InvalidAccess ⟨link, offset, 4⟩ (some l)) s = .next t
            let word (n : Nat) (l : List Byte) : Prop := l.length = 4 ∧ leNat l = n
            (∀ offset size, size ≠ 4 ∨ ¬there offset → reads offset size (List.replicate size 0xFF))
            ∧ (∀ offset size l, size ≠ 4 ∨ l.length ≠ 4 ∨ ¬there offset →
                exec (.bar0InvalidAccess ⟨link, offset, size⟩ (some l)) s = .next s)
            ∧ (∀ offset q j, reg offset q j → (∃ l, reads offset 4 l ∧ word ((readReg s (.queue q) (3 + j)).toNat % 2 ^ 32) l)
                ∧ ∀ v : Word, ∀ l, word v.toNat l →
                    (j = 0 → exec (.bar0InvalidAccess ⟨link, offset, 4⟩ (some l)) s = exec (.hostqDoorbell q v link) s)
                    ∧ (j ≠ 0 → writes offset l s))
            ∧ (∀ offset q j, table offset q j →
                let x := s.queues[q]
                let vector := x.msixAddr.toNat + 2 ^ 64 * x.msixData.toNat + 2 ^ 96 * x.msixMask.toNat
                (∃ l, reads offset 4 l ∧ word (vector / 2 ^ (32 * j) % 2 ^ 32) l)
                ∧ ∀ v : Word, ∀ l, word v.toNat l → ∃ (t : State) (y : HostQ), writes offset l t ∧ { t with queues := s.queues, outbox := s.outbox } = s
                    ∧ (∀ z : QueueId, t.queues[z] = if z = q then y else s.queues[z])
                    ∧ { y with msixAddr := x.msixAddr, msixData := x.msixData, msixMask := x.msixMask, msix := x.msix } = x
                    ∧ (y.msixAddr.toNat = if j = 0 then x.msixAddr.toNat / 2 ^ 32 * 2 ^ 32 + v.toNat
                        else if j = 1 then v.toNat * 2 ^ 32 + x.msixAddr.toNat % 2 ^ 32 else x.msixAddr.toNat)
                    ∧ (y.msixData = if j = 2 then v else x.msixData) ∧ (y.msixMask = if j = 3 then v.getLsbD 0 else x.msixMask)
                    ∧ (j = 3 ∧ v.getLsbD 0 = false ∧ x.msix = true → y.msix = false
                        ∧ t.outbox = s.outbox ++ [.msix q (if s.hub.x8 = true then x.link else 0) x.msixAddr x.msixData])
                    ∧ (¬(j = 3 ∧ v.getLsbD 0 = false ∧ x.msix = true) → y.msix = x.msix ∧ t.outbox = s.outbox))
            ∧ (∀ n l, n < 2 → l.length = 4 → writes (0x9000 + 4 * n) l s)
            ∧ ∀ n : Nat, n < 2 → ∃ l, reads (0x9000 + 4 * n) 4 l
                ∧ ∀ q : QueueId, q.val / 32 = n → (leNat l).testBit (q.val % 32) = (s.queues[q]).msix)

/-- The management commands: each answers a status and its data; a bad field or length is status 1 and a forbidden state status 2,
and then nothing changes; a halted module answers only GET_ID. The clock stays between 2.4 and 3.0 GHz; a retirement and a scrub finding
enter a kind-10 record in context 0; a module reset gives the state after boot under firmware's layout, revision and link mode
with retired units retired, or a halted module when a boot step fails (R12, R17, R461, R462, R464, R470, R480-R482, R491). Choices of the model
here, no rule of the spec: log entries 7, 105, 106, 107, 108, 109. -/
def Obligations.ManagementAndReset : Prop :=
  ∀ (s : State),
    let answers (i : Instr) (u : State) (command : Nat) (l : List Nat) : Prop := exec i s = .next { u with outbox := u.outbox ++ [.nums command l] }
    let served (i : Instr) (command : Nat) (p : Prop) : Prop :=
      (s.hub.halted = true → answers i s command [2]) ∧ (s.hub.halted = false → p)
    let hub (h : Hub) : State := { s with hub := h }
    let badly (i : Instr) (command : Nat) : Prop := served i command (answers i s command [1])
    (badly (.setEndpointId none) 257 ∧ badly (.getMctpVersionSupport none) 260 ∧ badly (.setId none) 2
      ∧ (∀ x, badly (.ptpConfig none x) 5 ∧ badly (.ptpConfig (x.map fun y : Byte => y.setWidth 16) none) 5) ∧ badly (.haltRelease none) 7)
    ∧ (s.hub.request ≠ 0 → badly .getEndpointId 258 ∧ badly .getMessageTypeSupport 261 ∧ answers .getId s 1 [1])
    ∧ (∀ e : Byte, served (.setEndpointId (some e)) 257 (answers (.setEndpointId (some e)) (hub { s.hub with endpoint := e }) 257 [0, e.toNat]))
    ∧ (s.hub.request = 0 → served .getEndpointId 258 (answers .getEndpointId s 258 [0, s.hub.endpoint.toNat]))
    ∧ (∀ e : Byte, served (.getMctpVersionSupport (some e)) 260
        (answers (.getMctpVersionSupport (some e)) s 260 [0, e.toNat, if e = 0 ∨ e = 0x7F then 1 else 0]))
    ∧ (s.hub.request = 0 → served .getMessageTypeSupport 261 (answers .getMessageTypeSupport s 261 [0, 0x7F]))
    ∧ (∃ key : List Nat, key.length = 65 ∧ (s.hub.bootStep < 4 → key = List.replicate 65 0)
        ∧ (s.hub.request = 0 → answers .getId s 1 ([0, s.hub.module.toNat, s.hub.bootStep] ++ key)))
    ∧ (∀ n : Word, let id := some n
       served (.setId id) 2
        (let formed : Prop := ∃ c b, (s.ctx c).domain = some b ∧ b.formed = true
         (1024 ≤ n.toNat → answers (.setId id) s 2 [1]) ∧ (n.toNat < 1024 → formed → answers (.setId id) s 2 [2])
          ∧ (n.toNat < 1024 → ¬formed → answers (.setId id) (hub { s.hub with module := BitVec.ofNat 10 n.toNat }) 2 [0])))
    ∧ (∀ (dst : Word) (e : List Byte), served (.pathWrite dst e) 3
        (let byte (i : Nat) : Nat := (e.getD i 0).toNat
         let route (i : Nat) : Nat := leNat ((e.drop (8 + 8 * i)).take 8)
         let legal_ : Prop := dst.toNat < 1024 ∧ e.length = 48 ∧ byte 0 ≤ 4 ∧ (∀ i, (1 ≤ i ∧ i < 4) ∨ (40 ≤ i ∧ i < 48) → byte i = 0)
           ∧ ∀ i, i < 4 → byte (4 + i) < 16 ∧ (i < byte 0 → 1 ≤ route i % 16 ∧ route i % 16 ≤ 8 ∧ route i / 16 % 16 = 0
               ∧ route i / 256 % 256 = 0 ∧ route i < 2 ^ (16 + 6 * (route i % 16)))
         (¬legal_ → answers (.pathWrite dst e) s 3 [1])
          ∧ (legal_ → ∃ t : State, answers (.pathWrite dst e) t 3 [0] ∧ HubOnly s t ∧ t.outbox = s.outbox
              ∧ { t.hub with paths := s.hub.paths } = s.hub
              ∧ ∀ m : BitVec 10, pathEntry t m = if m.toNat = dst.toNat then e else pathEntry s m)))
    ∧ (∀ (d : Word) (p : BitVec 16) (ids : List (BitVec 16)), served (.domainWrite d p ids) 4
        (let legal_ : Prop := d ≠ 0 ∧ 1 ≤ p.toNat ∧ p.toNat ≤ 1024 ∧ ids.length = p.toNat ∧ ∀ m ∈ ids, m.toNat < 1024
         let busy : Prop := ∃ c b, BoundTo s d c b ∧ b.formed = true ∧ b.stopped = false
         (¬legal_ → answers (.domainWrite d p ids) s 4 [1]) ∧ (legal_ → busy → answers (.domainWrite d p ids) s 4 [2])
          ∧ (legal_ → ¬busy → ∃ (t : State) (y : DomainRow), answers (.domainWrite d p ids) t 4 [0] ∧ { t with hub := s.hub, ctxs := s.ctxs } = s
              ∧ { t.hub with rows := s.hub.rows } = s.hub ∧ RowNow s t d y ∧ y.p = p.toNat ∧ y.ids = ids ∧ y.arrives = [] ∧ y.applied = []
              ∧ y.applySent = none ∧ y.lost = [] ∧ y.owed = none
              ∧ (∀ f, f ∈ y.forms ↔ ∃ r, RowOf s d r ∧ f ∈ r.forms ∧ f.1 = p.toNat ∧ (ids[f.2.1]?).map (·.setWidth 10) = some f.2.2.1)
              ∧ let all : Prop := ∀ i, i < p.toNat → ∃ f ∈ y.forms, f.2.1 = i
                (¬all → t.ctxs = s.ctxs)
                ∧ ∀ c b, BoundTo s d c b → b.formed = false → all → ∃ n : Word, (∀ x, x ≠ c → t.ctx x = s.ctx x)
                    ∧ t.ctx c = { s.ctx c with domain := some { b with formed := true, stopped := false }, step := n }
                    ∧ (∃ f ∈ y.forms, f.2.2.2 = n) ∧ ∀ f ∈ y.forms, f.2.2.2.toNat ≤ n.toNat)))
    ∧ (∀ (gm : BitVec 16) (dom : Byte), let i : Instr := .ptpConfig (some gm) (some dom)
       served i 5
        ((1024 ≤ gm.toNat → answers i s 5 [1])
          ∧ (gm.toNat < 1024 → s.hub.grandmaster = gm → s.hub.ptpDomain = dom → answers i s 5 [0, s.hub.locked.toNat])
          ∧ (gm.toNat < 1024 → s.hub.grandmaster ≠ gm ∨ s.hub.ptpDomain ≠ dom → answers i
              (hub { s.hub with grandmaster := gm, ptpDomain := dom, locked := false, ptpSync := none, ptpFollow := none, ptpReq := none }) 5 [0, 0])))
    ∧ (∀ n : Word, let core := some n
       served (.haltRelease core) 7
        ((4096 ≤ n.toNat → answers (.haltRelease core) s 7 [1])
          ∧ ∀ k : CoreId, k.val = n.toNat →
              ((s.core k).halted = false → answers (.haltRelease core) s 7 [2])
              ∧ ((s.core k).halted = true → ∃ t : State, answers (.haltRelease core) t 7 [0] ∧ { t with cores := s.cores } = s
                  ∧ ∀ j, t.core j = if j = k then { s.core k with halted := false } else s.core j)))
    ∧ (∀ khz : Nat, ∃ n, exec (.clockReduction khz) s = .next { s with clockKhz := n } ∧ 2400000 ≤ n ∧ n ≤ 3000000
        ∧ (2400000 ≤ khz → khz ≤ 3000000 → n = khz))
    ∧ (∀ u : FaultUnit, ∃ t : State, exec (.unitRetirement u) s = .next t ∧ u ∈ t.hub.retired ∧ (∀ x ∈ s.hub.retired, x ∈ t.hub.retired)
        ∧ (∀ k, (t.core k).retired = ((s.core k).retired || (decide (u = .core k) && !isSteward s k)))
        ∧ (∀ (d : DieId) (e : Fin 16), e ∈ (t.dies[d]).enginesOut ↔ e ∈ (s.dies[d]).enginesOut ∨ u = .copyEngine d e)
        ∧ (∀ x : TileId, (t.tiles[x]).fence = ((s.tiles[x]).fence || decide (u = .router x)))
        ∧ (∀ k, u = .core k → RecordIn s t 0 10 0 1 k.val) ∧ (∀ d e, u = .copyEngine d e → RecordIn s t 0 10 0 2 (d.val * 16 + e.val))
        ∧ (∀ x, u = .router x → RecordIn s t 0 10 0 3 x.val) ∧ (∀ a, u = .l2Row a → RecordIn s t 0 10 0 4 a)
        ∧ (∀ a, u = .yardRow a → RecordIn s t 0 10 0 5 a) ∧ (∀ a, u = .barnRow a → RecordIn s t 0 10 0 6 a)
        ∧ ∀ a, u = .hbmRow a → RecordIn s t 0 10 0 7 a)
    ∧ (∀ addr : Nat,
        let barn (d : DieId) : List BarnEntry := (s.dies[d]).barn.filter fun x => !x.overflow
        (addr < 2 ^ 48 → (∀ e ∈ s.bad, ¬(e.addr ≤ addr ∧ addr < e.addr + e.size)) → exec (.patrolScrub addr) s = .next s)
        ∧ (∀ e, addr < 2 ^ 48 → s.bad.find? (fun e => e.addr ≤ addr && addr < e.addr + e.size) = some e →
            ∃ t : State, exec (.patrolScrub addr) s = .next t ∧ RecordIn s t 0 10 0 e.unit addr)
        ∧ ∀ (d : DieId) (i : Nat), i < 1048576 → addr = 2 ^ 48 + 1048576 * d.val + i →
            ((∀ x, (barn d)[i]? = some x → x.bad = false) → exec (.patrolScrub addr) s = .next s)
            ∧ ∀ x, (barn d)[i]? = some x → x.bad = true →
                ∃ t : State, exec (.patrolScrub addr) s = .next t ∧ RecordIn s t 0 10 0 6 (addr - 2 ^ 48))
    ∧ ∃ (t : State) (n : Nat), exec .moduleReset s = .next t
        ∧ n ≤ 8 ∧ t.hub.bootStep = n ∧ (t.hub.halted = true ↔ n < 8) ∧ t.hub.x8 = s.hub.setup.x8 ∧ t.layout = s.hub.setup.layout
        ∧ t.mcRev = s.hub.setup.mcRev.toNat ∧ t.cycle = 0 ∧ t.hub.setup = s.hub.setup
        ∧ (let r := State.boot s.hub.setup.layout s.hub.setup.mcRev.toNat
           { t with cores := r.cores, tiles := r.tiles, dies := r.dies, hub := r.hub, nextId := 1, free := 0, inputs := [], outbox := [] } = r
             ∧ { t.hub with retired := r.hub.retired, bootStep := r.hub.bootStep, halted := r.hub.halted, x8 := r.hub.x8, setup := r.hub.setup } = r.hub)
        ∧ t.outbox = s.outbox ∧ t.inputs = s.inputs.map (fun x => (x.1 - s.cycle, x.2))
        ∧ (∀ u, u ∈ t.hub.retired ↔ u ∈ s.hub.retired ∧ ∀ a, u ≠ .hbmRow a)
        ∧ (∀ k, (t.core k).retired = true ↔ .core k ∈ s.hub.retired)
        ∧ (∀ k, { t.core k with retired := false } = Core.reset false)
        ∧ (∀ x : TileId, t.tiles[x] = { Tile.reset with fence := decide (.router x ∈ s.hub.retired) })
        ∧ ∀ d : DieId, (t.dies[d]).barn = [] ∧ (∀ e : Fin 16, e ∈ (t.dies[d]).enginesOut ↔ .copyEngine d e ∈ s.hub.retired)
            ∧ ∀ i : Fin 16, .core (mkCore d.val 0 i.val) ∉ s.hub.retired →
                (t.dies[d]).steward.val ≤ i.val ∧ .core (mkCore d.val 0 (t.dies[d]).steward.val) ∉ s.hub.retired

/-! ### Steps and decoding -/

/-- A step runs the next activity of the cycle, or ends the cycle: an event is executed; a core issues the bundle its chosen
split finds at its PC: a unit of the stream below 0xFFFF names a dictionary entry, 0xFFFF opens a literal bundle, and the
decoded slots are executed in the order v, m, x, c before the bundle closes. A split that finds no bundle traps, or waits for its
page (R43, R193-R195,
R216). The words that the spec writes out decode to the instructions they stand for. Choices of the model
here, no rule of the spec: log entries 1, 34. -/
def Obligations.StepRunsDecoded : Prop :=
  (∀ (s : State), s.agenda = [] → step s = .next (endCycle s))
  ∧ (∀ (s : State) (i : Instr) (l : List Activity), s.agenda = .event i :: l → step s = exec i { s with agenda := l })
  ∧ (∀ (s : State) (k : CoreId) (l : List Activity), s.agenda = .issue k :: l →
      let p := prepare k { s with agenda := l }
      let all := candidates p k (standings p k)
      let u := noteWaits k all p
      (coreRuns s k = false → step s = .next { s with agenda := l })
      ∧ (coreRuns s k = true → pick u all = none → step s = .next u)
      ∧ ∀ y, coreRuns s k = true → pick u all = some y →
          let m := onWave k y.slot (fun x => x.merge y.split) u
          let x := m.wave k y.slot
          let z := x.splits[y.split]
          (fetch m k x z = .bound → step s = .next (trapSplit k y.slot y.split { code := .fetchBound } z.mask m))
          ∧ (fetch m k x z = .illegal → step s = .next (trapSplit k y.slot y.split { code := .encIllegal } z.mask m))
          ∧ (∀ c a, fetch m k x z = .fault c a → step s = .next (trapSplit k y.slot y.split { code := c, addr := a } z.mask m))
          ∧ ∀ b n, fetch m k x z = .ok b n →
              let sems := waitedSems (u.wave k y.slot) (y.split :: mergers (u.wave k y.slot) y.split) b
              let o := standAt (observeSems k y.slot (sems.filterMap fun v => semPhys m k (u.wave k y.slot).ctx v) m) k y.slot y.split b n
              bundleVerdict o b.slots = .go → ∀ f : Nat → State,
                f 0 = openBundle b sems o →
                (∀ j i, (bundleWork b)[j]? = some i → exec i (f j) = .next (f (j + 1))) →
                step s = .next (closeBundle o.iw.uid (f (bundleWork b).length)))
  ∧ (∀ (s : State) (k : CoreId) (w : SlotId) (r : RecId) (page : Nat), fetch s k (s.wave k w) ((s.wave k w).splits[r]) = .stall page →
      ∀ y ∈ candidates s k (standings s k), ¬(y.slot = w ∧ y.split = r))
  ∧ (∀ (s : State) (k : CoreId) (x : Wave) (z : Split) (im : Image) (unit : Half) (rest : List Half) (b : Bundle),
      z.lost = false → x.stint = none → s.image? x.ctx x.image = some im → im.inside.contains z.pc.toNat = false →
      im.stream.drop z.pc.toNat = unit :: rest →
      (∀ pg, unit ≠ 0xFFFF → unit.toNat < im.dict.length → pageIn (s.core k) im.handle (unit.toNat / 64) = some pg → pg.bad = false →
        decodeBundle (pg.entries.getD (unit.toNat % 64) 0) = .ok b → z.pc.toNat + 1 < 2 ^ 32 →
        fetch s k x z = .ok b (some (z.pc + 1)))
      ∧ (∀ bits, unit = 0xFFFF → b.hdr.bits ≤ 384 → b.hdr.bits / 16 ≤ rest.length →
          bits = ((rest.take (b.hdr.bits / 16)).zipIdx.map fun q => q.1.toNat * 2 ^ (16 * q.2)).sum →
          decodeBundle bits = .ok b → z.pc.toNat + 1 + b.hdr.bits / 16 < 2 ^ 32 →
          fetch s k x z = .ok b (some (z.pc + 1 + BitVec.ofNat 32 (b.hdr.bits / 16)))))
  ∧ (let g : Guard := ⟨false, 0⟩
     let c : CSlot := ⟨0, g, g, g, g, 0, .v 0, 0, 0, 0⟩
     decodeSlot .v 0x070FFFFE8200C400 = .ok (.pset .fma ⟨.i32, .v 6, .a 4, .keep, .none, g, .all, .rne, .none, false⟩)
     ∧ decodeSlot .v 0x07004B7FFF808C68 = .ok (.redAdd ⟨.f32, .v 4, .keep, .imm 79, .v 9, g, .all, .rne, .none, false⟩)
     ∧ decodeSlot .v 0x07004FFED8810010 = .ok (.add ⟨.i32, .v 8, .imm 65, .keep, .v 9, g, .all, .rne, .none, false⟩)
     ∧ decodeSlot .m 0x71040293FF008201 = .ok (.ldG ⟨.none, .b4, .w, .v 2, .keep, 4, 5, some 8, ⟨false, 1⟩, .all, false⟩)
     ∧ decodeSlot .x 0x0007000201462081 = .ok (.mxl ⟨.fp16, .mac, 2, 3, 5, 2, 7, false, 0⟩)
     ∧ decodeSlot .x 0x0000001001400082 = .ok (.mxr ⟨.fp16, .mac, 0, 0, 5, 16, 0, false, 0⟩)
     ∧ decodeSlot .x 0x0000000100006006 = .ok (.kick ⟨.fp64, .mac, 6, 0, 0, 1, 0, false, 0⟩)
     ∧ decodeSlot .x 0x00500000000A4007 = .ok (.csend ⟨.fp64, .mac, 4, 5, 0, 0, 0, false, 5⟩)
     ∧ decodeSlot .c 0x00000020A0000003 = .ok (.call { c with src := .a 5 })
     ∧ decodeSlot .c 0x00000020A0000004 = .ok (.ret { c with src := .a 5 })
     ∧ decodeSlot .c 0x0000002020000024 = .ok (.rte { c with src := .a 1 })
     ∧ decodeSlot .c 0x0000062080000026 = .ok (.semmapW { c with src := .a 4, sem := 12 })
     ∧ decodeSlot .c 0x0000003620000021 = .ok (.mtcr { c with src := .imm 65 })
     ∧ decodeSlot .c 0x0001000000000020 = .ok (.mfcr { c with imm := 2 })
     ∧ decodeSlot .c 0x000001204000002E = .ok (.ctxSwout { c with src := .a 2, sem := 2 })
     ∧ ∃ h, decodeHeader 0x20029072 = .ok h ∧ h.m = true ∧ h.gap = 7 ∧ h.waitEn = true ∧ h.waitSem = 10 ∧ h.waitThr = 128
       ∧ h.v = false ∧ h.x = false ∧ h.c = false ∧ h.lits = 0 ∧ h.sigEn = false ∧ h.sync = false)

/-- Every well-formed slot instruction decodes from the word that encodes it, and a word that decodes to an instruction is that
word: no bit of an encoding is dropped. The same holds of headers, and a bundle of one slot decodes to that slot (R15, R198,
R202, R205, R213). -/
def Obligations.DecodeEncode : Prop :=
  (∀ (i : Instr) (k : SlotKind), Encodable i → slotOf i = some k → decodeSlot k (encode i).toNat = .ok i)
  ∧ (∀ (i : Instr) (k : SlotKind) (n : Nat), n < 2 ^ 64 → decodeSlot k n = .ok i → Encodable i ∧ slotOf i = some k ∧ (encode i).toNat = n)
  ∧ (∀ h : Header, litsOk h.slots h.lits.val = true → headerSemOk h = true → packHeader h < 2 ^ 64 ∧ decodeHeader (packHeader h) = .ok h)
  ∧ ∀ (i : Instr) (k : SlotKind) (h : Header), Encodable i → slotOf i = some k → litsOk h.slots h.lits.val = true → headerSemOk h = true →
      h.v = decide (k = .v) → h.m = decide (k = .m) → h.x = decide (k = .x) → h.c = decide (k = .c) →
      decodeTableWord 0 (packHeader h + 2 ^ 64 * (encode i).toNat) = some i

/-! ### Memory -/

/-- Every step keeps the canonical form of HBM and Yard, and of every core's scratchpad, L1 and accumulator store. A choice of the model
here, no rule of the spec: log entry 2. -/
def Obligations.StepKeepsMemoryCanonical : Prop := ∀ (s t : State), Canonical s → step s = .next t → Canonical t

/-! ### Reset -/

/-- After a module reset every control register reads as its Reset column says, every physical semaphore is 0, no wave context is
live, every SRAM and the memory are canonical, and context 0 is at machine level, context 1 at supervisor level and the others at
user level; the layout 0 is firmware's choice (log entry 7) (R8, R12, R357, R361, R367, R387, R446, R483, R491). Choices of the model
here, no rule of the spec: log entries 3, 4, 7. -/
def Obligations.ResetState : Prop :=
  let s := State.reset
  (∀ c : CtxId, (∀ n : Nat, n ≠ 0 → n ≤ 13 → readReg s (.ctx c) n = if n = 6 then 4096 else if n = 7 then 65536 else if n = 8 then 50 else if n = 11 then 1 else 0)
      ∧ readReg s (.ctx c) 0 = if c = 0 then 2 else if c = 1 then 1 else 0)
  ∧ (∀ k : CoreId, readReg s (.core k) 0 = BitVec.ofNat 64 (if k.val % 512 = 0 then k.val + 4096 else k.val)
      ∧ (∀ n : Nat, 1 ≤ n → n ≤ 3 → readReg s (.core k) n = 0)
      ∧ (∀ p : Fin 512, (s.core k).sems[p] = 0) ∧ (∀ w : SlotId, (s.wave k w).live = false)
      ∧ (∀ a, memRead (s.core k).scratch a = 0 ∧ memRead (s.core k).acc a = 0 ∧ memRead (s.core k).l1 a = 0)
      ∧ (s.core k).halted = false ∧ (s.core k).retired = false)
  ∧ (∀ (t : TileId) (n : Nat), n ≤ 2 → readReg s (.tile t) n = 0)
  ∧ (∀ d : DieId, readReg s (.die d) 0 = BitVec.ofNat 64 d.val ∧ readReg s (.die d) 1 = 0 ∧ readReg s (.die d) 2 = 0)
  ∧ (∀ (q : QueueId) (n : Nat), n ≤ 6 → readReg s (.queue q) n = 0)
  ∧ Canonical s ∧ s.hub.bootStep = 8 ∧ s.cycle = 0 ∧ step s = .next (endCycle s)
end

