-- ==== Sys2Proof/Laws/Memory.lean ====
section
/-!
SUPPORT. Memory: every operation keeps the canonical form; a write is read back and leaves every other byte; equal reads are
equal memories.
-/

namespace Sys2Proof.Machine

open Sys2Proof

/-! ### The canonical form -/

/-- A bound stands below an address. -/
def Memory.Bounds (lo : Option Nat) (a : Nat) : Prop := ∀ l, lo = some l → l < a

theorem wfFrom_cons (lo : Option Nat) (a : Nat) (b : Byte) (m : Mem) :
    Memory.wfFrom lo ((a, b) :: m) = true ↔ Memory.Bounds lo a ∧ b ≠ Memory.unlisted ∧ Memory.wfFrom (some a) m = true := by
  cases lo <;> simp [Memory.wfFrom, Memory.Bounds, and_assoc]

@[simp] theorem wfFrom_nil (lo : Option Nat) : Memory.wfFrom lo [] = true := by cases lo <;> rfl

/-- A lower bound may be lowered. -/
theorem wfFrom_weaken {lo hi : Option Nat} {m : Mem} (h : Memory.wfFrom hi m = true) (hl : ∀ a, Memory.Bounds hi a → Memory.Bounds lo a) :
    Memory.wfFrom lo m = true := by
  cases m with
  | nil => simp
  | cons x m =>
    obtain ⟨a, b⟩ := x
    rw [wfFrom_cons] at h ⊢
    exact ⟨hl a h.1, h.2⟩

theorem wfFrom_none {lo : Option Nat} {m : Mem} (h : Memory.wfFrom lo m = true) : Memory.wf m = true :=
  wfFrom_weaken h (by intro a _ l e; cases e)

/-- Below its addresses a memory reads as unlisted. -/
theorem memRead_below {lo : Nat} {m : Mem} (h : Memory.wfFrom (some lo) m = true) {a : Nat} (ha : a ≤ lo) : memRead m a = Memory.unlisted := by
  induction m generalizing lo with
  | nil => rfl
  | cons x m ih =>
    obtain ⟨c, b⟩ := x
    rw [wfFrom_cons] at h
    have hc : lo < c := h.1 lo rfl
    have : c ≠ a := by omega
    simp only [memRead, this, if_false]
    exact ih h.2.2 (by omega)

/-! ### Writing one byte -/

theorem memWrite_wfFrom {lo : Option Nat} {m : Mem} (h : Memory.wfFrom lo m = true) {a : Nat} (ha : Memory.Bounds lo a) (v : Byte) :
    Memory.wfFrom lo (memWrite m a v) = true := by
  induction m generalizing lo with
  | nil =>
    by_cases hv : v = Memory.unlisted
    · simp [memWrite, hv]
    · simp only [memWrite, hv, if_false]; rw [wfFrom_cons]; exact ⟨ha, hv, wfFrom_nil _⟩
  | cons x m ih =>
    obtain ⟨c, b⟩ := x
    have h' := h
    rw [wfFrom_cons] at h
    simp only [memWrite]
    split
    · next hlt =>
      split
      · exact h'
      · next hv =>
        rw [wfFrom_cons, wfFrom_cons]
        exact ⟨ha, hv, fun l e => by cases e; exact hlt, h.2⟩
    · next hge =>
      split
      · next he =>
        split
        · exact wfFrom_weaken h.2.2 fun d hd l e => by
            have := h.1 l e; have := hd c rfl; omega
        · next hv => rw [wfFrom_cons]; exact ⟨ha, hv, by rw [he]; exact h.2.2⟩
      · next hne =>
        rw [wfFrom_cons]
        exact ⟨h.1, h.2.1, ih h.2.2 fun l e => by cases e; omega⟩

/-- A byte write keeps the canonical form. -/
theorem memWrite_wf {m : Mem} (h : Memory.wf m = true) (a : Nat) (v : Byte) : Memory.wf (memWrite m a v) = true :=
  memWrite_wfFrom h (fun _ e => by cases e) v

/-- A written byte is read back. -/
theorem memRead_memWrite_same {lo : Option Nat} {m : Mem} (h : Memory.wfFrom lo m = true) (a : Nat) (v : Byte) :
    memRead (memWrite m a v) a = v := by
  induction m generalizing lo with
  | nil => by_cases hv : v = Memory.unlisted <;> simp [memWrite, memRead, hv]
  | cons x m ih =>
    obtain ⟨c, b⟩ := x
    rw [wfFrom_cons] at h
    simp only [memWrite]
    split
    · next hlt =>
      split
      · next hv =>
        have hc : c ≠ a := by omega
        simp only [memRead, hc, if_false, hv]
        exact memRead_below h.2.2 (by omega)
      · simp [memRead]
    · next hge =>
      split
      · next he =>
        split
        · next hv => rw [hv, he]; exact memRead_below h.2.2 (Nat.le_refl _)
        · simp [memRead]
      · next hne =>
        have hc : c ≠ a := fun e => hne e.symm
        simp only [memRead, hc, if_false]
        exact ih h.2.2

/-- A byte write leaves every other byte, whatever the memory. -/
theorem memRead_memWrite_other {m : Mem} {a x : Nat} (hx : x ≠ a) (v : Byte) : memRead (memWrite m a v) x = memRead m x := by
  induction m with
  | nil =>
    by_cases hv : v = Memory.unlisted <;> simp [memWrite, memRead, hv, Ne.symm hx]
  | cons y m ih =>
    obtain ⟨c, b⟩ := y
    simp only [memWrite]
    split
    · split
      · rfl
      · simp [memRead, Ne.symm hx]
    · split
      · next he => subst he; split <;> simp [memRead, Ne.symm hx]
      · simp only [memRead, ih]

/-- Read after write. -/
theorem memRead_memWrite {m : Mem} (h : Memory.wf m = true) (a x : Nat) (v : Byte) :
    memRead (memWrite m a v) x = if x = a then v else memRead m x := by
  split
  · next e => subst e; exact memRead_memWrite_same h x v
  · next e => exact memRead_memWrite_other e v

/-! ### Wider writes -/

theorem memStore_wf {m : Mem} (h : Memory.wf m = true) (a : Nat) (l : List Byte) : Memory.wf (memStore m a l) = true := by
  induction l generalizing m a with
  | nil => exact h
  | cons b l ih => exact ih (memWrite_wf h a b) (a + 1)

/-- A stored run is read back byte for byte, and every other byte stays. -/
theorem memRead_memStore {m : Mem} (h : Memory.wf m = true) (a : Nat) (l : List Byte) (x : Nat) :
    memRead (memStore m a l) x = if a ≤ x ∧ x < a + l.length then l.getD (x - a) 0 else memRead m x := by
  induction l generalizing m a with
  | nil => simp only [memStore, List.length_nil]; rw [if_neg (by omega)]
  | cons b l ih =>
    simp only [memStore, List.length_cons]
    rw [ih (memWrite_wf h a b) (a + 1), memRead_memWrite h]
    by_cases h1 : a + 1 ≤ x ∧ x < a + 1 + l.length
    · rw [if_pos h1, if_pos (by omega), show x - a = (x - (a + 1)) + 1 by omega]; simp
    · rw [if_neg h1]
      by_cases h2 : x = a
      · subst h2; rw [if_pos rfl, if_pos (by omega)]; simp
      · rw [if_neg h2, if_neg (by omega)]

theorem memByteW_wf {m : Mem} (h : Memory.wf m = true) (w : ByteW) : Memory.wf (memByteW m w) = true := memWrite_wf h _ _

theorem memByteWs_wf {m : Mem} (h : Memory.wf m = true) (ws : List ByteW) : Memory.wf (memByteWs m ws) = true := by
  unfold memByteWs
  induction ws generalizing m with
  | nil => exact h
  | cons w ws ih => exact ih (memByteW_wf h w)

/-- Masked byte writes leave every byte they do not name. -/
theorem memRead_memByteWs_other {m : Mem} (ws : List ByteW) {x : Nat} (hx : ∀ w ∈ ws, w.addr ≠ x) :
    memRead (memByteWs m ws) x = memRead m x := by
  unfold memByteWs
  induction ws generalizing m with
  | nil => rfl
  | cons w ws ih =>
    simp only [List.foldl_cons]
    rw [ih fun w hw => hx w (List.mem_cons_of_mem _ hw)]
    exact memRead_memWrite_other (fun e => hx w (List.mem_cons_self ..) e.symm) _

/-- Plain bytes written from an address on are a stored run. -/
theorem memByteWs_byteWs (m : Mem) (a : Nat) (l : List Byte) : memByteWs m (byteWs a l) = memStore m a l := by
  unfold memByteWs
  induction l generalizing m a with
  | nil => rfl
  | cons b l ih =>
    simp only [byteWs, List.foldl_cons, memStore]
    rw [← ih]
    simp [memByteW]

/-- Dropping cells keeps the canonical form. -/
theorem filter_wfFrom {lo : Option Nat} {m : Mem} (h : Memory.wfFrom lo m = true) (f : Host.Cell → Bool) :
    Memory.wfFrom lo (m.filter f) = true := by
  induction m generalizing lo with
  | nil => simp
  | cons x m ih =>
    obtain ⟨c, b⟩ := x
    rw [wfFrom_cons] at h
    rw [List.filter_cons]
    split
    · rw [wfFrom_cons]; exact ⟨h.1, h.2.1, ih h.2.2⟩
    · exact wfFrom_weaken (ih h.2.2) fun d hd l e => by have := h.1 l e; have := hd c rfl; omega

theorem filter_wf {m : Mem} (h : Memory.wf m = true) (f : Host.Cell → Bool) : Memory.wf (m.filter f) = true := filter_wfFrom h f

/-- Canonical memories that read alike are equal. -/
theorem memory_ext {lo : Option Nat} {m n : Mem} (hm : Memory.wfFrom lo m = true) (hn : Memory.wfFrom lo n = true)
    (h : ∀ a, memRead m a = memRead n a) : m = n := by
  induction m generalizing lo n with
  | nil =>
    cases n with
    | nil => rfl
    | cons y n =>
      obtain ⟨c, b⟩ := y
      rw [wfFrom_cons] at hn
      have := h c
      simp only [memRead, if_true] at this
      exact absurd this.symm hn.2.1
  | cons x m ih =>
    obtain ⟨a, v⟩ := x
    rw [wfFrom_cons] at hm
    cases n with
    | nil =>
      have := h a
      simp only [memRead, if_true] at this
      exact absurd this hm.2.1
    | cons y n =>
      obtain ⟨c, b⟩ := y
      rw [wfFrom_cons] at hn
      have hac : a = c := by
        rcases Nat.lt_trichotomy a c with hlt | he | hlt
        · have := h a
          simp only [memRead, if_true, show ¬c = a by omega, if_false] at this
          rw [memRead_below hn.2.2 (Nat.le_of_lt hlt)] at this
          exact absurd this hm.2.1
        · exact he
        · have := h c
          simp only [memRead, if_true, show ¬a = c by omega, if_false] at this
          rw [memRead_below hm.2.2 (Nat.le_of_lt hlt)] at this
          exact absurd this.symm hn.2.1
      subst hac
      have hv : v = b := by have := h a; simpa [memRead] using this
      subst hv
      rw [ih hm.2.2 hn.2.2 fun x => by
        have := h x
        simp only [memRead] at this
        by_cases e : a = x
        · subst e; rw [memRead_below hm.2.2 (Nat.le_refl _), memRead_below hn.2.2 (Nat.le_refl _)]
        · simpa [e] using this]

/-! ### The package's writes -/

theorem kBytes_wf (ws : List ByteW) {s : State} (h : Memory.wf s.mem = true) : Memory.wf (kBytes ws s).mem = true := memByteWs_wf h ws
theorem kZeros_wf (a n : Nat) {s : State} (h : Memory.wf s.mem = true) : Memory.wf (kZeros a n s).mem = true := filter_wf h _

theorem kEntry_wf {s : State} (h : Memory.wf s.mem = true) (e : MergeE) : Memory.wf (kEntry s e).mem = true := by
  unfold kEntry
  split
  · exact kZeros_wf _ _ h
  · exact kBytes_wf _ h

theorem kEntries_wf (l : List MergeE) {s : State} (h : Memory.wf s.mem = true) : Memory.wf (kEntries l s).mem = true := by
  simp only [kEntries]
  induction l generalizing s with
  | nil => exact h
  | cons e l ih => exact ih (kEntry_wf h e)

theorem drain_wf (f : Nat → Bool) {s : State} (h : Memory.wf s.mem = true) : Memory.wf (drain f s).mem = true := by
  simp only [drain]
  cases (List.getLast? _) with
  | none => exact h
  | some m => exact kEntries_wf _ h

/-- A write of bytes by an engine or the host keeps memory canonical. -/
theorem storeBytes_wf (ws : List ByteW) {s : State} (h : Memory.wf s.mem = true) : Memory.wf (storeBytes ws s).mem = true :=
  kBytes_wf ws (drain_wf _ h)

/-- With no store waiting in a merge buffer nothing drains. -/
theorem drain_nothing {s : State} (h : ∀ k, (s.core k).merge = []) (f : Nat → Bool) : drain f s = s := by
  have : pendingEntries s = [] := by
    unfold pendingEntries
    have e : s.cores.toList.flatMap (·.merge) = [] := by
      rw [List.flatMap_eq_nil_iff]
      intro c hc
      obtain ⟨i, hi, rfl⟩ := List.getElem_of_mem hc
      have hi' : i < 4096 := by simpa using hi
      simpa [State.core] using h ⟨i, hi'⟩
    rw [e]; rfl
  simp [drain, this]

/-- In a plain state a write of bytes is that write alone. -/
theorem storeBytes_plain {s : State} (h : Plain s) (ws : List ByteW) : (storeBytes ws s).mem = memByteWs s.mem ws := by
  simp [storeBytes, drain_nothing h.1, kBytes]

theorem scratchStore_wf {c : Core} (h : Memory.wf c.scratch = true) (off : Nat) (l : List Byte) :
    Memory.wf (scratchStore c off l).scratch = true := memStore_wf h off l

theorem writeTile_wf {m : Mem} (h : Memory.wf m = true) (t : Fmt) (tile : Nat) (cells : List Nat) :
    Memory.wf (writeTile m t tile cells) = true := by
  unfold writeTile
  generalize (tileCells t).zip cells = l
  induction l generalizing m with
  | nil => exact h
  | cons x l ih => exact ih (memStore_wf h _ _)

/-- The memories of the machine after reset are canonical. -/
theorem reset_canonical : Canonical State.reset := by
  refine ⟨rfl, fun k => ?_⟩
  have : State.reset.core k = Core.reset false := by simp [State.reset, State.boot, State.core]
  rw [this]
  exact ⟨rfl, rfl, rfl⟩

end Sys2Proof.Machine
end

