-- ==== Sys2Proof/Laws/Numbers.lean ====
section
/-!
SUPPORT. The integers of ports and results: reading a port (`portInt_eq`) and `Fit` (`fits_fit`).
-/

namespace Sys2Proof.Machine

open Sys2Proof

theorem intOf_eq (w : Nat) (hw : 0 < w) (x : DWord) :
    intOf true w x = (x.setWidth w).toInt := by
  have h2 : (2 : Nat) ^ w = 2 * 2 ^ (w - 1) := by
    obtain ⟨k, rfl⟩ : ∃ k, w = k + 1 := ⟨w - 1, by omega⟩
    simp [pow_succ]; omega
  simp only [intOf, BitVec.toInt, BitVec.toNat_setWidth, Bool.true_and, decide_eq_true_eq]
  generalize x.toNat % 2 ^ w = n
  split <;> split <;> first | omega | (push_cast; omega)

/-- A port's integer is its low bits, signed for I types (R247). -/
theorem portInt_eq (t : Ty) (x : DWord) : portInt t x = intAt t x := by
  unfold portInt intAt
  cases h : tySigned t
  · simp [intOf, BitVec.toNat_setWidth]
  · rw [intOf_eq _ (by cases t <;> decide)]; simp


/-- A sign-extended word cut back. -/
theorem cut_signExtend (w : Nat) (hw : w ≤ 32) (h0 : 0 < w) (y : BitVec w) :
    ((y.signExtend 32).setWidth 64).setWidth w = y := by
  apply BitVec.eq_of_getLsbD_eq
  intro i hi
  rw [BitVec.getLsbD_setWidth, BitVec.getLsbD_setWidth, BitVec.getLsbD_signExtend]
  simp [hi, show i < 64 by omega, show i < 32 by omega]

/-- The word that holds an integer of a type, cut back to the type's width. -/
theorem ofInt_cut (t : Ty) (x : Int) : (ofInt (tySigned t) (tyBits t) x).setWidth (tyBits t) = BitVec.ofInt (tyBits t) x := by
  unfold ofInt
  cases t <;> simp [tySigned, tyBits] <;> exact cut_signExtend _ (by omega) (by omega) _

/-- What an integer type reads of the word that holds an integer. -/
theorem intAt_ofInt (t : Ty) (x : Int) : intAt t (ofInt (tySigned t) (tyBits t) x) =
    if tySigned t then (BitVec.ofInt (tyBits t) x).toInt else (BitVec.ofInt (tyBits t) x).toNat := by
  unfold intAt
  rw [ofInt_cut]

/-- The word that holds an integer agrees with it modulo 2^w (R86). -/
theorem ofInt_mod (t : Ty) (x : Int) : (intAt t (ofInt (tySigned t) (tyBits t) x) - x) % 2 ^ tyBits t = 0 := by
  rw [intAt_ofInt]
  apply Int.emod_eq_zero_of_dvd
  have hc : (2 : Int) ^ tyBits t = ((2 ^ tyBits t : Nat) : Int) := by push_cast; rfl
  rw [hc]
  split
  · rw [BitVec.toInt_ofInt]; exact Int.dvd_bmod_sub_self
  · rw [BitVec.toNat_ofInt, Int.toNat_of_nonneg (Int.emod_nonneg _ (by positivity))]
    exact Int.dvd_emod_sub_self

/-- A value of a type lies in the type's range (R86). -/
theorem intAt_range (t : Ty) (y : DWord) : intMin t ≤ intAt t y ∧ intAt t y ≤ intMax t := by
  unfold intAt intMin intMax
  split
  · have a := BitVec.le_toInt (y.setWidth (tyBits t))
    have b := BitVec.toInt_lt (x := y.setWidth (tyBits t))
    constructor
    · exact a
    · omega
  · have b := (y.setWidth (tyBits t)).isLt
    constructor
    · omega
    · have : ((y.setWidth (tyBits t)).toNat : Int) < ((2 ^ tyBits t : Nat) : Int) := by exact_mod_cast b
      push_cast at this; omega

/-- An integer in range is held as it is. -/
theorem intAt_ofInt_range (t : Ty) (x : Int) (h1 : intMin t ≤ x) (h2 : x ≤ intMax t) :
    intAt t (ofInt (tySigned t) (tyBits t) x) = x := by
  have a := ofInt_mod t x
  have b := intAt_range t (ofInt (tySigned t) (tyBits t) x)
  generalize intAt t (ofInt (tySigned t) (tyBits t) x) = z at a b
  have hd : (2 : Int) ^ tyBits t ∣ z - x := Int.dvd_of_emod_eq_zero a
  have hlt : |z - x| < 2 ^ tyBits t := by
    cases t <;> simp [intMin, intMax, tySigned, tyBits] at h1 h2 b ⊢ <;> rw [abs_lt] <;> omega
  have := Int.eq_zero_of_abs_lt_dvd hd hlt
  omega

theorem upper_signed (w : Nat) (hw : w ≤ 32) (y : BitVec w) : (((y.signExtend 32).zeroExtend 64).toNat < 2 ^ 32)
    ∧ (((y.signExtend 32).zeroExtend 64).setWidth 32).toInt = y.toInt := by
  constructor
  · have := (y.signExtend 32).isLt
    simp only [BitVec.zeroExtend, BitVec.toNat_setWidth]; omega
  · rw [BitVec.zeroExtend, BitVec.setWidth_setWidth_of_le _ (by omega), BitVec.setWidth_eq]
    exact BitVec.toInt_signExtend_of_le hw

theorem upper_unsigned (w : Nat) (hw : w ≤ 32) (y : BitVec w) : (((y.zeroExtend 32).zeroExtend 64).toNat < 2 ^ 32)
    ∧ (((y.zeroExtend 32).zeroExtend 64).setWidth 32).toNat = y.toNat := by
  have h : y.toNat < 2 ^ 32 := lt_of_lt_of_le y.isLt (Nat.pow_le_pow_right (by omega) hw)
  simp only [BitVec.zeroExtend, BitVec.toNat_setWidth]; omega

/-- The upper bits of a narrow integer's word (R86). -/
theorem ofInt_upper (t : Ty) (x : Int) (h : tyBits t < 64) : (ofInt (tySigned t) (tyBits t) x).toNat < 2 ^ 32 ∧
    intAt (if tySigned t then .i32 else .n32) (ofInt (tySigned t) (tyBits t) x) = intAt t (ofInt (tySigned t) (tyBits t) x) := by
  rw [intAt_ofInt]
  have hw : tyBits t ≤ 32 := by cases t <;> simp [tyBits] at h ⊢
  have hn : ¬tyBits t = 64 := by omega
  simp only [ofInt, hn, if_false]
  generalize BitVec.ofInt (tyBits t) x = y
  cases hs : tySigned t
  · obtain ⟨a, b⟩ := upper_unsigned _ hw y
    exact ⟨a, congrArg Nat.cast b⟩
  · exact upper_signed _ hw y

theorem intMin_eq (t : Ty) : intLo (tySigned t) (tyBits t) = intMin t := by cases t <;> rfl
theorem intMax_eq (t : Ty) : intHi (tySigned t) (tyBits t) = intMax t := by cases t <;> rfl
theorem clamp_range (t : Ty) (x : Int) : intMin t ≤ max (intMin t) (min (intMax t) x) ∧ max (intMin t) (min (intMax t) x) ≤ intMax t := by
  have : intMin t ≤ intMax t := by cases t <;> decide
  omega

/-- `fit` computes `Fit` (R250). -/
theorem fits_fit (t : Ty) (sat : Bool) (x : Int) : Fits t sat x (fit t sat x) := by
  unfold fit Fits
  cases sat
  · exact ⟨by simpa using ofInt_mod t x, fun h => by simpa using ofInt_upper t x h⟩
  · have e : clampInt (tySigned t) (tyBits t) x = max (intMin t) (min (intMax t) x) := by
      have : intMin t ≤ intMax t := by cases t <;> decide
      rw [clampInt, intMin_eq, intMax_eq]; omega
    simp only [e, if_true]
    exact ⟨intAt_ofInt_range t _ (clamp_range t x).1 (clamp_range t x).2, fun h => ofInt_upper t _ h⟩
end Sys2Proof.Machine
end

