-- ==== Sys2Proof/Laws/State.lean ====
section
/-!
SUPPORT. The lifts of Machine/Ops.lean: what each leaves of the state, field by field, and what it makes of the part it
changes.
-/

namespace Sys2Proof.Machine

open Sys2Proof

/-! ### Vectors -/

@[simp] theorem vset_same_val {α : Type} {n : Nat} (v : Vector α n) (i : Fin n) (f : α → α) :
    (vset v i f)[(i : Nat)] = f v[(i : Nat)] := by
  simp [vset]

theorem vset_same {α : Type} {n : Nat} (v : Vector α n) (i : Fin n) (f : α → α) : (vset v i f)[i] = f v[i] :=
  vset_same_val v i f

theorem vset_other {α : Type} {n : Nat} (v : Vector α n) (i j : Fin n) (f : α → α) (h : j ≠ i) : (vset v i f)[j] = v[j] := by
  simp only [vset, Fin.getElem_fin]
  rw [Vector.getElem_set_ne]
  exact fun e => h (Fin.ext e.symm)

theorem vset_get {α : Type} {n : Nat} (v : Vector α n) (i j : Fin n) (f : α → α) :
    (vset v i f)[j] = if j = i then f v[j] else v[j] := by
  split
  · next h => subst h; simp
  · next h => exact vset_other v i j f h

/-! ### What each lift leaves -/

variable {s : State}

@[simp] theorem onCore_ctxs (k : CoreId) (f : Core → Core) : (onCore k f s).ctxs = s.ctxs := rfl
@[simp] theorem onCore_queues (k : CoreId) (f : Core → Core) : (onCore k f s).queues = s.queues := rfl
@[simp] theorem onCore_tiles (k : CoreId) (f : Core → Core) : (onCore k f s).tiles = s.tiles := rfl
@[simp] theorem onCore_dies (k : CoreId) (f : Core → Core) : (onCore k f s).dies = s.dies := rfl
@[simp] theorem onCore_layout (k : CoreId) (f : Core → Core) : (onCore k f s).layout = s.layout := rfl
@[simp] theorem onCore_hub (k : CoreId) (f : Core → Core) : (onCore k f s).hub = s.hub := rfl
@[simp] theorem onCore_mem (k : CoreId) (f : Core → Core) : (onCore k f s).mem = s.mem := rfl
@[simp] theorem onCore_zeroLines (k : CoreId) (f : Core → Core) : (onCore k f s).zeroLines = s.zeroLines := rfl
@[simp] theorem onCore_bad (k : CoreId) (f : Core → Core) : (onCore k f s).bad = s.bad := rfl
@[simp] theorem onCore_releases (k : CoreId) (f : Core → Core) : (onCore k f s).releases = s.releases := rfl
@[simp] theorem onCore_images (k : CoreId) (f : Core → Core) : (onCore k f s).images = s.images := rfl
@[simp] theorem onCore_grids (k : CoreId) (f : Core → Core) : (onCore k f s).grids = s.grids := rfl
@[simp] theorem onCore_groups (k : CoreId) (f : Core → Core) : (onCore k f s).groups = s.groups := rfl
@[simp] theorem onCore_copies (k : CoreId) (f : Core → Core) : (onCore k f s).copies = s.copies := rfl
@[simp] theorem onCore_copyStarts (k : CoreId) (f : Core → Core) : (onCore k f s).copyStarts = s.copyStarts := rfl
@[simp] theorem onCore_flits (k : CoreId) (f : Core → Core) : (onCore k f s).flits = s.flits := rfl
@[simp] theorem onCore_yard0 (k : CoreId) (f : Core → Core) : (onCore k f s).yard0 = s.yard0 := rfl
@[simp] theorem onCore_privOps (k : CoreId) (f : Core → Core) : (onCore k f s).privOps = s.privOps := rfl
@[simp] theorem onCore_handleCtr (k : CoreId) (f : Core → Core) : (onCore k f s).handleCtr = s.handleCtr := rfl
@[simp] theorem onCore_mcRev (k : CoreId) (f : Core → Core) : (onCore k f s).mcRev = s.mcRev := rfl
@[simp] theorem onCore_clockKhz (k : CoreId) (f : Core → Core) : (onCore k f s).clockKhz = s.clockKhz := rfl
@[simp] theorem onCore_cycle (k : CoreId) (f : Core → Core) : (onCore k f s).cycle = s.cycle := rfl
@[simp] theorem onCore_nextId (k : CoreId) (f : Core → Core) : (onCore k f s).nextId = s.nextId := rfl
@[simp] theorem onCore_free (k : CoreId) (f : Core → Core) : (onCore k f s).free = s.free := rfl
@[simp] theorem onCore_agenda (k : CoreId) (f : Core → Core) : (onCore k f s).agenda = s.agenda := rfl
@[simp] theorem onCore_inputs (k : CoreId) (f : Core → Core) : (onCore k f s).inputs = s.inputs := rfl
@[simp] theorem onCore_outbox (k : CoreId) (f : Core → Core) : (onCore k f s).outbox = s.outbox := rfl
@[simp] theorem onCore_issue (k : CoreId) (f : Core → Core) : (onCore k f s).issue = s.issue := rfl

@[simp] theorem onWave_ctxs (k : CoreId) (w : SlotId) (f : Wave → Wave) : (onWave k w f s).ctxs = s.ctxs := rfl
@[simp] theorem onWave_queues (k : CoreId) (w : SlotId) (f : Wave → Wave) : (onWave k w f s).queues = s.queues := rfl
@[simp] theorem onWave_tiles (k : CoreId) (w : SlotId) (f : Wave → Wave) : (onWave k w f s).tiles = s.tiles := rfl
@[simp] theorem onWave_dies (k : CoreId) (w : SlotId) (f : Wave → Wave) : (onWave k w f s).dies = s.dies := rfl
@[simp] theorem onWave_layout (k : CoreId) (w : SlotId) (f : Wave → Wave) : (onWave k w f s).layout = s.layout := rfl
@[simp] theorem onWave_hub (k : CoreId) (w : SlotId) (f : Wave → Wave) : (onWave k w f s).hub = s.hub := rfl
@[simp] theorem onWave_mem (k : CoreId) (w : SlotId) (f : Wave → Wave) : (onWave k w f s).mem = s.mem := rfl
@[simp] theorem onWave_zeroLines (k : CoreId) (w : SlotId) (f : Wave → Wave) : (onWave k w f s).zeroLines = s.zeroLines := rfl
@[simp] theorem onWave_bad (k : CoreId) (w : SlotId) (f : Wave → Wave) : (onWave k w f s).bad = s.bad := rfl
@[simp] theorem onWave_releases (k : CoreId) (w : SlotId) (f : Wave → Wave) : (onWave k w f s).releases = s.releases := rfl
@[simp] theorem onWave_images (k : CoreId) (w : SlotId) (f : Wave → Wave) : (onWave k w f s).images = s.images := rfl
@[simp] theorem onWave_grids (k : CoreId) (w : SlotId) (f : Wave → Wave) : (onWave k w f s).grids = s.grids := rfl
@[simp] theorem onWave_groups (k : CoreId) (w : SlotId) (f : Wave → Wave) : (onWave k w f s).groups = s.groups := rfl
@[simp] theorem onWave_copies (k : CoreId) (w : SlotId) (f : Wave → Wave) : (onWave k w f s).copies = s.copies := rfl
@[simp] theorem onWave_copyStarts (k : CoreId) (w : SlotId) (f : Wave → Wave) : (onWave k w f s).copyStarts = s.copyStarts := rfl
@[simp] theorem onWave_flits (k : CoreId) (w : SlotId) (f : Wave → Wave) : (onWave k w f s).flits = s.flits := rfl
@[simp] theorem onWave_yard0 (k : CoreId) (w : SlotId) (f : Wave → Wave) : (onWave k w f s).yard0 = s.yard0 := rfl
@[simp] theorem onWave_privOps (k : CoreId) (w : SlotId) (f : Wave → Wave) : (onWave k w f s).privOps = s.privOps := rfl
@[simp] theorem onWave_handleCtr (k : CoreId) (w : SlotId) (f : Wave → Wave) : (onWave k w f s).handleCtr = s.handleCtr := rfl
@[simp] theorem onWave_mcRev (k : CoreId) (w : SlotId) (f : Wave → Wave) : (onWave k w f s).mcRev = s.mcRev := rfl
@[simp] theorem onWave_clockKhz (k : CoreId) (w : SlotId) (f : Wave → Wave) : (onWave k w f s).clockKhz = s.clockKhz := rfl
@[simp] theorem onWave_cycle (k : CoreId) (w : SlotId) (f : Wave → Wave) : (onWave k w f s).cycle = s.cycle := rfl
@[simp] theorem onWave_nextId (k : CoreId) (w : SlotId) (f : Wave → Wave) : (onWave k w f s).nextId = s.nextId := rfl
@[simp] theorem onWave_free (k : CoreId) (w : SlotId) (f : Wave → Wave) : (onWave k w f s).free = s.free := rfl
@[simp] theorem onWave_agenda (k : CoreId) (w : SlotId) (f : Wave → Wave) : (onWave k w f s).agenda = s.agenda := rfl
@[simp] theorem onWave_inputs (k : CoreId) (w : SlotId) (f : Wave → Wave) : (onWave k w f s).inputs = s.inputs := rfl
@[simp] theorem onWave_outbox (k : CoreId) (w : SlotId) (f : Wave → Wave) : (onWave k w f s).outbox = s.outbox := rfl
@[simp] theorem onWave_issue (k : CoreId) (w : SlotId) (f : Wave → Wave) : (onWave k w f s).issue = s.issue := rfl

@[simp] theorem onSplit_ctxs (k : CoreId) (w : SlotId) (r : RecId) (f : Split → Split) : (onSplit k w r f s).ctxs = s.ctxs := rfl
@[simp] theorem onSplit_queues (k : CoreId) (w : SlotId) (r : RecId) (f : Split → Split) : (onSplit k w r f s).queues = s.queues := rfl
@[simp] theorem onSplit_tiles (k : CoreId) (w : SlotId) (r : RecId) (f : Split → Split) : (onSplit k w r f s).tiles = s.tiles := rfl
@[simp] theorem onSplit_dies (k : CoreId) (w : SlotId) (r : RecId) (f : Split → Split) : (onSplit k w r f s).dies = s.dies := rfl
@[simp] theorem onSplit_layout (k : CoreId) (w : SlotId) (r : RecId) (f : Split → Split) : (onSplit k w r f s).layout = s.layout := rfl
@[simp] theorem onSplit_hub (k : CoreId) (w : SlotId) (r : RecId) (f : Split → Split) : (onSplit k w r f s).hub = s.hub := rfl
@[simp] theorem onSplit_mem (k : CoreId) (w : SlotId) (r : RecId) (f : Split → Split) : (onSplit k w r f s).mem = s.mem := rfl
@[simp] theorem onSplit_zeroLines (k : CoreId) (w : SlotId) (r : RecId) (f : Split → Split) : (onSplit k w r f s).zeroLines = s.zeroLines := rfl
@[simp] theorem onSplit_bad (k : CoreId) (w : SlotId) (r : RecId) (f : Split → Split) : (onSplit k w r f s).bad = s.bad := rfl
@[simp] theorem onSplit_releases (k : CoreId) (w : SlotId) (r : RecId) (f : Split → Split) : (onSplit k w r f s).releases = s.releases := rfl
@[simp] theorem onSplit_images (k : CoreId) (w : SlotId) (r : RecId) (f : Split → Split) : (onSplit k w r f s).images = s.images := rfl
@[simp] theorem onSplit_grids (k : CoreId) (w : SlotId) (r : RecId) (f : Split → Split) : (onSplit k w r f s).grids = s.grids := rfl
@[simp] theorem onSplit_groups (k : CoreId) (w : SlotId) (r : RecId) (f : Split → Split) : (onSplit k w r f s).groups = s.groups := rfl
@[simp] theorem onSplit_copies (k : CoreId) (w : SlotId) (r : RecId) (f : Split → Split) : (onSplit k w r f s).copies = s.copies := rfl
@[simp] theorem onSplit_copyStarts (k : CoreId) (w : SlotId) (r : RecId) (f : Split → Split) : (onSplit k w r f s).copyStarts = s.copyStarts := rfl
@[simp] theorem onSplit_flits (k : CoreId) (w : SlotId) (r : RecId) (f : Split → Split) : (onSplit k w r f s).flits = s.flits := rfl
@[simp] theorem onSplit_yard0 (k : CoreId) (w : SlotId) (r : RecId) (f : Split → Split) : (onSplit k w r f s).yard0 = s.yard0 := rfl
@[simp] theorem onSplit_privOps (k : CoreId) (w : SlotId) (r : RecId) (f : Split → Split) : (onSplit k w r f s).privOps = s.privOps := rfl
@[simp] theorem onSplit_handleCtr (k : CoreId) (w : SlotId) (r : RecId) (f : Split → Split) : (onSplit k w r f s).handleCtr = s.handleCtr := rfl
@[simp] theorem onSplit_mcRev (k : CoreId) (w : SlotId) (r : RecId) (f : Split → Split) : (onSplit k w r f s).mcRev = s.mcRev := rfl
@[simp] theorem onSplit_clockKhz (k : CoreId) (w : SlotId) (r : RecId) (f : Split → Split) : (onSplit k w r f s).clockKhz = s.clockKhz := rfl
@[simp] theorem onSplit_cycle (k : CoreId) (w : SlotId) (r : RecId) (f : Split → Split) : (onSplit k w r f s).cycle = s.cycle := rfl
@[simp] theorem onSplit_nextId (k : CoreId) (w : SlotId) (r : RecId) (f : Split → Split) : (onSplit k w r f s).nextId = s.nextId := rfl
@[simp] theorem onSplit_free (k : CoreId) (w : SlotId) (r : RecId) (f : Split → Split) : (onSplit k w r f s).free = s.free := rfl
@[simp] theorem onSplit_agenda (k : CoreId) (w : SlotId) (r : RecId) (f : Split → Split) : (onSplit k w r f s).agenda = s.agenda := rfl
@[simp] theorem onSplit_inputs (k : CoreId) (w : SlotId) (r : RecId) (f : Split → Split) : (onSplit k w r f s).inputs = s.inputs := rfl
@[simp] theorem onSplit_outbox (k : CoreId) (w : SlotId) (r : RecId) (f : Split → Split) : (onSplit k w r f s).outbox = s.outbox := rfl
@[simp] theorem onSplit_issue (k : CoreId) (w : SlotId) (r : RecId) (f : Split → Split) : (onSplit k w r f s).issue = s.issue := rfl

@[simp] theorem onCtx_cores (c : CtxId) (f : Ctx → Ctx) : (onCtx c f s).cores = s.cores := rfl
@[simp] theorem onCtx_queues (c : CtxId) (f : Ctx → Ctx) : (onCtx c f s).queues = s.queues := rfl
@[simp] theorem onCtx_tiles (c : CtxId) (f : Ctx → Ctx) : (onCtx c f s).tiles = s.tiles := rfl
@[simp] theorem onCtx_dies (c : CtxId) (f : Ctx → Ctx) : (onCtx c f s).dies = s.dies := rfl
@[simp] theorem onCtx_layout (c : CtxId) (f : Ctx → Ctx) : (onCtx c f s).layout = s.layout := rfl
@[simp] theorem onCtx_hub (c : CtxId) (f : Ctx → Ctx) : (onCtx c f s).hub = s.hub := rfl
@[simp] theorem onCtx_mem (c : CtxId) (f : Ctx → Ctx) : (onCtx c f s).mem = s.mem := rfl
@[simp] theorem onCtx_zeroLines (c : CtxId) (f : Ctx → Ctx) : (onCtx c f s).zeroLines = s.zeroLines := rfl
@[simp] theorem onCtx_bad (c : CtxId) (f : Ctx → Ctx) : (onCtx c f s).bad = s.bad := rfl
@[simp] theorem onCtx_releases (c : CtxId) (f : Ctx → Ctx) : (onCtx c f s).releases = s.releases := rfl
@[simp] theorem onCtx_images (c : CtxId) (f : Ctx → Ctx) : (onCtx c f s).images = s.images := rfl
@[simp] theorem onCtx_grids (c : CtxId) (f : Ctx → Ctx) : (onCtx c f s).grids = s.grids := rfl
@[simp] theorem onCtx_groups (c : CtxId) (f : Ctx → Ctx) : (onCtx c f s).groups = s.groups := rfl
@[simp] theorem onCtx_copies (c : CtxId) (f : Ctx → Ctx) : (onCtx c f s).copies = s.copies := rfl
@[simp] theorem onCtx_copyStarts (c : CtxId) (f : Ctx → Ctx) : (onCtx c f s).copyStarts = s.copyStarts := rfl
@[simp] theorem onCtx_flits (c : CtxId) (f : Ctx → Ctx) : (onCtx c f s).flits = s.flits := rfl
@[simp] theorem onCtx_yard0 (c : CtxId) (f : Ctx → Ctx) : (onCtx c f s).yard0 = s.yard0 := rfl
@[simp] theorem onCtx_privOps (c : CtxId) (f : Ctx → Ctx) : (onCtx c f s).privOps = s.privOps := rfl
@[simp] theorem onCtx_handleCtr (c : CtxId) (f : Ctx → Ctx) : (onCtx c f s).handleCtr = s.handleCtr := rfl
@[simp] theorem onCtx_mcRev (c : CtxId) (f : Ctx → Ctx) : (onCtx c f s).mcRev = s.mcRev := rfl
@[simp] theorem onCtx_clockKhz (c : CtxId) (f : Ctx → Ctx) : (onCtx c f s).clockKhz = s.clockKhz := rfl
@[simp] theorem onCtx_cycle (c : CtxId) (f : Ctx → Ctx) : (onCtx c f s).cycle = s.cycle := rfl
@[simp] theorem onCtx_nextId (c : CtxId) (f : Ctx → Ctx) : (onCtx c f s).nextId = s.nextId := rfl
@[simp] theorem onCtx_free (c : CtxId) (f : Ctx → Ctx) : (onCtx c f s).free = s.free := rfl
@[simp] theorem onCtx_agenda (c : CtxId) (f : Ctx → Ctx) : (onCtx c f s).agenda = s.agenda := rfl
@[simp] theorem onCtx_inputs (c : CtxId) (f : Ctx → Ctx) : (onCtx c f s).inputs = s.inputs := rfl
@[simp] theorem onCtx_outbox (c : CtxId) (f : Ctx → Ctx) : (onCtx c f s).outbox = s.outbox := rfl
@[simp] theorem onCtx_issue (c : CtxId) (f : Ctx → Ctx) : (onCtx c f s).issue = s.issue := rfl

@[simp] theorem onQueue_cores (q : QueueId) (f : HostQ → HostQ) : (onQueue q f s).cores = s.cores := rfl
@[simp] theorem onQueue_ctxs (q : QueueId) (f : HostQ → HostQ) : (onQueue q f s).ctxs = s.ctxs := rfl
@[simp] theorem onQueue_tiles (q : QueueId) (f : HostQ → HostQ) : (onQueue q f s).tiles = s.tiles := rfl
@[simp] theorem onQueue_dies (q : QueueId) (f : HostQ → HostQ) : (onQueue q f s).dies = s.dies := rfl
@[simp] theorem onQueue_layout (q : QueueId) (f : HostQ → HostQ) : (onQueue q f s).layout = s.layout := rfl
@[simp] theorem onQueue_hub (q : QueueId) (f : HostQ → HostQ) : (onQueue q f s).hub = s.hub := rfl
@[simp] theorem onQueue_mem (q : QueueId) (f : HostQ → HostQ) : (onQueue q f s).mem = s.mem := rfl
@[simp] theorem onQueue_zeroLines (q : QueueId) (f : HostQ → HostQ) : (onQueue q f s).zeroLines = s.zeroLines := rfl
@[simp] theorem onQueue_bad (q : QueueId) (f : HostQ → HostQ) : (onQueue q f s).bad = s.bad := rfl
@[simp] theorem onQueue_releases (q : QueueId) (f : HostQ → HostQ) : (onQueue q f s).releases = s.releases := rfl
@[simp] theorem onQueue_images (q : QueueId) (f : HostQ → HostQ) : (onQueue q f s).images = s.images := rfl
@[simp] theorem onQueue_grids (q : QueueId) (f : HostQ → HostQ) : (onQueue q f s).grids = s.grids := rfl
@[simp] theorem onQueue_groups (q : QueueId) (f : HostQ → HostQ) : (onQueue q f s).groups = s.groups := rfl
@[simp] theorem onQueue_copies (q : QueueId) (f : HostQ → HostQ) : (onQueue q f s).copies = s.copies := rfl
@[simp] theorem onQueue_copyStarts (q : QueueId) (f : HostQ → HostQ) : (onQueue q f s).copyStarts = s.copyStarts := rfl
@[simp] theorem onQueue_flits (q : QueueId) (f : HostQ → HostQ) : (onQueue q f s).flits = s.flits := rfl
@[simp] theorem onQueue_yard0 (q : QueueId) (f : HostQ → HostQ) : (onQueue q f s).yard0 = s.yard0 := rfl
@[simp] theorem onQueue_privOps (q : QueueId) (f : HostQ → HostQ) : (onQueue q f s).privOps = s.privOps := rfl
@[simp] theorem onQueue_handleCtr (q : QueueId) (f : HostQ → HostQ) : (onQueue q f s).handleCtr = s.handleCtr := rfl
@[simp] theorem onQueue_mcRev (q : QueueId) (f : HostQ → HostQ) : (onQueue q f s).mcRev = s.mcRev := rfl
@[simp] theorem onQueue_clockKhz (q : QueueId) (f : HostQ → HostQ) : (onQueue q f s).clockKhz = s.clockKhz := rfl
@[simp] theorem onQueue_cycle (q : QueueId) (f : HostQ → HostQ) : (onQueue q f s).cycle = s.cycle := rfl
@[simp] theorem onQueue_nextId (q : QueueId) (f : HostQ → HostQ) : (onQueue q f s).nextId = s.nextId := rfl
@[simp] theorem onQueue_free (q : QueueId) (f : HostQ → HostQ) : (onQueue q f s).free = s.free := rfl
@[simp] theorem onQueue_agenda (q : QueueId) (f : HostQ → HostQ) : (onQueue q f s).agenda = s.agenda := rfl
@[simp] theorem onQueue_inputs (q : QueueId) (f : HostQ → HostQ) : (onQueue q f s).inputs = s.inputs := rfl
@[simp] theorem onQueue_outbox (q : QueueId) (f : HostQ → HostQ) : (onQueue q f s).outbox = s.outbox := rfl
@[simp] theorem onQueue_issue (q : QueueId) (f : HostQ → HostQ) : (onQueue q f s).issue = s.issue := rfl

@[simp] theorem onTile_cores (t : TileId) (f : Tile → Tile) : (onTile t f s).cores = s.cores := rfl
@[simp] theorem onTile_ctxs (t : TileId) (f : Tile → Tile) : (onTile t f s).ctxs = s.ctxs := rfl
@[simp] theorem onTile_queues (t : TileId) (f : Tile → Tile) : (onTile t f s).queues = s.queues := rfl
@[simp] theorem onTile_dies (t : TileId) (f : Tile → Tile) : (onTile t f s).dies = s.dies := rfl
@[simp] theorem onTile_layout (t : TileId) (f : Tile → Tile) : (onTile t f s).layout = s.layout := rfl
@[simp] theorem onTile_hub (t : TileId) (f : Tile → Tile) : (onTile t f s).hub = s.hub := rfl
@[simp] theorem onTile_mem (t : TileId) (f : Tile → Tile) : (onTile t f s).mem = s.mem := rfl
@[simp] theorem onTile_zeroLines (t : TileId) (f : Tile → Tile) : (onTile t f s).zeroLines = s.zeroLines := rfl
@[simp] theorem onTile_bad (t : TileId) (f : Tile → Tile) : (onTile t f s).bad = s.bad := rfl
@[simp] theorem onTile_releases (t : TileId) (f : Tile → Tile) : (onTile t f s).releases = s.releases := rfl
@[simp] theorem onTile_images (t : TileId) (f : Tile → Tile) : (onTile t f s).images = s.images := rfl
@[simp] theorem onTile_grids (t : TileId) (f : Tile → Tile) : (onTile t f s).grids = s.grids := rfl
@[simp] theorem onTile_groups (t : TileId) (f : Tile → Tile) : (onTile t f s).groups = s.groups := rfl
@[simp] theorem onTile_copies (t : TileId) (f : Tile → Tile) : (onTile t f s).copies = s.copies := rfl
@[simp] theorem onTile_copyStarts (t : TileId) (f : Tile → Tile) : (onTile t f s).copyStarts = s.copyStarts := rfl
@[simp] theorem onTile_flits (t : TileId) (f : Tile → Tile) : (onTile t f s).flits = s.flits := rfl
@[simp] theorem onTile_yard0 (t : TileId) (f : Tile → Tile) : (onTile t f s).yard0 = s.yard0 := rfl
@[simp] theorem onTile_privOps (t : TileId) (f : Tile → Tile) : (onTile t f s).privOps = s.privOps := rfl
@[simp] theorem onTile_handleCtr (t : TileId) (f : Tile → Tile) : (onTile t f s).handleCtr = s.handleCtr := rfl
@[simp] theorem onTile_mcRev (t : TileId) (f : Tile → Tile) : (onTile t f s).mcRev = s.mcRev := rfl
@[simp] theorem onTile_clockKhz (t : TileId) (f : Tile → Tile) : (onTile t f s).clockKhz = s.clockKhz := rfl
@[simp] theorem onTile_cycle (t : TileId) (f : Tile → Tile) : (onTile t f s).cycle = s.cycle := rfl
@[simp] theorem onTile_nextId (t : TileId) (f : Tile → Tile) : (onTile t f s).nextId = s.nextId := rfl
@[simp] theorem onTile_free (t : TileId) (f : Tile → Tile) : (onTile t f s).free = s.free := rfl
@[simp] theorem onTile_agenda (t : TileId) (f : Tile → Tile) : (onTile t f s).agenda = s.agenda := rfl
@[simp] theorem onTile_inputs (t : TileId) (f : Tile → Tile) : (onTile t f s).inputs = s.inputs := rfl
@[simp] theorem onTile_outbox (t : TileId) (f : Tile → Tile) : (onTile t f s).outbox = s.outbox := rfl
@[simp] theorem onTile_issue (t : TileId) (f : Tile → Tile) : (onTile t f s).issue = s.issue := rfl

@[simp] theorem onDie_cores (d : DieId) (f : Die → Die) : (onDie d f s).cores = s.cores := rfl
@[simp] theorem onDie_ctxs (d : DieId) (f : Die → Die) : (onDie d f s).ctxs = s.ctxs := rfl
@[simp] theorem onDie_queues (d : DieId) (f : Die → Die) : (onDie d f s).queues = s.queues := rfl
@[simp] theorem onDie_tiles (d : DieId) (f : Die → Die) : (onDie d f s).tiles = s.tiles := rfl
@[simp] theorem onDie_layout (d : DieId) (f : Die → Die) : (onDie d f s).layout = s.layout := rfl
@[simp] theorem onDie_hub (d : DieId) (f : Die → Die) : (onDie d f s).hub = s.hub := rfl
@[simp] theorem onDie_mem (d : DieId) (f : Die → Die) : (onDie d f s).mem = s.mem := rfl
@[simp] theorem onDie_zeroLines (d : DieId) (f : Die → Die) : (onDie d f s).zeroLines = s.zeroLines := rfl
@[simp] theorem onDie_bad (d : DieId) (f : Die → Die) : (onDie d f s).bad = s.bad := rfl
@[simp] theorem onDie_releases (d : DieId) (f : Die → Die) : (onDie d f s).releases = s.releases := rfl
@[simp] theorem onDie_images (d : DieId) (f : Die → Die) : (onDie d f s).images = s.images := rfl
@[simp] theorem onDie_grids (d : DieId) (f : Die → Die) : (onDie d f s).grids = s.grids := rfl
@[simp] theorem onDie_groups (d : DieId) (f : Die → Die) : (onDie d f s).groups = s.groups := rfl
@[simp] theorem onDie_copies (d : DieId) (f : Die → Die) : (onDie d f s).copies = s.copies := rfl
@[simp] theorem onDie_copyStarts (d : DieId) (f : Die → Die) : (onDie d f s).copyStarts = s.copyStarts := rfl
@[simp] theorem onDie_flits (d : DieId) (f : Die → Die) : (onDie d f s).flits = s.flits := rfl
@[simp] theorem onDie_yard0 (d : DieId) (f : Die → Die) : (onDie d f s).yard0 = s.yard0 := rfl
@[simp] theorem onDie_privOps (d : DieId) (f : Die → Die) : (onDie d f s).privOps = s.privOps := rfl
@[simp] theorem onDie_handleCtr (d : DieId) (f : Die → Die) : (onDie d f s).handleCtr = s.handleCtr := rfl
@[simp] theorem onDie_mcRev (d : DieId) (f : Die → Die) : (onDie d f s).mcRev = s.mcRev := rfl
@[simp] theorem onDie_clockKhz (d : DieId) (f : Die → Die) : (onDie d f s).clockKhz = s.clockKhz := rfl
@[simp] theorem onDie_cycle (d : DieId) (f : Die → Die) : (onDie d f s).cycle = s.cycle := rfl
@[simp] theorem onDie_nextId (d : DieId) (f : Die → Die) : (onDie d f s).nextId = s.nextId := rfl
@[simp] theorem onDie_free (d : DieId) (f : Die → Die) : (onDie d f s).free = s.free := rfl
@[simp] theorem onDie_agenda (d : DieId) (f : Die → Die) : (onDie d f s).agenda = s.agenda := rfl
@[simp] theorem onDie_inputs (d : DieId) (f : Die → Die) : (onDie d f s).inputs = s.inputs := rfl
@[simp] theorem onDie_outbox (d : DieId) (f : Die → Die) : (onDie d f s).outbox = s.outbox := rfl
@[simp] theorem onDie_issue (d : DieId) (f : Die → Die) : (onDie d f s).issue = s.issue := rfl

@[simp] theorem onHub_cores (f : Hub → Hub) : (onHub f s).cores = s.cores := rfl
@[simp] theorem onHub_ctxs (f : Hub → Hub) : (onHub f s).ctxs = s.ctxs := rfl
@[simp] theorem onHub_queues (f : Hub → Hub) : (onHub f s).queues = s.queues := rfl
@[simp] theorem onHub_tiles (f : Hub → Hub) : (onHub f s).tiles = s.tiles := rfl
@[simp] theorem onHub_dies (f : Hub → Hub) : (onHub f s).dies = s.dies := rfl
@[simp] theorem onHub_layout (f : Hub → Hub) : (onHub f s).layout = s.layout := rfl
@[simp] theorem onHub_mem (f : Hub → Hub) : (onHub f s).mem = s.mem := rfl
@[simp] theorem onHub_zeroLines (f : Hub → Hub) : (onHub f s).zeroLines = s.zeroLines := rfl
@[simp] theorem onHub_bad (f : Hub → Hub) : (onHub f s).bad = s.bad := rfl
@[simp] theorem onHub_releases (f : Hub → Hub) : (onHub f s).releases = s.releases := rfl
@[simp] theorem onHub_images (f : Hub → Hub) : (onHub f s).images = s.images := rfl
@[simp] theorem onHub_grids (f : Hub → Hub) : (onHub f s).grids = s.grids := rfl
@[simp] theorem onHub_groups (f : Hub → Hub) : (onHub f s).groups = s.groups := rfl
@[simp] theorem onHub_copies (f : Hub → Hub) : (onHub f s).copies = s.copies := rfl
@[simp] theorem onHub_copyStarts (f : Hub → Hub) : (onHub f s).copyStarts = s.copyStarts := rfl
@[simp] theorem onHub_flits (f : Hub → Hub) : (onHub f s).flits = s.flits := rfl
@[simp] theorem onHub_yard0 (f : Hub → Hub) : (onHub f s).yard0 = s.yard0 := rfl
@[simp] theorem onHub_privOps (f : Hub → Hub) : (onHub f s).privOps = s.privOps := rfl
@[simp] theorem onHub_handleCtr (f : Hub → Hub) : (onHub f s).handleCtr = s.handleCtr := rfl
@[simp] theorem onHub_mcRev (f : Hub → Hub) : (onHub f s).mcRev = s.mcRev := rfl
@[simp] theorem onHub_clockKhz (f : Hub → Hub) : (onHub f s).clockKhz = s.clockKhz := rfl
@[simp] theorem onHub_cycle (f : Hub → Hub) : (onHub f s).cycle = s.cycle := rfl
@[simp] theorem onHub_nextId (f : Hub → Hub) : (onHub f s).nextId = s.nextId := rfl
@[simp] theorem onHub_free (f : Hub → Hub) : (onHub f s).free = s.free := rfl
@[simp] theorem onHub_agenda (f : Hub → Hub) : (onHub f s).agenda = s.agenda := rfl
@[simp] theorem onHub_inputs (f : Hub → Hub) : (onHub f s).inputs = s.inputs := rfl
@[simp] theorem onHub_outbox (f : Hub → Hub) : (onHub f s).outbox = s.outbox := rfl
@[simp] theorem onHub_issue (f : Hub → Hub) : (onHub f s).issue = s.issue := rfl

@[simp] theorem onMem_cores (f : Mem → Mem) : (onMem f s).cores = s.cores := rfl
@[simp] theorem onMem_ctxs (f : Mem → Mem) : (onMem f s).ctxs = s.ctxs := rfl
@[simp] theorem onMem_queues (f : Mem → Mem) : (onMem f s).queues = s.queues := rfl
@[simp] theorem onMem_tiles (f : Mem → Mem) : (onMem f s).tiles = s.tiles := rfl
@[simp] theorem onMem_dies (f : Mem → Mem) : (onMem f s).dies = s.dies := rfl
@[simp] theorem onMem_layout (f : Mem → Mem) : (onMem f s).layout = s.layout := rfl
@[simp] theorem onMem_hub (f : Mem → Mem) : (onMem f s).hub = s.hub := rfl
@[simp] theorem onMem_zeroLines (f : Mem → Mem) : (onMem f s).zeroLines = s.zeroLines := rfl
@[simp] theorem onMem_bad (f : Mem → Mem) : (onMem f s).bad = s.bad := rfl
@[simp] theorem onMem_releases (f : Mem → Mem) : (onMem f s).releases = s.releases := rfl
@[simp] theorem onMem_images (f : Mem → Mem) : (onMem f s).images = s.images := rfl
@[simp] theorem onMem_grids (f : Mem → Mem) : (onMem f s).grids = s.grids := rfl
@[simp] theorem onMem_groups (f : Mem → Mem) : (onMem f s).groups = s.groups := rfl
@[simp] theorem onMem_copies (f : Mem → Mem) : (onMem f s).copies = s.copies := rfl
@[simp] theorem onMem_copyStarts (f : Mem → Mem) : (onMem f s).copyStarts = s.copyStarts := rfl
@[simp] theorem onMem_flits (f : Mem → Mem) : (onMem f s).flits = s.flits := rfl
@[simp] theorem onMem_yard0 (f : Mem → Mem) : (onMem f s).yard0 = s.yard0 := rfl
@[simp] theorem onMem_privOps (f : Mem → Mem) : (onMem f s).privOps = s.privOps := rfl
@[simp] theorem onMem_handleCtr (f : Mem → Mem) : (onMem f s).handleCtr = s.handleCtr := rfl
@[simp] theorem onMem_mcRev (f : Mem → Mem) : (onMem f s).mcRev = s.mcRev := rfl
@[simp] theorem onMem_clockKhz (f : Mem → Mem) : (onMem f s).clockKhz = s.clockKhz := rfl
@[simp] theorem onMem_cycle (f : Mem → Mem) : (onMem f s).cycle = s.cycle := rfl
@[simp] theorem onMem_nextId (f : Mem → Mem) : (onMem f s).nextId = s.nextId := rfl
@[simp] theorem onMem_free (f : Mem → Mem) : (onMem f s).free = s.free := rfl
@[simp] theorem onMem_agenda (f : Mem → Mem) : (onMem f s).agenda = s.agenda := rfl
@[simp] theorem onMem_inputs (f : Mem → Mem) : (onMem f s).inputs = s.inputs := rfl
@[simp] theorem onMem_outbox (f : Mem → Mem) : (onMem f s).outbox = s.outbox := rfl
@[simp] theorem onMem_issue (f : Mem → Mem) : (onMem f s).issue = s.issue := rfl

@[simp] theorem onIssue_cores (f : Issue → Issue) : (onIssue f s).cores = s.cores := rfl
@[simp] theorem onIssue_ctxs (f : Issue → Issue) : (onIssue f s).ctxs = s.ctxs := rfl
@[simp] theorem onIssue_queues (f : Issue → Issue) : (onIssue f s).queues = s.queues := rfl
@[simp] theorem onIssue_tiles (f : Issue → Issue) : (onIssue f s).tiles = s.tiles := rfl
@[simp] theorem onIssue_dies (f : Issue → Issue) : (onIssue f s).dies = s.dies := rfl
@[simp] theorem onIssue_layout (f : Issue → Issue) : (onIssue f s).layout = s.layout := rfl
@[simp] theorem onIssue_hub (f : Issue → Issue) : (onIssue f s).hub = s.hub := rfl
@[simp] theorem onIssue_mem (f : Issue → Issue) : (onIssue f s).mem = s.mem := rfl
@[simp] theorem onIssue_zeroLines (f : Issue → Issue) : (onIssue f s).zeroLines = s.zeroLines := rfl
@[simp] theorem onIssue_bad (f : Issue → Issue) : (onIssue f s).bad = s.bad := rfl
@[simp] theorem onIssue_releases (f : Issue → Issue) : (onIssue f s).releases = s.releases := rfl
@[simp] theorem onIssue_images (f : Issue → Issue) : (onIssue f s).images = s.images := rfl
@[simp] theorem onIssue_grids (f : Issue → Issue) : (onIssue f s).grids = s.grids := rfl
@[simp] theorem onIssue_groups (f : Issue → Issue) : (onIssue f s).groups = s.groups := rfl
@[simp] theorem onIssue_copies (f : Issue → Issue) : (onIssue f s).copies = s.copies := rfl
@[simp] theorem onIssue_copyStarts (f : Issue → Issue) : (onIssue f s).copyStarts = s.copyStarts := rfl
@[simp] theorem onIssue_flits (f : Issue → Issue) : (onIssue f s).flits = s.flits := rfl
@[simp] theorem onIssue_yard0 (f : Issue → Issue) : (onIssue f s).yard0 = s.yard0 := rfl
@[simp] theorem onIssue_privOps (f : Issue → Issue) : (onIssue f s).privOps = s.privOps := rfl
@[simp] theorem onIssue_handleCtr (f : Issue → Issue) : (onIssue f s).handleCtr = s.handleCtr := rfl
@[simp] theorem onIssue_mcRev (f : Issue → Issue) : (onIssue f s).mcRev = s.mcRev := rfl
@[simp] theorem onIssue_clockKhz (f : Issue → Issue) : (onIssue f s).clockKhz = s.clockKhz := rfl
@[simp] theorem onIssue_cycle (f : Issue → Issue) : (onIssue f s).cycle = s.cycle := rfl
@[simp] theorem onIssue_nextId (f : Issue → Issue) : (onIssue f s).nextId = s.nextId := rfl
@[simp] theorem onIssue_free (f : Issue → Issue) : (onIssue f s).free = s.free := rfl
@[simp] theorem onIssue_agenda (f : Issue → Issue) : (onIssue f s).agenda = s.agenda := rfl
@[simp] theorem onIssue_inputs (f : Issue → Issue) : (onIssue f s).inputs = s.inputs := rfl
@[simp] theorem onIssue_outbox (f : Issue → Issue) : (onIssue f s).outbox = s.outbox := rfl

@[simp] theorem onGroup_cores (g : Nat) (f : Group → Group) : (onGroup g f s).cores = s.cores := rfl
@[simp] theorem onGroup_ctxs (g : Nat) (f : Group → Group) : (onGroup g f s).ctxs = s.ctxs := rfl
@[simp] theorem onGroup_queues (g : Nat) (f : Group → Group) : (onGroup g f s).queues = s.queues := rfl
@[simp] theorem onGroup_tiles (g : Nat) (f : Group → Group) : (onGroup g f s).tiles = s.tiles := rfl
@[simp] theorem onGroup_dies (g : Nat) (f : Group → Group) : (onGroup g f s).dies = s.dies := rfl
@[simp] theorem onGroup_layout (g : Nat) (f : Group → Group) : (onGroup g f s).layout = s.layout := rfl
@[simp] theorem onGroup_hub (g : Nat) (f : Group → Group) : (onGroup g f s).hub = s.hub := rfl
@[simp] theorem onGroup_mem (g : Nat) (f : Group → Group) : (onGroup g f s).mem = s.mem := rfl
@[simp] theorem onGroup_zeroLines (g : Nat) (f : Group → Group) : (onGroup g f s).zeroLines = s.zeroLines := rfl
@[simp] theorem onGroup_bad (g : Nat) (f : Group → Group) : (onGroup g f s).bad = s.bad := rfl
@[simp] theorem onGroup_releases (g : Nat) (f : Group → Group) : (onGroup g f s).releases = s.releases := rfl
@[simp] theorem onGroup_images (g : Nat) (f : Group → Group) : (onGroup g f s).images = s.images := rfl
@[simp] theorem onGroup_grids (g : Nat) (f : Group → Group) : (onGroup g f s).grids = s.grids := rfl
@[simp] theorem onGroup_copies (g : Nat) (f : Group → Group) : (onGroup g f s).copies = s.copies := rfl
@[simp] theorem onGroup_copyStarts (g : Nat) (f : Group → Group) : (onGroup g f s).copyStarts = s.copyStarts := rfl
@[simp] theorem onGroup_flits (g : Nat) (f : Group → Group) : (onGroup g f s).flits = s.flits := rfl
@[simp] theorem onGroup_yard0 (g : Nat) (f : Group → Group) : (onGroup g f s).yard0 = s.yard0 := rfl
@[simp] theorem onGroup_privOps (g : Nat) (f : Group → Group) : (onGroup g f s).privOps = s.privOps := rfl
@[simp] theorem onGroup_handleCtr (g : Nat) (f : Group → Group) : (onGroup g f s).handleCtr = s.handleCtr := rfl
@[simp] theorem onGroup_mcRev (g : Nat) (f : Group → Group) : (onGroup g f s).mcRev = s.mcRev := rfl
@[simp] theorem onGroup_clockKhz (g : Nat) (f : Group → Group) : (onGroup g f s).clockKhz = s.clockKhz := rfl
@[simp] theorem onGroup_cycle (g : Nat) (f : Group → Group) : (onGroup g f s).cycle = s.cycle := rfl
@[simp] theorem onGroup_nextId (g : Nat) (f : Group → Group) : (onGroup g f s).nextId = s.nextId := rfl
@[simp] theorem onGroup_free (g : Nat) (f : Group → Group) : (onGroup g f s).free = s.free := rfl
@[simp] theorem onGroup_agenda (g : Nat) (f : Group → Group) : (onGroup g f s).agenda = s.agenda := rfl
@[simp] theorem onGroup_inputs (g : Nat) (f : Group → Group) : (onGroup g f s).inputs = s.inputs := rfl
@[simp] theorem onGroup_outbox (g : Nat) (f : Group → Group) : (onGroup g f s).outbox = s.outbox := rfl
@[simp] theorem onGroup_issue (g : Nat) (f : Group → Group) : (onGroup g f s).issue = s.issue := rfl

@[simp] theorem onGrid_cores (g : Nat) (f : Grid → Grid) : (onGrid g f s).cores = s.cores := rfl
@[simp] theorem onGrid_ctxs (g : Nat) (f : Grid → Grid) : (onGrid g f s).ctxs = s.ctxs := rfl
@[simp] theorem onGrid_queues (g : Nat) (f : Grid → Grid) : (onGrid g f s).queues = s.queues := rfl
@[simp] theorem onGrid_tiles (g : Nat) (f : Grid → Grid) : (onGrid g f s).tiles = s.tiles := rfl
@[simp] theorem onGrid_dies (g : Nat) (f : Grid → Grid) : (onGrid g f s).dies = s.dies := rfl
@[simp] theorem onGrid_layout (g : Nat) (f : Grid → Grid) : (onGrid g f s).layout = s.layout := rfl
@[simp] theorem onGrid_hub (g : Nat) (f : Grid → Grid) : (onGrid g f s).hub = s.hub := rfl
@[simp] theorem onGrid_mem (g : Nat) (f : Grid → Grid) : (onGrid g f s).mem = s.mem := rfl
@[simp] theorem onGrid_zeroLines (g : Nat) (f : Grid → Grid) : (onGrid g f s).zeroLines = s.zeroLines := rfl
@[simp] theorem onGrid_bad (g : Nat) (f : Grid → Grid) : (onGrid g f s).bad = s.bad := rfl
@[simp] theorem onGrid_releases (g : Nat) (f : Grid → Grid) : (onGrid g f s).releases = s.releases := rfl
@[simp] theorem onGrid_images (g : Nat) (f : Grid → Grid) : (onGrid g f s).images = s.images := rfl
@[simp] theorem onGrid_groups (g : Nat) (f : Grid → Grid) : (onGrid g f s).groups = s.groups := rfl
@[simp] theorem onGrid_copies (g : Nat) (f : Grid → Grid) : (onGrid g f s).copies = s.copies := rfl
@[simp] theorem onGrid_copyStarts (g : Nat) (f : Grid → Grid) : (onGrid g f s).copyStarts = s.copyStarts := rfl
@[simp] theorem onGrid_flits (g : Nat) (f : Grid → Grid) : (onGrid g f s).flits = s.flits := rfl
@[simp] theorem onGrid_yard0 (g : Nat) (f : Grid → Grid) : (onGrid g f s).yard0 = s.yard0 := rfl
@[simp] theorem onGrid_privOps (g : Nat) (f : Grid → Grid) : (onGrid g f s).privOps = s.privOps := rfl
@[simp] theorem onGrid_handleCtr (g : Nat) (f : Grid → Grid) : (onGrid g f s).handleCtr = s.handleCtr := rfl
@[simp] theorem onGrid_mcRev (g : Nat) (f : Grid → Grid) : (onGrid g f s).mcRev = s.mcRev := rfl
@[simp] theorem onGrid_clockKhz (g : Nat) (f : Grid → Grid) : (onGrid g f s).clockKhz = s.clockKhz := rfl
@[simp] theorem onGrid_cycle (g : Nat) (f : Grid → Grid) : (onGrid g f s).cycle = s.cycle := rfl
@[simp] theorem onGrid_nextId (g : Nat) (f : Grid → Grid) : (onGrid g f s).nextId = s.nextId := rfl
@[simp] theorem onGrid_free (g : Nat) (f : Grid → Grid) : (onGrid g f s).free = s.free := rfl
@[simp] theorem onGrid_agenda (g : Nat) (f : Grid → Grid) : (onGrid g f s).agenda = s.agenda := rfl
@[simp] theorem onGrid_inputs (g : Nat) (f : Grid → Grid) : (onGrid g f s).inputs = s.inputs := rfl
@[simp] theorem onGrid_outbox (g : Nat) (f : Grid → Grid) : (onGrid g f s).outbox = s.outbox := rfl
@[simp] theorem onGrid_issue (g : Nat) (f : Grid → Grid) : (onGrid g f s).issue = s.issue := rfl

@[simp] theorem emit_cores (m : OutMsg) : (emit m s).cores = s.cores := rfl
@[simp] theorem emit_ctxs (m : OutMsg) : (emit m s).ctxs = s.ctxs := rfl
@[simp] theorem emit_queues (m : OutMsg) : (emit m s).queues = s.queues := rfl
@[simp] theorem emit_tiles (m : OutMsg) : (emit m s).tiles = s.tiles := rfl
@[simp] theorem emit_dies (m : OutMsg) : (emit m s).dies = s.dies := rfl
@[simp] theorem emit_layout (m : OutMsg) : (emit m s).layout = s.layout := rfl
@[simp] theorem emit_hub (m : OutMsg) : (emit m s).hub = s.hub := rfl
@[simp] theorem emit_mem (m : OutMsg) : (emit m s).mem = s.mem := rfl
@[simp] theorem emit_zeroLines (m : OutMsg) : (emit m s).zeroLines = s.zeroLines := rfl
@[simp] theorem emit_bad (m : OutMsg) : (emit m s).bad = s.bad := rfl
@[simp] theorem emit_releases (m : OutMsg) : (emit m s).releases = s.releases := rfl
@[simp] theorem emit_images (m : OutMsg) : (emit m s).images = s.images := rfl
@[simp] theorem emit_grids (m : OutMsg) : (emit m s).grids = s.grids := rfl
@[simp] theorem emit_groups (m : OutMsg) : (emit m s).groups = s.groups := rfl
@[simp] theorem emit_copies (m : OutMsg) : (emit m s).copies = s.copies := rfl
@[simp] theorem emit_copyStarts (m : OutMsg) : (emit m s).copyStarts = s.copyStarts := rfl
@[simp] theorem emit_flits (m : OutMsg) : (emit m s).flits = s.flits := rfl
@[simp] theorem emit_yard0 (m : OutMsg) : (emit m s).yard0 = s.yard0 := rfl
@[simp] theorem emit_privOps (m : OutMsg) : (emit m s).privOps = s.privOps := rfl
@[simp] theorem emit_handleCtr (m : OutMsg) : (emit m s).handleCtr = s.handleCtr := rfl
@[simp] theorem emit_mcRev (m : OutMsg) : (emit m s).mcRev = s.mcRev := rfl
@[simp] theorem emit_clockKhz (m : OutMsg) : (emit m s).clockKhz = s.clockKhz := rfl
@[simp] theorem emit_cycle (m : OutMsg) : (emit m s).cycle = s.cycle := rfl
@[simp] theorem emit_nextId (m : OutMsg) : (emit m s).nextId = s.nextId := rfl
@[simp] theorem emit_free (m : OutMsg) : (emit m s).free = s.free := rfl
@[simp] theorem emit_agenda (m : OutMsg) : (emit m s).agenda = s.agenda := rfl
@[simp] theorem emit_inputs (m : OutMsg) : (emit m s).inputs = s.inputs := rfl
@[simp] theorem emit_issue (m : OutMsg) : (emit m s).issue = s.issue := rfl

@[simp] theorem later_cores (l : List Activity) : (later l s).cores = s.cores := rfl
@[simp] theorem later_ctxs (l : List Activity) : (later l s).ctxs = s.ctxs := rfl
@[simp] theorem later_queues (l : List Activity) : (later l s).queues = s.queues := rfl
@[simp] theorem later_tiles (l : List Activity) : (later l s).tiles = s.tiles := rfl
@[simp] theorem later_dies (l : List Activity) : (later l s).dies = s.dies := rfl
@[simp] theorem later_layout (l : List Activity) : (later l s).layout = s.layout := rfl
@[simp] theorem later_hub (l : List Activity) : (later l s).hub = s.hub := rfl
@[simp] theorem later_mem (l : List Activity) : (later l s).mem = s.mem := rfl
@[simp] theorem later_zeroLines (l : List Activity) : (later l s).zeroLines = s.zeroLines := rfl
@[simp] theorem later_bad (l : List Activity) : (later l s).bad = s.bad := rfl
@[simp] theorem later_releases (l : List Activity) : (later l s).releases = s.releases := rfl
@[simp] theorem later_images (l : List Activity) : (later l s).images = s.images := rfl
@[simp] theorem later_grids (l : List Activity) : (later l s).grids = s.grids := rfl
@[simp] theorem later_groups (l : List Activity) : (later l s).groups = s.groups := rfl
@[simp] theorem later_copies (l : List Activity) : (later l s).copies = s.copies := rfl
@[simp] theorem later_copyStarts (l : List Activity) : (later l s).copyStarts = s.copyStarts := rfl
@[simp] theorem later_flits (l : List Activity) : (later l s).flits = s.flits := rfl
@[simp] theorem later_yard0 (l : List Activity) : (later l s).yard0 = s.yard0 := rfl
@[simp] theorem later_privOps (l : List Activity) : (later l s).privOps = s.privOps := rfl
@[simp] theorem later_handleCtr (l : List Activity) : (later l s).handleCtr = s.handleCtr := rfl
@[simp] theorem later_mcRev (l : List Activity) : (later l s).mcRev = s.mcRev := rfl
@[simp] theorem later_clockKhz (l : List Activity) : (later l s).clockKhz = s.clockKhz := rfl
@[simp] theorem later_cycle (l : List Activity) : (later l s).cycle = s.cycle := rfl
@[simp] theorem later_nextId (l : List Activity) : (later l s).nextId = s.nextId := rfl
@[simp] theorem later_free (l : List Activity) : (later l s).free = s.free := rfl
@[simp] theorem later_inputs (l : List Activity) : (later l s).inputs = s.inputs := rfl
@[simp] theorem later_outbox (l : List Activity) : (later l s).outbox = s.outbox := rfl
@[simp] theorem later_issue (l : List Activity) : (later l s).issue = s.issue := rfl

/-! ### What each lift makes of its part -/

@[simp] theorem onCore_core (k : CoreId) (f : Core → Core) : (onCore k f s).core k = f (s.core k) := by
  simp [State.core, onCore]

theorem onCore_core_other (k j : CoreId) (f : Core → Core) (h : j ≠ k) : (onCore k f s).core j = s.core j := by
  simp only [State.core, onCore]
  exact vset_other _ _ _ _ h

@[simp] theorem onWave_wave (k : CoreId) (w : SlotId) (f : Wave → Wave) : (onWave k w f s).wave k w = f (s.wave k w) := by
  simp [State.wave, onWave, onCore]

theorem onWave_wave_other (k : CoreId) (w v : SlotId) (f : Wave → Wave) (h : v ≠ w) : (onWave k w f s).wave k v = s.wave k v := by
  simp only [State.wave, onWave, onCore, Fin.getElem_fin, vset_same_val]
  exact vset_other _ _ _ _ h

theorem onWave_core (k : CoreId) (w : SlotId) (f : Wave → Wave) :
    (onWave k w f s).core k = { s.core k with waves := vset (s.core k).waves w f } := by
  simp [onWave]

theorem onWave_core_other (k j : CoreId) (w : SlotId) (f : Wave → Wave) (h : j ≠ k) : (onWave k w f s).core j = s.core j :=
  onCore_core_other k j _ h

theorem wave_eq (k : CoreId) (w : SlotId) : s.wave k w = (s.core k).waves[w] := rfl

@[simp] theorem onCtx_ctx (c : CtxId) (f : Ctx → Ctx) : (onCtx c f s).ctx c = f (s.ctx c) := by
  simp [State.ctx, onCtx]

theorem onCtx_ctx_other (c d : CtxId) (f : Ctx → Ctx) (h : d ≠ c) : (onCtx c f s).ctx d = s.ctx d := by
  simp only [State.ctx, onCtx]
  exact vset_other _ _ _ _ h

@[simp] theorem onIssue_issue (f : Issue → Issue) : (onIssue f s).issue = f s.issue := rfl
@[simp] theorem onHub_hub (f : Hub → Hub) : (onHub f s).hub = f s.hub := rfl
@[simp] theorem onMem_mem (f : Mem → Mem) : (onMem f s).mem = f s.mem := rfl
@[simp] theorem emit_outbox (m : OutMsg) : (emit m s).outbox = s.outbox ++ [m] := rfl

@[simp] theorem onQueue_queue (q : QueueId) (f : HostQ → HostQ) : (onQueue q f s).queues[q] = f s.queues[q] := by
  simp [onQueue]

@[simp] theorem onTile_tile (t : TileId) (f : Tile → Tile) : (onTile t f s).tiles[t] = f s.tiles[t] := by
  simp [onTile]

@[simp] theorem onDie_die (d : DieId) (f : Die → Die) : (onDie d f s).dies[d] = f s.dies[d] := by
  simp [onDie]

/-- A lift to a part of a core leaves the parts that its function leaves. -/
theorem onCore_same (k j : CoreId) (f : Core → Core) {α : Type} (p : Core → α) (h : ∀ c, p (f c) = p c) :
    p ((onCore k f s).core j) = p (s.core j) := by
  by_cases e : j = k
  · subst e; simp [h]
  · rw [onCore_core_other k j f e]

/-! ### Waves -/

@[simp] theorem onUnit_unit (w : Wave) (u : VUnit) (f : UnitRegs → UnitRegs) : (w.onUnit u f).unit u = f (w.unit u) := by
  simp [Wave.onUnit, Wave.unit]

theorem unitIdx_injective : Function.Injective unitIdx := by
  intro u v h
  cases u <;> cases v <;> first | rfl | exact absurd h (by decide)

theorem onUnit_unit_other (w : Wave) (u v : VUnit) (f : UnitRegs → UnitRegs) (h : v ≠ u) : (w.onUnit u f).unit v = w.unit v := by
  simp only [Wave.onUnit, Wave.unit]
  exact vset_other _ _ _ _ (fun e => h (unitIdx_injective e))

end Sys2Proof.Machine
end

