-- ==== Sys2Proof/Laws/Shared.lean ====
section
/-!
SUPPORT. What the operations that many meanings share can do: multi-byte numbers, fault records, traps, jumps, operations
that go on after issue, semaphore additions.
-/

namespace Sys2Proof.Machine

open Sys2Proof

/-! ### Little-endian numbers (R3) -/

@[simp] theorem leBytes_length (n x : Nat) : (leBytes n x).length = n := by
  induction n generalizing x with
  | zero => rfl
  | succ n ih => simp [leBytes, ih]

/-- A number laid out in n bytes and read back is that number modulo 2^(8n). -/
theorem leNat_leBytes (n x : Nat) : leNat (leBytes n x) = x % 256 ^ n := by
  induction n generalizing x with
  | zero => simp [leBytes, leNat, Nat.mod_one]
  | succ n ih =>
    simp only [leBytes, leNat, ih, BitVec.toNat_ofNat]
    rw [show (2 : Nat) ^ 8 = 256 by rfl, pow_succ, Nat.mul_comm (256 ^ n) 256, Nat.mod_mul]

theorem memBytes_eq (m : Mem) (a n : Nat) : memBytes m a n = (List.range n).map fun i => memRead m (a + i) := by
  induction n generalizing a with
  | zero => rfl
  | succ n ih =>
    rw [memBytes, ih, List.range_succ_eq_map]
    simp only [List.map_cons, List.map_map, Nat.add_zero]
    congr 1
    apply List.map_congr_left
    intro i _
    simp only [Function.comp, Nat.succ_eq_add_one]
    rw [show a + 1 + i = a + (i + 1) by omega]

/-- Bytes inside a stored run read as that part of the run. -/
theorem memBytes_memStore {m : Mem} (h : Memory.wf m = true) (a : Nat) (l : List Byte) (i n : Nat) (hi : i + n ≤ l.length) :
    memBytes (memStore m a l) (a + i) n = (l.drop i).take n := by
  rw [memBytes_eq]
  apply List.ext_getElem
  · simp; omega
  · intro j h1 h2
    simp only [List.getElem_map, List.getElem_range, List.getElem_take, List.getElem_drop]
    have hj : j < n := by simpa using h1
    rw [memRead_memStore h, if_pos (by omega), show a + i + j - a = i + j by omega, List.getD_eq_getElem?_getD,
      List.getElem?_eq_getElem (by omega)]
    rfl

theorem memNat_memStore {m : Mem} (h : Memory.wf m = true) (a : Nat) (l : List Byte) (i n : Nat) (hi : i + n ≤ l.length) :
    memNat (memStore m a l) (a + i) n = leNat ((l.drop i).take n) := by
  unfold memNat; rw [memBytes_memStore h a l i n hi]

/-! ### Fault records (R428) -/

@[simp] theorem record_length (r : FaultRec) (c : Nat) : (r.bytes c).length = 64 := by simp [FaultRec.bytes]

/-- Entering a record whose area can be reached writes its 64 bytes and counts it. -/
theorem recordFault_eq {s : State} {c : CtxId} {r : FaultRec} {pa : Nat} (ha : (s.ctx c).area ≠ 0)
    (hp : areaAddr s c (0x400 + 64 * ((s.ctx c).faultCnt.toNat % 64)) true = .ok pa) :
    recordFault c r s = ((s.ctx c).faultCnt,
      onCtx c (fun x => { x with faultCnt := x.faultCnt + 1 }) (storeBytes (byteWs pa (r.bytes s.cycle)) s)) := by
  have e : faultIn c r s = some ((s.ctx c).faultCnt,
      onCtx c (fun x => { x with faultCnt := x.faultCnt + 1 }) (storeBytes (byteWs pa (r.bytes s.cycle)) s)) := by
    simp only [faultIn]; rw [if_neg ha, hp]
  simp only [recordFault, e]

@[simp] theorem storeBytes_ctxs (ws : List ByteW) (s : State) : (storeBytes ws s).ctxs = s.ctxs := by
  simp only [storeBytes, kBytes, drain]
  cases (List.getLast? _) with
  | none => rfl
  | some m =>
    simp only [kEntries]
    generalize List.filter (fun e : MergeE => decide (e.id ≤ m.id)) (pendingEntries s) = l
    induction l generalizing s with
    | nil => rfl
    | cons e l ih =>
      rw [List.foldl_cons, ih]
      unfold kEntry dropEntries
      split <;> rfl

theorem storeBytes_ctx (ws : List ByteW) (s : State) (c : CtxId) : (storeBytes ws s).ctx c = s.ctx c := by
  simp [State.ctx]

/-- A field between what stands before it and what stands after it. -/
theorem leNat_field {l pre post : List Byte} {i n x : Nat} (e : l = pre ++ (leBytes n x ++ post)) (hi : pre.length = i) :
    leNat ((l.drop i).take n) = x % 256 ^ n := by
  subst e hi
  rw [List.drop_left, List.take_left' (leBytes_length n x), leNat_leBytes]

/-- The fields of a record among its bytes. -/
theorem bytes_fields (r : FaultRec) (cycle : Nat) :
    leNat (((r.bytes cycle).drop 0).take 1) = r.kind % 256 ^ 1 ∧ leNat (((r.bytes cycle).drop 1).take 1) = r.code % 256 ^ 1
      ∧ leNat (((r.bytes cycle).drop 0x20).take 8) = r.d0 % 256 ^ 8
      ∧ leNat (((r.bytes cycle).drop 0x28).take 8) = r.d1 % 256 ^ 8
      ∧ leNat (((r.bytes cycle).drop 0x38).take 8) = cycle % 256 ^ 8 := by
  have e := FaultRec.bytes.eq_1 r cycle
  simp only [List.append_assoc] at e
  rw [e]
  refine ⟨leNat_field (pre := []) rfl rfl, leNat_field (pre := leBytes 1 r.kind) rfl (leBytes_length _ _),
    leNat_field (post := leBytes 8 r.d1 ++ (leBytes 8 r.d2 ++ leBytes 8 cycle)) (pre := leBytes 1 r.kind ++ (leBytes 1 r.code ++ (leBytes 2 0 ++ (leBytes 2 r.core ++ (leBytes 1 r.slot ++ (leBytes 1 0
      ++ (leBytes 4 r.grid ++ (leBytes 4 r.group ++ (leBytes 4 r.pc ++ (leBytes 4 r.lanes ++ leBytes 8 r.addr))))))))))
      (by simp only [List.append_assoc]) (by simp only [List.length_append, leBytes_length]),
    leNat_field (post := leBytes 8 r.d2 ++ leBytes 8 cycle) (pre := leBytes 1 r.kind ++ (leBytes 1 r.code ++ (leBytes 2 0 ++ (leBytes 2 r.core ++ (leBytes 1 r.slot ++ (leBytes 1 0
      ++ (leBytes 4 r.grid ++ (leBytes 4 r.group ++ (leBytes 4 r.pc ++ (leBytes 4 r.lanes ++ (leBytes 8 r.addr
      ++ leBytes 8 r.d0)))))))))))
      (by simp only [List.append_assoc]) (by simp only [List.length_append, leBytes_length]),
    leNat_field (post := []) (pre := leBytes 1 r.kind ++ (leBytes 1 r.code ++ (leBytes 2 0 ++ (leBytes 2 r.core ++ (leBytes 1 r.slot
      ++ (leBytes 1 0 ++ (leBytes 4 r.grid ++ (leBytes 4 r.group ++ (leBytes 4 r.pc ++ (leBytes 4 r.lanes ++ (leBytes 8 r.addr
      ++ (leBytes 8 r.d0 ++ (leBytes 8 r.d1 ++ leBytes 8 r.d2)))))))))))))
      (by simp only [List.append_assoc, List.append_nil]) (by simp only [List.length_append, leBytes_length])⟩

/-- The fields of a record as they stand in memory. -/
theorem record_fields {m : Mem} (h : Memory.wf m = true) {pa : Nat} (r : FaultRec) (cycle : Nat) {n : Mem}
    (hn : n = memStore m pa (r.bytes cycle)) :
    memNat n (pa + 0) 1 = r.kind % 256 ^ 1 ∧ memNat n (pa + 1) 1 = r.code % 256 ^ 1 ∧ memNat n (pa + 0x20) 8 = r.d0 % 256 ^ 8
      ∧ memNat n (pa + 0x28) 8 = r.d1 % 256 ^ 8 ∧ memNat n (pa + 0x38) 8 = cycle % 256 ^ 8 := by
  have g (i k : Nat) (hi : i + k ≤ 64) : memNat n (pa + i) k = leNat (((r.bytes cycle).drop i).take k) := by
    rw [hn]; exact memNat_memStore h pa (r.bytes cycle) i k (by rw [record_length]; exact hi)
  rw [g 0 1 (by decide), g 1 1 (by decide), g 0x20 8 (by decide), g 0x28 8 (by decide), g 0x38 8 (by decide)]
  exact bytes_fields r cycle

/-- Entering a record leaves what `RecordIn` says. -/
theorem recordFault_recordIn (s : State) (c : CtxId) (r : FaultRec) :
    RecordIn s (recordFault c r s).2 c r.kind r.code r.d0 r.d1 := by
  intro pa hs ha hp
  have e := congrArg Prod.snd (recordFault_eq (r := r) ha hp)
  have hm : (recordFault c r s).2.mem = memStore s.mem pa (r.bytes s.cycle) := by
    generalize r.bytes s.cycle = l at e ⊢
    rw [e]; exact (storeBytes_plain hs _).trans (memByteWs_byteWs _ _ _)
  have hc : ((recordFault c r s).2.ctx c).faultCnt = (s.ctx c).faultCnt + 1 := by
    rw [e]; simp only [onCtx_ctx, storeBytes_ctx]
  generalize (recordFault c r s).2 = t at hm hc
  have f := record_fields hs.2 _ _ hm
  exact ⟨hc, f⟩

/-! ### Traps (R410-R414, R430) -/

/-- What a trap makes of a split is `TrappedAs`. -/
theorem trap_trappedAs (x : Split) (i : TrapInfo) : TrappedAs x i.code i.arg i.addr i.record i.pc (x.trap i) := by
  simp only [TrappedAs, Split.trap]
  congr 1
  cases x.released <;> simp

theorem queueTrap_wave (k : CoreId) (w : SlotId) (r : RecId) (s : State) (j : CoreId) (v : SlotId) :
    (queueTrap k w r s).wave j v = s.wave j v := by
  have e : ∀ f : Core → Core, (∀ c, (f c).waves = c.waves) → ((onCore k f s).core j).waves = (s.core j).waves := by
    intro f hf
    by_cases h : j = k
    · subst h; rw [onCore_core]; exact hf _
    · rw [onCore_core_other _ _ _ h]
  exact congrArg (fun x : Vector Wave 48 => x[v]) (e _ fun _ => rfl)

/-- A trap of a whole split that is no stint's: the split is trapped, its wave's other splits and every other wave stay, and
memory stays. -/
theorem trapSplit_spec {k : CoreId} {w : SlotId} {s : State} (h : (s.wave k w).kind ≠ .stint) (r : RecId) (i : TrapInfo) (m : Mask) :
    (trapSplit k w r i m s).mem = s.mem
      ∧ TrappedAs (s.wave k w).splits[r] i.code i.arg i.addr i.record i.pc ((trapSplit k w r i m s).wave k w).splits[r]
      ∧ (∀ q : RecId, q ≠ r → ((trapSplit k w r i m s).wave k w).splits[q] = (s.wave k w).splits[q])
      ∧ ∀ v, v ≠ w → (trapSplit k w r i m s).wave k v = s.wave k v := by
  have e : ∀ v, (trapSplit k w r i m s).wave k v = (onWave k w (fun x =>
      { (x.markLanes m i.code.code) with splits := vset x.splits r fun y => y.trap i }) s).wave k v := by
    intro v
    simp only [trapSplit, h, if_false]
    split
    · rfl
    · exact queueTrap_wave _ _ _ _ _ _
  refine ⟨?_, ?_, ?_, ?_⟩
  · simp only [trapSplit, h, if_false]; split <;> rfl
  · rw [e, onWave_wave, vset_same]; exact trap_trappedAs _ _
  · intro q hq; rw [e, onWave_wave, vset_other _ _ _ _ hq]
  · intro v hv; rw [e]; simp [onWave, onCore, State.wave, vset_other _ _ _ _ hv]

/-! ### The issuing split goes on -/

/-- A split sent to a target closes there with its bundle's gap; its wave's other splits, registers and memory stay. -/
theorem sendTo_spec (p : Option Word) (s : State) :
    (sendTo p s).mem = s.mem ∧ (sendTo p s).issue = { s.issue with flow := true }
      ∧ (sendTo p s).iw.splits[s.issue.split] = ((s.is).close s.issue.hdr.gap.val).goTo p
      ∧ (∀ q : RecId, q ≠ s.issue.split → (sendTo p s).iw.splits[q] = s.iw.splits[q])
      ∧ { (sendTo p s).iw with splits := s.iw.splits } = s.iw := by
  have e : (sendTo p s).iw = { s.iw with splits := vset s.iw.splits s.issue.split fun x => (x.close s.issue.hdr.gap.val).goTo p } := by
    simp only [sendTo, onIs, onSplit, onIssue, State.iw]
    exact onWave_wave _ _ _
  refine ⟨rfl, rfl, ?_, ?_, ?_⟩
  · rw [e, vset_same]; rfl
  · intro q hq; rw [e, vset_other _ _ _ _ hq]
  · rw [e]

/-! ### Operations that go on after issue (R373) -/

/-- An operation that starts is one more in the list; nothing but the counters of names and free values changes. -/
theorem startPriv_spec (kind : PrivKind) (sem : Option Byte) (due : Nat) (s : State) :
    ∃ p : PrivOp, (startPriv kind sem due s).privOps = s.privOps ++ [p] ∧ p.id = s.nextId ∧ p.kind = kind ∧ p.due = due
      ∧ p.core = s.issue.core ∧ p.slot = s.issue.slot ∧ p.wave = s.iw.uid ∧ p.ctx = s.iw.ctx ∧ p.started = false
      ∧ { startPriv kind sem due s with privOps := s.privOps, nextId := s.nextId, free := s.free } = s :=
  ⟨_, rfl, rfl, rfl, rfl, rfl, rfl, rfl, rfl, rfl, rfl⟩

/-- A finished operation leaves the list and adds 1 to the semaphore it names. -/
theorem donePriv_spec (p : PrivOp) (s : State) :
    (donePriv p s).privOps = s.privOps.filter (fun q => q.id ≠ p.id)
      ∧ (donePriv p s).mem = s.mem ∧ (donePriv p s).ctxs = s.ctxs
      ∧ ((donePriv p s).core p.core).addsNext = (s.core p.core).addsNext ++ doneAdds p.sem 1 := by
  cases h : p.sem <;> simp [donePriv, complete, h, dropPriv, addNext, doneAdds, onCore, State.core]

end Sys2Proof.Machine
end

