-- ==== Sys2Proof/Laws/Trigger.lean ====
section
/-!
SUPPORT. What a slot that runs does: its effect alone (`act_passes`); what a trigger makes of the state, once for every
v slot (`trigger_spec`); which lanes act.
-/

namespace Sys2Proof.Machine

open Sys2Proof

/-! ### Masks and lane vectors -/

@[simp] theorem laneBit_maskOf (f : Lane → Bool) (l : Lane) : laneBit (maskOf f) l = f l := by
  simp [laneBit, maskOf]

theorem allLanes_get (l : Lane) : allLanes[l.val]'(by have := l.isLt; simp [allLanes]) = l := by
  revert l; decide

@[simp] theorem lanes_of_get {α : Type} (f : Lane → α) (l : Lane) : (Lanes.of f)[(l : Nat)] = f l := by
  simp only [Lanes.of, Vector.getElem_mk, List.getElem_toArray, List.getElem_map]
  rw [allLanes_get]

@[simp] theorem blend_get {α : Type} (m : Mask) (x y : Lanes α) (l : Lane) :
    (Lanes.blend m x y)[(l : Nat)] = if laneBit m l then x[(l : Nat)] else y[(l : Nat)] := by
  simp [Lanes.blend]

theorem mem_allLanes (l : Lane) : l ∈ allLanes := by revert l; decide

@[simp] theorem mem_lanesOf (m : Mask) (l : Lane) : l ∈ lanesOf m ↔ laneBit m l = true := by
  simp [lanesOf, mem_allLanes]

/-! ### The issuing wave -/

@[simp] theorem onIw_iw (f : Wave → Wave) (s : State) : (onIw f s).iw = f s.iw := onWave_wave _ _ _
@[simp] theorem onIw_issue (f : Wave → Wave) (s : State) : (onIw f s).issue = s.issue := rfl
@[simp] theorem onIw_ctx (f : Wave → Wave) (s : State) (c : CtxId) : (onIw f s).ctx c = s.ctx c := rfl
@[simp] theorem onIssue_iw_same (f : Issue → Issue) (s : State) (h : (f s.issue).core = s.issue.core)
    (g : (f s.issue).slot = s.issue.slot) : (onIssue f s).iw = s.iw := by
  simp [State.iw, h, g, State.wave]

/-! ### A slot that passes -/

/-- A slot against which nothing stands has its effect. -/
theorem act_passes {i : Instr} {s : State} (h : Passes s i) (eff : State → State) : act i eff s = eff s := by
  rcases h.2 with c | v
  · simp [act, c]
  · simp [act, v]

/-! ### The lanes that act -/

theorem laneBit_full (l : Lane) : laneBit fullMask l = true := by revert l; decide

theorem pathMask_iff (leaf : Lanes (Fin 5)) (p : Path) (l : Lane) :
    laneBit (pathMask leaf p) l = true ↔ (p = .all ∨ p = .leaf leaf[l]) := by
  cases p with
  | all => simp [pathMask, laneBit_full]
  | leaf k => simp only [pathMask, laneBit_maskOf, decide_eq_true_eq, reduceCtorEq, false_or, Path.leaf.injEq]; exact eq_comm

theorem guardMask_iff (w : Wave) (g : Guard) (l : Lane) :
    laneBit (guardMask w g) l = true ↔ ((g.pred = 0 ∨ laneBit w.p[g.pred] l = true) ↔ g.neg = false) := by
  simp only [guardMask, laneBit_maskOf, Wave.readP]
  cases g.neg <;> simp

theorem laneBit_and (a b : Mask) (l : Lane) : laneBit (a &&& b) l = true ↔ laneBit a l = true ∧ laneBit b l = true := by
  simp only [laneBit, BitVec.getLsbD_and, Bool.and_eq_true]

theorem acts_iff (s : State) (g : Guard) (p : Path) (l : Lane) : laneBit (enabled s g p) l = true ↔ Acts s g p l := by
  rw [enabled, laneBit_and, laneBit_and, pathMask_iff, guardMask_iff, Acts, and_assoc]

/-! ### Transports -/

@[simp] theorem transportV_iw (w : VWord) (n : VInfo) (s : State) : (transportV w n s).iw =
    s.iw.onUnit w.unit fun u =>
      { u with a := Lanes.blend (enabled s w.f.guard w.f.path) (Lanes.of fun l => (vPorts s w n l).1) u.a,
               b := Lanes.blend (enabled s w.f.guard w.f.path) (Lanes.of fun l => (vPorts s w n l).2.1) u.b,
               t := Lanes.blend (enabled s w.f.guard w.f.path) (Lanes.of fun l => (vPorts s w n l).2.2) u.t } := by
  unfold transportV
  exact (onIssue_iw_same _ _ rfl rfl).trans (onIw_iw _ _)

@[simp] theorem transportV_issue (w : VWord) (n : VInfo) (s : State) : (transportV w n s).issue =
    { s.issue with pops := s.issue.pops + (vPops w n).1 + (vPops w n).2.1 + (vPops w n).2.2 } := rfl

@[simp] theorem transportV_ctx (w : VWord) (n : VInfo) (s : State) (c : CtxId) : (transportV w n s).ctx c = s.ctx c := rfl

theorem onUnit_p (w : Wave) (u : VUnit) (f : UnitRegs → UnitRegs) : (w.onUnit u f).p = w.p := rfl
theorem onUnit_splits (w : Wave) (u : VUnit) (f : UnitRegs → UnitRegs) : (w.onUnit u f).splits = w.splits := rfl

/-- Transports enable and disable no lane. -/
@[simp] theorem enabled_transportV (w : VWord) (n : VInfo) (s : State) (g : Guard) (p : Path) :
    enabled (transportV w n s) g p = enabled s g p := by
  simp [enabled, State.is, guardMask, Wave.readP, onUnit_p, onUnit_splits]

/-! ### Operands -/

theorem mk64_toNat (lo hi : Word) : (mk64 lo hi).toNat = lo.toNat + 2 ^ 32 * hi.toNat := by
  simp only [mk64, BitVec.toNat_append]
  rw [← Nat.shiftLeft_add_eq_or_of_lt lo.isLt, Nat.shiftLeft_eq]; ring

/-- A V register reads as its word or as one that an unsettled deposit keeps (R63). -/
theorem readV_reads (s : State) (pos : Nat) (n : Fin 256) (l : Lane) : VReads s n l (readV s pos n l).toNat := by
  have fold (g : Unsettled × Nat → Bool) : ∀ (us : List (Unsettled × Nat)) (x : Word),
      (∀ u ∈ us, u.1 ∈ s.iw.unsettled) → VReads s n l x.toNat →
      VReads s n l (us.foldl (fun x u => if u.1.reg = n && laneBit u.1.lanes l && g u then u.1.old[l] else x) x).toNat := by
    intro us
    induction us with
    | nil => intro x _ h; exact h
    | cons u us ih =>
      intro x hu h
      refine ih _ (fun v hv => hu v (List.mem_cons_of_mem _ hv)) ?_
      dsimp only
      split
      · next hc =>
        simp only [Bool.and_eq_true, decide_eq_true_eq] at hc
        exact .inr ⟨u.1, hu u List.mem_cons_self, hc.1.1, hc.1.2, rfl⟩
      · exact h
  simp only [readV]
  refine fold (fun u => decide (Config.choice (s.issue.draw + 256 * pos + n.val) / 2 ^ (32 * u.2 + l.val) % 2 = 1)) _ _
    (fun u hu => ?_) (.inl rfl)
  exact List.fst_mem_of_mem_zipIdx hu

/-- `readSrc` reads what the specifier names (R56-R58). -/
theorem readSrc_reads (s : State) (pos : Nat) (src : Src) (wide : Bool) (off : Nat) (port : DWord) (l : Lane) :
    Reads s src wide off l port (readSrc s pos src wide off port l) := by
  cases src with
  | v n =>
    have h := readV_reads s pos n l
    cases wide
    · simpa [Reads, readSrc, mk64_toNat] using h
    · exact ⟨_, _, h, readV_reads s pos (vnext n) l, by simp [readSrc, mk64_toNat]⟩
  | a n => cases wide <;> simp only [Reads, readSrc, Wave.readA, lo32, BitVec.zeroExtend, BitVec.toNat_setWidth, if_true, Bool.false_eq_true, if_false]; split <;> simp; omega
  | p n => cases wide <;> simp [Reads, readSrc, Wave.readP]
  | latch u hi =>
    have h := ((s.iw.unit u).q[(l : Nat)]).isLt
    cases wide <;> cases hi <;> simp [Reads, readSrc, latchVal, lo32, hi32] <;> omega
  | sys v => 
    have h := (sysVal s s.issue.core s.iw v l).isLt
    cases wide <;> simp only [Reads, readSrc, BitVec.zeroExtend, BitVec.toNat_setWidth] <;> omega
  | peek k => cases wide <;> simp [Reads, readSrc, mk64_toNat, queueWord, queueAt]
  | pop => cases wide <;> simp [Reads, readSrc, mk64_toNat, queueWord, queueAt]
  | imm k => 
    cases wide
    · revert k; simp only [Reads, readSrc]; decide
    · revert k; simp only [Reads, readSrc]; decide
  | lit k => cases wide <;> simp [Reads, readSrc, mk64_toNat, litWord]
  | keep => cases wide <;> rfl

/-! ### A busy unit and a result in flight -/

theorem onCore_iw (k : CoreId) (f : Core → Core) (s : State) (h : ∀ c, (f c).waves = c.waves) : (onCore k f s).iw = s.iw := by
  have e := onCore_same (s := s) k s.issue.core f (fun c => c.waves) h
  simp only [State.core] at e
  simp only [State.iw, State.wave, onCore_issue, e]

@[simp] theorem occupy_iw (i : Instr) (s : State) : (occupy i s).iw = s.iw := by
  unfold occupy
  split
  · apply onCore_iw
    intro c; split <;> rfl
  · rfl

@[simp] theorem occupy_issue (i : Instr) (s : State) : (occupy i s).issue = s.issue := by
  unfold occupy; split <;> rfl
@[simp] theorem occupy_nextId (i : Instr) (s : State) : (occupy i s).nextId = s.nextId := by
  unfold occupy; split <;> rfl
@[simp] theorem occupy_ctx (i : Instr) (s : State) (c : CtxId) : (occupy i s).ctx c = s.ctx c := by
  unfold occupy; split <;> rfl
@[simp] theorem occupy_enabled (i : Instr) (s : State) (g : Guard) (p : Path) : enabled (occupy i s) g p = enabled s g p := by
  simp [enabled, State.is]

/-- The result that a trigger puts in flight. -/
def launchedFlight (i : Instr) (w : VWord) (n : VInfo) (o : VOut) (s : State) : Flight :=
  { id := s.nextId, unit := w.unit, val := o.val, chain := o.chain, count := o.count,
    en := enabled s w.f.guard w.f.path, left := Lanes.all (vLatency i), dep := w.f.dep, wide := resBits w n = 64,
    cond := o.cond, enb := (s.ctx s.iw.ctx).fptrap, raised := 0 }

theorem launch_iw (i : Instr) (w : VWord) (n : VInfo) (o : VOut) (s : State) :
    (launch i w n o s).iw = { s.iw with flights := s.iw.flights ++ [launchedFlight i w n o s] } := by
  simp only [launch, fresh]
  exact onIw_iw _ s

/-- Everything a trigger does to the issuing wave: the unit's ports, and one result in flight. -/
theorem trigger_spec {i : Instr} {w : VWord} {n : VInfo} (h : vInfo i = some (w, n)) (g : State → VWord → VOut) (s : State) :
    (trigger i g s).iw = { (transportV w n s).iw with
      flights := s.iw.flights ++ [launchedFlight i w n (g (transportV w n s) w) (transportV w n s)] } := by
  simp only [trigger, h, launch_iw, occupy_iw]
  congr 2
  · rw [transportV_iw]; rfl
  · simp only [launchedFlight, occupy_enabled, occupy_nextId, occupy_ctx, occupy_iw]

/-- The conditions of what a slot's unit computes in a lane that acts. -/
theorem outOf_cond (s : State) (w : VWord) (g : Lane → DWord → DWord → DWord → DWord × Cond) (l : Lane)
    (h : laneBit (enabled s w.f.guard w.f.path) l = true) :
    (outOf s w g).cond[(l : Nat)] =
      (g l (s.iw.unit w.unit).a[(l : Nat)] (s.iw.unit w.unit).b[(l : Nat)] (s.iw.unit w.unit).t[(l : Nat)]).2 := by
  simp [outOf, h, unitPorts]

/-- What a slot's unit computes in a lane that acts, from the ports. -/
theorem outOf_val (s : State) (w : VWord) (g : Lane → DWord → DWord → DWord → DWord × Cond) (l : Lane)
    (h : laneBit (enabled s w.f.guard w.f.path) l = true) :
    (outOf s w g).val[(l : Nat)] =
      (g l (s.iw.unit w.unit).a[(l : Nat)] (s.iw.unit w.unit).b[(l : Nat)] (s.iw.unit w.unit).t[(l : Nat)]).1 := by
  simp [outOf, h, unitPorts]

/-- The shape of every result claim: a slot that passes triggers its unit, and what it computes in each acting lane stands
in the relation R to its ports. -/
theorem triggers_of {i : Instr} {w : VWord} {n : VInfo} {s : State} {g : State → VWord → VOut}
    {R : Lane → DWord → DWord → DWord → DWord → Cond → Prop} {ticks : Nat} {f : VSlot} (hv : vInfo i = some (w, n)) (hf : w.f = f)
    (he : exec i s = .next (act i (trigger i g) s)) (hp : Passes s i) (ht : vLatency i = ticks)
    (hR : ∀ l, Acts s f.guard f.path l → R l ((transportV w n s).iw.unit w.unit).a[l] ((transportV w n s).iw.unit w.unit).b[l]
      ((transportV w n s).iw.unit w.unit).t[l] (g (transportV w n s) w).val[l] (g (transportV w n s) w).cond[l]) :
    Triggers i w.unit ticks f s R := by
  subst hf
  refine ⟨trigger i g s, launchedFlight i w n (g (transportV w n s) w) (transportV w n s), by rw [he, act_passes hp], ?_, rfl,
    rfl, ?_, ?_, ?_⟩
  · rw [trigger_spec hv]
  · simp [launchedFlight, ht]
  · intro l; rw [← acts_iff]; simp [launchedFlight]
  · intro l hl
    rw [trigger_spec hv]
    exact hR l hl

/-! ### The frame of a v slot -/

/-- What every v slot leaves: all but its unit's ports, results in flight, chain records and repeat intervals of its core,
the issue context and the counter of names (R54, R65, R69). -/
def VFrame (u : VUnit) (s t : State) : Prop :=
  { t.iw with units := s.iw.units, flights := s.iw.flights, dfas := s.iw.dfas, chainOpen := s.iw.chainOpen,
                    chainTy := s.iw.chainTy } = s.iw
      ∧ (∀ v, (t.iw.unit v).q = (s.iw.unit v).q) ∧ (∀ v, v ≠ u → t.iw.unit v = s.iw.unit v)
      ∧ (∀ v, v ≠ s.issue.slot → t.wave s.issue.core v = s.wave s.issue.core v)
      ∧ (∀ c, c = s.core s.issue.core →
          { t.core s.issue.core with waves := c.waves, fmaBusy := c.fmaBusy, xfBusy := c.xfBusy, strBusy := c.strBusy } = c)
      ∧ (∀ k, k ≠ s.issue.core → t.core k = s.core k)
      ∧ { t with cores := s.cores, nextId := s.nextId, issue := s.issue } = s
      ∧ t.issue.core = s.issue.core ∧ t.issue.slot = s.issue.slot

/-- Frames compose. -/
theorem VFrame.trans {u} {a b c : State} (h : VFrame u a b) (g : VFrame u b c) : VFrame u a c := by
  obtain ⟨h1, h2, h3, h4, h5, h6, h7, h8, h9⟩ := h
  obtain ⟨g1, g2, g3, g4, g5, g6, g7, g8, g9⟩ := g
  refine ⟨?_, ?_, ?_, ?_, ?_, ?_, ?_, g8.trans h8, g9.trans h9⟩
  · rw [← h1, ← g1]
  · intro v; rw [g2, h2]
  · intro v hv; rw [g3 v hv, h3 v hv]
  · intro v hv; rw [h8, h9] at g4; rw [g4 v hv, h4 v hv]
  · intro x hx; subst hx; rw [h8] at g5
    have a := h5 _ rfl; have b := g5 _ rfl
    conv_rhs => rw [← a, ← b]
  · intro k hk; rw [h8] at g6; rw [g6 k hk, h6 k hk]
  · conv_rhs => rw [← h7, ← g7]

/-- A change of ports, flights and chain records of the issuing wave keeps the frame. -/
theorem frame_iw (u : VUnit) (s : State) (f : Wave → Wave) (h1 : ∀ w, { f w with units := w.units, flights := w.flights, dfas := w.dfas, chainOpen := w.chainOpen, chainTy := w.chainTy } = w)
  (h2 : ∀ w v, ((f w).unit v).q = (w.unit v).q) (h3 : ∀ w v, v ≠ u → (f w).unit v = w.unit v) : VFrame u s (onIw f s) := by
  refine ⟨?_, ?_, ?_, ?_, ?_, ?_, ?_, ?_, ?_⟩
  · simp [h1]
  · simp [h2]
  · intro v hv; simp [h3 _ v hv]
  · intro v hv; exact onWave_wave_other _ _ _ _ hv
  · intro c hc; subst hc; simp [onIw, onWave]
  · intro k hk; exact onWave_core_other _ _ _ _ hk
  · rfl
  · rfl
  · rfl

/-- So does a change of the issue context that names the same wave. -/
theorem frame_issue (u : VUnit) (s t : State) (g : Issue → Issue) (h : VFrame u s t) (hc : (g t.issue).core = t.issue.core)
    (hs : (g t.issue).slot = t.issue.slot) : VFrame u s (onIssue g t) := by
  obtain ⟨h1, h2, h3, h4, h5, h6, h7, h8, h9⟩ := h
  have e : (onIssue g t).iw = t.iw := onIssue_iw_same _ _ hc hs
  rw [VFrame, e]
  exact ⟨h1, h2, h3, h4, h5, h6, h7, hc.trans h8, hs.trans h9⟩

/-- Transports keep the frame. -/
theorem frame_transport (w : VWord) (n : VInfo) (s : State) : VFrame w.unit s (transportV w n s) := by
  unfold transportV
  apply frame_issue
  · apply frame_iw
    · intro w; rfl
    · intro x v
      by_cases h : v = w.unit
      · subst h; simp
      · rw [onUnit_unit_other _ _ _ _ h]
    · intro x v h; rw [onUnit_unit_other _ _ _ _ h]
  · rfl
  · rfl

/-- So does taking the unit. -/
theorem frame_occupy (u) (i : Instr) (s : State) : VFrame u s (occupy i s) := by
  refine ⟨by simp, by simp, by simp, ?_, ?_, ?_, ?_, by simp, by simp⟩
  · intro v hv
    unfold occupy; split
    · next w n h =>
      rw [wave_eq, wave_eq, onCore_core]; split <;> rfl
    · rfl
  · intro c hc; subst hc
    unfold occupy; split
    · rw [onCore_core]; split <;> rfl
    · rfl
  · intro k hk
    unfold occupy; split
    · rw [onCore_core_other _ _ _ hk]
    · rfl
  · unfold occupy; split <;> rfl

/-- So does putting a result in flight. -/
theorem frame_launch (u) (i w n o) (s : State) : VFrame u s (launch i w n o s) := by
  have a : VFrame u s (onIw (fun x => { x with flights := x.flights ++ [launchedFlight i w n o s] }) s) := by
    apply frame_iw <;> intros <;> rfl
  obtain ⟨h1, h2, h3, h4, h5, h6, h7, h8, h9⟩ := a
  exact ⟨h1, h2, h3, h4, h5, h6, h7, h8, h9⟩

/-- A trigger keeps the frame. -/
theorem frame_trigger {i w n} (h : vInfo i = some (w, n)) (g) (s : State) : VFrame w.unit s (trigger i g s) := by
  simp only [trigger, h]
  exact (frame_transport _ _ _).trans ((frame_occupy _ _ _).trans (frame_launch _ _ _ _ _ _))
/-- A trigger leaves the chain records. -/
theorem trigger_chain {i w n} (h : vInfo i = some (w, n)) (g) (s : State) : (trigger i g s).iw.chainOpen = s.iw.chainOpen ∧ (trigger i g s).iw.chainTy = s.iw.chainTy := by
  rw [trigger_spec h]; simp [Wave.onUnit]

/-- Chain control keeps the frame. -/
theorem frame_chain (w : VWord) (s : State) : VFrame w.unit s (chainRecords w s) := by
  unfold chainRecords
  split
  · apply frame_iw <;> intros <;> rfl
  · apply frame_iw <;> intros <;> rfl
  · exact ⟨rfl, fun _ => rfl, fun _ _ => rfl, fun _ _ => rfl, fun _ h => by subst h; rfl, fun _ _ => rfl, rfl, rfl, rfl⟩

end Sys2Proof.Machine
end

