-- ==== Sys2Proof/Tests/Slice0.lean ====
section
/-!
SUPPORT. Tests. For each statement, states and operands that meet what it asks for (witness_<statement>); one ill-formed
instruction for each check of the slot words (test_illformed_); words that the spec's examples build field by field
(test_decode_); the spec's worked examples (the other tests). Expected values come from the spec's tables and examples.
-/

open Sys2Proof Sys2Proof.Machine
namespace Sys2Proof.Tests

set_option Elab.async false

/-! ### States for one step -/

/-- A wave of context 0 on core 0, with one split of every lane, about to issue. -/
def ready : State := fetchPlaced 0 State.reset

/-- Changes that wave. -/
def onW (f : Wave → Wave) (s : State) : State := onWave 0 0 f s

def fields (ty : Ty) (a b c : Src) (dep : Dep) : VSlot :=
  { ty := ty, a := a, b := b, c := c, dep := dep, guard := ⟨false, 0⟩, path := .all, rnd := .rne, chain := .none, sat := false }
def un (ty : Ty) : VSlot := fields ty (.v 8) .keep .keep (.v 20)
def bin (ty : Ty) : VSlot := fields ty (.v 8) (.v 10) .keep (.v 20)
def tern (ty : Ty) : VSlot := fields ty (.v 8) (.v 10) (.v 7) (.v 20)
def ac (ty : Ty) : VSlot := fields ty (.v 8) .keep (.v 6) (.v 20)
/-- Operands of XL: the member mask is the immediate −1, every lane. -/
def xl1 (ty : Ty) : VSlot := fields ty (.v 8) .keep (.imm 63) (.v 20)
def xl2 (ty : Ty) : VSlot := fields ty (.v 8) (.v 10) (.imm 63) (.v 20)

/-- The instruction passes in a state: what `Passes` asks for. -/
def goes (s : State) (i : Instr) : Bool := legal i && decide (slotVerdict s i = .go)

theorem goes_passes {s : State} {i : Instr} (h : goes s i = true) : Passes s i := by
  simp only [goes, Bool.and_eq_true, decide_eq_true_eq] at h
  exact ⟨h.1, .inr h.2⟩

theorem witness_VectorTransports_VectorSlotFrame :
    (∀ i ∈ [Instr.pset .fma { bin .i32 with dep := .none }, .add (bin .i32), .dfa (tern .b32)], (vInfo i).isSome = true ∧ goes ready i = true) := by decide +kernel

theorem witness_IntegerArithmetic : ∀ i ∈ [Instr.add (bin .i32), .sub (bin .n8), .mul (bin .i16), .mulhi (bin .i64), .mad (tern .i32),
    .abs (un .i8), .neg (un .i32), .min (bin .n64), .max (bin .i32), .seteq (bin .b64), .setne (bin .b32), .setlt (bin .i32),
    .setle (bin .n32), .setgt (bin .i8), .setge (bin .i64)], goes ready i = true := by decide +kernel

theorem witness_ShiftsAndFields : ∀ i ∈ [Instr.shl (bin .i32), .shr (bin .i8), .rotl (bin .b32), .rotr (bin .b64), .bfx (ac .i32),
    .bfi (tern .b32)], goes ready i = true := by decide +kernel

theorem witness_BitOperations : ∀ i ∈ [Instr.and (bin .b32), .or (bin .b32), .xor (bin .b64), .not (un .b32), .andn (bin .b32),
    .mov (un .b64), .sel (tern .b32), .plog (tern .b32), .popc (un .b32), .clz (un .b64), .ctz (un .b32), .brev (un .b32),
    .perm (tern .b32)], goes ready i = true := by decide +kernel

theorem witness_FloatArithmetic : ∀ i ∈ [Instr.fadd (bin .f32), .fsub (bin .f64), .fmul (bin .f16), .fma (tern .f32), .fms (tern .bf16),
    .fnma (tern .f32), .fnms (tern .f32)], goes ready i = true := by decide +kernel

/-- The same wave within a chain of type f32. -/
def chained : State := onW (fun x => { x with chainOpen := fullMask }) ready

def chain (f : VSlot) (c : Chain) : VSlot := { f with chain := c, dep := if c = .close then f.dep else .none }

theorem witness_ChainSteps : (∀ i ∈ [Instr.fadd (chain (bin .f32) .opn), .fma (chain (tern .f32) .opn)], goes ready i = true)
    ∧ ∀ i ∈ [Instr.fsub (chain (bin .f32) .cont), .fmul (chain (bin .f32) .cont), .fms (chain (tern .f32) .close),
        .fnma (chain (tern .f32) .cont), .fnms (chain (tern .f32) .close)], goes chained i = true := by decide +kernel

theorem witness_FloatSelections : ∀ i ∈ [Instr.fmin (bin .f32), .fmax (bin .f32), .fabs (un .f64), .fneg (un .f16), .fcps (bin .f32),
    .fclass (un .f32), .fscale (bin .f32), .frnd (un .f32)], goes ready i = true := by decide +kernel

theorem witness_FloatCompares : ∀ i ∈ [Instr.fseteq (bin .f32), .fsetne (bin .f64), .fsetlt (bin .f16), .fsetle (bin .bf16),
    .fsetun (bin .f32)], goes ready i = true := by decide +kernel

theorem witness_Conversions : ∀ i ∈ [Instr.cvt .i32 (un .f32), .cvt .f64 (un .i32), .cvt .f16 (un .f32), .cvt .i8 (un .i32),
    .cvtRna .i32 (un .f32), .cvtSr .bf16 (ac .f32)], goes ready i = true := by decide +kernel

theorem witness_WelfordOperations : ∀ i ∈ [Instr.wupd (tern .f32), .wmrg (fields .f32 (.v 8) (.v 10) (.a 3) (.v 20))],
    goes ready i = true := by decide +kernel

theorem witness_SpecialFunctions : ∀ i ∈ [Instr.rcp (un .f32), .rsqrt (un .f64), .sqrt (un .f32), .exp (un .f32), .exp2 (un .f32),
    .log (un .f32), .log2 (un .f32), .sin (un .f32), .cos (un .f32), .tanh (un .f32), .sigm (un .f32), .div (bin .f32)],
    goes ready i = true := by decide +kernel

theorem witness_DivisionAndHazel : ∀ i ∈ [Instr.idiv (bin .i32), .irem (bin .n64), .hazel (fields .b64 (.v 8) (.v 10) .keep (.v 20))],
    goes ready i = true := by decide +kernel

def lanes : List Lane := List.finRange 32

theorem witness_Members : ∀ f ∈ [xl1 .i32, xl2 .b32, xl1 .f32], Members ready f (lanes) := by
  have h : ∀ f, f.guard = ⟨false, 0⟩ → f.path = .all → f.c = .imm 63 → Members ready f (lanes) := by
    intro f hg hp hc
    refine ⟨by decide, 0xFFFFFFFF, ?_, ?_⟩
    · rw [hc]; simp only [Reads]; decide
    · rw [hg, hp]; unfold Acts; decide +kernel
  intro f hf
  simp only [List.mem_cons, List.not_mem_nil, or_false] at hf
  obtain rfl | rfl | rfl := hf <;> exact h _ rfl rfl rfl

theorem witness_LaneExchange : ∀ i ∈ [Instr.shfl (xl2 .b32), .push (xl2 .b32), .voteAll (xl1 .b32), .voteAny (xl1 .b32), .voteBal (xl1 .b32)],
    goes ready i = true := by decide +kernel

theorem witness_IntegerReductions : ∀ i ∈ [Instr.redAdd (xl1 .i32), .redMul (xl1 .i32), .redMin (xl1 .i32), .redMax (xl1 .i32),
    .scanAdd (xl1 .i32), .scanMul (xl1 .i32), .scanMin (xl1 .i32), .scanMax (xl1 .i32), .redAnd (xl1 .b32), .redOr (xl1 .b32),
    .redXor (xl1 .b32)], goes ready i = true := by decide +kernel

theorem witness_FloatReductions : tyFloat (xl1 .f32).ty = true ∧ ∀ i ∈ [Instr.redAdd (xl1 .f32), .redMul (xl1 .f32), .redMin (xl1 .f32),
    .redMax (xl1 .f32), .scanAdd (xl1 .f32), .scanMul (xl1 .f32), .scanMin (xl1 .f32), .scanMax (xl1 .f32)], goes ready i = true := by
  decide +kernel

theorem witness_StringOperations : ∀ i ∈ [Instr.scmp (tern .b32), .seq (tern .b32), .spfx (tern .b32), .sfind (tern .b32),
    .crc32c (bin .b64), .hmix (bin .b32), .fold (un .b32), .dfa (tern .b32)], goes ready i = true := by
  decide +kernel

/-! ### Results and accesses in flight -/

/-- A result in flight: for every lane, with so many ticks left, a condition and the enabled ones. -/
def result (id : Nat) (left : Nat) (cond enb : BitVec 3) : Flight :=
  { id := id, unit := .ial, val := Lanes.all 7, chain := none, count := none, en := fullMask, left := Lanes.all left, dep := .v 20,
    wide := false, cond := Lanes.all cond, enb := enb, raised := 0 }

def landing (l : List Flight) : State := onW (fun x => { x with flights := l }) ready

theorem witness_ResultLanding :
    (∀ f ∈ ((landing [result 0 0 0 0, result 1 1 0 0]).wave 0 0).flights, f.id < (landing [result 0 0 0 0, result 1 1 0 0]).nextId)
    ∧ (result 0 0 0 0).left[0] = 0 ∧ (result 0 0 0 0).cond[0] &&& 0 = 0
    ∧ (∀ f ∈ ((landing [result 0 0 1 1]).wave 0 0).flights, f.id < (landing [result 0 0 1 1]).nextId)
    ∧ (result 0 0 1 1).cond[0] &&& (result 0 0 1 1).enb ≠ 0 ∧ laneBit ((landing [result 0 0 1 1]).wave 0 0).splits[(0 : RecId)].mask 0 = true := by
  decide +kernel

/-- Pages of context 0 in core 0's TLB: HBM at 0, Yard at 2 MiB, a window at 4 MiB, exact-sum cells at 6 MiB. -/
def pageAt (n kind pa : Nat) (cells : Bool) : Tlb :=
  { ctx := 0, gen := 0, page := n * 2097152, size := 65536, pa := pa, kind := kind, sumcell := cells, det := false, user := true, write := true,
    read := true, win := 0 }

def window0 : Win := { rule := 1, elem := 4, signed := false, owner := 0, base := 0x400000, length := 65536, home := 0, committed := 0x200000 }
def domain0 : Domain := { id := 5, rank := 0, p := 1, ovfBase := 0, ovfLen := 0, formed := true, stopped := false }

/-- Memory that a wave of context 0 reaches: the pages above, semaphore S0, and A1 to A4 at the pages. -/
def mapped : State :=
  onW (fun x => { x with a := ((x.a.set 2 0x200000).set 3 0x400000).set 4 0x600000 })
    (onCore 0 (fun c => { c with
        tlb := [pageAt 0 0 0x100000 false, pageAt 1 1 yardBase false, pageAt 2 2 0 false, pageAt 3 1 (yardBase + 65536) true],
        semMap := c.semMap.set 0 ((c.semMap[0]).set 0 ⟨true, 3⟩) })
      (onCtx 0 (fun x => { x with ptroot := 1, windows := x.windows.set 0 (some window0), domain := some domain0 }) ready))

def ms (base : Fin 32) (size : Size) (b : Src) (dep : Option (Fin 256)) : MSlot :=
  { order := .none, size := size, scope := .w, a := .imm 64, b := b, base := base, sem := 0, dep := dep, guard := ⟨false, 0⟩, path := .all,
    postinc := false }

def mLoads : List Instr :=
  [.ldG (ms 1 .b4 .keep (some 20)), .ldY (ms 2 .b8 .keep (some 20)), .ldAcqG (ms 1 .b4 .keep (some 20)), .ldAcqY (ms 2 .b4 .keep (some 20)),
   .ldW (ms 3 .b4 .keep (some 20)), .ldAcqW (ms 3 .b4 .keep (some 20)), .ldL1 (ms 1 .b4 .keep (some 20)), .ldS (ms 1 .b4 .keep (some 20)),
   .ldc (ms 1 .b1 (.imm 64) none)]
def mStores : List Instr :=
  [.stG (ms 1 .b4 (.v 8) none), .stY (ms 2 .b4 (.v 8) none), .stRelG (ms 1 .b16 (.v 8) none), .stRelY (ms 2 .b4 (.v 8) none),
   .stW (ms 3 .b4 (.v 8) none), .stRelW (ms 3 .b4 (.v 8) none), .stS (ms 1 .b4 (.v 8) none), .zfill (ms 1 .b1 (.imm 64) none),
   .vupd (ms 2 .b4 (.v 8) none), .faddX (ms 4 .b4 (.v 8) (some 20)), .faddY64 (ms 2 .b8 (.v 8) (some 20))]
def mAtoms : List Instr :=
  [Instr.atomGAdd, .atomGMin, .atomGMax, .atomGAnd, .atomGOr, .atomGXor, .atomGXchg, .atomGCas].map (fun i => i (ms 1 .b4 (.v 8) (some 20)))
    ++ [Instr.atomYAdd, .atomYMin, .atomYMax, .atomYAnd, .atomYOr, .atomYXor, .atomYXchg, .atomYCas].map (fun i => i (ms 2 .b4 (.v 8) (some 20)))
theorem witness_QueueEntries : ∀ i ∈ mLoads ++ mStores ++ mAtoms, (mInfo i).isSome = true ∧ goes mapped i = true := by decide +kernel

/-- A shadow wave in context 0 with its compute wave in context 1. -/
def paired (kind : WaveKind) : State :=
  let s := onW (fun x => { x with kind := kind, partner := some 1 }) mapped
  onWave 0 1 (fun _ => { s.iw with uid := 2, kind := if kind = .shadow then .compute else .shadow, partner := some 0 }) s

theorem witness_QueueLoadSlots : ∀ z ∈ [Size.b4, .b8], goes (paired .shadow) (.ldQ (ms 1 z .keep none)) = true
    ∧ (paired .shadow).iw.partner = some 1 ∧ (paired .shadow).is.qslot = none ∧ (paired .shadow).issue.off = none := by decide +kernel

def plainOrder (z : Size) : MSlot := { ms 0 z .keep none with a := .keep }

theorem witness_OtherMemorySlots :
    (∀ i ∈ [Instr.ldSLin (ms 1 .b4 .keep (some 20)), .stSLin (ms 1 .b4 (.v 8) none), .pref (ms 1 .b1 .keep none), .mark (plainOrder .b1),
        .fence (plainOrder .b1), .fence (plainOrder .b2), .markPair (plainOrder .b1)], goes mapped i = true)
    ∧ (∀ k ∈ [WaveKind.shadow, .compute], goes (paired k) (.markPair (plainOrder .b1)) = true ∧ (paired k).iw.kind = k
        ∧ (paired k).iw.partner = some 1) := by decide +kernel

theorem witness_MemorySlotFrame : ∀ i ∈ mLoads ++ mStores ++ mAtoms ++ [Instr.ldSLin (ms 1 .b4 .keep (some 20)), .stSLin (ms 1 .b4 (.v 8) none),
    .pref (ms 1 .b1 .keep none), .mark (plainOrder .b1), .fence (plainOrder .b2)], (mInfo i).isSome = true ∧ goes mapped i = true := by
  decide +kernel

def stepped (z : Size) : MSlot := { ms 1 z .keep (some 20) with postinc := true }
/-- The split re-issues its bundle after a lane fault. -/
def again : State := onSplit 0 0 0 (fun x => { x with abase := some (1, 64) }) mapped

theorem witness_PostIncrement : ∀ s ∈ [mapped, again], goes s (.ldG (stepped .b4)) = true ∧ (stepped .b4).postinc = true ∧ s.iw.live = true
    ∧ s.issue.postinc = none ∧ (s.is.abase = none ∨ s.is.abase ≠ none) ∧ s.issue.cdest ≠ some (stepped .b4).base := by decide +kernel

/-- An entry of the queues, four bytes per lane. -/
def entry (kind : MKind) : MemOp :=
  { id := 1, wave := 1, slot := 0, group := 0, kind := kind, ctx := 0, gen := 0, born := 0, due := 0, pc := 0, size := .b4, en := fullMask,
    ea := Lanes.all 0, acc := Lanes.of fun l => ⟨0x100000 + 4 * l.val, false, 0⟩, data := Lanes.all 7, len := Lanes.all 0, zero := [], acq := false,
    rel := false, scope := .w, dep := some 20, qslots := none, sem := some 3, token := false, tag := 0, seqN := 1, rank := 0, pair := none,
    left := fullMask, failed := 0, atG := false, obs := [], sent := false, got := 0, pages := [] }

def queued (l : List MemOp) : State := onCore 0 (fun c => { c with ops := l }) mapped

/-- An entry alone in its queue may perform. -/
def stands (o : MemOp) : Bool :=
  let s := queued [o]
  decide (findOp s 0 0 1 = some o) && opReady s 0 o && decide (o.failed = 0) && waveHere s 0 0 o.wave

theorem witness_LoadArrival :
    (∀ k ∈ [MKind.load, .gather, .l1load, .winLoad, .qload], stands (entry k) = true ∧ k.loads = true ∧ k ≠ .ldc
        ∧ remoteLanes (queued [entry k]) (entry k) = 0)
    ∧ (queued []).bad = [] ∧ ((queued []).core 0).eccSp = [] ∧ ((queued []).core 0).eccL1 = [] ∧ ((queued []).core 0).l1Fills = [] := by
  decide +kernel

theorem witness_StoreForwarding :
    let s := queued [entry .store]
    (((s.core 0).ops.map (·.id)).Pairwise (· < ·)) ∧ (((s.core 0).merge.map (·.id)).Pairwise (· < ·))
    ∧ (entry .store) ∈ (s.core 0).ops ∧ (entry .store).wave = 1 ∧ (entry .store).id < 2 ∧ (entry .store).atG = false
    ∧ laneBit (entry .store).left 0 = true ∧ laneWrites (entry .store) 0 0x100000 = some ⟨0x100000, 7, 0⟩ := by decide +kernel

/-- An entry of core 0's merge buffer. -/
def pending (id a : Nat) (v : Byte) : MergeE :=
  { id := id, op := 1, wave := 1, slot := 0, lane := 0, bytes := [⟨a, v, 0⟩], zeros := none, due := 0, token := false, gen := 0, ctx := 0 }

def merging (l : List MergeE) : State := onCore 0 (fun c => { c with merge := l }) mapped

theorem witness_StoreForwarding_merge :
    let s := merging [pending 1 0x100000 7, pending 2 0x100000 8]
    (((s.core 0).ops.map (·.id)).Pairwise (· < ·)) ∧ (((s.core 0).merge.map (·.id)).Pairwise (· < ·)) ∧ (s.core 0).ops = []
    ∧ mergeByte (pending 2 0x100000 8) 0x100000 = some ⟨0x100000, 8, 0⟩ ∧ mergeByte (pending 2 0x100000 8) 0x100001 = none := by decide +kernel

theorem witness_StoreEntry :
    (∀ o ∈ [entry .store, { entry .zfill with zero := [(0, 0x100000, 128)] }], stands o = true ∧ o.atG = false ∧ o.sent = false
        ∧ mergeAccepts (queued [o]) 0 o.wave = true)
    ∧ mergeAccepts (onCore 0 (fun c => { c with lastG := [(1, 0)] }) (queued [entry .store])) 0 1 = false
    ∧ (let o := { entry .winStore with acc := Lanes.of fun l => ⟨4 * l.val, false, 0⟩ }
      let s := queued [o]
      stands o = true ∧ o.seqN < 2 ^ 27 ∧ (s.ctx o.ctx).domain ≠ none ∧ (∀ d : DieId, (s.dies[d]).barn.length + 512 ≤ 1048576) ∧ laneBit o.left 0 = true
        ∧ (s.ctx o.ctx).windows[o.acc[0].win] = some window0 ∧ ownsWindow s o.ctx window0 = true ∧ window0.elem ≠ 0
        ∧ 0 < sizeBytes o.size / window0.elem) := by decide +kernel

theorem witness_UpdatesPerform : ∀ o ∈ [entry (.atom 0), { entry (.atom 7) with dep := none }, entry .vupd, { entry .fadd64 with size := .b8 },
      { entry .sumAdd with acc := Lanes.all ⟨yardBase + 65536, true, 0⟩ }],
    stands o = true ∧ o.kind.updates = true ∧ (queued [o]).bad = [] ∧ ((queued [o]).core 0).merge = [] ∧ Memory.wf (queued [o]).mem = true
    ∧ ∀ l : Lane, o.acc[l].cell = true → o.kind = .sumAdd := by decide +kernel

theorem ready_core {k : CoreId} (h : k ≠ 0) : ready.core k = Core.reset false := by
  have e : ready.core k = State.reset.core k := onWave_core_other (s := { State.reset with images := [oneBundleImage 0] }) 0 k 0 _ h
  rw [e]; simp [State.core, State.reset, State.boot]

theorem mapped_core {k : CoreId} (h : k ≠ 0) : mapped.core k = Core.reset false := by
  unfold mapped onW
  rw [onWave_core_other _ _ _ _ h, onCore_core_other _ _ _ h]
  exact ready_core h

theorem witness_UpdatesPerform_merge (o : MemOp) (c : CoreId) : ((queued [o]).core c).merge = [] := by
  by_cases h : c = 0
  · subst h; rw [queued, onCore_core, mapped, onW, onWave_core, onCore_core]
    exact (by decide +kernel : (ready.core 0).merge = [])
  · rw [queued, onCore_core_other _ _ _ h, mapped_core h]; rfl

/-- Indexes of a list of all numbers from i on. -/
theorem idxsFrom_ge {n f i : Nat} {x : Fin n} (h : x ∈ idxsFrom n f i) : i ≤ x.val := by
  induction f generalizing i with
  | zero => simp [idxsFrom] at h
  | succ f ih =>
    rw [idxsFrom] at h
    split at h
    · rcases List.mem_cons.1 h with rfl | h
      · exact Nat.le_refl _
      · exact Nat.le_of_succ_le (ih h)
    · simp at h

theorem merging_entries (l : List MergeE) : allEntries (merging l) = l.map fun e => ((0 : CoreId), e) := by
  have e : idxs 4096 = (0 : CoreId) :: idxsFrom 4096 4095 1 := rfl
  unfold allEntries
  rw [e, List.flatMap_cons, List.flatMap_eq_nil_iff.2, List.append_nil]
  · rw [merging, onCore_core]
  · intro k hk
    have h0 : k ≠ 0 := by intro c; subst c; exact absurd (idxsFrom_ge hk) (by decide)
    rw [merging, onCore_core_other _ _ _ h0, mapped_core h0]; rfl

theorem witness_MergeStepWrites :
    let s := merging [pending 1 0x100000 7, pending 2 0x100000 8]
    let ids := [1, 2]
    let all := allEntries s
    let go := all.filter fun x => ids.contains x.2.id && stepAllows all ids s.cycle x
    go.length = ids.length ∧ Memory.wf s.mem = true ∧ (∀ x ∈ go, (x.2.bytes.map (·.addr)).Nodup)
    ∧ (∀ x ∈ go, entryHits x.2 0x100001 = false)
    ∧ ∃ x ∈ go, mergeByte x.2 0x100000 = some ⟨0x100000, 8, 0⟩ ∧ ∀ y ∈ go, entryHits y.2 0x100000 = true →
        y = x ∨ (stepBefore y x = true ∧ stepBefore x y = false) := by
  intro s ids all go
  have e : all = [((0 : CoreId), pending 1 0x100000 7), (0, pending 2 0x100000 8)] := merging_entries _
  have h : go = [((0 : CoreId), pending 1 0x100000 7), (0, pending 2 0x100000 8)] := by
    show all.filter (fun x => ids.contains x.2.id && stepAllows all ids s.cycle x) = _
    rw [e]; decide +kernel
  rw [h]
  decide +kernel

theorem witness_ExactSumCells : (1 : Nat) < 2 ^ 320 ∧ (0x7FC00000 : Nat) < 2 ^ 32 ∧ (decodeF .f32 0x3F800000).rat.isSome = true
    ∧ decodeF .f32 0x7FC00000 = .nan ∧ Nat.testBit 1 312 = false ∧ Nat.testBit 1 313 = false ∧ Nat.testBit 1 314 = false
    ∧ Nat.testBit 1 315 = false ∧ cellSum 1 ≠ 0 ∧ |cellSum 1| ≤ 2 ^ 310 := by decide +kernel

/-- A `.lin` access, and a DFA step, in their bank cycle. -/
def lin (store : Bool) : LinOp :=
  { id := 1, store := store, off := Lanes.of fun l => BitVec.ofNat 32 (4 * l.val), data := Lanes.all 7, size := .b4, en := fullMask,
    left := Lanes.all 0, dep := .v 20 }
def dfa : DfaOp := { id := 1, off := Lanes.all 2, acc := 0, en := fullMask, left := Lanes.all 0, dep := .v 20 }

theorem witness_LocalStorage :
    (let o := { entry .scatter with acc := Lanes.of fun l => ⟨4 * l.val, false, 0⟩ }
     stands o = true ∧ o.kind = .scatter ∧ Memory.wf ((queued [o]).core 0).scratch = true)
    ∧ (let s := onW (fun x => { x with lins := [lin true] }) mapped
       (s.wave 0 0).linDue true = true ∧ Memory.wf (s.core 0).scratch = true)
    ∧ (let s := onW (fun x => { x with lins := [lin false] }) mapped
       (s.wave 0 0).linDue true = false ∧ (∀ y ∈ (s.core 0).liveWaves, y.2.linDue true = false) ∧ (s.core 0).eccSp = []
        ∧ lin false ∈ (s.wave 0 0).lins ∧ laneBit (lin false).en 0 = true ∧ (lin false).left[0] = 0)
    ∧ (let s := onW (fun x => { x with dfas := [dfa] }) mapped
       (s.core 0).eccL1 = [] ∧ (s.core 0).l1Fills = [] ∧ dfa ∈ (s.wave 0 0).dfas ∧ laneBit dfa.en 0 = true ∧ dfa.left[0] = 0 ∧ (dfa.off[0]).toNat < 65536)
    ∧ (let o := { entry .ldc with ea := Lanes.of fun l => BitVec.ofNat 64 (64 * l.val), len := Lanes.all 64 }
       let p := pageAt 0 0 0x100000 false
       let s := queued [o]
       ∀ l ∈ [(0 : Lane), 31], findOp s 0 0 1 = some o ∧ o.kind = .ldc ∧ laneBit o.left l = true ∧ unitFill (s.core 0) o l = none
        ∧ ldcPage s 0 o l = .ok p ∧ opReady s 0 (o.reach l p) = true ∧ s.bad = [])
    ∧ (let o := { entry .ldc with len := Lanes.all 64 }
       let f : L1Fill := ⟨1, 7, some 3, 31, 0, 64, List.replicate 64 9, [], 0, []⟩
       let s := onCore 0 (fun c => { c with l1Fills := [f] }) (queued [o])
       findOp s 0 0 1 = some o ∧ unitFill (s.core 0) o 31 = some f ∧ f.due ≤ s.cycle ∧ Memory.wf (s.core 0).l1 = true) := by decide +kernel

/-! ### Tables and matrix operations -/

/-- Tables of context 0: three levels lead to a leaf at level 2, the identity for the first GiB of HBM. -/
def tabled (leaf : Nat) : State :=
  onCtx 0 (fun x => { x with ptroot := 0x100001 })
    { ready with mem := memStore (memStore (memStore [] 0x100000 (leBytes 8 0x101001)) 0x101000 (leBytes 8 0x102001)) 0x102000 (leBytes 8 leaf) }

theorem leaf_read (leaf : Nat) (h : memNat (tabled leaf).mem 0x102000 8 = leaf) (e1 : memNat (tabled leaf).mem 0x100000 8 = 0x101001)
    (e2 : memNat (tabled leaf).mem 0x101000 8 = 0x102001) (e3 : (tabled leaf).ctx 0 = (tabled 0).ctx 0)
    (e4 : ∀ a, paReach (tabled leaf) 0 a = paReach (tabled 0) 0 a) : WalkReads (tabled leaf) 0 0x1000 2 (BitVec.ofNat 64 leaf) := by
  have a := WalkReads.root (s := tabled leaf) (c := 0) (va := 0x1000) (by rw [e3]; decide +kernel) 0x100000 (by rw [e3]; decide +kernel)
    (by rw [e4]; decide +kernel) (by decide)
  rw [e1] at a
  have b := WalkReads.next 3 _ a (by decide) (by decide) 0x101000 (by decide) (by rw [e4]; decide +kernel) (by decide)
  rw [e2] at b
  have d := WalkReads.next 2 _ b (by decide) (by decide) 0x102000 (by decide) (by rw [e4]; decide +kernel) (by decide)
  rwa [h] at d

theorem tabled_reads : ∀ leaf ∈ [0x1F, 0x05, 0x0, 0x4000001F], WalkReads (tabled leaf) 0 0x1000 2 (BitVec.ofNat 64 leaf) := by
  have h : ∀ leaf ∈ [0x1F, 0x05, 0x0, 0x4000001F], memNat (tabled leaf).mem 0x102000 8 = leaf ∧ memNat (tabled leaf).mem 0x100000 8 = 0x101001
      ∧ memNat (tabled leaf).mem 0x101000 8 = 0x102001 := by decide +kernel
  intro leaf m
  exact leaf_read leaf (h leaf m).1 (h leaf m).2.1 (h leaf m).2.2 rfl (fun _ => rfl)

/-- A leaf, an ill-formed table entry, an invalid entry, and a leaf whose page is reserved by its kind. -/
theorem witness_PageWalks : (tabled 0).bad = [] ∧ bitsOf 0x1000 63 57 = 0 ∧ bitsOf 0 0 0 = 0
    ∧ (bitsOf 0x05 1 0 = 1 ∧ bitsOf 0x05 8 2 ≠ 0) ∧ bitsOf 0x7F 1 0 = 3 ∧ bitsOf 0x7F 6 5 = 3
    ∧ (bitsOf 0x1F 1 0 = 3 ∧ bitsOf 0x1F 63 56 = 0 ∧ bitsOf 0x1F 11 7 = 0 ∧ bitsOf 0x1F 55 48 = 0 ∧ bitsOf 0x1F 6 5 = 0
      ∧ paReach (tabled 0x1F) 0 0 = true ∧ paReach (tabled 0x1F) 0 (2 ^ 30 - 1) = true)
    ∧ (let x : Walk := ⟨0, 0x1000, 0, none, [(1, 0, 0)]⟩
      let s := onCore 0 (fun c => { c with walks := [x] }) (tabled 0x1F)
      (s.core 0).walks.find? (fun y => y.ctx = 0 && y.va = 0x1000 && y.failed.isNone && y.due ≤ s.cycle) = some x ∧ x.askers ≠ []) := by
  decide +kernel

theorem witness_OverlayPages :
    let o : OverlayRead := ⟨1, 0, 0, 0, [(0x100000, 48), (0x200000, 48)], false⟩
    let s := onCore 0 (fun c => { c with overlays := [o] }) mapped
    (s.core 0).overlays.find? (fun o => o.image = 1 && o.page = 0 && o.due ≤ s.cycle) = some o
    ∧ ∀ x ∈ o.src, s.badIn x.1 x.2 = false := by decide +kernel

def xs (tile : BitVec 10) (ra rb : Fin 32) (count : BitVec 16) (incr : BitVec 3) : XSlot :=
  { fmt := .fp32, mode := .mac, ra := ra, rb := rb, tile := tile, count := count, incr := incr, init := false, circuit := 0 }
def xw (tile : BitVec 10) (ra rb : Fin 32) (count : BitVec 16) : XSlot := { xs tile ra rb count 0 with fmt := .fp64 }

def matrix : State := onW (fun x => { x with a := (x.a.set 5 0x40000).set 6 100 }) mapped

def group7 : Group :=
  ⟨7, 8, 0, 0, 0, .running, [0], 1, 0, 0, [], 4, 0, 0, 0, 0, [], [], false, 0⟩
def grid8 : Grid :=
  ⟨8, 1, 0, 1, 0, 1, 1, 0, 0, none, 0, none, true, 1, 0, 0, 0, none, 0, .placed, none, 1, [], 0, false, false, [], 0⟩

def literals (l : List Word) (s : State) : State := onIssue (fun x => { x with lits := l }) s

/-- The wave's group of one wave, its grid, and an image whose plan has a circuit from its core to itself. -/
def grouped (s : State) : State :=
  onW (fun x => { x with group := 7 })
    { s with groups := [group7], grids := [grid8], images := [{ oneBundleImage 0 with plan := some ([0], [⟨0, 0, 0, 4, 2 ^ 256 - 1⟩], []) }] }

theorem witness_XSlots :
    (∀ i ∈ [Instr.mxl (xs 2 0 5 4 7), .mxr (xs 2 0 0 0x808 0), .mxw (xs 2 0 0 0x108 0), .mxc (xs 2 0 0 0 7), .mxz (xw 2 0 0 3), .kick (xw 0 0 0 1)], goes matrix i = true)
    ∧ (∀ i ∈ [Instr.mxl { xs 2 0 5 8 0 with fmt := .mx8e4 }, .mxc (xs 2 0 0 0 0), .mxc { xs 2 0 0 0 0 with fmt := .mx8e4 }],
        goes (literals [64, 0] matrix) i = true)
    ∧ matrix.is.mask ≠ 0
    ∧ ∀ i ∈ [Instr.csend (xw 0 0 6 0), .crecv (xw 0 0 6 0)], goes (grouped matrix) i = true := by decide +kernel

/-- A matrix operation under way, on FP32 tiles. -/
def mop (op n t next : Nat) (read : Bool) : MxOp :=
  { id := 1, op := op, wave := 1, slot := 0, lane := 0, t := t, fmt := .fp32, mode := .mac, init := false, tile := 2, n := n, pa := 0, pb := 64,
    incA := 64, incB := 64, dispA := 0, dispB := 0, latch := List.replicate 64 0, results := [], scaleA := [], scaleB := [], next := next,
    src := List.replicate 32 0, read := read, regs := 8, left := Lanes.all 0, en := fullMask, rnd := .rne, sat := false, col := false, exp := 0,
    late := false, failed := false }

def armedAt (send : Bool) (cycle : Nat) : Armed := ⟨1, 1, send, 0, 0, cycle, 7, 8, 0⟩

def sequenced (m : MxOp) (l : List Armed) : State := onCore 0 (fun c => { c with mx := [m], armed := l }) matrix

/-- The first step of two, the last, a step whose bank a circuit takes, and the tile write. -/
theorem witness_MatrixSteps :
    (∀ m ∈ [mop 1 2 1 0 false, mop 1 2 2 1 false], mxDue ((sequenced m []).core 0) mxlStepDue = some m
        ∧ circuitTakes (sequenced m []) 0 (mxRanges m) = false ∧ slabBad ((sequenced m []).core 0) (mxRanges m) = false
        ∧ meetsBad ((sequenced m []).core 0).eccAcc (mxlTiles m) = false ∧ m.results = []
        ∧ m.latch.length = tileDim m.fmt * tileDim m.fmt)
    ∧ (let m := mop 1 2 1 0 false
       let s := { sequenced m [armedAt true 0] with grids := [grid8] }
       mxDue (s.core 0) mxlStepDue = some m ∧ circuitTakes s 0 (mxRanges m) = true ∧ (s.wave 0 m.slot).recOf m.lane = some 0)
    ∧ (let m := mop 1 2 6 2 false
       let s := sequenced m []
       mxDue (s.core 0) (fun m => m.op = 1 && m.next = m.n && m.n + 4 ≤ m.t) = some m ∧ m.latch.length = tileDim m.fmt * tileDim m.fmt
        ∧ Memory.wf (s.core 0).acc = true) := by decide +kernel

theorem witness_MatrixMoves_mxrTileRead :
      (let m := mop 2 8 1 0 false
       mxDue ((sequenced m []).core 0) (fun m => m.op = 2 && !m.read && 1 ≤ m.t) = some m ∧ ((sequenced m []).core 0).eccAcc = []) := by decide +kernel
theorem witness_MatrixMoves_mxrRegisterWrite :
      (let m := mop 2 1 4 0 true
       let s := sequenced m []
       m ∈ (s.core 0).mx ∧ (∀ x ∈ (s.core 0).mx, x ≠ m → mxrDue (s.core 0) x = 0) ∧ (s.wave 0 m.slot).flights = [] ∧ mxrDue (s.core 0) m = fullMask) := by decide +kernel
theorem witness_MatrixMoves_mxwTileWrite :
      (let m := mop 3 0 2 0 false
       let s := sequenced m []
       mxDue (s.core 0) (fun m => m.op = 3 && 2 ≤ m.t) = some m ∧ m.src.length = 32 ∧ m.n = 0 ∧ 0 < fmtParts m.fmt ∧ Memory.wf (s.core 0).acc = true) := by decide +kernel
theorem witness_MatrixMoves_mxzTileWrite :
      (let m := mop 5 1 1 0 false
       mxDue ((sequenced m []).core 0) (fun m => m.op = 5 && 1 ≤ m.t) = some m) := by decide +kernel
theorem witness_MatrixMoves_mxcTileRead :
      (let m := mop 4 16 1 0 false
       mxDue ((sequenced m []).core 0) (fun m => m.op = 4 && !m.read && 1 ≤ m.t) = some m ∧ ((sequenced m []).core 0).eccAcc = []) := by decide +kernel
theorem witness_MatrixMoves_mxcSlabWrite :
      (let m := { mop 4 16 3 0 true with src := List.replicate 256 0 }
       let s := sequenced m []
       mxDue (s.core 0) mxcWriteDue = some m ∧ m.next < m.n ∧ circuitTakes s 0 (mxRanges m) = false ∧ fmtMx m.fmt = false
        ∧ Memory.wf (s.core 0).scratch = true) := by
  decide +kernel

/-! ### A flat address space -/

/-- Tables of context 0 that map the first GiB of HBM on itself, for every level and access. -/
def Flat (s : State) : Prop :=
  (s.ctx 0).ptroot = 0x100001 ∧ (∀ d, dieReach s 0 d = true) ∧ s.bad = [] ∧ memNat s.mem 0x100000 8 = 0x101001
    ∧ memNat s.mem 0x101000 8 = 0x102001 ∧ memNat s.mem 0x102000 8 = 0x1F

def flatPage (gen : Word) : Tlb :=
  { ctx := 0, gen := gen, page := 0, size := 2 ^ 30, pa := 0, kind := 0, sumcell := false, det := false, user := true, write := true, read := true, win := 0 }

theorem flat_reach {s : State} (h : Flat s) {a : Nat} (ha : a < hbmTop) : paReach s 0 a = true := by
  simp [paReach, paDie, ha, h.2.1]

theorem flat_walk {s : State} (h : Flat s) {va : DWord} (hv : va.toNat < 2 ^ 30) : walk s 0 va = .ok (flatPage (s.ctx 0).gen) := by
  have e (n k : Nat) (hn : 30 ≤ n) : bits va n k = 0 := by
    have : va.toNat / 2 ^ n = 0 := Nat.div_eq_of_lt (lt_of_lt_of_le hv (Nat.pow_le_pow_right (by decide) hn))
    simp [bits, this]
  obtain ⟨h1, h2, h3, h4, h5, h6⟩ := h
  have fh : Flat s := ⟨h1, h2, h3, h4, h5, h6⟩
  have nb (a : Nat) : s.badAt a = false := by simp [State.badAt, h3]
  have r (a : Nat) (ha : a < hbmTop) : paReach s 0 a = true := flat_reach fh ha
  unfold walk
  rw [h1, e 57 7 (by decide)]
  rw [if_neg (by decide), walkFrom]
  simp only [levelIndex, e _ 9 (by decide : 30 ≤ 12 + 9 * 4)]
  rw [show bits 0x100001 12 36 * 4096 + 8 * 0 = 0x100000 by decide, r _ (by decide), nb, h4]
  simp only [show (decide (0x100000 < hbmTop) && true) = true by decide, Bool.not_true, if_false, Bool.false_eq_true]
  rw [show bit (BitVec.ofNat 64 0x101001) 0 = true by decide, show bit (BitVec.ofNat 64 0x101001) 1 = false by decide]
  simp only [Bool.not_true, if_false, Bool.false_eq_true]
  rw [if_neg (by decide), walkFrom]
  simp only [levelIndex, e _ 9 (by decide : 30 ≤ 12 + 9 * 3)]
  rw [show bits (BitVec.ofNat 64 0x101001) 12 36 * 4096 + 8 * 0 = 0x101000 by decide, r _ (by decide), nb, h5]
  simp only [show (decide (0x101000 < hbmTop) && true) = true by decide, Bool.not_true, if_false, Bool.false_eq_true]
  rw [show bit (BitVec.ofNat 64 0x102001) 0 = true by decide, show bit (BitVec.ofNat 64 0x102001) 1 = false by decide]
  simp only [Bool.not_true, if_false, Bool.false_eq_true]
  rw [if_neg (by decide), walkFrom]
  simp only [levelIndex, e _ 9 (by decide : 30 ≤ 12 + 9 * 2)]
  rw [show bits (BitVec.ofNat 64 0x102001) 12 36 * 4096 + 8 * 0 = 0x102000 by decide, r _ (by decide), nb, h6]
  simp only [show (decide (0x102000 < hbmTop) && true) = true by decide, Bool.not_true, if_false, Bool.false_eq_true]
  rw [show bit (BitVec.ofNat 64 0x1F) 0 = true by decide, show bit (BitVec.ofNat 64 0x1F) 1 = true by decide]
  simp only [Bool.not_true, if_false, Bool.false_eq_true, if_true]
  have l : leafBad s 0 2 (BitVec.ofNat 64 0x1F) = false := by
    have a0 : bits (BitVec.ofNat 64 0x1F) 12 36 * 4096 = 0 := by decide
    have ks : bits (BitVec.ofNat 64 0x1F) 5 2 = 0 := by decide
    have b8 : bit (BitVec.ofNat 64 0x1F) 8 = false := by decide
    unfold leafBad
    simp only [a0, ks, b8, r 0 (by decide), r (0 + 2 ^ pageBits 2 - 1) (by decide), Bool.false_and]
    decide
  rw [l]
  simp only [Bool.false_eq_true, if_false]
  have w : Fin.ofNat 256 (bits (BitVec.ofNat 64 0x1F) 48 8) = 0 := by decide
  simp only [leafPage, flatPage, pageBits, Nat.div_eq_of_lt hv, Nat.zero_mul, show bits (BitVec.ofNat 64 0x1F) 12 36 * 4096 = 0 by decide,
    show bits (BitVec.ofNat 64 0x1F) 5 2 = 0 by decide, show bit (BitVec.ofNat 64 0x1F) 8 = false by decide,
    show bit (BitVec.ofNat 64 0x1F) 7 = false by decide, show bit (BitVec.ofNat 64 0x1F) 4 = true by decide,
    show bit (BitVec.ofNat 64 0x1F) 3 = true by decide, show bit (BitVec.ofNat 64 0x1F) 2 = true by decide, w]

theorem flat_addr {s : State} (h : Flat s) {va : DWord} (hv : va.toNat < 2 ^ 30) (rd wr : Bool) : engineAddr s 0 va rd wr = .ok va.toNat := by
  unfold engineAddr
  rw [flat_walk h hv]
  cases rd <;> cases wr <;> simp [flatPage, Tlb.permits, Tlb.addr]

theorem flat_area {s : State} (h : Flat s) {off : Nat} (hv : (areaVa s 0 off).toNat < 2 ^ 30) (wr : Bool) : areaAddr s 0 off wr = .ok (areaVa s 0 off).toNat := by
  unfold areaAddr
  rw [flat_walk h hv]
  cases wr <;> simp [flatPage, Tlb.addr]

theorem flat_ring {s : State} (h : Flat s) {va : DWord} (hv : va.toNat < 2 ^ 30) (rd wr : Bool) : ringAddr s 0 va rd wr = .ok va.toNat := by
  unfold ringAddr
  rw [flat_walk h hv]
  cases rd <;> cases wr <;> simp [flatPage, Tlb.permits, Tlb.addr]

/-- An address rule that leaves the first GiB where it is. -/
def Keeps (addr : DWord → Except TrapCode Nat) : Prop := ∀ v : DWord, v.toNat < 2 ^ 30 → addr v = .ok v.toNat

theorem keeps_read {s : State} (hb : s.bad = []) {addr : DWord → Except TrapCode Nat} (ha : Keeps addr) {va : DWord} {n : Nat}
    (hv : va.toNat + n < 2 ^ 30) : readVia s addr va n = .ok (memBytes s.mem va.toNat n) := by
  induction n generalizing va with
  | zero => rfl
  | succ n ih =>
    have hs : (va + 1).toNat = va.toNat + 1 := by rw [BitVec.toNat_add]; exact Nat.mod_eq_of_lt (by simp; omega)
    rw [readVia, ha va (by omega), ih (by omega), hs]
    simp [memBytes, State.badAt, hb]

theorem keeps_addrs {addr : DWord → Except TrapCode Nat} (ha : Keeps addr) {va : DWord} {n : Nat} (hv : va.toNat + n < 2 ^ 30) :
    addrsVia addr va n = .ok (List.range' va.toNat n) := by
  induction n generalizing va with
  | zero => rfl
  | succ n ih =>
    have hs : (va + 1).toNat = va.toNat + 1 := by rw [BitVec.toNat_add]; exact Nat.mod_eq_of_lt (by simp; omega)
    rw [addrsVia, ha va (by omega), ih (by omega), hs, List.range'_succ]

theorem flat_read {s : State} (h : Flat s) {va : DWord} {n : Nat} (hv : va.toNat + n < 2 ^ 30) :
    engineRead s 0 va n = .ok (memBytes s.mem va.toNat n) :=
  keeps_read h.2.2.1 (fun _ hv => flat_addr h hv true false) hv

theorem flat_ringRead {s : State} (h : Flat s) {va : DWord} {n : Nat} (hv : va.toNat + n < 2 ^ 30) :
    ringRead s 0 va n = .ok (memBytes s.mem va.toNat n) :=
  keeps_read h.2.2.1 (fun _ hv => flat_ring h hv true false) hv

theorem flat_addrs {s : State} (h : Flat s) {va : DWord} {n : Nat} (hv : va.toNat + n < 2 ^ 30) :
    addrsVia (fun v => engineAddr s 0 v false true) va n = .ok (List.range' va.toNat n) :=
  keeps_addrs (fun _ hv => flat_addr h hv false true) hv

theorem flat_ringAddrs {s : State} (h : Flat s) {va : DWord} {n : Nat} (hv : va.toNat + n < 2 ^ 30) :
    addrsVia (fun v => ringAddr s 0 v false true) va n = .ok (List.range' va.toNat n) :=
  keeps_addrs (fun _ hv => flat_ring h hv false true) hv

def cs (src : Src) (sem : BitVec 8) (imm : BitVec 8) (pred : Fin 8) : CSlot :=
  { shape := 0, t0 := ⟨false, 0⟩, t1 := ⟨false, 0⟩, t2 := ⟨false, 0⟩, t3 := ⟨false, 0⟩, lit := 0, src := src, sem := sem, imm := imm, pred := pred }
def c0 : CSlot := cs (.v 0) 0 0 0
def ca (n : Fin 32) (sem : BitVec 8) (imm : BitVec 8) (pred : Fin 8) : CSlot := cs (.a n) sem imm pred

def released : State := onSplit 0 0 0 (fun x => { x with released := true }) mapped

theorem witness_JumpsAndBranches :
    (∀ i ∈ [Instr.jmp c0, .call (ca 3 0 0 0), .call (ca 1 0 0 0), .ret (ca 3 0 0 0), .nop c0, .headerOnlyBundle, .br c0,
        .br { c0 with shape := 13 }, .br { c0 with shape := 14, t0 := ⟨true, 1⟩ }], goes (literals [0, 0x10, 0] mapped) i = true)
    ∧ mapped.is.state = .runnable ∧ goes released (.bar c0) = true := by decide +kernel

/-- The wave's one split has some lanes only. -/
def someLanes (m : Mask) : State := onSplit 0 0 0 (fun x => { x with mask := m }) mapped

def stinted : State :=
  onW (fun x => { x with kind := .stint, stint := some ⟨0, 0, 100, [(0, 1)], [], 0, 16⟩ }) mapped

theorem witness_EndOfLanes :
    (goes (someLanes 1) (.endLanes c0) = true ∧ (someLanes 1).iw.exited ||| (someLanes 1).is.mask ≠ fullMask)
    ∧ (let s := grouped (paired .compute)
       goes s (.endLanes c0) = true ∧ s.iw.exited ||| s.is.mask = fullMask ∧ s.iw.kind = .compute ∧ s.group? s.iw.group = some group7
        ∧ s.iw.partner = some 1)
    ∧ (goes stinted (.endLanes c0) = true ∧ stinted.iw.exited ||| stinted.is.mask = fullMask ∧ stinted.iw.kind = .stint
        ∧ stinted.iw.stint = some ⟨0, 0, 100, [(0, 1)], [], 0, 16⟩ ∧ semPhys stinted 0 stinted.iw.ctx 0 = some 3) := by decide +kernel

/-- A group of two waves whose current wave is the issuing one, in a grid of three groups whose token its group holds. -/
def twoWaves (det : Nat) : State :=
  let s := onW (fun x => { x with det := det }) (grouped mapped)
  { s with groups := [{ group7 with w := 2, slots := [0, 1] }], grids := [{ grid8 with g := 3, w := 2, det := det }] }

def breaks : State := onCtx 0 (fun x => { x with dbgBrk := true }) mapped

theorem witness_UserControl :
    (∀ i ∈ [Instr.wait (cs (.imm 64) 0 0 0), .wait (cs (.imm 64) 254 0 0), .convHold c0, .sig (cs (.v 0) 0 5 0), .yield c0, .trap (cs (.v 0) 0 0xFF 0),
      .brk c0, .tokenPass c0], goes mapped i = true) ∧ semPhys mapped 0 mapped.iw.ctx 0 = some 3 ∧ (mapped.ctx mapped.iw.ctx).dbgBrk = false
    ∧ mapped.iw.det = 0 ∧ goes breaks (.brk c0) = true ∧ (breaks.ctx breaks.iw.ctx).dbgBrk = true
    ∧ (let s := twoWaves 2
       goes s (.yield c0) = true ∧ s.iw.det = 2 ∧ s.iw.kind = .compute ∧ s.group? s.iw.group = s.groups[0]?
        ∧ s.groups.all (fun g => g.cur = s.iw.windex && g.cur < g.w && 1 < g.w && !g.ended.contains 1) = true)
    ∧ (let s := twoWaves 1
       goes s (.tokenPass c0) = true ∧ s.iw.det ≠ 0 ∧ s.group? s.iw.group = s.groups[0]? ∧ s.grid? 8 = s.grids[0]?
        ∧ s.grids.all (fun d => d.token = 0 && d.token < d.g && !d.retired.contains 1) = true) := by decide +kernel

/-- A launch record at scratchpad offset 0: one group of one wave, joined at the Yard page. -/
def record (s255 : Nat) : State :=
  let s := onCore 0 (fun c => { c with scratch := memStore [] 0 (leBytes 4 1 ++ leBytes 2 0 ++ leBytes 1 1 ++ leBytes 1 4 ++ leBytes 4 1
    ++ leBytes 4 0 ++ leBytes 8 0 ++ leBytes 8 0x200000) }) (grouped mapped)
  { s with groups := [{ group7 with s255 := s255 }] }

/-- The image lists one stint. -/
def stintable : State := { literals [0x80000000, 0, 0, 0] mapped with images := [{ oneBundleImage 0 with stints := [⟨0, 1, 256, 100, []⟩] }] }

theorem witness_QueuedControl :
    goes stintable (.stint (ca 3 0 0 0)) = true
    ∧ (goes (record 4) (.launch (cs (.imm 64) 0 0 1)) = true ∧ (record 4).group? (record 4).iw.group = some group7
        ∧ Reads (record 4) (.imm 64) false 0 (lowLane (record 4).is.mask) 0 0)
    ∧ (goes (record 0) (.launch (cs (.imm 64) 0 0 1)) = true ∧ (record 0).group? (record 0).iw.group = some { group7 with s255 := 0 })
    ∧ goes mapped (.join (ca 2 0 0 0)) = true
    ∧ (goes mapped (.step c0) = true ∧ goes mapped (.step (cs (.v 0) 0 0 1)) = true
        ∧ (mapped.ctx mapped.iw.ctx).refusedStep.contains (mapped.iw.uid, (mapped.ctx mapped.iw.ctx).step) = false) := by
  refine ⟨by decide +kernel, ⟨by decide +kernel, by decide +kernel, ⟨by decide, by decide⟩⟩, by decide +kernel, by decide +kernel, by decide +kernel⟩


/-- A request of one byte from address 8 to address 16, ordered, kinds as given, completing semaphore 0. -/
def req (srcKind dstKind : Nat) (src dst : DWord) : CopyReq :=
  ⟨src, dst, 1, 1, 0, true, 1, 1, 0, 0, srcKind, dstKind, 0, false, some 3, 0, [], [], 0, none, false⟩

def copyList (started : Bool) (reqs : List CopyReq) : CopyList :=
  { id := 9, core := 0, ctx := 0, wave := 1, slot := 0, lane := 0, group := 7, off := 0, count := 1, started := started, startSeq := 0, tag := 0, seqN := 0,
    rank := 0, pair := none, due := 0, reqs := reqs, obs := [], pages := [(false, pageAt 0 0 0x100000 false), (false, pageAt 1 1 yardBase false)] }

/-- The scratchpad holds a request in its format, with a flow byte and a semaphore as given. -/
def requested (len : Nat) (vsem : Nat) : State :=
  { onCore 0 (fun c => { c with scratch := memStore [] 0 (leBytes 8 8 ++ leBytes 8 16 ++ leBytes 4 len ++ leBytes 2 1 ++ leBytes 2 0x100 ++ leBytes 4 1 ++ leBytes 4 1
      ++ leBytes 4 0 ++ leBytes 2 0x101 ++ leBytes 1 vsem) }) mapped with copies := [copyList false []] }

def copying (r : CopyReq) (l : List Claim) : State := { onCore 0 (fun c => { c with claims := l }) mapped with copies := [copyList true [r]] }

theorem one_position {base a : DWord} {stride : Int} {p : Nat} (hp : p < 1) (h : RowAddr base stride 1 p a) : a = base := by
  obtain rfl : p = 0 := by omega
  simp only [RowAddr] at h
  have := a.isLt; have := base.isLt
  apply BitVec.eq_of_toNat_eq
  omega

theorem witness_CopyEngines_start : ∀ x ∈ [(1, 0), (0, 0), (1, 1)],
    let s := requested x.1 x.2
    let c := copyList false []
    s.copy? 9 = some c ∧ c.started = false ∧ c.due ≤ s.cycle ∧ engineFree s c.core = true ∧ kickReady s c = true ∧ kReady s c.core c.wave c.slot c.id c.obs = true
      ∧ 1 ≤ c.count ∧ ((RequestLegal (s.core 0).scratch 0 ↔ x.1 = 1)
      ∧ ((semPhys s 0 0 (memRead (s.core 0).scratch 38)).isSome ↔ x.2 = 0)) := by
  simp only [RequestLegal, EndLegal]
  decide +kernel

def wholeScratch : Claim := ⟨0, 7, 0, 0, 0, 16, 0, 524288⟩

theorem witness_CopyEngines_move : ∀ r ∈ [req 1 1 8 16, req 0 0 8 0x200010],
    let s := copying r [wholeScratch]
    let c := copyList true [r]
    s.copy? 9 = some c ∧ c.reqs[0]? = some r ∧ c.started = true ∧ r.over = false ∧ flowTurn s c 0 r = true ∧ flowRoom s c r = true ∧ r.total = 1
      ∧ 1 ≤ r.length ∧ r.ecc = false ∧ ∀ p, p < r.total → portFree s c r p = true := by
  decide +kernel

theorem witness_CopyEngines_scratch :
    let r := req 1 1 8 16
    let s := copying r [wholeScratch]
    (s.core (Fin.ofNat 4096 r.srcNode)).eccSp = [] ∧ Memory.wf (s.core (Fin.ofNat 4096 r.dstNode)).scratch = true
    ∧ (∀ p a, p < r.total → RowAddr r.src r.srcStride r.length p a → claimsByte s (Fin.ofNat 4096 r.srcNode) 0 a.toNat = true)
    ∧ (∀ p a, p < r.total → RowAddr r.dst r.dstStride r.length p a → claimsByte s (Fin.ofNat 4096 r.dstNode) 0 a.toNat = true) := by
  refine ⟨by decide +kernel, by decide +kernel, ?_, ?_⟩
  · intro p a hp h; rw [one_position hp h]; decide +kernel
  · intro p a hp h; rw [one_position hp h]; decide +kernel

theorem witness_CopyEngines_memory :
    let r := req 0 0 8 0x200010
    let s := copying r []
    let c := copyList true [r]
    let x := pageAt 0 0 0x100000 false
    let y := pageAt 1 1 yardBase false
    s.bad = [] ∧ (∀ k, (s.core k).merge = []) ∧ Memory.wf s.mem = true
    ∧ (∀ p a, p < r.total → RowAddr r.src r.srcStride r.length p a → copyPage s c a = .ok x)
    ∧ (∀ p a, p < r.total → RowAddr r.dst r.dstStride r.length p a → copyPage s c a = .ok y)
    ∧ x.kind < 2 ∧ y.kind < 2 ∧ x.sumcell = false ∧ y.sumcell = false ∧ x.permits (s.ctx 0).level true false = true
    ∧ y.permits (s.ctx 0).level false true = true := by
  refine ⟨by decide +kernel, ?_, by decide +kernel, ?_, ?_, by decide +kernel⟩
  · intro k
    by_cases h : k = 0
    · subst h; decide +kernel
    · show ((onCore 0 (fun c => { c with claims := [] }) mapped).core k).merge = []
      rw [onCore_core_other _ _ _ h, mapped_core h]; rfl
  · intro p a hp h; rw [one_position hp h]; decide +kernel
  · intro p a hp h; rw [one_position hp h]; decide +kernel

theorem witness_CopyEngines_unclaimed (a : Nat) : claimsByte (copying (req 1 1 8 16) []) 0 0 a = false := by
  have h : ((copying (req 1 1 8 16) []).core 0).claims = [] := by decide +kernel
  unfold claimsByte; rw [h]; simp

/-- Armed transfers of circuit 0 in this cycle, and a flit that arrives. -/
def wired (l : List Armed) (fs : List Flit) : State := { onCore 0 (fun c => { c with armed := l }) (grouped matrix) with flits := fs }
def flit0 : Flit := ⟨8, 0, none, 0, 0, List.replicate 64 5⟩
/-- The slot-table entry of this cycle at tile 0, and a flit that passes there by an input. -/
def routed (word : DWord) (input : Nat) : State :=
  { State.reset with tiles := State.reset.tiles.set 0 { Tile.reset with slots := Tile.reset.slots.set 0 word }, flits := [{ flit0 with hop := some (0, input) }] }

/-- To the core of the tile, to a neighbour, to the hub; from the core, and from a link. -/
theorem witness_Circuits_route : ∀ x ∈ [(0x8, 0, 0), (0x80, 0, 1), (0x900000, 1, 5), (0xB, 3, 0)],
    let s := routed x.1 x.2.1
    let f : Flit := { flit0 with hop := some (0, x.2.1) }
    let w := (s.tiles[(0 : TileId)]).slots[Fin.ofNat 256 s.cycle]
    f ∈ s.flits ∧ f.cycle ≤ s.cycle ∧ (s.tiles[(0 : TileId)]).eccSlots.contains (s.cycle % 256) = false ∧ bitsOf w 31 28 = f.dst.val % 16
      ∧ (bitsOf w (4 * x.2.2 + 3) (4 * x.2.2 + 3) = 1 ∧ bitsOf w (4 * x.2.2 + 2) (4 * x.2.2) = x.2.1)
      ∧ ∀ q, q < x.2.2 → bitsOf w (4 * q + 3) (4 * q + 3) ≠ 1 := by decide +kernel

theorem witness_Circuits :
    (let s := wired [armedAt true 0] []
     armedNow s 0 0 true = [armedAt true 0] ∧ (s.core 0).eccSp = [])
    ∧ (let s := wired [armedAt false 0] [flit0]
       armedNow s 0 0 false = [armedAt false 0] ∧ flit0 ∈ s.flits ∧ flitHere s 0 8 0 flit0 = true ∧ (∀ g ∈ s.flits, flitHere s 0 8 0 g = true → g = flit0)
        ∧ flit0.data.length = 64 ∧ Memory.wf (s.core 0).scratch = true) := by decide +kernel


/-- Bytes at an address, on top of a memory. -/
def put (a : Nat) (bs : List Byte) (m : Mem) : Mem := memStore m a bs

/-- Tables that map the first GiB on itself, and 2 MiB of Yard at 1 GiB. -/
def tables : Mem := put 0x103000 (leBytes 8 0x40000000003F) <| put 0x102008 (leBytes 8 0x103001) <| put 0x102000 (leBytes 8 0x1F) (put 0x101000 (leBytes 8 0x102001) (put 0x100000 (leBytes 8 0x101001) []))

def pagedCtx : State := onCtx 0 (fun x => { x with ptroot := 0x100001, area := 0x400000, domain := none }) mapped

/-- Context 0 with these tables, an area at 4 MiB whose image table has handle 1, bytes at address 64, and A7 to A13 set: a
wave, an address, contexts, dies, a handle and a semaphore-map element; another wave of the context stands in slot 1. -/
def paged (other : Wave) (bs : List Byte) : State :=
  onWave 0 1 (fun _ => other)
    (onW (fun x => { x with a := ((((((x.a.set 7 1).set 8 64).set 9 3).set 10 0x10003).set 11 1).set 12 0x43).set 13 0x2A00808005 })
      { pagedCtx with
        mem := put 0x401400 (leBytes 4 1) (put 64 bs tables) })

/-- A wave of context 0 whose record 0 has trapped, with these masks, lanes 30 and 31 in record 1. -/
def trapped (mask mask0 : Mask) (resolve : Bool) : Wave :=
  let x := mapped.iw
  let y := x.splits[0]
  { x with uid := 2, exited := 0x80000000,
           splits := (x.splits.set 0 { y with state := .trapped, mask := mask, mask0 := mask0, code := 0x15, resolve := resolve }).set 1
             { y with mask := 0x40000000 } }

def other0 : Wave := trapped 3 3 false

/-- What stands at address 64: nothing, a bad SLOT.LD entry, a window descriptor, a domain descriptor. -/
def byteLists : List (List Byte) :=
  [[], [0, 0, 0, 1], leBytes 8 0x10402 ++ leBytes 8 0x10000 ++ leBytes 8 0x10000 ++ leBytes 8 0 ++ leBytes 8 0x200000,
   leBytes 4 1 ++ leBytes 4 0x20000 ++ leBytes 8 7]

theorem dieReach_same {s t : State} (h : s.ctxs = t.ctxs) (l : s.layout = t.layout) (c : CtxId) (d : DieId) : dieReach s c d = dieReach t c d := by
  unfold dieReach diePartition State.ctx; rw [h, l]

theorem pagedCtx_flat : pagedCtx.ctxs[(0 : CtxId)].ptroot = 0x100001 ∧ ∀ d, dieReach pagedCtx 0 d = true := by decide +kernel

theorem flat_of {s p : State} (g : p.ctxs[(0 : CtxId)].ptroot = 0x100001 ∧ ∀ d, dieReach p 0 d = true) (c : s.ctxs = p.ctxs) (l : s.layout = p.layout) (b : s.bad = [])
    (m : memNat s.mem 0x100000 8 = 0x101001 ∧ memNat s.mem 0x101000 8 = 0x102001 ∧ memNat s.mem 0x102000 8 = 0x1F) : Flat s := by
  unfold Flat
  rw [State.ctx, c]
  exact ⟨g.1, fun d => (dieReach_same c l 0 d).trans (g.2 d), b, m⟩

theorem byteLists_tables : ∀ bs ∈ byteLists, let m := put 0x401400 (leBytes 4 1) (put 64 bs tables)
    memNat m 0x100000 8 = 0x101001 ∧ memNat m 0x101000 8 = 0x102001 ∧ memNat m 0x102000 8 = 0x1F := by decide +kernel

theorem paged_mem (other : Wave) (bs : List Byte) : (paged other bs).mem = put 0x401400 (leBytes 4 1) (put 64 bs tables) := by
  unfold paged onW; rw [onWave_mem, onWave_mem]
theorem paged_ctxs (other : Wave) (bs : List Byte) : (paged other bs).ctxs = pagedCtx.ctxs := by
  unfold paged onW; rw [onWave_ctxs, onWave_ctxs]
theorem paged_layout (other : Wave) (bs : List Byte) : (paged other bs).layout = pagedCtx.layout := by
  unfold paged onW; rw [onWave_layout, onWave_layout]
theorem pagedCtx_bad : pagedCtx.bad = [] := by decide +kernel
theorem paged_bad (other : Wave) (bs : List Byte) : (paged other bs).bad = [] := by
  unfold paged onW; rw [onWave_bad, onWave_bad]; exact pagedCtx_bad

theorem paged_flat (other : Wave) (bs : List Byte) (h : bs ∈ byteLists) : Flat (paged other bs) :=
  flat_of pagedCtx_flat (paged_ctxs _ _) (paged_layout _ _) (paged_bad _ _) (by rw [paged_mem]; exact byteLists_tables bs h)

theorem paged_quiet (other : Wave) (bs : List Byte) (k : CoreId) : ((paged other bs).core k).merge = [] ∧ ((paged other bs).core k).ops = []
    ∧ ((paged other bs).core k).overlays = [] := by
  by_cases h : k = 0
  · subst h
    unfold paged onW
    rw [onWave, onCore_core, onWave, onCore_core]
    show (mapped.core 0).merge = [] ∧ (mapped.core 0).ops = [] ∧ (mapped.core 0).overlays = []
    decide +kernel
  · unfold paged onW
    rw [onWave_core_other _ _ _ _ h, onWave_core_other _ _ _ _ h]
    show (mapped.core k).merge = [] ∧ (mapped.core k).ops = [] ∧ (mapped.core k).overlays = []
    rw [mapped_core h]; exact ⟨rfl, rfl, rfl⟩

theorem paged_merge (other : Wave) (bs : List Byte) (k : CoreId) : ((paged other bs).core k).merge = [] := (paged_quiet other bs k).1

/-- One selector for each block, own and by number. -/
def selectors : List (Word × CrTarget × Nat) :=
  [(0x80000000, .ctx 0, 0), (0x8000000D, .ctx 0, 13), (0x00030009, .ctx 3, 9), (0x80001000, .core 0, 0), (0x0FFF1003, .core 4095, 3), (0x80002002, .tile 0, 2),
   (0x00FF2003, .tile 255, 3), (0x80003001, .die 0, 1), (0x00073002, .die 7, 2), (0x003F4006, .queue 63, 6)]

theorem selectors_select : ∀ x ∈ selectors, Selects 0 0 x.1 x.2.1 x.2.2 := by
  intro x hx
  simp only [selectors, List.mem_cons, List.not_mem_nil, or_false] at hx
  obtain rfl | rfl | rfl | rfl | rfl | rfl | rfl | rfl | rfl | rfl := hx <;> simp only [Selects] <;> decide

theorem witness_ControlRegisters_issue : ∀ x ∈ selectors, goes (literals [x.1] mapped) (.mfcr (cs (.v 0) 0 1 0)) = true
    ∧ goes (literals [x.1] mapped) (.mtcr (ca 0 0 0 0)) = true := by decide +kernel

/-- An operation in progress of the wave that stands held for it. -/
def op (kind : PrivKind) : PrivOp := ⟨5, 0, 0, 1, fullMask, 0, 0, kind, false, 0, some 3, [], 0, []⟩
def running (kind : PrivKind) (s : State) : State := { onSplit 0 0 0 (fun x => { x with after := .done 5 }) s with privOps := [op kind] }

theorem witness_ControlRegisters_holdEnd : ∀ x ∈ selectors, ∀ kind ∈ [PrivKind.mfcr x.1 4, .mtcr x.1 0, .mtcr x.1 0x10000],
    let s := running kind mapped
    let p := op kind
    s.priv? p.id = some p ∧ p.due ≤ s.cycle ∧ ((s.wave p.core 0).splits[(0 : RecId)]).after = .done p.id ∧ p.slot = 0
      ∧ waveHere s p.core 0 p.wave = true ∧ p.started = false := by decide +kernel

/-- CTX.AREA before and after, in each of its cases; no user context is live. -/
theorem witness_ControlRegisters_area :
    ((mapped.ctx 0).area = 0 ∧ (0x10000 : DWord) &&& 0x01FFFFFFFFFF0000 ≠ 0) ∧ ((paged other0 []).ctx 0).area ≠ 0 ∧ (0 : DWord) &&& 0x01FFFFFFFFFF0000 = 0
    ∧ ∀ c : CtxId, 2 ≤ c.val → (mapped.ctx c).state = 0 := by decide +kernel

theorem witness_PrivilegedStarts :
    (let s := literals [2, 0, 0, 0] (paged other0 [])
     (s.wave 0 1).live = true ∧ s.iw.a[7].toNat = 1 + 2 ^ 16 * (s.wave 0 1).ctx.val ∧ targetReach s s.iw.ctx (.ctx (s.wave 0 1).ctx) = true
      ∧ s.iw.a[9].toNat / 128 * 128 = 0 ∧ s.iw.a[9].getLsbD 6 = false ∧ s.iw.a[9].toNat % 64 = 3
      ∧ s.iw.a[12].toNat / 128 * 128 = 0 ∧ s.iw.a[12].getLsbD 6 = true
      ∧ ∀ i ∈ [Instr.huskSave (ca 7 0 8 0), .huskLoad (ca 7 0 8 0), .slotLd (ca 8 0 0 0), .winLd (ca 8 0 0 0), .attest (ca 8 0 0 0),
          .mcload (ca 8 0 0 1), .seedOpPop (ca 9 0 1 1), .seedOpFork (ca 9 0 2 1), .seedOpPush (ca 9 0 0 1), .tlbinv (ca 9 0 0 0),
          .imgInv (ca 11 0 12 0), .ctxSwin (ca 9 0 0 0)], goes s i = true) := by decide +kernel

theorem witness_PrivilegedStarts_imgInv :
    let s := paged other0 []
    (handlesUsed s).length + 2 ≤ 2 ^ 32 ∧ tableIndex s s.iw.ctx 1 = 0 ∧ areaAddr s s.iw.ctx (0x1400 + 16 * 0) true = .ok 0x401400
      ∧ (∀ k, (s.core k).merge = []) ∧ Memory.wf s.mem = true := by
  refine ⟨by decide +kernel, by decide +kernel, ?_, paged_merge _ _, by decide +kernel⟩
  have e : areaVa (paged other0 []) 0 (0x1400 + 16 * 0) = 0x401400 := by decide +kernel
  have f := paged_flat other0 [] (by decide)
  have c : (paged other0 []).iw.ctx = 0 := by decide +kernel
  show areaAddr (paged other0 []) (paged other0 []).iw.ctx (0x1400 + 16 * 0) true = .ok 0x401400
  rw [c, flat_area f (by rw [e]; decide), e]; rfl

/-- What RTE finds in a trapped record: another split's lane taken; its own lanes, some, or none; a lane left out. -/
theorem witness_PrivilegedActions_rte : ∀ y ∈ [trapped 0x40000003 3 false, trapped 3 3 false, trapped 3 3 true, trapped 1 3 false],
    let s := paged y []
    let x := s.wave 0 1
    goes s (.rte (ca 7 0 0 0)) = true ∧ (x.splits[(0 : RecId)]).state = .trapped ∧ (∀ q : RecId, q ≠ 0 → (x.splits[q]).state ≠ .trapped)
      ∧ x.exited ||| (x.splits[(0 : RecId)]).mask0 ||| (x.splits[(0 : RecId)]).mask ≠ fullMask := by decide +kernel

theorem witness_PrivilegedActions_rteMasks :
    (∃ l : Lane, laneBit ((0x40000003 : Mask) &&& ~~~3) l = true ∧ laneBit ((other0.splits[(1 : RecId)]).mask) l = true) ∧ (3 : Mask) &&& ~~~3 = 0
    ∧ (3 : Mask) &&& ~~~1 ≠ 0 := by decide +kernel

theorem witness_PrivilegedActions :
    (let s := paged other0 []
     (∀ i ∈ [Instr.park (ca 7 0 0 0), .unpark (ca 7 0 0 0), .preempt (ca 7 0 0 0), .semmapW (ca 13 5 0 0), .semmapR (ca 13 5 4 0)], goes s i = true)
      ∧ semPhys s 0 s.iw.ctx 0 = some 3 ∧ s.iw.a[13] = 0x2A00808005
      ∧ bitsOf 0x2A00808005 31 24 = 0 ∧ bitsOf 0x2A00808005 14 9 = 0 ∧ bitsOf 0x2A00808005 21 16 = 0 ∧ (0x2A00808005 : DWord).getLsbD 22 = false)
    ∧ (goes (someLanes 1) (.halt c0) = true ∧ (someLanes 1).iw.exited ||| (someLanes 1).is.mask ≠ fullMask)
    ∧ (let s := paged other0 []
       goes s (.ctxSwout (ca 10 0 0 0)) = true ∧ s.iw.a[10].toNat / 128 * 128 = 256 * 0 + 65536 * 1 ∧ s.iw.a[10].toNat % 64 = 3) := by decide +kernel

theorem flat_same {s t : State} (h : Flat s) (e1 : (t.ctx 0).ptroot = (s.ctx 0).ptroot) (e2 : ∀ d, dieReach t 0 d = dieReach s 0 d) (e3 : t.bad = s.bad)
    (e4 : t.mem = s.mem) : Flat t := by
  unfold Flat; rw [e1, e3, e4]; exact ⟨h.1, fun d => (e2 d).trans (h.2.1 d), h.2.2⟩

theorem running_ctx (kind : PrivKind) (s : State) (c : CtxId) : (running kind s).ctx c = s.ctx c := rfl
theorem running_mem (kind : PrivKind) (s : State) : (running kind s).mem = s.mem := rfl
theorem running_bad (kind : PrivKind) (s : State) : (running kind s).bad = s.bad := rfl

theorem running_flat {s : State} (h : Flat s) (kind : PrivKind) : Flat (running kind s) :=
  flat_same h (by rw [running_ctx]) (dieReach_same rfl rfl 0) (running_bad _ _) (running_mem _ _)

theorem running_ops {s : State} (h : ∀ k, (s.core k).ops = [] ∧ (s.core k).overlays = []) (kind : PrivKind) (k : CoreId) :
    ((running kind s).core k).ops = [] ∧ ((running kind s).core k).overlays = [] := by
  show ((onSplit 0 0 0 _ s).core k).ops = [] ∧ ((onSplit 0 0 0 _ s).core k).overlays = []
  unfold onSplit
  by_cases e : k = 0
  · subst e; rw [onWave, onCore_core]; exact h 0
  · rw [onWave_core_other _ _ _ _ e]; exact h k

theorem running_merge {s : State} (h : ∀ k, (s.core k).merge = []) (kind : PrivKind) (k : CoreId) : ((running kind s).core k).merge = [] := by
  show ((onSplit 0 0 0 _ s).core k).merge = []
  unfold onSplit
  by_cases e : k = 0
  · subst e; rw [onWave, onCore_core]; exact h 0
  · rw [onWave_core_other _ _ _ _ e]; exact h k

/-- The operations of engines are ready, their addresses lie in memory, and no store waits. -/
theorem witness_PrivilegedCompletions_engines : ∀ kind ∈ [PrivKind.huskSave 1 64, .huskLoad 1 64, .slotLd 64 1, .winLd 64, .attest 64, .imgInv 1 2],
    let s := running kind (paged other0 [])
    s.priv? 5 = some (op kind) ∧ privReady s (op kind) = true := by decide +kernel

theorem witness_PrivilegedCompletions_memory (kind : PrivKind) :
    let s := running kind (paged other0 [])
    (∃ as, addrsVia (fun v => engineAddr s 0 v false true) 64 6144 = .ok as ∧ as.Nodup) ∧ (∃ l, engineRead s 0 64 6144 = .ok l) ∧ (∃ l, engineRead s 0 64 32 = .ok l)
      ∧ (∃ as, addrsVia (fun v => engineAddr s 0 v false true) (64 + 32) 64 = .ok as ∧ as.Nodup) ∧ (∀ k, (s.core k).merge = []) ∧ Memory.wf s.mem = true := by
  have f := running_flat (paged_flat other0 [] (by decide)) kind
  have w : Memory.wf (paged other0 []).mem = true := by decide +kernel
  intro s
  exact ⟨⟨_, flat_addrs f (by decide), List.nodup_range'⟩, ⟨_, flat_read f (by decide)⟩, ⟨_, flat_read f (by decide)⟩,
    ⟨_, flat_addrs f (by decide), List.nodup_range'⟩, running_merge (paged_merge _ _) kind, by rw [running_mem]; exact w⟩

/-- The entry at address 64 is good, and then bad. -/
theorem witness_PrivilegedCompletions_slotLd :
    (let s := running (.slotLd 64 1) (paged other0 [])
     engineRead s 0 64 (16 * 1) = .ok (memBytes s.mem 64 16) ∧ slotEntryOk s 0 (memBytes s.mem 64 16) = true)
    ∧ (let s := running (.slotLd 64 1) (paged other0 [0, 0, 0, 1])
       engineRead s 0 64 (16 * 1) = .ok (memBytes s.mem 64 16) ∧ slotEntryOk s 0 (memBytes s.mem 64 16) = false
        ∧ waveHere s 0 0 1 = true ∧ (s.iw.splits[(0 : RecId)]).state ≠ .free ∧ (s.iw.splits[(0 : RecId)]).mask &&& (op (.slotLd 64 1)).lanes ≠ 0) :=
  ⟨⟨flat_read (running_flat (paged_flat other0 [] (by decide)) _) (by decide), by decide +kernel⟩,
    ⟨flat_read (running_flat (paged_flat other0 [0, 0, 0, 1] (by decide)) _) (by decide), by decide +kernel⟩⟩

def windowBytes : List Byte := byteLists.getD 2 []
def domainBytes : List Byte := byteLists.getD 3 []
/-- The context has joined a formed domain. -/
def inDomain (s : State) : State := onCtx 0 (fun x => { x with domain := some domain0 }) s

theorem witness_PrivilegedCompletions_winLd :
    (let s := running (.winLd 64) (paged other0 windowBytes)
     let l := memBytes s.mem 64 64
     fieldAt l 0 1 = 2 ∧ windowFieldsOk s 0 l = true ∧ waitsRelease (s.ctx 0) = false
      ∧ windowFieldsOk (inDomain s) 0 l = true ∧ waitsRelease ((inDomain s).ctx 0) = true)
    ∧ (let s := running (.winLd 64) (paged other0 domainBytes)
       let l := memBytes s.mem 64 64
       fieldAt l 0 1 = 1 ∧ domainFieldsOk s 0 l = true ∧ (s.ctx 0).domain = none) := by decide +kernel

theorem witness_PrivilegedCompletions_winLdRead : ∀ bs ∈ [windowBytes, domainBytes],
    let s := running (.winLd 64) (paged other0 bs)
    engineRead s 0 64 64 = .ok (memBytes s.mem 64 64) := by
  intro bs h
  have : bs ∈ byteLists := by revert bs; decide
  exact flat_read (running_flat (paged_flat other0 bs this) _) (by decide)

theorem witness_PrivilegedCompletions_slotEntry : ∀ slot ∈ [(0 : Fin 256), 1],
    let p := { op (.slotLd 64 2) with started := true, slotsLeft := [((0 : TileId), slot, (0 : DWord)), (1, slot, 0)] }
    let s := { paged other0 [] with privOps := [p] }
    s.priv? p.id = some p ∧ s.privOps.find? (fun q => q.started && q.due ≤ s.cycle && q.slotsLeft.contains (0, slot, 0)) = some p := by decide +kernel

theorem witness_PrivilegedCompletions_tlbRemoval :
    let p := op (.tlbinv 0 [0] [] [])
    removalOf { running p.kind (paged other0 []) with cycle := Config.latency 1 } 0 0 = some p := by
  have h : removalDue (op (.tlbinv 0 [0] [] [])) 0 = Config.latency 1 := by simp [removalDue, op]
  show ([op (.tlbinv 0 [0] [] [])].find? fun p => removalDue p 0 ≤ Config.latency 1 && match p.kind with
    | .tlbinv x cores _ _ => x = 0 && cores.contains 0
    | _ => false) = _
  rw [List.find?_cons_of_pos]
  rw [h]; simp [op]

theorem witness_PrivilegedCompletions_tlbinv :
    (let s := running (.tlbinv 0 [] [] []) (paged other0 [])
     s.priv? 5 = some (op (.tlbinv 0 [] [] [])) ∧ s.copies = [])
    ∧ oldDone (running (.tlbinv 0 [] [(0, 1)] []) (onCore 0 (fun c => { c with ops := [entry .store] }) (paged other0 []))) (0, 1) = false := by
  decide +kernel

theorem witness_PrivilegedCompletions_tlbinvQuiet (k : CoreId) :
    let s := running (.tlbinv 0 [] [] []) (paged other0 [])
    (∀ o ∈ (s.core k).ops, o.ctx = 0 → oldUnits (s.core k) o = false) ∧ ∀ o ∈ (s.core k).overlays, o.ctx = 0 → o.old = false := by
  have h := running_ops (fun k => (paged_quiet other0 [] k).2) (.tlbinv 0 [] [] []) k
  intro s
  exact ⟨by rw [h.1]; simp, by rw [h.2]; simp⟩

/-- A held seed operation, at a depth of the context's stack. -/
def seeding (k : Nat) (depth : Nat) : State :=
  running (.seedOp k 0 7 1) (onCtx 0 (fun x => { x with seedDepth := depth }) (paged other0 []))

theorem flat_onCtx {s : State} (h : Flat s) (f : Ctx → Ctx) (e1 : ∀ x, (f x).ptroot = x.ptroot) (e2 : ∀ x, (f x).level = x.level)
    (e3 : ∀ x, (f x).partition = x.partition) : Flat (onCtx 0 f s) :=
  flat_same h (by rw [onCtx_ctx, e1]) (fun d => by unfold dieReach; rw [onCtx_ctx, e2, e3]; rfl) rfl rfl

theorem seeding_flat (k depth : Nat) : Flat (seeding k depth) :=
  running_flat (flat_onCtx (paged_flat other0 [] (by decide)) (fun x => { x with seedDepth := depth }) (fun _ => rfl) (fun _ => rfl) fun _ => rfl) (.seedOp k 0 7 1)

theorem areaVa_mem (s : State) (m : Mem) (c : CtxId) (n : Nat) : areaVa { s with mem := m } c n = areaVa s c n := rfl

/-- Writing one range below which every table stands leaves the tables. -/
theorem flat_mem {s : State} (f : Flat s) {b : Nat} (hb : 0x102008 ≤ b) {m : Mem} (h : ∀ a, a < b → memRead m a = memRead s.mem a) :
    Flat { s with mem := m } := by
  have n (a : Nat) (ha : a + 8 ≤ b) : memNat m a 8 = memNat s.mem a 8 := by
    have (k c : Nat) (hc : c + k ≤ b) : memBytes m c k = memBytes s.mem c k := by
      induction k generalizing c with
      | zero => rfl
      | succ k ih => simp only [memBytes]; rw [h c (by omega), ih (c + 1) (by omega)]
    unfold memNat; rw [this 8 a ha]
  obtain ⟨h1, h2, h3, h4, h5, h6⟩ := f
  exact ⟨h1, h2, h3, (n _ (by omega)).trans h4, (n _ (by omega)).trans h5, (n _ (by omega)).trans h6⟩

theorem witness_PrivilegedCompletions_seedOp : ∀ k ∈ [0, 1, 2], ∀ depth ∈ [1, 2, 16],
    let s := seeding k depth
    let p := op (.seedOp k 0 7 1)
    s.priv? 5 = some p ∧ ((s.wave 0 0).splits[(0 : RecId)]).after = .done 5 ∧ heldReady s p = true ∧ (s.ctx 0).area ≠ 0 ∧ (s.ctx 0).seedDepth = depth
      ∧ waveHere s 0 0 1 = true ∧ s.bad = [] := by decide +kernel

/-- The stack's entries stand below one another in the area, and stay translated when one of them is written. -/
theorem witness_PrivilegedCompletions_seedFork :
    let s := seeding 2 1
    areaAddr s 0 (0x40 + 32 * 1) true = .ok 0x400060 ∧ areaAddr s 0 (0x40 + 32 * 0) true = .ok 0x400040 ∧ 0x400040 + 32 ≤ 0x400060
      ∧ (∃ l, areaRead s 0 (0x40 + 32 * 0) 20 = some l ∧ fieldAt l 16 4 ≠ 0xFFFFFFFF)
      ∧ ∀ m, (∀ a, a < 0x400040 ∨ 0x400040 + 32 ≤ a → memRead m a = memRead s.mem a) → areaAddr { s with mem := m } 0 (0x40 + 32 * 1) true = .ok 0x400060 := by
  have f := seeding_flat 2 1
  have v : ∀ i, i < 2 → areaVa (seeding 2 1) 0 (0x40 + 32 * i) = 0x400040 + 32 * BitVec.ofNat 64 i := by decide +kernel
  have a0 : areaAddr (seeding 2 1) 0 (0x40 + 32 * 0) true = .ok 0x400040 := by rw [flat_area f (by rw [v 0 (by decide)]; decide), v 0 (by decide)]; rfl
  have a0' : areaAddr (seeding 2 1) 0 (0x40 + 32 * 0) false = .ok 0x400040 := by rw [flat_area f (by rw [v 0 (by decide)]; decide), v 0 (by decide)]; rfl
  refine ⟨by rw [flat_area f (by rw [v 1 (by decide)]; decide), v 1 (by decide)]; rfl, a0, by decide, ⟨memBytes (seeding 2 1).mem 0x400040 20, ?_, by decide +kernel⟩, ?_⟩
  · unfold areaRead
    rw [if_neg (by decide +kernel), a0']
  · intro m h
    have g := flat_mem f (b := 0x400040) (by decide) (m := m) fun a ha => h a (.inl ha)
    rw [flat_area g (by rw [areaVa_mem, v 1 (by decide)]; decide), areaVa_mem, v 1 (by decide)]; rfl

/-- A microcode image without its magic number. Whether one verifies is a value of the crypto constants, which stay open. -/
theorem witness_PrivilegedCompletions_mcload :
    let s := running (.mcload 64 1) (paged other0 [])
    let p := op (.mcload 64 1)
    s.priv? 5 = some p ∧ heldReady s p = true ∧ microcode s 0 64 = none := by
  have f := running_flat (paged_flat other0 [] (by decide)) (.mcload 64 1)
  refine ⟨by decide +kernel, by decide +kernel, ?_⟩
  have z : fieldAt (memBytes (running (.mcload 64 1) (paged other0 [])).mem 64 0x80) 0 4 = 0 := by decide +kernel
  have y : fieldAt (memBytes (running (.mcload 64 1) (paged other0 [])).mem 64 0x80) 8 4 = 0 := by decide +kernel
  generalize hm : (running (.mcload 64 1) (paged other0 [])).mem = m at y z f
  unfold microcode
  rw [flat_read f (by decide), hm]
  have e : ((64 : DWord)).toNat = 64 := rfl
  rw [e]
  simp only [y, z]
  rw [flat_read f (by decide), hm, e]
  simp


/-! ### Traps, handlers, barriers, stints, swapping -/

def header (v m x c sp : Bool) (lits : Fin 8) (sync : Bool) : Header := ⟨v, m, x, c, 0, sp, lits, false, false, 0, 0, false, 0, 0, sync⟩
/-- The wave's image consists of one bundle with one c slot. -/
def runs (code : Nat) (sp : Bool) (s : State) : State :=
  { s with images := [oneBundleImage (packHeader (header false false false true sp 0 false) + packC code c0 * 2 ^ 64)] }
/-- The wave's image consists of a tile barrier for core 0. -/
def syncs (s : State) : State :=
  { s with images := [oneBundleImage (packHeader (header false false false false false 1 true) + 1 * 2 ^ 64)] }

def held (h : Option HoldKind) (n : Nat) (kind : WaveKind) : State :=
  onW (fun x => { x with kind := kind }) (onCtx 0 (fun x => { x with watchdog := 5 }) (onSplit 0 0 0 (fun x => { x with hold := h, held := n }) mapped))
def pends (code : TrapCode) (lanes : Mask) (gap : Nat) : State :=
  onSplit 0 0 0 (fun x => { x with pend := [⟨code, 0, lanes, Lanes.all 0, 0xFFFFFFFF, none⟩], gap := gap }) mapped
/-- Every record of the wave holds a split. -/
def full (s : State) : State := onW (fun x => { x with splits := Vector.replicate 4 x.splits[0] }) s
def asked (deadline : Nat) (s : State) : State := onW (fun x => { x with preempt := some ⟨deadline, []⟩ }) s

theorem witness_TakingTraps_watchdog : ∀ x ∈ [(5, WaveKind.compute), (5, .stint), (4, .compute)],
    let s := held (some .wait) x.1 x.2
    s.iw.live = true ∧ (s.iw.splits[(0 : RecId)]).state = .runnable ∧ (s.iw.splits[(0 : RecId)]).hold = some .wait ∧ (s.ctx 0).watchdog = 5
      ∧ (s.iw.splits[(0 : RecId)]).held = x.1 ∧ s.iw.kind = x.2 := by decide +kernel

theorem witness_TakingTraps_pending : ∀ x ∈ [(TrapCode.arith, fullMask, 3), (.copyError, fullMask, 0), (.copyError, 1, 0), (.copyError, 1, 3)],
    let s := pends x.1 x.2.1 x.2.2
    let y := s.iw.splits[(0 : RecId)]
    s.iw.live = true ∧ s.iw.kind = .compute ∧ y.state = .runnable ∧ y.pend = [⟨x.1, 0, x.2.1, Lanes.all 0, 0xFFFFFFFF, none⟩] ∧ y.gap = x.2.2 ∧ y.mask &&& x.2.1 ≠ 0
      ∧ (y.mask &&& x.2.1 = y.mask ↔ x.2.1 = fullMask) ∧ (s.iw.splits[(1 : RecId)]).state = .free
      ∧ ∀ q : RecId, (((full s).iw.splits[q])).state ≠ .free ∧ (((full s).iw.splits[q])).pend = y.pend := by decide +kernel

theorem witness_TakingTraps_preempt :
    (let s := asked 9 (runs 0 true mapped)
     s.iw.kind = .compute ∧ s.iw.preempt.isSome = true ∧ atSafePoint s 0 0 0 = true ∧ s.iw.live = true ∧ s.iw.preempt = some ⟨9, []⟩ ∧ s.cycle < 9)
    ∧ (let s := asked 0 mapped
       s.iw.preempt = some ⟨0, []⟩ ∧ (0 : Nat) ≤ s.cycle ∧ s.iw.live = true ∧ mapped.iw.preempt = none) := by decide +kernel

/-- The trap queue holds n entries. -/
def crowded (n : Nat) : State := onCore 0 (fun c => { c with trapQ := List.replicate n ⟨5, 5, 0, 0⟩ }) mapped

theorem witness_TakingTraps_queue : 64 ≤ ((crowded 64).core 0).trapQ.length ∧ ((crowded 63).core 0).trapQ.length < 64
    ∧ ((crowded 63).core 0).trapWait = [] ∧ (crowded 63).iw.cls ≠ 0 ∧ (onW (fun x => { x with cls := 0 }) (crowded 63)).iw.cls = 0
    ∧ ∀ z ∈ ((crowded 63).core 0).trapQ, z.at_ = (crowded 63).cycle → z.split ≤ (0 : RecId) := by decide +kernel

def queued1 (other : Wave) : State :=
  let s := onCtx 1 (fun x => { x with handler := 0x100000000 })
    (onCore 0 (fun c => { c with trapQ := [⟨2, 1, 0, 0⟩] }) (paged { other with ctx := 1, cls := 1 } []))
  { s with images := [{ oneBundleImage 0 with entries := [⟨0, 32, none⟩] }] }

theorem witness_HandlerWaves :
    let s := queued1 other0
    (s.core 0).trapQ = [⟨2, 1, 0, 0⟩] ∧ (s.core 0).trapWait = [] ∧ entryStands s 0 ⟨2, 1, 0, 0⟩ = true ∧ entryFatal s 0 ⟨2, 1, 0, 0⟩ = false ∧ handlerCtx s (s.wave 0 1).ctx = some 0
      ∧ (handlerImage s (s.wave 0 1).ctx 0).isSome = true ∧ liveHandlers (s.core 0) = [] ∧ (handlerRoom (s.core 0) 0).isSome = true
      ∧ handlerAllowed s 0 0 = true := by decide +kernel

theorem witness_HandlerWaves_fatal :
    let s := onCore 0 (fun c => { c with trapQ := [⟨2, 1, 0, 0⟩] }) (grouped (paged { other0 with group := 7 } []))
    (s.core 0).trapQ = [⟨2, 1, 0, 0⟩] ∧ (s.core 0).trapWait = [] ∧ entryStands s 0 ⟨2, 1, 0, 0⟩ = true ∧ entryFatal s 0 ⟨2, 1, 0, 0⟩ = true
      ∧ s.group? (s.wave 0 1).group = some group7 := by decide +kernel

theorem witness_BarriersAndStints_group :
    (let s := runs 7 false (grouped mapped)
     s.group? 7 = some group7 ∧ (0 : SlotId) ∈ group7.slots ∧ s.iw.live = true ∧ s.iw.group = 7 ∧ s.iw.kind = .compute
      ∧ (∀ w ∈ group7.slots, waveAtBar s 0 w (s.wave 0 w) = true) ∧ (s.iw.splits[(0 : RecId)]).state ≠ .free ∧ heldAtBar s 0 0 0 = true)
    ∧ waveAtBar (runs 0 false (grouped mapped)) 0 0 (runs 0 false (grouped mapped)).iw = false := by decide +kernel

theorem witness_BarriersAndStints_tile :
    (let s := onCore 0 (fun c => { c with line := some 0 }) { syncs (onSplit 0 0 0 (fun x => { x with syncAt := some 4 }) mapped) with cycle := 4 }
     s.iw.live = true ∧ (s.iw.splits[(0 : RecId)]).state ≠ .free ∧ heldAtSync s 0 0 0 = some 1 ∧ coreTile 0 = 0
        ∧ (s.iw.splits[(0 : RecId)]).syncAt = some 4 ∧ 4 ≤ s.cycle
        ∧ (∀ i, i < 16 → Nat.testBit 1 i = true → i = 0) ∧ (s.core 0).line = some 0)
    ∧ heldAtSync (syncs mapped) 0 0 0 = some 1 ∧ ((syncs mapped).core 0).line = none := by decide +kernel

def stint1 : StintEntry := ⟨0, 1, 0, 9, [], mapped.iw⟩
def stintDue (s : State) : State :=
  { onCore 0 (fun c => { c with stints := [stint1] }) s with images := [{ oneBundleImage 0 with stints := [⟨0, 1, 16, 100, []⟩] }] }

theorem witness_BarriersAndStints_start : ∀ x ∈ [(stintDue mapped, false), (stintDue stinted, true)],
    (x.1.core 0).stints.find? (fun e => e.ctx = 0 && stintReady x.1 0 e) = some stint1 ∧ stintEntry x.1 stint1 = some ⟨0, 1, 16, 100, []⟩
      ∧ ((x.1.core 0).room0 (stint1.wave.cls = 0) [16]).isSome = true ∧ stintBarred x.1 0 0 = false
      ∧ ((x.1.core 0).liveWaves.any (fun w => w.2.kind = .stint)) = x.2 := by decide +kernel

theorem witness_BarriersAndStints_overrun : stinted.iw.kind = .stint ∧ stinted.iw.live = true ∧ stinted.iw.stint = some ⟨0, 0, 100, [(0, 1)], [], 0, 16⟩
    ∧ stinted.cycle < 100 ∧ 100 ≤ ({ stinted with cycle := 100 } : State).cycle := by decide +kernel

/-- The area of context 0 has three units, room for a wave. -/
def roomy (s : State) : State := { s with mem := put 0x400000 (leBytes 4 3) s.mem }
def groupIs (g : Group) (s : State) : State := { s with groups := [g] }
/-- The wave that leaves: the one that stands on the core. -/
def leaving : State := roomy (grouped (onSplit 0 0 0 (fun x => { x with hold := some .join }) (paged Wave.free [])))

theorem witness_LeavingAndReturning_leave :
    (let s := groupIs { group7 with joinFor := 4096 } leaving
     (s.group? 7).map (joinOutReady s) = some true)
    ∧ joinOutReady leaving group7 = false ∧ (0 : SlotId) ∈ group7.slots ∧ leaving.iw.live = true ∧ leaving.iw.group = group7.id
    ∧ (let g := { group7 with state := .retiring, retireFor := 4096 }
       (groupIs g leaving).group? 7 = some g ∧ g.state = .retiring ∧ max 1 ((groupIs g leaving).ctx 0).joinSwap.toNat ≤ g.retireFor) := by decide +kernel

theorem witness_LeavingAndReturning_return :
    let g := { group7 with state := .swapped, away := [(0, leaving.iw, 0)] }
    let s := groupIs g (onWave 0 0 (fun _ => Wave.free) leaving)
    s.group? 7 = some g ∧ wantsReturn s g = true ∧ mxlAllows s g = true ∧ roomBack s g = some [0] := by decide +kernel

theorem witness_LeavingAndReturning_retire :
    (let g := { group7 with ended := [0] }
     let s := groupIs g leaving
     s.group? 7 = some g ∧ mayRetire s g = true ∧ s.grid? 8 = some grid8 ∧ (∀ h ∈ s.groups, h.grid = 8 → h.id = 7) ∧ grid8.next = grid8.g)
    ∧ (let g := { group7 with ended := [0] }
       let d := { grid8 with g := 3, next := 3, det := 1 }
       let s := { groupIs g leaving with groups := [g, { group7 with id := 9, no := 1 }], grids := [d] }
       s.group? 7 = some g ∧ mayRetire s g = true ∧ s.grid? 8 = some d ∧ (∃ h ∈ s.groups, h.grid = 8 ∧ h.id ≠ 7)
        ∧ d.det ≠ 0 ∧ d.token = g.no ∧ d.token < d.g ∧ 1 ∉ g.no :: d.retired)
    ∧ mayRetire leaving group7 = false := by decide +kernel

theorem witness_LeavingAndReturning_parked :
    let s := onSplit 0 0 0 (fun x => { x with state := .parked }) mapped
    (s.ctx 0).swout = [] ∧ min (s.ctx 0).parkPct.toNat 100 * 1 < 100 * 1
      ∧ ((idxs 48).filter fun w => (s.wave 0 w).live && (s.wave 0 w).ctx = 0).length = 1 ∧ (s.iw.splits[(0 : RecId)]).state = .parked := by decide +kernel

theorem witness_LeavingAndReturning_record : Plain (paged other0 []) ∧ ((paged other0 []).ctx 0).area ≠ 0
    ∧ areaAddr (paged other0 []) 0 (0x400 + 64 * (((paged other0 []).ctx 0).faultCnt.toNat % 64)) true = .ok 0x400400 := by
  have e : areaVa (paged other0 []) 0 (0x400 + 64 * (((paged other0 []).ctx 0).faultCnt.toNat % 64)) = 0x400400 := by decide +kernel
  have f := paged_flat other0 [] (by decide)
  exact ⟨⟨paged_merge _ _, by decide +kernel⟩, by decide +kernel, by rw [flat_area f (by rw [e]; decide), e]; rfl⟩


/-! ### Queues, launches, tiles -/

/-- A packet's 64 bytes: its op, flags, then the launch fields of one group of one wave, class 1. -/
def packetBytes (seq op flags : Nat) : List Byte :=
  leBytes 4 seq ++ leBytes 1 op ++ leBytes 1 flags ++ leBytes 2 0
    ++ (if op = 1 then leBytes 4 1 ++ leBytes 2 0 ++ leBytes 1 1 ++ leBytes 1 4 ++ leBytes 4 1 else leBytes 12 0)

def ring (p : List Packet) (enable : Bool) (classMin : Nat) : HostQ :=
  { HostQ.reset with base := 0x10000, cpl := 0x20000, enable := enable, sizeLog2 := 4, classMin := classMin, limit := 1, taken := p }

/-- Context 0 at supervisor level, which a queue's context may have. -/
def packetCtx : State := onCtx 0 (fun x => { x with level := 1 }) pagedCtx

def packetState (bs : List Byte) (q : HostQ) : State :=
  onQueue 0 (fun _ => q) { paged other0 [] with ctxs := packetCtx.ctxs, mem := put 0x10040 bs (paged other0 []).mem }

theorem packetCtx_flat : packetCtx.ctxs[(0 : CtxId)].ptroot = 0x100001 ∧ ∀ d, dieReach packetCtx 0 d = true := by decide +kernel
theorem packet_mem (bs : List Byte) (q : HostQ) : (packetState bs q).mem = put 0x10040 bs (paged other0 []).mem := by
  unfold packetState; rw [onQueue_mem]
theorem packet_layout (bs : List Byte) (q : HostQ) : (packetState bs q).layout = packetCtx.layout := by
  unfold packetState packetCtx; rw [onQueue_layout, onCtx_layout]; exact paged_layout other0 []
theorem packet_bad (bs : List Byte) (q : HostQ) : (packetState bs q).bad = [] := by
  unfold packetState; rw [onQueue_bad]; exact paged_bad other0 []
theorem packet_ctxs (bs : List Byte) (q : HostQ) : (packetState bs q).ctxs = packetCtx.ctxs := by
  unfold packetState; rw [onQueue_ctxs]
theorem packet_cores (bs : List Byte) (q : HostQ) : (packetState bs q).cores = (paged other0 []).cores := by
  unfold packetState; rw [onQueue_cores]

theorem packet_flat (bs : List Byte) (q : HostQ) (h : memNat (put 0x10040 bs (paged other0 []).mem) 0x100000 8 = 0x101001
    ∧ memNat (put 0x10040 bs (paged other0 []).mem) 0x101000 8 = 0x102001 ∧ memNat (put 0x10040 bs (paged other0 []).mem) 0x102000 8 = 0x1F) :
    Flat (packetState bs q) :=
  flat_of packetCtx_flat (packet_ctxs _ _) (packet_layout _ _) (packet_bad _ _) (by rw [packet_mem]; exact h)

theorem nil_tables : memNat (put 0x10040 [] (paged other0 []).mem) 0x100000 8 = 0x101001
    ∧ memNat (put 0x10040 [] (paged other0 []).mem) 0x101000 8 = 0x102001 ∧ memNat (put 0x10040 [] (paged other0 []).mem) 0x102000 8 = 0x1F := by
  decide +kernel

/-- A packet of each op; one out of sequence, one that breaks its format, one of a class below the queue's. -/
theorem witness_PacketsOfQueues_take : ∀ x ∈ [(packetBytes 1 0 0, 0), (packetBytes 1 1 0, 0), (packetBytes 1 2 0, 0), (packetBytes 1 3 0, 0),
      (packetBytes 1 4 0, 0), (packetBytes 1 5 0, 0), (packetBytes 2 0 0, 0), (packetBytes 1 6 0, 0), (packetBytes 1 1 0, 2)],
    let s := packetState x.1 (ring [] true x.2)
    let q := s.queues[(0 : QueueId)]
    let l := memBytes s.mem 0x10040 64
    mayTake s q = true ∧ (q.base + BitVec.ofNat 64 (64 * ((q.consumed + 1).toNat % 2 ^ q.sizeLog2))).toNat = 0x10040
      ∧ (fieldAt l 0 4 = (q.consumed + 1).toNat ↔ x.1 ≠ packetBytes 2 0 0) ∧ (packetOk l = true ↔ x.1 ≠ packetBytes 1 6 0)
      ∧ (classRefused s q (parsePacket l) = true ↔ x.2 = 2)
      ∧ mayTake (packetState x.1 (ring [] false 0)) (ring [] false 0) = false := by decide +kernel

theorem witness_PacketsOfQueues_read (bs : List Byte) (q : HostQ) (h : Flat (packetState bs q)) :
    ringRead (packetState bs q) 0 0x10040 64 = .ok (memBytes (packetState bs q).mem 0x10040 64) := flat_ringRead h (by decide)

def packet (op : Nat) (flags : Byte) (st : PacketState) : Packet :=
  { parsePacket [] with seq := 1, op := op, pflags := flags, state := st, depAddr := 0x40000000, sigAddr := 0x40000000, depThr := 0, grid := 8,
                        performed := false, status := 0 }
/-- A queue with one packet taken, whose grid is grid 8. -/
def takenPacket (p : Packet) : State :=
  { packetState [] { ring [p] true 0 with consumed := 1 } with grids := [{ grid8 with state := .waiting, queue := some (0, 1) }] }

theorem witness_PacketsOfQueues_start : ∀ op ∈ [0, 1, 2, 3, 4, 5],
    (let p := packet op 0 .taken
     let s := takenPacket p
     s.packet? 0 1 = some p ∧ mayStart s (s.queues[(0 : QueueId)]) p = true ∧ p.pflags.getLsbD 1 = false)
    ∧ (let p := packet op 0 .started
       let s := takenPacket p
       s.packet? 0 1 = some p ∧ mayStart s (s.queues[(0 : QueueId)]) p = false ∧ dependent s p = false ∧ p.performed = false) := by decide +kernel

/-- A dependence that holds, one that does not yet, one at an address no table maps; each at its start and later. -/
theorem witness_PacketsOfQueues_dependence : ∀ x ∈ [((0 : Word), (0x40000000 : DWord), DepRead.holds), (1, 0x40000000, .below), (0, 0x80000000, .bad)],
    (let p := { packet 1 2 .taken with depThr := x.1, depAddr := x.2.1 }
     let s := takenPacket p
     mayStart s (s.queues[(0 : QueueId)]) p = true ∧ p.pflags.getLsbD 1 = true ∧ readDependence s 0 p = x.2.2)
    ∧ (let p := { packet 1 2 .started with depThr := x.1, depAddr := x.2.1 }
       let s := takenPacket p
       dependent s p = true ∧ p.due ≤ s.cycle ∧ readDependence s 0 p = x.2.2) := by decide +kernel

theorem taken_mem (p : Packet) : (takenPacket p).mem = put 0x10040 [] (paged other0 []).mem := packet_mem [] { ring [p] true 0 with consumed := 1 }
theorem taken_cores (p : Packet) : (takenPacket p).cores = (paged other0 []).cores := packet_cores [] { ring [p] true 0 with consumed := 1 }
theorem taken_merge (p : Packet) (k : CoreId) : ((takenPacket p).core k).merge = [] := by
  unfold State.core; rw [taken_cores]; exact paged_merge other0 [] k
theorem nil_wf : Memory.wf (put 0x10040 [] (paged other0 []).mem) = true := by decide +kernel

theorem witness_PacketsOfQueues_fields : (packet 2 0 .taken).waves < 256 ∧ (packet 2 0 .taken).groups < 2 ^ 32
    ∧ (∀ p, Memory.wf (takenPacket p).mem = true ∧ ∀ k, ((takenPacket p).core k).merge = [])
    ∧ ((takenPacket (packet 2 0 .taken)).ctx 0).area ≠ 0 ∧ ((takenPacket (packet 2 0 .taken)).ctx 0).seedDepth = 1 :=
  ⟨by decide +kernel, by decide +kernel, fun p => ⟨by rw [taken_mem]; exact nil_wf, taken_merge p⟩, by decide +kernel, by decide +kernel⟩

theorem taken_flat (p : Packet) : Flat (takenPacket p) := packet_flat [] { ring [p] true 0 with consumed := 1 } nil_tables

def donePacket (st : Half) : Packet := { packet 0 4 .done with status := st }

/-- A done packet, and the signal word it names in the Yard; its completion record stands elsewhere. -/
theorem witness_PacketsOfQueues_completion (st : Half) :
    (takenPacket (donePacket st)).packet? 0 1 = some (donePacket st) ∧ (donePacket st).due ≤ (takenPacket (donePacket st)).cycle
      ∧ (donePacket st).sigAddr.toNat % 4 = 0 ∧ (List.range' 0x20010 16).Nodup ∧ ∀ i, i < 4 → yardBase + i ∉ List.range' 0x20010 16 :=
  ⟨rfl, Nat.zero_le _, (by decide : (0x40000000 : DWord).toNat % 4 = 0), List.nodup_range', by decide +kernel⟩

theorem witness_PacketsOfQueues_signal :
    walk (takenPacket (donePacket 0)) 0 0x40000000 = .ok { pageAt 512 1 yardBase false with size := 2 ^ 21 } := by decide +kernel

theorem witness_PacketsOfQueues_record (p : Packet) :
    let s := takenPacket p
    s.bad = [] ∧ addrsVia (fun v => ringAddr s 0 v false true) (0x20000 + BitVec.ofNat 64 (16 * (1 % 2 ^ 4))) 16 = .ok (List.range' 0x20010 16)
      ∧ ∀ m, (∀ a, a < yardBase ∨ yardBase + 4 ≤ a → memRead m a = memRead s.mem a) →
          addrsVia (fun v => ringAddr { s with mem := m } 0 v false true) (0x20000 + BitVec.ofNat 64 (16 * (1 % 2 ^ 4))) 16 = .ok (List.range' 0x20010 16) :=
  ⟨packet_bad [] { ring [p] true 0 with consumed := 1 }, flat_ringAddrs (taken_flat _) (va := 0x20010) (n := 16) (by decide), fun _ h =>
    flat_ringAddrs (flat_mem (taken_flat _) (b := yardBase) (by decide) fun a ha => h a (.inl ha)) (va := 0x20010) (n := 16) (by decide)⟩

/-- A group whose queue of launches holds a record that forks its seed. -/
def launching (l : List LaunchRec) : State := groupIs { group7 with launchQ := l } (grouped mapped)
def launch1 : LaunchRec := ⟨1, 0, 1, 5, 1, 0, 0x40000000, 0, 0⟩

theorem witness_LaunchesAndPlacement_removal :
    (let s := launching [launch1]
     s.group? 7 = some { group7 with launchQ := [launch1] } ∧ launch1.due ≤ s.cycle ∧ listFull s 0 = false ∧ s.grid? 8 = some grid8)
    ∧ (launching []).group? 7 = some group7 := by decide +kernel

/-- A grid of one group of one wave, eligible, waiting or placing, in a context with an area. -/
def eligibleGrid (image : Word) (st : GridState) : Grid := { grid8 with image := image, state := st, eligible := some 0, next := 0, cohort := false }
def placing (image : Word) (st : GridState) (s : State) : State :=
  { onCore 0 (fun c => { c with waves := Vector.replicate 48 Wave.free }) s with grids := [eligibleGrid image st] }

theorem witness_LaunchesAndPlacement_served : ∀ st ∈ [GridState.placing, .waiting],
    let d := eligibleGrid 1 st
    let s := placing 1 st (paged other0 [])
    s.grid? 8 = some d ∧ d.served = true ∧ d.due ≤ s.cycle ∧ headOfClass s d = true ∧ heldByClass s d = false ∧ (s.ctx d.ctx).area ≠ 0 ∧ seedBusy s d.ctx = false
      ∧ ({ d with eligible := none } : Grid).served = false := by decide +kernel

/-- The image has one entry; a grid that names its sixth is refused. -/
theorem witness_LaunchesAndPlacement_image : (gridImage (placing 1 .placing (paged other0 [])) (eligibleGrid 1 .placing) 1) = some (oneBundleImage 0)
    ∧ gridHandle (placing 1 .waiting (paged other0 [])) (eligibleGrid 1 .waiting) = 1
    ∧ (gridImage (placing 1 .waiting (paged other0 [])) (eligibleGrid 1 .waiting) 1) = some (oneBundleImage 0)
    ∧ (oneBundleImage 0).entries[5]? = none := by
  refine ⟨?_, ?_, ?_, ?_⟩ <;> decide +kernel

theorem place_fits : fits (keepImage (oneBundleImage 0) (placing 1 .placing (paged other0 []))) (eligibleGrid 1 .placing) (oneBundleImage 0) ⟨0, 256, none⟩ 0
    = some [0] := by decide +kernel

theorem witness_LaunchesAndPlacement_place :
    let d := eligibleGrid 1 .placing
    let im := oneBundleImage 0
    im.entries[d.entry.toNat]? = some ⟨0, 256, none⟩ ∧ im.plan = none ∧ d.cohort = false
      ∧ chooseCore (keepImage im (placing 1 .placing (paged other0 []))) d im ⟨0, 256, none⟩ d.next = some (0, [0]) := by
  refine ⟨rfl, rfl, rfl, ?_⟩
  have e : idxs 4096 = (0 : CoreId) :: idxsFrom 4096 4095 1 := rfl
  unfold chooseCore
  rw [e]
  show List.findSome? _ (_ :: _) = _
  rw [List.findSome?_cons, place_fits]
  rfl

theorem witness_LaunchesAndPlacement_attest :
    let s := packetState [] (ring [] true 0)
    s.hub.halted = false ∧ (List.replicate 32 (0 : Byte)).length = 32
      ∧ engineRead s 0 (0x20000 + BitVec.ofNat 64 (16 * 2 ^ 4 + 64 * (0 % 2 ^ 4))) 64 = .ok (memBytes s.mem 0x20100 64)
      ∧ fieldAt (memBytes s.mem 0x20100 64) 0 4 = 0 :=
  ⟨rfl, rfl, flat_read (va := 0x20100) (packet_flat [] _ nil_tables) (by decide), by decide +kernel⟩

/-- Tile 1, which has no core in use, in a state, with a request and a wake held. -/
def tileIn (st : PwrState) (fence : Bool) (heldReq : Option DWord) (wake : Bool) : State :=
  onTile 1 (fun x => { x with state := st, fence := fence, reqHeld := heldReq, wakeHeld := wake }) mapped

theorem witness_QueueRegistersAndPower_tiles (st : PwrState) (fence : Bool) (h : Option DWord) (w : Bool) :
    let x := (tileIn st fence h w).tiles[(1 : TileId)]
    x.state = st ∧ x.fence = fence ∧ x.reqHeld = h ∧ x.wakeHeld = w ∧ x.due ≤ (tileIn st fence h w).cycle ∧ x.req.toNat < 3 := by
  have e : (tileIn st fence h w).tiles[(1 : TileId)] = { mapped.tiles[(1 : TileId)] with state := st, fence := fence, reqHeld := h, wakeHeld := w } :=
    vset_same _ _ _
  have d : (mapped.tiles[(1 : TileId)]).due = 0 ∧ (mapped.tiles[(1 : TileId)]).req = 0 := by decide +kernel
  intro x
  have f : x = _ := e
  rw [f]
  refine ⟨rfl, rfl, rfl, rfl, ?_, ?_⟩
  · show (mapped.tiles[(1 : TileId)]).due ≤ _; rw [d.1]; exact Nat.zero_le _
  · show (mapped.tiles[(1 : TileId)]).req.toNat < 3; rw [d.2]; decide

theorem witness_QueueRegistersAndPower_idle :
    (∀ k ∈ tileCores 1, coreIdle mapped k = true ∧ (mapped.core k).claims = [] ∧ pinned0 mapped k = false) ∧ routerUsed mapped 1 = false
    ∧ coreIdle mapped 0 = false ∧ (0 : CoreId) ∈ tileCores 0 := by
  have c : ∀ k ∈ tileCores 1, k ≠ 0 := by
    intro k hk h
    obtain ⟨i, -, e⟩ := List.mem_map.1 hk
    have := congrArg Fin.val (e.trans h)
    simp only [Fin.ofNat] at this
    have := i.isLt
    change (1 * 16 + i.val) % 4096 = 0 at *
    omega
  have l : (Core.reset false).liveWaves = [] := by decide +kernel
  refine ⟨fun k hk => ?_, by decide +kernel, by decide +kernel, by decide +kernel⟩
  have e : mapped.copies = [] ∧ mapped.privOps = [] := by clear hk; decide +kernel
  unfold coreIdle pinned0
  rw [mapped_core (c k hk), e.1, e.2]
  simp only [l]
  simp [Core.reset]

theorem witness_QueueRegistersAndPower_layout :
    (∀ c : CtxId, 2 ≤ c.val → (mapped.ctx c).state = 0) ∧ ((onCtx 2 (fun x => { x with state := 1 }) mapped).ctx 2).state ≠ 0
    ∧ mapped.hub.x8 = false ∧ (onHub (fun h => { h with x8 := true }) mapped).hub.x8 = true := by decide +kernel


/-! ### Domains, packets, management -/

/-- A path-table entry with one path: station 0, one hop. -/
def onePath : List Byte := [1, 0, 0, 0, 0, 0, 0, 0, 1] ++ List.replicate 39 0
/-- The directory row of domain 5: its ranks are modules 0 and 1. -/
def row5 : DomainRow :=
  ⟨5, 2, [0, 1], [(2, 0, 0, 3), (2, 1, 1, 4)], [(1, 0, false)], [(1, 0, true)], none, [(1, 0)], [], none, 0⟩
def domain5 (rank : Nat) (formed stopped : Bool) : Domain := ⟨5, rank, 2, 0x10000, 0x10000, formed, stopped⟩
/-- Two writes from the ranks 0 and 1 to element 2 of window 0, of step 0. -/
def write5 (rank : Nat) : BarnWrite := ⟨0, 2, 7, 0, BitVec.ofNat 28 (rank * 2 ^ 18), 0, 0⟩
def barned (l : List BarnWrite) : List BarnEntry := l.map fun w => ⟨0, w, 0, false, false⟩

/-- Context 0 in domain 5, with window 0 of some rule, the Barn of die 0, and what waits for the release. -/
def inPod (b : Domain) (row : DomainRow) (rule : Nat) (l : List BarnWrite) : State :=
  let s := onCtx 0 (fun x => { x with
    domain := some b
    windows := x.windows.set 0 (some { window0 with rule := rule })
    writers := [⟨0, 0, 1, 0, 0, 2⟩]
    conflicts := [⟨0, 1, 0, 0, 0x400008⟩]
    staged := [(0x200008, 9)]
    pendWins := [(3, some window0, ⟨0, some 3, 0⟩)]
    pendOvf := [(0x20000, 0x10000, ⟨0, none, 0⟩)]
    swout := [⟨[], false, some 5, [], 0, false, none⟩] }) mapped
  onDie 0 (fun x => { x with barn := barned l }) (onHub (fun h => { h with rows := [row], paths := [(1, onePath)] }) s)

/-- The binding and the row of domain 5; rank 0 holds an ARRIVE and an APPLIED of rank 1, and gets its own, or none. -/
theorem witness_PodBoundaries : ∀ rank ∈ [0, 1],
    let b := domain5 rank true false
    let s := inPod b row5 1 []
    (s.ctx 0).domain = some b ∧ b.id = 5 ∧ s.hub.rows.find? (fun x => x.domain = 5) = some row5 ∧ b.formed = true ∧ b.stopped = false ∧ (s.ctx 0).step = 0
      ∧ (∀ i, i < b.p → ∃ y ∈ (0, (0 : Word), false) :: row5.arrives, y.1 = i ∧ y.2.1 = 0) ∧ row5.applySent ≠ some 0
      ∧ (∀ i, i < b.p → ∃ y ∈ (0, (0 : Word), false) :: row5.applied, y.1 = i ∧ y.2.1 = 0)
      ∧ ¬(∃ y ∈ ([] : List (Nat × Word × Bool)), y.1 = 0 ∧ y.2.1 = 0) ∧ pathFor s 1 0 0 = some (0, 1) := by decide +kernel

/-- Writes of two ranks: under rule 0 they conflict, at an element whose writer lives. -/
theorem witness_PodBoundaries_apply :
    let s := inPod (domain5 0 true false) row5 0 [write5 0, write5 1]
    (s.ctx 0).windows[(0 : Fin 256)] = some { window0 with rule := 0 }
      ∧ (s.dies.toList.flatMap fun y => y.barn.filter fun e => e.ctx = 0 && e.w.step = 0) = barned [write5 0, write5 1]
      ∧ elemAt s 0 0x400008 = some (0, 2)
      ∧ (∃ z ∈ (s.ctx 0).writers, z.source = 0 ∧ z.step = 0 ∧ z.window = 0 ∧ z.elem = 2 ∧ z.wave = 1)
      ∧ uidLives s 0 0 1 = true ∧ elemAt s 0 0 = none := by decide +kernel

/-- The values the two writes give an element that held 0, under every rule. -/
theorem witness_PodBoundaries_rules : ∀ rule ∈ [(0, 7), (1, 7), (2, 7), (3, 14), (4, 0), (5, 7), (6, 7)],
    AppliedValue { window0 with rule := rule.1 } 0 [write5 0, write5 1] rule.2 := by
  intro rule h
  simp only [List.mem_cons, List.not_mem_nil, or_false] at h
  rcases h with rfl | rfl | rfl | rfl | rfl | rfl | rfl
    <;> refine ⟨fun _ => ?_, fun _ => ?_, fun _ => ?_, fun _ => ?_, fun _ => ?_, fun _ => ?_⟩
    <;> first | (intro e h; cases h; decide) | decide | contradiction | (intro i; simp [write5])

theorem witness_PodBoundaries_order : [write5 0, write5 1].Pairwise Precedes ∧ (write5 0).rank ≠ (write5 1).rank
    ∧ (write5 1).rank.toNat / 2 ^ 18 ≠ 0 ∧ (write5 0).rank.toNat / 2 ^ 18 = 0
    ∧ ∀ e ∈ [write5 0, write5 1], e.value.toNat < 2 ^ (8 * 4) := by
  refine ⟨List.pairwise_cons.2 ⟨fun f h => ?_, List.pairwise_singleton _ _⟩, by decide, by decide, by decide, by decide⟩
  cases List.mem_singleton.1 h
  exact Or.inl (by decide)

theorem witness_PodBoundaries_place : placeOf (inPod (domain5 0 true false) row5 1 []) 1 = (0, 0) := by
  have e : idxs 4096 = (0 : CoreId) :: idxsFrom 4096 4095 1 := rfl
  have h : ((inPod (domain5 0 true false) row5 1 []).core 0).find 1 = some (0, (inPod (domain5 0 true false) row5 1 []).wave 0 0) := by decide +kernel
  unfold placeOf
  rw [e]
  show (List.findSome? _ (_ :: _)).getD _ = _
  rw [List.findSome?_cons, h]
  rfl

/-- What governs from the release on, and a switch-out whose time has come. -/
theorem witness_PodBoundaries_release :
    let s := inPod (domain5 0 true false) row5 1 []
    let x := s.ctx 0
    (x.staged.map (·.1)).Nodup ∧ (x.pendWins.map fun y => y.1 % 256).Nodup ∧ x.pendWins = [(3, some window0, ⟨0, some 3, 0⟩)]
      ∧ x.pendOvf.getLast? = some (0x20000, 0x10000, ⟨0, none, 0⟩) ∧ x.swout.map (·.instant) = [some 5] ∧ x.conflicts = [⟨0, 1, 0, 0, 0x400008⟩] := by decide +kernel

theorem witness_PodBoundaries_waves :
    let s := inPod (domain5 0 true false) row5 1 []
    s.iw.live = true ∧ s.iw.uid = 1 ∧ s.iw.ended = false ∧ (s.iw.splits[(0 : RecId)]).state ≠ .free := by decide +kernel

/-- FORMs of both ranks; a binding formed already, not yet formed, or stopped; a window with committed bytes; none. -/
theorem witness_PodMessages : ∀ x ∈ [(true, false), (false, false), (true, true)],
    let b := domain5 0 x.1 x.2
    let s := inPod b row5 1 []
    (s.ctx 0).domain = some b ∧ s.hub.rows.find? (fun y => y.domain = 5) = some row5 ∧ (row5.ids[(1 : Nat)]?).map (·.setWidth 10) = some (1 : BitVec 10)
      ∧ (∀ i, i < row5.p → ∃ f ∈ row5.forms, f.2.1 = i) ∧ (s.ctx 0).windows[(0 : Fin 256)] = some window0 ∧ (s.ctx 0).windows[(1 : Fin 256)] = none
      ∧ (s.ctx 0).staged.find? (fun y => y.1 = window0.committed + 8 + 0) = some (0x200008, 9) ∧ (s.groups.map (·.id)).Nodup
      ∧ s.hub.rows.find? (fun y => y.domain = 6) = none := by decide +kernel

/-- A window store whose lane waits for one acknowledgement, or for two. -/
def waitsAck (n : Nat) : MemOp := { entry .winStore with sent := true, len := (Lanes.all 0).set (0 : Lane) n, seqN := 0 }

theorem witness_PodMessages_wack : ∀ n ∈ [1, 2],
    let s := onCore 0 (fun c => { c with ops := [waitsAck n] }) (inPod (domain5 0 true false) row5 1 [])
    let e := write5 0
    rankCore e.rank = 0
      ∧ (s.core 0).ops.find? (fun o => o.kind = .winStore && o.sent && o.ctx = 0 && o.rank = e.rank && o.tag = e.step && o.seqN = e.seq.toNat / 32) = some (waitsAck n)
      ∧ ((s.core 0).ops.map (·.id)).Nodup ∧ (waitsAck n).len[(0 : Lane)] = n ∧ (∀ j : Lane, j ≠ 0 → (waitsAck n).len[j] = 0) ∧ (waitsAck n).failed = 0
      ∧ uidLives s 0 0 1 = true ∧ waveHere s 0 0 1 = true := by decide +kernel

/-- A window load whose lanes have asked the owner. -/
def asking : MemOp := { entry .winLoad with sent := true }
theorem witness_PodMessages_answer :
    let s := onCore 0 (fun c => { c with ops := [asking] }) (inPod (domain5 0 true false) row5 1 [])
    asking ∈ (s.core 0).ops ∧ (asking.id = 35 / 32 && asking.kind = .winLoad && asking.sent) = true ∧ (s.core 1).ops = [] := by
  refine ⟨by decide +kernel, by decide +kernel, ?_⟩
  show (mapped.core 1).ops = []
  rw [mapped_core (by decide)]; rfl

/-- A message with the number expected next, one with an earlier number, and one that is held already. -/
theorem witness_Receives :
    let s := onHub (fun h => { h with inSeq := [(1, 5)], heldMsgs := [(1, 6, .heartbeat)] }) mapped
    2 ^ 31 ≤ ((4 : Word) - nextMessage s 1).toNat ∧ ¬2 ^ 31 ≤ ((5 : Word) - nextMessage s 1).toNat ∧ ¬2 ^ 31 ≤ ((6 : Word) - nextMessage s 1).toNat
      ∧ (∃ x ∈ s.hub.heldMsgs, x.1 = 1 ∧ x.2.1 = (6 : Word)) ∧ ¬∃ x ∈ s.hub.heldMsgs, x.1 = 1 ∧ x.2.1 = (5 : Word) := by decide +kernel

/-- A Barn of n entries holds n entries, so 1,048,576 of them fill it; an overflow area of 4,096 entries is not full. -/
theorem witness_PodMessages_full : (∀ n, ((List.replicate n (⟨0, write5 0, 0, false, false⟩ : BarnEntry)).filter fun x => !x.overflow).length = n)
    ∧ ¬(domain5 0 true false).ovfLen / 16 ≤ 0 := by
  refine ⟨fun n => ?_, by decide⟩
  rw [List.filter_replicate]
  exact (congrArg List.length (if_pos rfl)).trans List.length_replicate

/-- A peer from which nothing has come for eight heartbeat intervals, and one to which a message has failed. -/
theorem witness_PodMessages_silent :
    (let s : State := { inPod (domain5 0 true false) row5 1 [] with cycle := 1572864 }
     ∃ y ∈ row5.peers, y.1 = 1 ∧ y.2 + 8 * max 1 (65536 * s.clockKhz / 1000000) ≤ s.cycle) ∧ (1 : BitVec 10) ∈ ({ row5 with lost := [1] } : DomainRow).lost
    ∧ (domain5 0 true false).rank < 1024 := by decide +kernel

def held0 : HeldPacket := ⟨1, 0, 2, 0, 8, [1, 2]⟩
/-- A packet sent and not acknowledged: a copy's, a message of domain 5, or neither. -/
def sent0 (copy : Option (Nat × Nat)) (dom : Option Word) (attempt : Nat) : SentPacket :=
  ⟨1, 0, 2, 0, attempt, copy, dom, 0, [], if dom.isSome then (msgConflict, []) else (0, []), 0⟩
def linked (x : SentPacket) (l : List HeldPacket) (row : DomainRow) : State :=
  onHub (fun h => { h with accepted := [(1, 0, 2, 1)], held := l, sent := [x] })
    { inPod (domain5 0 true false) row 1 [] with copies := [copyList true [{ req 1 1 8 16 with acks := [1] }]] }

theorem witness_PodPackets_arrival : ∀ l ∈ [[], [held0]],
    let s := linked (sent0 none none 0) l row5
    ((1 : BitVec 10), (0 : CtxId), (2 : Byte), (1 : Word)) ∈ s.hub.accepted ∧ ((1 : BitVec 10), (0 : CtxId), (2 : Byte), (0 : Word)) ∉ s.hub.accepted
      ∧ (held0 ∈ s.hub.held ↔ l = [held0]) ∧ held0.data ≠ [] ∧ flowNext s 1 0 2 = 0 := by decide +kernel

theorem witness_PodPackets_sent : ∀ x ∈ [sent0 (some (9, 0)) none 0, sent0 none (some 5) 0, sent0 none none 0, sent0 (some (9, 0)) none 3],
    let s := linked x [] { row5 with owed := some (0, true) }
    s.hub.sent.find? (fun y => y.dst = 1 && y.seq = 0 && (if x.copy.isNone then y.copy.isNone else y.copy.isSome && y.ctx = 0 && y.flow = 2)) = some x
      ∧ s.hub.sent.find? (fun y => y.dst = 1 && y.ctx = 0 && y.flow = 2 && y.seq = 0 && y.due ≤ s.cycle) = some x ∧ x.due ≤ s.cycle
      ∧ s.copy? 9 = some (copyList true [{ req 1 1 8 16 with acks := [1] }]) ∧ pathFor s 1 2 (x.attempt + 1) = some (0, 1)
      ∧ s.hub.rows.find? (fun y => y.domain = 5) = some { row5 with owed := some (0, true) } ∧ s.hub.sent.erase x = [] := by decide +kernel

/-- HBM with a good and a bad word; a halted hub and one that runs. -/
theorem witness_PodPackets_host :
    (let s : State := { mapped with bad := [⟨7, 32, 32⟩] }
     0 + 8 ≤ 0xC000000000 ∧ s.hub.halted = false ∧ s.badIn 24 8 = false ∧ s.badIn 24 9 = true)
    ∧ (onHub (fun h => { h with halted := true }) mapped).hub.halted = true ∧ 0xC000000000 < 0xBFFFFFFFFF + 2 := by decide +kernel

/-- The grandmaster's station and domain; each stage of an exchange; both parities of twice the offset. -/
theorem witness_PodPackets_ptp :
    let s := onHub (fun h => { h with paths := [(1, onePath)], grandmaster := 1, ptp := 100, ptpSync := some 100, ptpFollow := some 90, ptpReq := some 100 }) mapped
    (1 : BitVec 10) = s.hub.grandmaster.setWidth 10 ∧ s.hub.ptpDomain = 0 ∧ pathFor s 1 0 0 = some (0, 1)
      ∧ (2 * (-5 : Int) = (90 - 100 : Int) + (100 - 100) ∨ 2 * (-5 : Int) + 1 = (90 - 100 : Int) + (100 - 100))
      ∧ (2 * (4 : Int) = (90 - 100 : Int) + (119 - 100) ∨ 2 * (4 : Int) + 1 = (90 - 100 : Int) + (119 - 100)) := by decide +kernel

/-- Offsets of the register window: a register, an MSI-X word, the pending bits, and none. -/
theorem witness_PodPackets_window :
    (∃ (q : QueueId) (j : Nat), j < 4 ∧ 0x3FC = 16 * q.val + 4 * j) ∧ (∃ (q : QueueId) (j : Nat), j < 4 ∧ 0x8000 = 0x8000 + 16 * q.val + 4 * j)
    ∧ ¬(∃ (q : QueueId) (j : Nat), j < 4 ∧ 0x400 = 16 * q.val + 4 * j) ∧ (leBytes 4 7).length = 4 ∧ leNat (leBytes 4 7) = 7 := by
  refine ⟨⟨63, 3, by decide⟩, ⟨0, 0, by decide⟩, ?_, by decide, by decide⟩
  rintro ⟨q, j, h, e⟩
  have := q.isLt
  omega

/-- A scrub that finds an uncorrectable HBM word, an uncorrectable Barn entry, and none. -/
theorem witness_ManagementAndReset_scrub :
    (let s : State := { mapped with bad := [⟨7, 32, 32⟩] }
     s.bad.find? (fun e => e.addr ≤ 40 && 40 < e.addr + e.size) = some ⟨7, 32, 32⟩ ∧ ∀ e ∈ s.bad, ¬(e.addr ≤ 0 ∧ 0 < e.addr + e.size))
    ∧ (let s := onDie 7 (fun x => { x with barn := [⟨0, write5 0, 7, true, false⟩, ⟨0, write5 0, 7, false, true⟩] }) mapped
       (((s.dies[(7 : DieId)]).barn.filter fun x => !x.overflow)[(0 : Nat)]?).map (·.bad) = some true ∧ 0 < 1048576
         ∧ 2 ^ 48 + 7340032 = 2 ^ 48 + 1048576 * 7 + 0) := by decide +kernel

theorem witness_ManagementAndReset_hub :
    (onHub (fun h => { h with halted := true }) mapped).hub.halted = true ∧ mapped.hub.halted = false
    ∧ pathEntryOk onePath = true ∧ (mapped.ctx 0).domain = some domain0 ∧ domain0.formed = true
    ∧ row5.ids.all (fun m => m.toNat < 1024) = true ∧ row5.ids.length = 2
    ∧ (∀ i, i < 2 → ∃ f ∈ row5.forms, f.2.1 = i ∧ f.1 = 2 ∧ (row5.ids[f.2.1]?).map (·.setWidth 10) = some f.2.2.1) := by decide +kernel

/-- At reset no context is in a domain. -/
theorem witness_ManagementAndReset_reset : ∀ c : CtxId, (State.reset.ctx c).domain = none := by decide +kernel

theorem witness_ManagementAndReset_core :
    ((onCore 5 (fun c => { c with halted := true }) mapped).core 5).halted = true ∧ (mapped.core 5).halted = false := by decide +kernel


/-! ### A step, and the encodings -/

/-- What core 0 picks in its issue, what that split fetches, and what stands against the bundle. -/
def picked (s : State) : Option (SlotId × RecId × Fetched × Option Verdict) :=
  let p := prepare 0 { s with agenda := [] }
  let all := candidates p 0 (standings p 0)
  let u := noteWaits 0 all p
  (pick u all).map fun y =>
    let m := onWave 0 y.slot (fun x => x.merge y.split) u
    let x := m.wave 0 y.slot
    let g := fetch m 0 x x.splits[y.split]
    (y.slot, y.split, g, match g with
      | .ok b n =>
        let w := u.wave 0 y.slot
        let sems := waitedSems w (y.split :: mergers w y.split) b
        some (bundleVerdict (standAt (observeSems 0 y.slot (sems.filterMap fun v => semPhys m 0 w.ctx v) m) 0 y.slot y.split b n) b.slots)
      | _ => none)

/-- The wave stands at another position of its stream. -/
def standsAt (pc : Word) (s : State) : State := onSplit 0 0 0 (fun x => { x with pc := pc }) s
/-- A header that announces eight slots and words more than a bundle holds. -/
def tooLong : State := { ready with images := [oneBundleImage 0xFF] }
def nopBundle : Bundle := ⟨header false false false true false 0 false, none, none, none, some (.nop c0), []⟩

/-- A bundle of one c slot issues; a position inside it, an illegal bundle; nothing to pick; a core that does not run. -/
theorem witness_StepRunsDecoded_issue :
    (runs 0 false ready).agenda = [.issue 0] ∧ coreRuns (runs 0 false ready) 0 = true
    ∧ picked (runs 0 false ready) = some (0, 0, .ok nopBundle (some 9), some .go) := by decide +kernel

theorem witness_StepRunsDecoded_bound : (picked (standsAt 3 (runs 0 false ready))).map (·.2.2.1) = some .bound := by decide +kernel

theorem witness_StepRunsDecoded_illegal : (picked tooLong).map (·.2.2.1) = some .illegal := by decide +kernel

theorem witness_StepRunsDecoded_idle : (picked State.reset).isNone = true
    ∧ coreRuns (onCore 0 (fun c => { c with halted := true }) (runs 0 false ready)) 0 = false
    ∧ State.reset.agenda = [] ∧ ({ ready with agenda := [.event (.clockReduction 5)] } : State).agenda = [.event (.clockReduction 5)] := by decide +kernel
/-- The slots of that bundle run one after another. -/
theorem witness_StepRunsDecoded_work (s : State) : ∃ f : Nat → State, f 0 = s
    ∧ ∀ (j : Nat) (i : Instr), (bundleWork nopBundle)[j]? = some i → exec i (f j) = .next (f (j + 1)) :=
  ⟨fun j => if j = 0 then s else act (.nop c0) (fun s => s) s, rfl, fun j i h => by
    cases j with
    | zero => cases h; rfl
    | succ j => cases h⟩

/-- An image with a dictionary of one entry, which core 0 holds, and with a literal bundle after it. -/
def nopBits : Nat := packHeader nopBundle.hdr + packC 0 c0 * 2 ^ 64
def dictImage : Image :=
  { oneBundleImage nopBits with dict := [nopBits], stream := 0 :: (oneBundleImage nopBits).stream, inside := (List.range 24).map (· + 2) }
def inDict (bad : Bool) : State := onCore 0 (fun c => { c with dict := [⟨1, 0, false, 0, [nopBits], bad⟩] }) { ready with images := [dictImage] }

theorem witness_StepRunsDecoded_dictionary :
    let s := inDict false
    let im := dictImage
    let z := s.iw.splits[(0 : RecId)]
    z.lost = false ∧ s.iw.stint = none ∧ s.image? s.iw.ctx s.iw.image = some im ∧ im.inside.contains z.pc.toNat = false
      ∧ im.stream.head? = some 0 ∧ z.pc = 0 ∧ im.dict.length = 1
      ∧ (pageIn (s.core 0) im.handle 0).map (fun pg => (pg.bad, decodeBundle (pg.entries.getD 0 0))) = some (false, .ok nopBundle) := by decide +kernel

/-- A page that is uncorrectable, one that no table maps, and one that an overlay read is to bring. -/
theorem witness_StepRunsDecoded_page :
    let s : State := { ready with images := [dictImage] }
    (picked (inDict true)).map (·.2.2.1) = some (.fault .eccUncorr (dictVa dictImage 0))
    ∧ (picked s).map (·.2.2.1) = some (.fault .xlate (dictVa dictImage 0))
    ∧ (let s : State := { pagedCtx with mem := tables, images := [dictImage] }
       fetch s 0 s.iw s.iw.splits[(0 : RecId)] = .stall 0) := by decide +kernel

theorem witness_StepRunsDecoded_literal :
    let im := dictImage
    let rest := im.stream.drop 2
    (im.stream.drop 1).head? = some 0xFFFF ∧ im.inside.contains 1 = false ∧ nopBundle.hdr.bits = 128 ∧ 128 / 16 ≤ rest.length
      ∧ decodeBundle ((rest.take 8).zipIdx.map fun q => q.1.toNat * 2 ^ (16 * q.2)).sum = .ok nopBundle := by decide +kernel

/-- An encodable instruction of each slot, and the header of a bundle of it. -/
theorem witness_DecodeEncode :
    Encodable (.add (bin .i32)) ∧ slotOf (.add (bin .i32)) = some .v ∧ Encodable (.ldG (ms 1 .b4 .keep (some 20))) ∧ slotOf (.ldG (ms 1 .b4 .keep (some 20))) = some .m
    ∧ Encodable (.mxl (xs 2 5 6 4 0)) ∧ slotOf (.mxl (xs 2 5 6 4 0)) = some .x ∧ Encodable (.nop c0) ∧ slotOf (.nop c0) = some .c
    ∧ (let h := header true false false false false 2 false
       litsOk h.slots h.lits.val = true ∧ headerSemOk h = true ∧ h.v = true ∧ h.m = false ∧ h.x = false ∧ h.c = false) := by decide +kernel

theorem witness_DecodeEncode_word : decodeSlot .v 0x07004FFED8810010 = .ok (.add { bin .i32 with a := .v 8, b := .imm 65, dep := .v 9 }) := by decide +kernel

theorem witness_StepKeepsMemoryCanonical : Canonical State.reset ∧ ∃ t : State, step State.reset = .next t := ⟨reset_canonical, endCycle State.reset, rfl⟩


theorem witness_LocalStorage_fence :
    let o := entry .fence
    let s := queued [o]
    findOp s 0 0 1 = some o ∧ o.kind = .fence ∧ fenceReady s 0 o = true := by decide +kernel

/-! ### Ill-formed instructions: one for each check of the slot words -/

/-- A type outside the operation's class; a 64-bit read of an odd register; a port that is not read; an odd deposit of 64 bits; a
deposit of Welford below V2; the guard that is never true; saturation, rounding and a chain that the operation does not take; an
open chain step that deposits (R55, R57, R67, R96, R202, R203, R206, R249, R269). -/
theorem test_illformed_v : ∀ i ∈ [Instr.fma (tern .i8), .fadd { bin .f64 with a := .v 7 }, .not { un .b32 with b := .v 10 }, .fadd { bin .f64 with dep := .v 21 },
    .wupd { tern .f32 with dep := .v 0 }, .add { bin .i32 with guard := ⟨true, 0⟩ }, .and { bin .b32 with sat := true },
    .add { bin .i32 with rnd := .rtz }, .add { bin .i32 with chain := .opn }, .fmul { bin .f32 with chain := .opn }], ¬WellFormed i := by
  decide +kernel

/-- An access of a size the operation lacks; an offset or a base where none is read; a b port that is not read, odd at 64 bits, or
no quad at 128; a deposit out of alignment; a semaphore that cannot count; a scope without an order; the guard that is never true; a
step of base A0 (R57, R205, R207, R294, R297, R301). -/
theorem test_illformed_m : ∀ i ∈ [Instr.atomGAdd (ms 1 .b1 (.v 8) none), .fence { plainOrder .b1 with base := 1 }, .ldG (ms 1 .b4 (.v 8) (some 20)),
    .stG (ms 1 .b8 (.v 9) none), .stG (ms 1 .b16 (.v 10) none), .ldG (ms 1 .b8 .keep (some 21)), .ldG { ms 1 .b4 .keep (some 20) with sem := 248 },
    .atomGAdd { ms 1 .b4 (.v 8) none with scope := .k }, .ldG { ms 1 .b4 .keep (some 20) with guard := ⟨true, 0⟩ },
    .ldG { ms 0 .b4 .keep (some 20) with postinc := true }], ¬WellFormed i := by decide +kernel

/-- An increment code 6; no steps; a mode without the binary format; a part or a register past the end; a count past the tiles;
fields that the operation does not read (R208, R319, R326, R329, R333). -/
theorem test_illformed_x : ∀ i ∈ [Instr.mxl { xs 2 5 6 4 0 with incr := 6 }, .mxl (xs 2 5 6 0 0), .mxl { xs 2 5 6 4 0 with mode := .xorPop },
    .mxr { xs 2 0 0 0x200 0 with fmt := .fp32 }, .mxr { xw 2 0 0 1 with fmt := .fp64 }, .mxz (xw 700 0 0 69), .mxz (xw 2 5 0 1), .kick (xw 1 5 0 1),
    .csend (xw 0 5 6 1), .crecv { xw 0 5 6 0 with init := true }], ¬WellFormed i := by decide +kernel

/-- A branch of shape 15, or with tests that its shape lacks; fields the operation does not read; a source, a semaphore, a number or
a predicate out of its kind (R205, R209, R210, R219, R223, R372). -/
theorem test_illformed_c : ∀ i ∈ [Instr.br { c0 with shape := 15 }, .br { c0 with shape := 14, t2 := ⟨true, 3⟩ }, .nop { c0 with lit := 1 }, .nop { c0 with src := .a 5 },
    .nop { c0 with sem := 1 }, .nop { c0 with imm := 1 }, .nop { c0 with pred := 1 }, .call (ca 0 0 0 0), .sig (ca 1 250 1 0), .mfcr { c0 with imm := 0 }],
    ¬WellFormed i := by decide +kernel

/-! ### Words of the spec -/

/-- The words that the spec's examples build field by field (R205, R274, R283, R302, R320, R372). -/
theorem test_decode_v : decodeSlot .v 0x070FFFFE8200C400 = .ok (.pset .fma (fields .i32 (.v 6) (.a 4) .keep .none))
    ∧ decodeSlot .v 0x07004B7FFF808C68 = .ok (.redAdd (fields .f32 (.v 4) .keep (.imm 79) (.v 9)))
    ∧ decodeSlot .v 0x07004FFED8810010 = .ok (.add (fields .i32 (.v 8) (.imm 65) .keep (.v 9))) := by decide +kernel

theorem test_decode_m : decodeSlot .m 0x71040293FF008201
    = .ok (.ldG ⟨.none, .b4, .w, .v 2, .keep, 4, 5, some 8, ⟨false, 1⟩, .all, false⟩) := by decide +kernel

theorem test_decode_x : decodeSlot .x 0x0007000201462081 = .ok (.mxl ⟨.fp16, .mac, 2, 3, 5, 2, 7, false, 0⟩)
    ∧ decodeSlot .x 0x0000001001400082 = .ok (.mxr ⟨.fp16, .mac, 0, 0, 5, 16, 0, false, 0⟩)
    ∧ decodeSlot .x 0x0000000100006006 = .ok (.kick (xw 0 6 0 1))
    ∧ decodeSlot .x 0x00500000000A4007 = .ok (.csend { xw 0 4 5 0 with circuit := 5 }) := by decide +kernel

theorem test_decode_c : decodeSlot .c 0x00000020A0000003 = .ok (.call (ca 5 0 0 0)) ∧ decodeSlot .c 0x00000020A0000004 = .ok (.ret (ca 5 0 0 0))
    ∧ decodeSlot .c 0x0000002020000024 = .ok (.rte (ca 1 0 0 0)) ∧ decodeSlot .c 0x0000062080000026 = .ok (.semmapW (ca 4 12 0 0))
    ∧ decodeSlot .c 0x0000003620000021 = .ok (.mtcr (cs (.imm 65) 0 0 0)) ∧ decodeSlot .c 0x0001000000000020 = .ok (.mfcr (cs (.v 0) 0 2 0))
    ∧ decodeSlot .c 0x000001204000002E = .ok (.ctxSwout (ca 2 2 0 0)) := by decide +kernel

/-- The header of the load's bundle, of the bundle that waits for it, and of the reduction (R205). -/
theorem test_decode_headers : decodeHeader 0x2 = .ok (header false true false false false 0 false)
    ∧ decodeHeader 0x415001 = .ok { header true false false false false 0 false with waitEn := true, waitSem := 5, waitThr := 1 }
    ∧ decodeHeader 0x21 = .ok { header true false false false false 0 false with gap := 2 } := by decide +kernel

/-- An opcode that no unit has, a reserved header bit, a short bundle. -/
theorem test_decode_refuses : (decodeSlot .c 0x3F).toOption = none ∧ (decodeSlot .x 0).toOption = none ∧ (decodeSlot .m 0x3F).toOption = none
    ∧ (decodeSlot .v 0x070FFFFE82FFFFFF).toOption = none ∧ (decodeHeader 0xFFFFFFFFFFFFFFFF).toOption = none := by decide +kernel

/-! ### Worked examples of the spec -/

/-- V registers that hold a word in every lane. -/
def regs (l : List (Fin 256 × Word)) (s : State) : State := onW (fun x => { x with v := l.foldl (fun v p => v.set p.1 (Lanes.all p.2)) x.v }) s
/-- The value that lane l of the instruction's result takes on its way. -/
def made (i : Instr) (s : State) (l : Lane) : Option Nat :=
  match exec i s with
  | .next t => t.iw.flights.getLast?.map fun f => f.val[l].toNat
  | _ => none

/-- R253's example. -/
theorem test_bfx : made (.bfx (fields .i32 (.v 8) .keep (.v 10) (.v 20))) (regs [(8, 0x0F0F), (10, 0x804)] ready) 0 = some 0xFFFFFFF0
    ∧ made (.bfx (fields .n32 (.v 8) .keep (.v 10) (.v 20))) (regs [(8, 0x0F0F), (10, 0x804)] ready) 0 = some 0xF0 := by decide +kernel
theorem test_bfi : made (.bfi (fields .b32 (.v 8) (.v 9) (.v 10) (.v 20))) (regs [(8, 0xAB), (9, 0xFFFFFFFF), (10, 0x804)] ready) 0 = some 0xFFFFFABF := by
  decide +kernel
/-- R86: the sum wraps, and with saturate it is clamped. -/
theorem test_add_wraps : made (.add (bin .i32)) (regs [(8, 0x7FFFFFFF), (10, 1)] ready) 0 = some 0x80000000
    ∧ made (.add { bin .i32 with sat := true }) (regs [(8, 0x7FFFFFFF), (10, 1)] ready) 0 = some 0x7FFFFFFF := by decide +kernel
/-- R269's example: the mean and M2 in the result, the count beside it. -/
theorem test_wupd : made (.wupd (fields .f32 (.v 4) (.v 6) (.v 3) (.v 4))) (regs [(3, 2), (4, 0x40400000), (5, 0x40000000), (6, 0x41100000)] ready) 0
    = some 0x41D0000040A00000 := by decide +kernel
/-- The merge of the same triple with the sample alone (R108, R268). -/
theorem test_wmrg : made (.wmrg (fields .f32 (.v 4) (.v 6) (.lit 0) (.v 4)))
      (literals [2, 1] (regs [(4, 0x40400000), (5, 0x40000000), (6, 0x41100000), (7, 0)] ready)) 0 = some 0x41D0000040A00000 := by decide +kernel
/-- R273's example, with the seed 0 (R274). -/
theorem test_hazel : made (.hazel (bin .b64)) ready 0 = some 0xDBD8ECFC00994194 := by decide +kernel
/-- R264's example: 464 and 480 to E4M3. -/
theorem test_cvt : made (.cvt .e4m3 (un .f32)) (regs [(8, 0x43E80000)] ready) 0 = some 0x7E
    ∧ made (.cvt .e4m3 (un .f32)) (regs [(8, 0x43F00000)] ready) 0 = some 0x7F
    ∧ made (.cvt .e4m3 { un .f32 with sat := true }) (regs [(8, 0x43F00000)] ready) 0 = some 0x7E := by decide +kernel
/-- R89's example: bits below the fraction round up, bits at it do not. -/
theorem test_round_sr : [0x3FFFFFFF, 0x40000000].map (fun n => (roundTo .bf16 (.sr n) false (decodeF .f32 0x3F804000)).1) = [0x3F81, 0x3F80]
    ∧ (roundTo .bf16 .rne false (decodeF .f32 0x3F804000)).1 = 0x3F80 := by decide +kernel
/-- R279's example: lanes 3 and 7 push to lane 0. -/
theorem test_push : made (.push (fields .b32 (.v 8) (.v 10) (.a 6) (.v 20)))
      (onW (fun x => { x with a := x.a.set 6 0x88, v := (x.v.set 8 (Lanes.of fun l => if l = 3 then 0x33 else 0x77)) }) ready) 0 = some 0x77 := by decide +kernel
/-- R283's example: the tree sums 2²⁴, 1, 1 and −2²⁴ to 1. -/
theorem test_red_add : made (.redAdd (fields .f32 (.v 4) .keep (.imm 79) (.v 9)))
      (onW (fun x => { x with v := x.v.set 4 (Lanes.of fun l => if l = 0 then 0x4B800000 else if l = 3 then 0xCB800000 else 0x3F800000) }) ready) 9
    = some 0x3F800000 := by decide +kernel
/-- R289's and R290's examples. -/
theorem test_hmix : made (.hmix (bin .b32)) (regs [(8, 1)] ready) 0 = some 0x01000393
    ∧ made (.fold (un .b32)) (regs [(8, 0x5B415A40)] ready) 0 = some 0x5B617A40 := by decide +kernel
/-- R292's example: the entry at 0x00C2 is 0x8001. -/
theorem test_dfa : (match exec (.dfaL1Read 0 0) (onCore 0 (fun c => { c with l1 := [(0xC2, 0x01), (0xC3, 0x80)] })
      (onW (fun x => { x with dfas := [{ dfa with off := Lanes.all 0xC2 }] }) ready)) with
    | .next t => t.iw.flights.getLast?.map fun f => f.val[(0 : Lane)].toNat
    | _ => none) = some 0x80000001 := by decide +kernel
/-- R99's example: the chain's value between its steps, and what the close step lands. -/
theorem test_chain : w56Read (w56Encode (decodeF .f32 0x3F800800 |>.mul (decodeF .f32 0x3F800800)).1) = 0x3FF0020010000000 := by decide +kernel
/-- R101's example: the products of one step and the cell are added before the one rounding. -/
theorem test_step_cell : stepCell .fp16 .mac 0 0 0x3F800000 [0x0C00, 0x0C00] [0x0C00, 0x0C00] = 0x3F800001 := by decide +kernel
/-- The MXFP4 example of R84. -/
theorem test_mx_block : mxEncode .e2m1 .rne ([0x40A00000, 0x3F400000, 0xC0200000, 0].map (decodeF .f32)) = (0x7F, [0x6, 0x2, 0xC, 0]) := by decide +kernel
/-- R175's example: the element's value under each rule, from the writes in the order A, C, C, B. -/
theorem test_window_rules : [1, 2, 3, 5, 0].map (fun r => applyRule { window0 with rule := r, signed := true } 0x10
      [⟨0, 0, 0xAA, 3, 0x142, 0, 0⟩, ⟨0, 0, 0xCC, 3, 0x40142, 0, 0⟩, ⟨0, 0, 0xCD, 3, 0x40142, 0x20, 0⟩, ⟨0, 0, 0xBB, 3, 0x40400, 0, 0⟩])
    = [0xBB, 0xAA, 0x30E, 0xCD, 0xAA] := by decide +kernel
/-- The load of R302's example: lane 0 reads at A4 plus V2:V3. -/
theorem test_load_address : (match exec (.ldG ⟨.none, .b4, .w, .v 2, .keep, 1, 0, some 8, ⟨false, 0⟩, .all, false⟩) (regs [(2, 0x10)] mapped) with
    | .next t => (t.core 0).ops.getLast?.map fun o => o.ea[(0 : Lane)].toNat
    | _ => none) = some 0x10 := by decide +kernel

end Sys2Proof.Tests
end

section
/-!
PROOFS. What the lane-wise v slots yield: the shape of every claim about a unit that computes each lane from its own ports,
and the place of an instruction in the opcode map.
-/

namespace Sys2Proof.Machine

open Sys2Proof

/-! ### The opcode map (R205, R206) -/

theorem legal_eq_vLegal {i : Instr} {w : VWord} {n : VInfo} (hv : vInfo i = some (w, n)) : legal i = vLegal w n := by
  simp only [legal, hv]

/-- A legal v slot has a type of its row's class, and saturates only where its row lets it. -/
theorem legal_type_sat {i : Instr} {w : VWord} {n : VInfo} (hv : vInfo i = some (w, n)) (h : legal i = true) :
    classHas n.cls w.f.ty = true ∧ (w.f.sat = true → n.sat = true) := by
  rw [legal_eq_vLegal hv] at h
  simp only [vLegal, Bool.and_eq_true, Bool.or_eq_true, Bool.not_eq_true'] at h
  obtain ⟨⟨⟨⟨⟨⟨⟨⟨⟨⟨_, hc⟩, _⟩, _⟩, _⟩, _⟩, _⟩, hs⟩, _⟩, _⟩, _⟩ := h
  exact ⟨hc, fun e => hs.resolve_left (by simp [e])⟩

/-- A row's class and saturation are what the opcode map lists for it. -/
theorem listed_of_row {i : Instr} {u : VUnit} {op : Nat} {f : VSlot} {n : VInfo} {ok : Ty → Bool} {sat : Bool}
    (hv : vInfo i = some (⟨u, op, f⟩, n)) (hc : ∀ t, classHas n.cls t = ok t) (hs : n.sat = sat) : Listed i u op f ok sat := by
  refine ⟨⟨n, hv⟩, fun h => ?_⟩
  obtain ⟨hty, hsat⟩ := legal_type_sat hv h
  exact ⟨hc f.ty ▸ hty, hs ▸ hsat⟩

/-- The type of a slot that passes is of its row's class. -/
theorem Passes.classHas {i : Instr} {s : State} {w : VWord} {n : VInfo} (hp : Passes s i) (hv : vInfo i = some (w, n)) :
    classHas n.cls w.f.ty = true :=
  (legal_type_sat hv hp.1).1

/-- A slot that passes does not saturate where its row has no saturation. -/
theorem Passes.sat_false {i : Instr} {s : State} {w : VWord} {n : VInfo} (hp : Passes s i) (hv : vInfo i = some (w, n))
    (hn : n.sat = false) : w.f.sat = false := by
  have h := (legal_type_sat hv hp.1).2
  cases hs : w.f.sat
  · rfl
  · exact absurd (h hs) (by simp [hn])

theorem ty_of_b32 {t : Ty} (h : classHas .b32 t = true) : t = .b32 := by simpa [classHas] using h

theorem tyBits_le (t : Ty) : tyBits t ≤ 64 := by cases t <;> decide

theorem tyBits_ge (t : Ty) : 8 ≤ tyBits t := by cases t <;> decide

/-! ### Lane-wise results -/

theorem Triggers.mono {i : Instr} {u : VUnit} {k : Nat} {f : VSlot} {s : State}
    {P Q : Lane → DWord → DWord → DWord → DWord → Cond → Prop} (h : Triggers i u k f s P)
    (hPQ : ∀ l a b c y e, P l a b c y e → Q l a b c y e) : Triggers i u k f s Q := by
  obtain ⟨t, fl, he, hfl, hu, hd, hk, hen, hP⟩ := h
  exact ⟨t, fl, he, hfl, hu, hd, hk, hen, fun l hl => hPQ _ _ _ _ _ _ (hP l hl)⟩

theorem Yields.mono {i : Instr} {u : VUnit} {k : Nat} {f : VSlot} {s : State} {P Q : DWord → DWord → DWord → DWord → Prop}
    (h : Yields i u k f s P) (hPQ : ∀ a b c y, P a b c y → Q a b c y) : Yields i u k f s Q :=
  Triggers.mono h fun _ a b c y _ ⟨hP, he⟩ => ⟨hPQ a b c y hP, he⟩

section
variable {i : Instr} {w : VWord} {n : VInfo} {s : State}

/-- A lane-wise slot that passes yields its function of the ports. -/
theorem yields_lanewise {G : State → VWord → VOut} {g : Ty → DWord → DWord → DWord → DWord} (hv : vInfo i = some (w, n))
    (he : exec i s = .next (act i (trigger i G) s)) (hg : ∀ s, G s w = lanewise g s w) (hp : Passes s i) :
    Yields i w.unit (vLatency i) w.f s fun a b c y => y = g w.f.ty a b c := by
  refine triggers_of hv rfl he hp rfl fun l hl => ?_
  have hen : laneBit (enabled (transportV w n s) w.f.guard w.f.path) l = true := by
    rw [enabled_transportV]; exact (acts_iff _ _ _ _).mpr hl
  rw [hg]
  exact ⟨outOf_val _ _ _ _ hen, outOf_cond _ _ _ _ hen⟩

end

section
variable {i : Instr} {op : Nat} {f : VSlot} {n : VInfo} {s : State} (hv : vInfo i = some (⟨.ial, op, f⟩, n))
include hv

theorem vLatency_ial : vLatency i = 1 := by simp only [vLatency, hv]

/-- An exact integer operation yields its value through `Fit` (R250, R251). -/
theorem yields_intOp (g : Nat → Int → Int → Int → Int) (he : exec i s = .next (act i (trigger i (intOp g)) s))
    (hp : Passes s i) : Yields i .ial 1 f s fun a b c y =>
      Fits f.ty f.sat (g (tyBits f.ty) (intAt f.ty a) (intAt f.ty b) (intAt f.ty c)) y := by
  have h := yields_lanewise hv he (fun _ => rfl) hp
  rw [vLatency_ial hv] at h
  refine h.mono fun a b c y e => ?_
  simp only [e, portInt_eq]
  exact fits_fit _ _ _

/-- Where the row has no saturation, the value is taken modulo 2^w. -/
theorem yields_intOp_wraps (g : Nat → Int → Int → Int → Int) (he : exec i s = .next (act i (trigger i (intOp g)) s))
    (hn : n.sat = false) (hp : Passes s i) : Yields i .ial 1 f s fun a b c y =>
      Fits f.ty false (g (tyBits f.ty) (intAt f.ty a) (intAt f.ty b) (intAt f.ty c)) y := by
  have h := yields_intOp hv g he hp
  rwa [show f.sat = false from hp.sat_false hv hn] at h

/-- A compare yields 1 or 0 as its relation holds of the two integers or not (R256). -/
theorem yields_relOp (p : Int → Int → Prop) [∀ x y, Decidable (p x y)]
    (he : exec i s = .next (act i (trigger i (relOp fun x y => decide (p x y))) s)) (hp : Passes s i) :
    Yields i .ial 1 f s fun a b _ y => y = truth (p (intAt f.ty a) (intAt f.ty b)) := by
  have h := yields_lanewise hv he (fun _ => rfl) hp
  rw [vLatency_ial hv] at h
  refine h.mono fun a b c y e => ?_
  simp only [e, portInt_eq, decide_eq_true_eq, truth]

/-- An operation on bits yields its number. -/
theorem yields_bitOp (g : Nat → Nat → Nat → Nat → Nat) (he : exec i s = .next (act i (trigger i (bitOp g)) s))
    (hp : Passes s i) : Yields i .ial 1 f s fun a b c y =>
      y = BitVec.ofNat 64 (g (tyBits f.ty) (low f.ty a) (low f.ty b) c.toNat) := by
  have h := yields_lanewise hv he (fun _ => rfl) hp
  rwa [vLatency_ial hv] at h

end

/-! ### Integer arithmetic and compares (R251, R256) -/

/-- A quotient by a power of two rounded down is the integer quotient. -/
theorem floor_div_two_pow (x : Int) (k : Nat) : ⌊(x : ℚ) / 2 ^ k⌋ = x / 2 ^ k := by
  have h := Rat.floor_intCast_div_natCast x (2 ^ k)
  push_cast at h
  exact h

/-- Settles O3: each operation is an exact integer operation or a relation on the operands, read off its row. -/
theorem integerArithmetic : Obligations.IntegerArithmetic := by
  intro s f
  refine ⟨yields_intOp rfl (fun _ x y _ => x + y) rfl, yields_intOp rfl (fun _ x y _ => x - y) rfl,
    yields_intOp rfl (fun _ x y _ => x * y) rfl, fun hp => ?mulhi, yields_intOp rfl (fun _ x y z => x * y + z) rfl,
    fun hp => ?abs, yields_intOp rfl (fun _ x _ _ => -x) rfl, yields_intOp_wraps rfl (fun _ x y _ => min x y) rfl rfl,
    yields_intOp_wraps rfl (fun _ x y _ => max x y) rfl rfl, yields_relOp rfl (fun x y => x = y) rfl,
    yields_relOp rfl (fun x y => x ≠ y) rfl, yields_relOp rfl (fun x y => x < y) rfl, yields_relOp rfl (fun x y => x ≤ y) rfl,
    yields_relOp rfl (fun x y => x > y) rfl, yields_relOp rfl (fun x y => x ≥ y) rfl, ?listed⟩
  case mulhi =>
    refine (yields_intOp_wraps rfl (fun w x y _ => x * y / 2 ^ w) rfl rfl hp).mono fun a b c y h => ?_
    rwa [← Int.cast_mul, floor_div_two_pow]
  case abs =>
    refine (yields_intOp rfl (fun _ x _ _ => (x.natAbs : Int)) rfl hp).mono fun a b c y h => ?_
    rwa [Int.abs_eq_natAbs]
  case listed =>
    refine ⟨?_, ?_, ?_, ?_, ?_, ?_, ?_, ?_, ?_, ?_, ?_, ?_, ?_, ?_, ?_⟩ <;> exact listed_of_row rfl (fun _ => rfl) rfl

end Sys2Proof.Machine
end

section
/-!
PROOFS. Shifts, rotates, fields and the operations bit by bit: each bit of a result from the bits of the operands.
-/

namespace Sys2Proof.Machine

open Sys2Proof

/-! ### Bits of a port at a type's width -/

theorem low_eq_toNat (t : Ty) (x : DWord) : low t x = (x.setWidth (tyBits t)).toNat := (BitVec.toNat_setWidth ..).symm

theorem low_lt (t : Ty) (x : DWord) : low t x < 2 ^ tyBits t := Nat.mod_lt _ (by positivity)

@[simp] theorem testBit_low (t : Ty) (x : DWord) (j : Nat) : (low t x).testBit j = (decide (j < tyBits t) && x.getLsbD j) := by
  rw [low, Nat.testBit_mod_two_pow, BitVec.testBit_toNat]

theorem testBit_low_lt {t : Ty} {j : Nat} (h : j < tyBits t) (x : DWord) : (low t x).testBit j = x.getLsbD j := by simp [h]

theorem getLsbD_cut (t : Ty) (x : DWord) (j : Nat) : (cut t x).getLsbD j = (decide (j < tyBits t) && x.getLsbD j) := by
  have := tyBits_le t
  rw [cut, BitVec.getLsbD_setWidth, BitVec.getLsbD_setWidth]
  by_cases h : j < tyBits t
  · simp [h, show j < 64 by omega]
  · simp [h]

theorem lt_two_pow_64 {t : Ty} {N : Nat} (h : N < 2 ^ tyBits t) : N < 2 ^ 64 :=
  h.trans_le (Nat.pow_le_pow_right (by decide) (tyBits_le t))

theorem toNat_result {N : Nat} (h : N < 2 ^ 64) : (BitVec.ofNat 64 N).toNat = N := by
  rw [BitVec.toNat_ofNat, Nat.mod_eq_of_lt h]

theorem getLsbD_result {t : Ty} {j : Nat} (h : j < tyBits t) (N : Nat) : (BitVec.ofNat 64 N).getLsbD j = N.testBit j := by
  have := tyBits_le t
  rw [BitVec.getLsbD_ofNat, decide_eq_true (by omega : j < 64), Bool.true_and]

/-- A number with the low bits of a value at a type is the value cut to the type. -/
theorem result_eq_cut {t : Ty} {N : Nat} {x : DWord} (h : ∀ j, N.testBit j = (decide (j < tyBits t) && x.getLsbD j)) :
    BitVec.ofNat 64 N = cut t x := by
  apply BitVec.eq_of_getLsbD_eq
  intro j hj
  rw [getLsbD_cut, BitVec.getLsbD_ofNat, h]
  simp [hj]

/-- A number below 2^w is its own cut. -/
theorem result_eq_cut_self {t : Ty} {N : Nat} (h : N < 2 ^ tyBits t) : BitVec.ofNat 64 N = cut t (BitVec.ofNat 64 N) := by
  refine result_eq_cut fun j => ?_
  by_cases hj : j < tyBits t
  · simp [hj, getLsbD_result hj]
  · simp [hj, Nat.testBit_lt_two_pow (h.trans_le (Nat.pow_le_pow_right (by decide) (by omega : tyBits t ≤ j)))]

theorem dvd_two_pow_tyBits (t : Ty) : 256 ∣ 2 ^ tyBits t := pow_dvd_pow 2 (tyBits_ge t)

/-- The shift count does not depend on the width of B (R252). -/
theorem low_mod_256 (t : Ty) (b : DWord) : low t b % 256 = b.toNat % 256 := Nat.mod_mod_of_dvd _ (dvd_two_pow_tyBits t)

theorem testBit_complement {w n : Nat} (h : n < 2 ^ w) (j : Nat) :
    (2 ^ w - 1 - n).testBit j = (decide (j < w) && !n.testBit j) := by
  rw [Nat.sub_sub, Nat.add_comm 1 n, Nat.testBit_two_pow_sub_succ h]

/-! ### Shifts and rotates (R252) -/

/-- The shift count is bits [7:0] of B, signed or not. -/
theorem shiftCount_intAt (t : Ty) (b : DWord) : shiftCount (intAt t b) = b.toNat % 256 := by
  have hd : (256 : Int) ∣ ((2 ^ tyBits t : Nat) : Int) := by exact_mod_cast dvd_two_pow_tyBits t
  have hlow : (((b.setWidth (tyBits t)).toNat : Int)) % 256 = (b.toNat : Int) % 256 := by
    rw [← low_eq_toNat]; exact_mod_cast low_mod_256 t b
  have hmod : intAt t b % 256 = (b.toNat : Int) % 256 := by
    unfold intAt
    split
    · rw [BitVec.toInt_eq_toNat_bmod, ← hlow, ← Int.emod_emod_of_dvd (Int.bmod _ _) hd, Int.bmod_emod,
        Int.emod_emod_of_dvd _ hd]
    · exact hlow
  rw [shiftCount, hmod]; omega

/-- `rotl` is the rotation of a bit vector. -/
theorem rotl_eq_rotateLeft {w : Nat} (hw : 0 < w) (x : BitVec w) (n : Nat) : rotl w x.toNat n = (x.rotateLeft n).toNat := by
  have hk : n % w < w := Nat.mod_lt _ hw
  rw [BitVec.toNat_rotateLeft, rotl, Nat.shiftLeft_eq, Nat.shiftRight_eq_div_pow]
  generalize n % w = k at hk ⊢
  have hsplit : 2 ^ w = 2 ^ k * 2 ^ (w - k) := by rw [← pow_add]; congr 1; omega
  have hlt : x.toNat / 2 ^ (w - k) < 2 ^ k := by
    rw [Nat.div_lt_iff_lt_mul (by positivity), ← hsplit]; exact x.isLt
  rw [hsplit, Nat.mul_comm x.toNat, Nat.mul_mod_mul_left, Nat.two_pow_add_eq_or_of_lt hlt]

/-- A rotation to the right is one to the left by the rest of the width. -/
theorem rotateLeft_rest {w : Nat} (x : BitVec w) (n : Nat) : x.rotateLeft (w - n % w) = x.rotateRight n := by
  apply BitVec.eq_of_getLsbD_eq
  intro j hj
  have hn : n % w < w := Nat.mod_lt _ (by omega)
  rw [BitVec.getLsbD_rotateLeft, BitVec.getLsbD_rotateRight]
  by_cases h0 : n % w = 0
  · simp [h0, hj]
  · rw [Nat.mod_eq_of_lt (by omega : w - n % w < w), Nat.sub_sub_self hn.le]

/-! ### Fields (R253) -/

/-- A field's signed reading, where the length is not 0. -/
theorem bmod_two_pow_succ {x : Int} {k : Nat} (h0 : 0 ≤ x) (h1 : x < 2 ^ (k + 1)) :
    x.bmod (2 ^ (k + 1)) = if 2 ^ k ≤ x then x - 2 ^ (k + 1) else x := by
  rw [Int.bmod_def, Int.emod_eq_of_lt h0 (by exact_mod_cast h1)]
  push_cast
  rw [show ((2 : Int) ^ (k + 1) + 1) / 2 = 2 ^ k by rw [pow_succ]; omega]
  split <;> split <;> omega

/-- BFX takes the field's bits, read signed for signed types. -/
theorem bfxVal_eq (signed : Bool) (w : Nat) (a : Int) (c : Nat) :
    bfxVal signed w a c =
      if signed then (a / 2 ^ (c % 256) % 2 ^ min (c / 256 % 256) w).bmod (2 ^ min (c / 256 % 256) w)
      else a / 2 ^ (c % 256) % 2 ^ min (c / 256 % 256) w := by
  simp only [bfxVal]
  generalize a / 2 ^ (c % 256) = x
  generalize min (c / 256 % 256) w = len
  have h0 : 0 ≤ x % 2 ^ len := Int.emod_nonneg _ (by positivity)
  have h1 : x % 2 ^ len < 2 ^ len := Int.emod_lt_of_pos _ (by positivity)
  cases len with
  | zero => simp
  | succ k =>
    cases signed
    · simp
    · simp only [bmod_two_pow_succ h0 h1, Nat.succ_ne_zero, if_false, Bool.true_and, decide_eq_true_eq, Nat.add_sub_cancel, if_true]

theorem testBit_mask (len pos w j : Nat) :
    ((2 ^ len - 1) * 2 ^ pos % 2 ^ w).testBit j = decide (j < w ∧ pos ≤ j ∧ j < pos + len) := by
  rw [Nat.testBit_mod_two_pow, Nat.testBit_mul_two_pow, Nat.testBit_two_pow_sub_one, ← Bool.decide_and, ← Bool.decide_and,
    decide_eq_decide]
  omega

/-- BFI replaces the field and keeps the other bits of b. -/
theorem testBit_bfiVal {w b : Nat} (hb : b < 2 ^ w) (a c j : Nat) :
    (bfiVal w a b c).testBit j =
      if j < w ∧ c % 256 ≤ j ∧ j < c % 256 + min (c / 256 % 256) w then a.testBit (j - c % 256) else b.testBit j := by
  have hm : (2 ^ min (c / 256 % 256) w - 1) * 2 ^ (c % 256) % 2 ^ w < 2 ^ w := Nat.mod_lt _ (by positivity)
  simp only [bfiVal, Nat.testBit_or, Nat.testBit_and, testBit_complement hm, testBit_mask, Nat.testBit_mul_two_pow]
  by_cases hj : j < w
  · split
    · next h => simp [h]
    · next h => simp [hj, fun g => not_and.mp h hj g]
  · simp [hj, Nat.testBit_lt_two_pow (hb.trans_le (Nat.pow_le_pow_right (by decide) (Nat.le_of_not_lt hj)))]

theorem bfiVal_lt {w b : Nat} (hb : b < 2 ^ w) (a c : Nat) : bfiVal w a b c < 2 ^ w := by
  apply Nat.lt_pow_two_of_testBit
  intro j hj
  rw [testBit_bfiVal hb, if_neg (by omega)]
  exact Nat.testBit_lt_two_pow (hb.trans_le (Nat.pow_le_pow_right (by decide) hj))

/-- Settles O4: shifts are exact integer operations; rotates and fields are settled bit by bit. -/
theorem shiftsAndFields : Obligations.ShiftsAndFields := by
  intro s f
  refine ⟨fun hp => ?shl, fun hp => ?shr, fun hp => ?rotl, fun hp => ?rotr, fun hp => ?bfx, fun hp => ?bfi, ?listed⟩
  case shl =>
    refine (yields_intOp rfl (fun _ x y _ => x * 2 ^ shiftCount y) rfl hp).mono fun a b c y h => ?_
    rwa [shiftCount_intAt] at h
  case shr =>
    refine (yields_intOp_wraps rfl (fun _ x y _ => x / 2 ^ shiftCount y) rfl rfl hp).mono fun a b c y h => ?_
    simpa only [floor_div_two_pow, shiftCount_intAt] using h
  case rotl =>
    refine (yields_bitOp rfl (fun w x y _ => rotl w x (y % 256)) rfl hp).mono fun a b c y h => ?_
    rw [h, low_mod_256, low_eq_toNat, rotl_eq_rotateLeft (Nat.lt_of_lt_of_le (by decide) (tyBits_ge f.ty)), BitVec.ofNat_toNat]
  case rotr =>
    refine (yields_bitOp rfl (fun w x y _ => rotl w x (w - y % 256 % w)) rfl hp).mono fun a b c y h => ?_
    rw [h, low_mod_256, low_eq_toNat, rotl_eq_rotateLeft (Nat.lt_of_lt_of_le (by decide) (tyBits_ge f.ty)), BitVec.ofNat_toNat,
      rotateLeft_rest]
  case bfx =>
    refine (yields_lanewise rfl rfl (fun _ => rfl) hp).mono fun a b c y h => ?_
    simp only [floor_div_two_pow, ← bfxVal_eq]
    rw [h, portInt_eq]
    exact fits_fit f.ty false _
  case bfi =>
    refine (yields_bitOp rfl bfiVal rfl hp).mono fun a b c y h => ?_
    rw [h]
    refine ⟨result_eq_cut_self (bfiVal_lt (low_lt _ _) _ _), fun j hj => ?_⟩
    rw [getLsbD_result hj, testBit_bfiVal (low_lt _ _), testBit_low_lt hj, testBit_low_lt (by omega)]
    simp only [hj, true_and]
  case listed =>
    refine ⟨?_, ?_, ?_, ?_, ?_, ?_⟩ <;> exact listed_of_row rfl (fun _ => rfl) rfl

end Sys2Proof.Machine
end

section
/-!
PROOFS. Logic, selection, bit counts and PERM: what each function on numbers says bit by bit.
-/

namespace Sys2Proof.Machine

open Sys2Proof

/-! ### Logic and selection (R252, R257) -/

theorem and_eq_cut (t : Ty) (a b : DWord) : BitVec.ofNat 64 (low t a &&& low t b) = cut t (a &&& b) :=
  result_eq_cut fun j => by
    simp only [Nat.testBit_and, testBit_low, BitVec.getLsbD_and, Bool.and_assoc, Bool.and_left_comm, Bool.and_self_left]

theorem or_eq_cut (t : Ty) (a b : DWord) : BitVec.ofNat 64 (low t a ||| low t b) = cut t (a ||| b) :=
  result_eq_cut fun j => by simp only [Nat.testBit_or, testBit_low, BitVec.getLsbD_or, Bool.and_or_distrib_left]

theorem xor_eq_cut (t : Ty) (a b : DWord) : BitVec.ofNat 64 (low t a ^^^ low t b) = cut t (a ^^^ b) :=
  result_eq_cut fun j => by simp only [Nat.testBit_xor, testBit_low, BitVec.getLsbD_xor, Bool.and_xor_distrib_left]

/-- The complement at a type's width, bit by bit. -/
theorem testBit_complement_low (t : Ty) (x : DWord) (j : Nat) :
    (2 ^ tyBits t - 1 - low t x).testBit j = (decide (j < tyBits t) && (~~~x).getLsbD j) := by
  have := tyBits_le t
  rw [testBit_complement (low_lt t x), testBit_low, BitVec.getLsbD_not]
  by_cases h : j < tyBits t
  · simp [h, show j < 64 by omega]
  · simp [h]

theorem not_eq_cut (t : Ty) (a : DWord) : BitVec.ofNat 64 (2 ^ tyBits t - 1 - low t a) = cut t (~~~a) :=
  result_eq_cut (testBit_complement_low t a)

theorem andn_eq_cut (t : Ty) (a b : DWord) :
    BitVec.ofNat 64 (low t a &&& (2 ^ tyBits t - 1 - low t b)) = cut t (a &&& ~~~b) :=
  result_eq_cut fun j => by
    simp only [Nat.testBit_and, testBit_low, testBit_complement_low, BitVec.getLsbD_and, Bool.and_assoc, Bool.and_left_comm,
      Bool.and_self_left]

theorem low_eq_cut (t : Ty) (a : DWord) : BitVec.ofNat 64 (low t a) = cut t a := result_eq_cut (testBit_low t a)

theorem getLsbD_zero_iff (c : DWord) : c.toNat % 2 = 1 ↔ c.getLsbD 0 = true := by
  rw [← BitVec.testBit_toNat, Nat.testBit_zero, decide_eq_true_eq]

/-- One term of PLOG's truth table. -/
theorem testBit_plog_term (c k x j : Nat) : (if c / 2 ^ k % 2 = 1 then x else 0).testBit j = (c.testBit k && x.testBit j) := by
  rw [Nat.testBit_eq_decide_div_mod_eq (x := c)]
  split <;> simp [*]

/-- PLOG: each bit is the truth table's entry for the operands' bits (R257). -/
theorem testBit_plogVal {a b : Nat} (ha : a < 2 ^ 32) (hb : b < 2 ^ 32) (c j : Nat) :
    (plogVal a b c).testBit j = (decide (j < 32) && c.testBit (2 * (a.testBit j).toNat + (b.testBit j).toNat)) := by
  simp only [plogVal, Nat.testBit_or, testBit_plog_term, Nat.testBit_and, testBit_complement (Nat.or_lt_two_pow ha hb),
    testBit_complement ha, testBit_complement hb]
  by_cases hj : j < 32
  · cases a.testBit j <;> cases b.testBit j <;> simp [hj]
  · have out {x : Nat} (hx : x < 2 ^ 32) : x.testBit j = false :=
      Nat.testBit_lt_two_pow (hx.trans_le (Nat.pow_le_pow_right (by decide) (by omega)))
    simp [hj, out ha, out hb]

theorem plogVal_lt {a b : Nat} (ha : a < 2 ^ 32) (hb : b < 2 ^ 32) (c : Nat) : plogVal a b c < 2 ^ 32 :=
  Nat.lt_pow_two_of_testBit _ fun j hj => by simp [testBit_plogVal ha hb, Nat.not_lt.mpr hj]

/-! ### Bit counts (R254) -/

theorem popNat_eq (w x : Nat) : popNat w x = ((List.range w).filter fun j => x.testBit j).length := by
  induction w generalizing x with
  | zero => rfl
  | succ w ih =>
    have htail : ((fun j => x.testBit j) ∘ Nat.succ) = fun j => (x / 2).testBit j := funext fun j => Nat.testBit_succ x j
    rw [popNat, ih, List.range_succ_eq_map, List.filter_cons, List.filter_map, htail, Nat.testBit_zero]
    rcases Nat.mod_two_eq_zero_or_one x with h | h <;> simp [h, Nat.add_comm]

theorem popNat_le (w x : Nat) : popNat w x ≤ w := by
  rw [popNat_eq]
  exact (List.length_filter_le _ _).trans_eq List.length_range

/-- The leading zeros of a number below 2^w. -/
def leadingZeros (w x : Nat) : Nat := if x = 0 then w else w - 1 - Nat.log2 x

theorem leadingZeros_le (w x : Nat) : leadingZeros w x ≤ w := by unfold leadingZeros; split <;> omega

theorem testBit_leadingZeros_above {w x : Nat} (hx : x < 2 ^ w) {j : Nat} (h : w - leadingZeros w x ≤ j) : x.testBit j = false := by
  by_cases h0 : x = 0
  · simp [h0]
  · have hlog : x.log2 < w := (Nat.log2_lt h0).mpr hx
    rw [leadingZeros, if_neg h0] at h
    exact Nat.testBit_lt_two_pow (Nat.lt_log2_self.trans_le (Nat.pow_le_pow_right (by decide) (by omega)))

theorem testBit_leadingZeros_at {w x : Nat} (hx : x < 2 ^ w) (h : leadingZeros w x < w) :
    x.testBit (w - 1 - leadingZeros w x) = true := by
  have h0 : x ≠ 0 := fun e => by simp [leadingZeros, e] at h
  have hlog : x.log2 < w := (Nat.log2_lt h0).mpr hx
  rw [leadingZeros, if_neg h0, show w - 1 - (w - 1 - x.log2) = x.log2 by omega]
  exact Nat.testBit_log2 h0

theorem ctzNat_le (w x : Nat) : ctzNat w x ≤ w := by
  induction w generalizing x with
  | zero => rfl
  | succ w ih => rw [ctzNat]; have := ih (x / 2); split <;> omega

theorem testBit_ctzNat_below (w x : Nat) {j : Nat} (h : j < ctzNat w x) : x.testBit j = false := by
  induction w generalizing x j with
  | zero => simp [ctzNat] at h
  | succ w ih =>
    rw [ctzNat] at h
    split at h
    · omega
    · next hodd =>
      cases j with
      | zero => simpa [Nat.testBit_zero] using hodd
      | succ j => rw [Nat.testBit_succ]; exact ih _ (by omega)

theorem testBit_ctzNat_at (w x : Nat) (h : ctzNat w x < w) : x.testBit (ctzNat w x) = true := by
  induction w generalizing x with
  | zero => omega
  | succ w ih =>
    rw [ctzNat] at h ⊢
    split
    · next hodd => simpa [Nat.testBit_zero] using hodd
    · next heven =>
      rw [if_neg heven] at h
      rw [Nat.add_comm 1, Nat.testBit_succ]
      exact ih _ (by omega)

theorem brevNat_lt (w x : Nat) : brevNat w x < 2 ^ w := by
  induction w generalizing x with
  | zero => simp [brevNat]
  | succ w ih =>
    have := ih (x / 2)
    rw [brevNat, pow_succ]
    rcases Nat.mod_two_eq_zero_or_one x with h | h <;> rw [h] <;> omega

theorem testBit_brevNat (w x : Nat) {j : Nat} (h : j < w) : (brevNat w x).testBit j = x.testBit (w - 1 - j) := by
  induction w generalizing x j with
  | zero => omega
  | succ w ih =>
    rw [brevNat, Nat.mul_comm, Nat.testBit_two_pow_mul_add _ (brevNat_lt w _)]
    split
    · next hj => rw [ih _ hj, ← Nat.testBit_succ]; congr 1; omega
    · next hj =>
      rw [show j - w = 0 by omega, show w + 1 - 1 - j = 0 by omega]
      simp [Nat.testBit_zero]

/-! ### PERM (R255) -/

/-- The byte that a selector of PERM picks from the pool of both words. -/
def permByte (a b c i : Nat) : Nat :=
  let x := (a + b * 2 ^ 32) / 256 ^ (c / 16 ^ i % 16 % 8) % 256
  if c / 16 ^ i % 16 < 8 then x else if 128 ≤ x then 255 else 0

theorem permByte_lt (a b c i : Nat) : permByte a b c i < 256 := by
  simp only [permByte]; split
  · exact Nat.mod_lt _ (by decide)
  · split <;> decide

theorem permVal_eq (a b c : Nat) :
    permVal a b c = permByte a b c 0 * 256 ^ 0 + permByte a b c 1 * 256 ^ 1 + permByte a b c 2 * 256 ^ 2
      + permByte a b c 3 * 256 ^ 3 :=
  rfl

theorem permVal_lt (a b c : Nat) : permVal a b c < 2 ^ 32 := by
  have h := permByte_lt a b c
  have h0 := h 0; have h1 := h 1; have h2 := h 2; have h3 := h 3
  rw [permVal_eq]; omega

theorem permVal_byte (a b c : Nat) {i : Nat} (hi : i < 4) : permVal a b c / 256 ^ i % 256 = permByte a b c i := by
  have h := permByte_lt a b c
  have h0 := h 0; have h1 := h 1; have h2 := h 2; have h3 := h 3
  rw [permVal_eq]
  interval_cases i <;> omega

/-- Bit j of byte i of a number. -/
theorem testBit_byte (x i : Nat) {j : Nat} (hj : j < 8) : x.testBit (8 * i + j) = (x / 256 ^ i % 256).testBit j := by
  rw [show (256 : Nat) ^ i = 2 ^ (8 * i) by rw [pow_mul]; rfl, show 256 = 2 ^ 8 from rfl, Nat.testBit_mod_two_pow,
    Nat.testBit_div_two_pow, Nat.add_comm j]
  simp [hj]

/-- A bit of PERM's pool stands in the first word or in the second. -/
theorem testBit_pool {a : Nat} (ha : a < 2 ^ 32) (b : Nat) {k q : Nat} (hq : q < 8) :
    ((a + b * 2 ^ 32) / 256 ^ k % 256).testBit q = if k < 4 then a.testBit (8 * k + q) else b.testBit (8 * (k - 4) + q) := by
  rw [← testBit_byte _ _ hq, Nat.add_comm a, Nat.mul_comm b, Nat.testBit_two_pow_mul_add _ ha]
  by_cases hk : k < 4
  · rw [if_pos hk, if_pos (by omega)]
  · rw [if_neg hk, if_neg (by omega)]; congr 1; omega

/-- The sign of a byte fills the byte. -/
theorem testBit_fill {x : Nat} (hx : x < 256) {j : Nat} (hj : j < 8) : (if 128 ≤ x then 255 else 0).testBit j = x.testBit 7 := by
  have hsign : x.testBit 7 = decide (128 ≤ x) := by
    rw [Nat.testBit_eq_decide_div_mod_eq, decide_eq_decide]; omega
  rw [hsign]
  split
  · next h => simp only [h, decide_true]; interval_cases j <;> rfl
  · next h => simp [h]

/-- PERM bit by bit: a selector below 8 copies its byte, one above fills with the byte's sign. -/
theorem testBit_permVal {a : Nat} (ha : a < 2 ^ 32) (b c : Nat) {i j : Nat} (hi : i < 4) (hj : j < 8) :
    (permVal a b c).testBit (8 * i + j) =
      let sel := c / 16 ^ i % 16
      let bit (q : Nat) : Bool := if sel % 8 < 4 then a.testBit (8 * (sel % 8) + q) else b.testBit (8 * (sel % 8 - 4) + q)
      if sel < 8 then bit j else bit 7 := by
  rw [testBit_byte _ _ hj, permVal_byte _ _ _ hi]
  simp only [permByte]
  split
  · exact testBit_pool ha b hj
  · rw [testBit_fill (Nat.mod_lt _ (by decide)) hj, testBit_pool ha b (by decide)]

/-! ### Results -/

/-- A count of bits of a type's width fits a result. -/
theorem toNat_count {t : Ty} {N : Nat} (h : N ≤ tyBits t) : (BitVec.ofNat 64 N).toNat = N :=
  toNat_result (by have := tyBits_le t; omega)

theorem Passes.width_b32 {i : Instr} {s : State} {w : VWord} {n : VInfo} (hp : Passes s i) (hv : vInfo i = some (w, n))
    (hn : n.cls = .b32) : tyBits w.f.ty = 32 := by
  have h := hp.classHas hv
  rw [hn] at h
  rw [ty_of_b32 h]; rfl

theorem sel_result (t : Ty) (a b c : DWord) :
    BitVec.ofNat 64 (if c.toNat % 2 = 1 then low t a else low t b) = cut t (if c.getLsbD 0 then a else b) := by
  simp only [getLsbD_zero_iff]
  split <;> exact low_eq_cut t _

theorem plog_result {t : Ty} (ht : tyBits t = 32) (a b c : DWord) :
    let y := BitVec.ofNat 64 (plogVal (low t a) (low t b) c.toNat)
    y = cut t y ∧ ∀ j, j < 32 → y.getLsbD j = c.getLsbD (2 * (a.getLsbD j).toNat + (b.getLsbD j).toNat) := by
  have ha : low t a < 2 ^ 32 := ht ▸ low_lt t a
  have hb : low t b < 2 ^ 32 := ht ▸ low_lt t b
  refine ⟨result_eq_cut_self (ht ▸ plogVal_lt ha hb _), fun j hj => ?_⟩
  have hjt : j < tyBits t := ht ▸ hj
  rw [getLsbD_result hjt, testBit_plogVal ha hb, testBit_low_lt hjt, testBit_low_lt hjt, BitVec.testBit_toNat, decide_eq_true hj,
    Bool.true_and]

theorem popc_result (t : Ty) (a : DWord) : (BitVec.ofNat 64 (popNat (tyBits t) (low t a))).toNat =
    ((List.range (tyBits t)).filter fun j => a.getLsbD j).length := by
  rw [toNat_count (popNat_le _ _), popNat_eq]
  congr 1
  exact List.filter_congr fun j hj => testBit_low_lt (List.mem_range.mp hj) a

theorem clz_result (t : Ty) (a : DWord) :
    let z := (BitVec.ofNat 64 (leadingZeros (tyBits t) (low t a))).toNat
    z ≤ tyBits t ∧ (∀ j, tyBits t - z ≤ j → j < tyBits t → a.getLsbD j = false)
      ∧ (z < tyBits t → a.getLsbD (tyBits t - 1 - z) = true) := by
  have hw := tyBits_ge t
  have hx := low_lt t a
  rw [toNat_count (leadingZeros_le _ _)]
  refine ⟨leadingZeros_le _ _, fun j hz hj => ?_, fun hz => ?_⟩
  · rw [← testBit_low_lt hj]; exact testBit_leadingZeros_above hx hz
  · rw [← testBit_low_lt (t := t) (by omega)]; exact testBit_leadingZeros_at hx hz

theorem ctz_result (t : Ty) (a : DWord) :
    let z := (BitVec.ofNat 64 (ctzNat (tyBits t) (low t a))).toNat
    z ≤ tyBits t ∧ (∀ j, j < z → a.getLsbD j = false) ∧ (z < tyBits t → a.getLsbD z = true) := by
  have hle := ctzNat_le (tyBits t) (low t a)
  rw [toNat_count hle]
  refine ⟨hle, fun j hj => ?_, fun hz => ?_⟩
  · rw [← testBit_low_lt (hj.trans_le hle)]; exact testBit_ctzNat_below _ _ hj
  · rw [← testBit_low_lt hz]; exact testBit_ctzNat_at _ _ hz

theorem brev_result (t : Ty) (a : DWord) :
    let y := BitVec.ofNat 64 (brevNat (tyBits t) (low t a))
    y = cut t y ∧ ∀ j, j < tyBits t → y.getLsbD j = a.getLsbD (tyBits t - 1 - j) := by
  refine ⟨result_eq_cut_self (brevNat_lt _ _), fun j hj => ?_⟩
  rw [getLsbD_result hj, testBit_brevNat _ _ hj, testBit_low_lt (by omega)]

theorem perm_result {t : Ty} (ht : tyBits t = 32) (a b c : DWord) :
    let y := BitVec.ofNat 64 (permVal (low t a) (low t b) c.toNat)
    y = cut t y ∧ ∀ i, i < 4 → ∀ j, j < 8 →
      let sel := c.toNat / 16 ^ i % 16
      let bit (q : Nat) : Bool := if sel % 8 < 4 then a.getLsbD (8 * (sel % 8) + q) else b.getLsbD (8 * (sel % 8 - 4) + q)
      y.getLsbD (8 * i + j) = if sel < 8 then bit j else bit 7 := by
  refine ⟨result_eq_cut_self (ht ▸ permVal_lt _ _ _), fun i hi j hj => ?_⟩
  have pool (k : Nat) (hk : k < 8) (q : Nat) (hq : q < 8) :
      (if k < 4 then (low t a).testBit (8 * k + q) else (low t b).testBit (8 * (k - 4) + q)) =
        if k < 4 then a.getLsbD (8 * k + q) else b.getLsbD (8 * (k - 4) + q) := by
    split <;> exact testBit_low_lt (by omega) _
  rw [getLsbD_result (t := t) (by omega), testBit_permVal (ht ▸ low_lt t a) _ _ hi hj]
  have hk : c.toNat / 16 ^ i % 16 % 8 < 8 := Nat.mod_lt _ (by decide)
  simp only [pool _ hk j hj, pool _ hk 7 (by decide)]

/-! ### The statement -/

/-- Settles O5: each operation's number, read bit by bit at the type's width. -/
theorem bitOperations : Obligations.BitOperations := by
  intro s f
  refine ⟨fun hp => ?and, fun hp => ?or, fun hp => ?xor, fun hp => ?not, fun hp => ?andn, fun hp => ?mov, fun hp => ?sel,
    fun hp => ?plog, fun hp => ?popc, fun hp => ?clz, fun hp => ?ctz, fun hp => ?brev, fun hp => ?perm, ?listed⟩
  case and => exact (yields_bitOp rfl (fun _ a b _ => a &&& b) rfl hp).mono fun a b _ _ h => h.trans (and_eq_cut f.ty a b)
  case or => exact (yields_bitOp rfl (fun _ a b _ => a ||| b) rfl hp).mono fun a b _ _ h => h.trans (or_eq_cut f.ty a b)
  case xor => exact (yields_bitOp rfl (fun _ a b _ => a ^^^ b) rfl hp).mono fun a b _ _ h => h.trans (xor_eq_cut f.ty a b)
  case not => exact (yields_bitOp rfl (fun w a _ _ => 2 ^ w - 1 - a) rfl hp).mono fun a _ _ _ h => h.trans (not_eq_cut f.ty a)
  case andn =>
    exact (yields_bitOp rfl (fun w a b _ => a &&& (2 ^ w - 1 - b)) rfl hp).mono fun a b _ _ h => h.trans (andn_eq_cut f.ty a b)
  case mov => exact (yields_bitOp rfl (fun _ a _ _ => a) rfl hp).mono fun a _ _ _ h => h.trans (low_eq_cut f.ty a)
  case sel =>
    exact (yields_bitOp rfl (fun _ a b c => if c % 2 = 1 then a else b) rfl hp).mono fun a b c _ h =>
      h.trans (sel_result f.ty a b c)
  case plog =>
    exact (yields_bitOp rfl (fun _ a b c => plogVal a b c) rfl hp).mono fun
      | a, b, c, _, rfl => plog_result (hp.width_b32 rfl rfl) a b c
  case popc =>
    exact (yields_bitOp rfl (fun w a _ _ => popNat w a) rfl hp).mono fun | a, _, _, _, rfl => popc_result f.ty a
  case clz =>
    exact (yields_bitOp rfl (fun w a _ _ => leadingZeros w a) rfl hp).mono fun | a, _, _, _, rfl => clz_result f.ty a
  case ctz =>
    exact (yields_bitOp rfl (fun w a _ _ => ctzNat w a) rfl hp).mono fun | a, _, _, _, rfl => ctz_result f.ty a
  case brev =>
    exact (yields_bitOp rfl (fun w a _ _ => brevNat w a) rfl hp).mono fun | a, _, _, _, rfl => brev_result f.ty a
  case perm =>
    exact (yields_bitOp rfl (fun _ a b c => permVal a b c) rfl hp).mono fun
      | a, b, c, _, rfl => perm_result (hp.width_b32 rfl rfl) a b c
  case listed =>
    refine ⟨?_, ?_, ?_, ?_, ?_, ?_, ?_, ?_, ?_, ?_⟩ <;> exact listed_of_row rfl (fun _ => rfl) rfl

end Sys2Proof.Machine
end

section
/-!
PROOFS. The string operations: what each function on byte lists says of the bytes of the ports, and the DFA step.
-/

namespace Sys2Proof.Machine

open Sys2Proof

/-! ### The bytes of a port (R284) -/

theorem bytesOf_eq (t : Ty) (x : DWord) : bytesOf t x = (List.range (tyBits t / 8)).map (byteAt x) := rfl

@[simp] theorem length_bytesOf (t : Ty) (x : DWord) : (bytesOf t x).length = tyBits t / 8 := by simp [bytesOf]

@[simp] theorem getElem_bytesOf (t : Ty) (x : DWord) (i : Nat) (h : i < (bytesOf t x).length) : (bytesOf t x)[i] = byteAt x i := by
  simp [bytesOf_eq]

theorem toNat_lo32 (x : DWord) : (lo32 x).toNat = x.toNat % 2 ^ 32 := BitVec.toNat_setWidth ..

theorem byteAt_lt (x : DWord) (i : Nat) : byteAt x i < 256 := Nat.mod_lt _ (by decide)

theorem mem_bytesOf_lt {t : Ty} {x : DWord} {b : Nat} (h : b ∈ bytesOf t x) : b < 256 := by
  obtain ⟨i, _, rfl⟩ := List.mem_map.mp h
  exact byteAt_lt x i

/-- Two strings agree over a prefix when their bytes there do. -/
theorem take_bytesOf_eq_iff (t : Ty) (a b : DWord) (k : Nat) :
    (bytesOf t a).take k = (bytesOf t b).take k ↔ ∀ i, i < min k (tyBits t / 8) → byteAt a i = byteAt b i := by
  rw [List.ext_getElem_iff]
  constructor
  · rintro ⟨_, h⟩ i hi
    have e := h i (by simpa using hi) (by simpa using hi)
    rwa [List.getElem_take, List.getElem_take, getElem_bytesOf, getElem_bytesOf] at e
  · exact fun h => ⟨by simp, fun i hi _ => by simpa using h i (by simpa using hi)⟩

/-! ### SCMP and SPFX: the first bytes that differ (R284, R286) -/

theorem scmpBytes_self (l : List Nat) : scmpBytes l l = 0 := by
  induction l with
  | nil => rfl
  | cons a l ih => simp [scmpBytes, ih]

/-- The first bytes that differ decide SCMP. -/
theorem scmpBytes_first {l m : List Nat} {i : Nat} (hl : i < l.length) (hm : i < m.length) (he : l.take i = m.take i)
    (hne : l[i] ≠ m[i]) : scmpBytes l m = if l[i] < m[i] then 0xFFFFFFFF else 1 := by
  induction i generalizing l m with
  | zero =>
    obtain ⟨a, l, rfl⟩ := List.exists_cons_of_length_pos hl
    obtain ⟨b, m, rfl⟩ := List.exists_cons_of_length_pos hm
    exact if_neg hne
  | succ i ih =>
    obtain ⟨a, l, rfl⟩ := List.exists_cons_of_length_pos (Nat.zero_lt_of_lt hl)
    obtain ⟨b, m, rfl⟩ := List.exists_cons_of_length_pos (Nat.zero_lt_of_lt hm)
    obtain ⟨rfl, htl⟩ := List.cons.inj he
    exact (if_pos rfl).trans (ih (Nat.lt_of_succ_lt_succ hl) (Nat.lt_of_succ_lt_succ hm) htl hne)

/-- `agree` counts a prefix that agrees up to its end or up to bytes that differ. -/
theorem agree_eq {l m : List Nat} {p : Nat} (hlen : l.length = m.length) (hp : p ≤ l.length) (he : l.take p = m.take p)
    (hne : ∀ h : p < l.length, l[p] ≠ m[p]) : agree l m = p := by
  induction p generalizing l m with
  | zero =>
    cases l with
    | nil => rfl
    | cons a l =>
      obtain ⟨b, m, rfl⟩ := List.exists_cons_of_length_pos (l := m) (by simp [← hlen])
      exact if_neg (hne (Nat.succ_pos _))
  | succ p ih =>
    obtain ⟨a, l, rfl⟩ := List.exists_cons_of_length_pos (Nat.zero_lt_of_lt hp)
    obtain ⟨b, m, rfl⟩ := List.exists_cons_of_length_pos (hlen ▸ Nat.zero_lt_of_lt hp)
    obtain ⟨rfl, htl⟩ := List.cons.inj he
    have h := ih (Nat.succ.inj hlen) (Nat.le_of_succ_le_succ hp) htl fun h => hne (Nat.succ_lt_succ h)
    rw [agree, if_pos rfl, h, Nat.add_comm]

theorem scmp_result (t : Ty) (a b c : DWord) :
    let x := if (lo32 c).toNat = 0 then scmpBytes (bytesOf t a) (bytesOf t b) else (lo32 c).toNat
    let y := BitVec.ofNat 64 x
    (c.toNat % 2 ^ 32 ≠ 0 → y.toNat = c.toNat % 2 ^ 32)
      ∧ (c.toNat % 2 ^ 32 = 0 → (∀ i : Nat, i < tyBits t / 8 → byteAt a i = byteAt b i) → y = 0)
      ∧ (c.toNat % 2 ^ 32 = 0 → ∀ i : Nat, i < tyBits t / 8 → (∀ j : Nat, j < i → byteAt a j = byteAt b j) →
          ¬byteAt a i = byteAt b i → y = if byteAt a i < byteAt b i then 0xFFFFFFFF else 1) := by
  rw [toNat_lo32]
  refine ⟨fun hc => ?_, fun hc hs => ?_, fun hc i hi hs hne => ?_⟩
  · rw [if_neg hc]; exact toNat_result (by omega)
  · have he : bytesOf t a = bytesOf t b := List.map_congr_left fun i h => hs i (List.mem_range.mp h)
    rw [if_pos hc, he, scmpBytes_self]; rfl
  · have he : (bytesOf t a).take i = (bytesOf t b).take i :=
      (take_bytesOf_eq_iff t a b i).mpr fun j hj => hs j (by omega)
    rw [if_pos hc, scmpBytes_first (i := i) (by simpa using hi) (by simpa using hi) he (by simpa using hne)]
    simp only [getElem_bytesOf]
    split <;> rfl

theorem seq_result (t : Ty) (a b c : DWord) :
    let y := BitVec.ofNat 64 (if (bytesOf t a).take ((lo32 c).toNat % 16) = (bytesOf t b).take ((lo32 c).toNat % 16) then 1 else 0)
    (y = 0 ∨ y = 1) ∧ (y = 1 ↔ ∀ i : Nat, i < min (c.toNat % 16) (tyBits t / 8) → byteAt a i = byteAt b i) := by
  have hc : (lo32 c).toNat % 16 = c.toNat % 16 := by rw [toNat_lo32]; omega
  rw [hc, ← take_bytesOf_eq_iff]
  split
  · next h => exact ⟨.inr rfl, fun _ => h, fun _ => rfl⟩
  · next h => exact ⟨.inl rfl, fun e => absurd e (by decide), fun e => absurd e h⟩

theorem spfx_result (t : Ty) (a b c : DWord) :
    let y := BitVec.ofNat 64 (spfxVal (lo32 c).toNat (bytesOf t a) (bytesOf t b))
    (2 ^ 31 ≤ c.toNat % 2 ^ 32 → y.toNat = c.toNat % 2 ^ 32)
      ∧ (c.toNat % 2 ^ 32 < 2 ^ 31 → ∀ p : Nat, p ≤ tyBits t / 8 → (∀ i : Nat, i < p → byteAt a i = byteAt b i) →
          (p < tyBits t / 8 → ¬byteAt a p = byteAt b p) →
          y.toNat = min (c.toNat % 2 ^ 32 + p) (2 ^ 31 - 1) + if p < tyBits t / 8 then 2 ^ 31 else 0) := by
  rw [toNat_lo32]
  refine ⟨fun hc => ?_, fun hc p hp hs hne => ?_⟩
  · rw [spfxVal, if_pos hc]; exact toNat_result (by omega)
  · have he : (bytesOf t a).take p = (bytesOf t b).take p :=
      (take_bytesOf_eq_iff t a b p).mpr fun j hj => hs j (by omega)
    have hagree : agree (bytesOf t a) (bytesOf t b) = p :=
      agree_eq (by simp) (by simpa using hp) he fun h => by simpa using hne (by simpa using h)
    simp only [spfxVal, if_neg (Nat.not_le.mpr hc), hagree, length_bytesOf]
    by_cases h : p < tyBits t / 8
    · simp only [if_pos h]; exact toNat_result (by omega)
    · simp only [if_neg h]; exact toNat_result (by omega)

/-! ### SFIND (R287) -/

theorem sfind_result (t : Ty) (a b c : DWord) :
    let y := BitVec.ofNat 64 (sfindVal (b.toNat % 16) ((lo32 c).toNat % 256) (bytesOf t a))
    let hit (i : Nat) : Prop := b.toNat % 16 ≤ i ∧ byteAt a i = c.toNat % 256
    (∀ i : Nat, i < tyBits t / 8 → hit i → (∀ j : Nat, j < i → ¬hit j) → y.toNat = i)
      ∧ ((∀ i : Nat, i < tyBits t / 8 → ¬hit i) → y.toNat = tyBits t / 8) := by
  intro y hit
  have hw := tyBits_le t
  have hc : (lo32 c).toNat % 256 = c.toNat % 256 := by rw [toNat_lo32]; omega
  have test {i : Nat} (hi : i < tyBits t / 8) :
      (decide (b.toNat % 16 ≤ i) && decide ((bytesOf t a).getD i 0 = c.toNat % 256)) = true ↔ hit i := by
    simp [hit, hi, List.getD_eq_getElem?_getD]
  simp only [y, sfindVal, hc, length_bytesOf]
  refine ⟨fun i hi hhit hmin => ?_, fun hnone => ?_⟩
  · rw [List.find?_range_eq_some.mpr ⟨(test hi).mpr hhit, List.mem_range.mpr hi, fun j hj => ?_⟩]
    · exact toNat_result (by simp only [Option.getD_some]; omega)
    · rw [Bool.not_eq_true', Bool.eq_false_iff, ne_eq, test (hj.trans hi)]; exact hmin j hj
  · rw [List.find?_range_eq_none.mpr fun i hi => ?_]
    · exact toNat_result (by simp only [Option.getD_none]; omega)
    · rw [Bool.not_eq_true', Bool.eq_false_iff, ne_eq, test hi]; exact hnone i hi

/-! ### CRC32C (R288) -/

/-- One bit of the remainder, on a word. -/
def crcBitWord (c : Word) : Word := if c.getLsbD 0 then (c >>> 1) ^^^ 0x82F63B78 else c >>> 1

theorem crcBitWord_toNat (c : Word) : (crcBitWord c).toNat = crcBit c.toNat := by
  have hbit : c.getLsbD 0 = decide (c.toNat % 2 = 1) := by rw [← BitVec.testBit_toNat, Nat.testBit_zero]
  rw [crcBitWord, crcBit, hbit]
  by_cases h : c.toNat % 2 = 1
  · simp [h, Nat.shiftRight_eq_div_pow]
  · simp [h, Nat.shiftRight_eq_div_pow]

theorem crcStep_eq (c : Word) (b : Nat) : crcStep c b =
    crcBitWord (crcBitWord (crcBitWord (crcBitWord (crcBitWord (crcBitWord (crcBitWord (crcBitWord (c ^^^ BitVec.ofNat 32 b)))))))) :=
  rfl

theorem crcStep_toNat (c : Word) {b : Nat} (hb : b < 256) : (crcStep c b).toNat = crcByte c.toNat b := by
  simp only [crcStep_eq, crcBitWord_toNat, crcByte, BitVec.toNat_xor, BitVec.toNat_ofNat,
    Nat.mod_eq_of_lt (hb.trans (by decide : 256 < 2 ^ 32))]

theorem foldl_crcStep_toNat (l : List Nat) (hl : ∀ b ∈ l, b < 256) (c : Word) :
    (l.foldl crcStep c).toNat = l.foldl crcByte c.toNat := by
  induction l generalizing c with
  | nil => rfl
  | cons b l ih =>
    rw [List.foldl_cons, List.foldl_cons, ih (fun x hx => hl x (List.mem_cons_of_mem _ hx)),
      crcStep_toNat _ (hl b List.mem_cons_self)]

theorem crc32c_result (t : Ty) (a b : DWord) : BitVec.ofNat 64 ((bytesOf t a).foldl crcByte (lo32 b).toNat) =
    (((List.range (tyBits t / 8)).map (byteAt a)).foldl crcStep (b.setWidth 32)).setWidth 64 := by
  rw [← bytesOf_eq, lo32, ← foldl_crcStep_toNat _ (fun _ => mem_bytesOf_lt), BitVec.ofNat_toNat]

/-! ### HMIX and FOLD (R289, R290) -/

theorem hmixVal_b32 (a b : Nat) :
    hmixVal .b32 a b = (a ^^^ b) * 0x1000193 % 2 ^ 32 ^^^ (a ^^^ b) * 0x1000193 % 2 ^ 32 / 2 ^ 15 := by
  simp only [hmixVal, show tyBits .b32 ≠ 64 by decide, if_false]

theorem hmixVal_b64 (a b : Nat) :
    hmixVal .b64 a b = (a ^^^ b) * 0x100000001B3 % 2 ^ 64 ^^^ (a ^^^ b) * 0x100000001B3 % 2 ^ 64 / 2 ^ 29 := by
  simp only [hmixVal, show tyBits .b64 = 64 from rfl, if_true]

theorem hmix_result32 (a b : DWord) :
    let h : Word := (a ^^^ b).setWidth 32 * 0x01000193
    BitVec.ofNat 64 (hmixVal .b32 (low .b32 a) (low .b32 b)) = (h ^^^ (h >>> 15)).setWidth 64 := by
  intro h
  have hx : low .b32 a ^^^ low .b32 b = ((a ^^^ b).setWidth 32).toNat := by
    simp only [low, tyBits, BitVec.toNat_setWidth, BitVec.toNat_xor, Nat.xor_mod_two_pow]
  have hh : h.toNat = (low .b32 a ^^^ low .b32 b) * 0x1000193 % 2 ^ 32 := by rw [hx]; exact BitVec.toNat_mul _ _
  rw [← BitVec.ofNat_toNat, BitVec.toNat_xor, BitVec.toNat_ushiftRight, Nat.shiftRight_eq_div_pow, hh, hmixVal_b32]

theorem hmix_result64 (a b : DWord) :
    let h : DWord := (a ^^^ b) * 0x100000001B3
    BitVec.ofNat 64 (hmixVal .b64 (low .b64 a) (low .b64 b)) = h ^^^ (h >>> 29) := by
  intro h
  have hx : low .b64 a ^^^ low .b64 b = (a ^^^ b).toNat := by
    simp only [low, tyBits, BitVec.toNat_xor, Nat.mod_eq_of_lt a.isLt, Nat.mod_eq_of_lt b.isLt]
  have hh : h.toNat = (low .b64 a ^^^ low .b64 b) * 0x100000001B3 % 2 ^ 64 := by rw [hx]; exact BitVec.toNat_mul _ _
  rw [hmixVal_b64, ← hh, ← Nat.shiftRight_eq_div_pow, ← BitVec.toNat_ushiftRight, ← BitVec.toNat_xor, BitVec.ofNat_toNat,
    BitVec.setWidth_eq]

theorem ofBytes_lt (l : List Nat) (hl : ∀ b ∈ l, b < 256) : ofBytes l < 256 ^ l.length := by
  induction l with
  | nil => decide
  | cons b l ih =>
    have := ih fun x hx => hl x (List.mem_cons_of_mem _ hx)
    have := hl b List.mem_cons_self
    rw [ofBytes, List.length_cons, pow_succ]; omega

theorem ofBytes_byte {l : List Nat} (hl : ∀ b ∈ l, b < 256) {i : Nat} (hi : i < l.length) : ofBytes l / 256 ^ i % 256 = l[i] := by
  induction l generalizing i with
  | nil => simp at hi
  | cons b l ih =>
    have hb := hl b List.mem_cons_self
    cases i with
    | zero => rw [ofBytes, pow_zero, Nat.div_one]; simp only [List.getElem_cons_zero]; omega
    | succ i =>
      rw [ofBytes, pow_succ', ← Nat.div_div_eq_div_mul, show (b + 256 * ofBytes l) / 256 = ofBytes l by omega]
      exact ih (fun x hx => hl x (List.mem_cons_of_mem _ hx)) (Nat.lt_of_succ_lt_succ hi)

theorem foldByte_lt {b : Nat} (h : b < 256) : foldByte b < 256 := by
  simp only [foldByte, Bool.and_eq_true, decide_eq_true_eq]; split <;> omega

theorem two_pow_tyBits_eq (t : Ty) : 2 ^ tyBits t = 256 ^ (tyBits t / 8) := by cases t <;> rfl

theorem fold_result (t : Ty) (a : DWord) :
    let y := BitVec.ofNat 64 (ofBytes ((bytesOf t a).map foldByte))
    y = cut t y ∧ ∀ i : Nat, i < tyBits t / 8 →
      byteAt y i = if 0x41 ≤ byteAt a i ∧ byteAt a i ≤ 0x5A then byteAt a i + 0x20 else byteAt a i := by
  have hbytes : ∀ b ∈ (bytesOf t a).map foldByte, b < 256 := by
    intro b hb
    obtain ⟨x, hx, rfl⟩ := List.mem_map.mp hb
    exact foldByte_lt (mem_bytesOf_lt hx)
  have hlt : ofBytes ((bytesOf t a).map foldByte) < 2 ^ tyBits t := by
    have h := ofBytes_lt _ hbytes
    rwa [List.length_map, length_bytesOf, ← two_pow_tyBits_eq] at h
  refine ⟨result_eq_cut_self hlt, fun i hi => ?_⟩
  rw [byteAt, toNat_result (lt_two_pow_64 hlt), ofBytes_byte hbytes (by simpa using hi)]
  simp only [List.getElem_map, getElem_bytesOf, foldByte, Bool.and_eq_true, decide_eq_true_eq]

/-! ### DFA (R291, R292) -/

/-- The step that a DFA slot leaves waiting for its read. -/
def issuedDfa (f : VSlot) (x : Wave) (id : Nat) (en : Mask) : DfaOp :=
  { id := id
    off := Lanes.of fun l => BitVec.ofNat 32 (dfaOff (x.unit .str).a[l].toNat (x.unit .str).b[l].toNat (x.unit .str).t[l].toNat)
    acc := maskOf fun l => (x.unit .str).a[l].getLsbD 31
    en := en, left := Lanes.all 1, dep := f.dep }

theorem dfaOff_lt (a b c : Nat) : dfaOff a b c < 2 ^ 32 := (Nat.mod_lt _ (by decide)).trans (by decide : 65536 < 2 ^ 32)

theorem issuedDfa_acc (f : VSlot) (x : Wave) (id : Nat) (en : Mask) (l : Lane) :
    laneBit (issuedDfa f x id en).acc l = (x.unit .str).a[l].getLsbD 31 := by
  rw [issuedDfa, laneBit_maskOf]

theorem issuedDfa_off (f : VSlot) (x : Wave) (id : Nat) (en : Mask) (l : Lane) :
    (issuedDfa f x id en).off[l].toNat =
      dfaOff (x.unit .str).a[l].toNat (x.unit .str).b[l].toNat (x.unit .str).t[l].toNat := by
  rw [issuedDfa, Fin.getElem_fin, lanes_of_get, BitVec.toNat_ofNat, Nat.mod_eq_of_lt (dfaOff_lt _ _ _)]

/-- Everything a DFA slot does to the issuing wave: the unit's ports, and one step waiting. -/
theorem dfaIssue_iw {f : VSlot} {w : VWord} {n : VInfo} (hv : vInfo (.dfa f) = some (w, n)) (s : State) :
    (dfaIssue f s).iw = { (transportV w n s).iw with
      dfas := (transportV w n s).iw.dfas ++ [issuedDfa f (transportV w n s).iw s.nextId (enabled s f.guard f.path)] } := by
  simp only [dfaIssue, hv, fresh, unitPorts, occupy_iw, occupy_nextId, occupy_enabled, enabled_transportV]
  exact (onIw_iw _ _).trans (congrArg (fun x : Wave => { x with dfas := x.dfas ++
    [issuedDfa f (transportV w n s).iw s.nextId (enabled s f.guard f.path)] }) (occupy_iw _ _))

theorem dfaIssue_unit {f : VSlot} {w : VWord} {n : VInfo} (hv : vInfo (.dfa f) = some (w, n)) (s : State) (u : VUnit) :
    (dfaIssue f s).iw.unit u = (transportV w n s).iw.unit u := by
  rw [dfaIssue_iw hv]; rfl

/-- A DFA slot that passes leaves one step with its table offset and accept flag. -/
theorem dfa_leaves_step {s : State} {f : VSlot} (hp : Passes s (.dfa f)) :
    ∃ (t : State) (o : DfaOp), exec (.dfa f) s = .next t ∧ t.iw.dfas = s.iw.dfas ++ [o] ∧ o.dep = f.dep ∧ o.left = Lanes.all 1
      ∧ (∀ l, laneBit o.en l = true ↔ Acts s f.guard f.path l)
      ∧ ∀ l : Lane, laneBit o.acc l = (t.iw.unit .str).a[l].getLsbD 31
        ∧ o.off[l].toNat = dfaOff (t.iw.unit .str).a[l].toNat (t.iw.unit .str).b[l].toNat (t.iw.unit .str).t[l].toNat := by
  have he : exec (.dfa f) s = .next (dfaIssue f s) := by
    rw [show exec (.dfa f) s = .next (act (.dfa f) (dfaIssue f) s) from rfl, act_passes hp]
  obtain ⟨w, n, hv⟩ : ∃ w n, vInfo (.dfa f) = some (w, n) := ⟨_, _, rfl⟩
  refine ⟨dfaIssue f s, issuedDfa f (transportV w n s).iw s.nextId (enabled s f.guard f.path), he, ?_, rfl, rfl,
    acts_iff s f.guard f.path, fun l => ⟨?_, ?_⟩⟩
  · rw [dfaIssue_iw hv, transportV_iw]; rfl
  · rw [dfaIssue_unit hv]; exact issuedDfa_acc _ _ _ _ _
  · rw [dfaIssue_unit hv]; exact issuedDfa_off _ _ _ _ _

/-! ### The statement -/

section
variable {i : Instr} {op : Nat} {f : VSlot} {n : VInfo} {s : State} (hv : vInfo i = some (⟨.str, op, f⟩, n))
include hv

theorem vLatency_str (hop : op ≠ 7) : vLatency i = 6 := by simp only [vLatency, hv, hop, if_false]

/-- A string operation yields its number. -/
theorem yields_strOp (hop : op ≠ 7) (g : Ty → DWord → DWord → Nat → Nat)
    (he : exec i s = .next (act i (trigger i (strOp g)) s)) (hp : Passes s i) :
    Yields i .str 6 f s fun a b c y => y = BitVec.ofNat 64 (g f.ty a b (lo32 c).toNat) := by
  have h := yields_lanewise hv he (fun _ => rfl) hp
  rwa [vLatency_str hv hop] at h

end

/-- Settles O17: the byte strings of the ports decide each result; the DFA step is what its slot leaves waiting. -/
theorem stringOperations : Obligations.StringOperations := by
  intro s f
  refine ⟨fun hp => ?scmp, fun hp => ?seq, fun hp => ?spfx, fun hp => ?sfind, fun hp => ?crc32c, fun hp => ?hmix, fun hp => ?fold,
    listed_of_row rfl (fun _ => rfl) rfl, listed_of_row rfl (fun _ => rfl) rfl, listed_of_row rfl (fun _ => rfl) rfl,
    listed_of_row rfl (fun _ => rfl) rfl, listed_of_row rfl (fun _ => rfl) rfl, listed_of_row rfl (fun _ => rfl) rfl,
    listed_of_row rfl (fun _ => rfl) rfl, listed_of_row rfl (fun _ => rfl) rfl, dfa_leaves_step⟩
  case scmp =>
    exact (yields_strOp rfl (by decide) (fun t a b c => if c = 0 then scmpBytes (bytesOf t a) (bytesOf t b) else c) rfl hp).mono fun
      | a, b, c, _, rfl => scmp_result f.ty a b c
  case seq =>
    exact (yields_strOp rfl (by decide) (fun t a b c => if (bytesOf t a).take (c % 16) = (bytesOf t b).take (c % 16) then 1 else 0)
      rfl hp).mono fun | a, b, c, _, rfl => seq_result f.ty a b c
  case spfx =>
    exact (yields_strOp rfl (by decide) (fun t a b c => spfxVal c (bytesOf t a) (bytesOf t b)) rfl hp).mono fun
      | a, b, c, _, rfl => spfx_result f.ty a b c
  case sfind =>
    exact (yields_strOp rfl (by decide) (fun t a b c => sfindVal (b.toNat % 16) (c % 256) (bytesOf t a)) rfl hp).mono fun
      | a, b, c, _, rfl => sfind_result f.ty a b c
  case crc32c =>
    exact (yields_strOp rfl (by decide) (fun t a b _ => (bytesOf t a).foldl crcByte (lo32 b).toNat) rfl hp).mono fun a b _ _ h =>
      h.trans (crc32c_result f.ty a b)
  case hmix =>
    refine (yields_strOp rfl (by decide) (fun t a b _ => hmixVal t (low t a) (low t b)) rfl hp).mono fun a b c y h =>
      ⟨fun ht => ?_, fun ht => ?_⟩
    · rw [ht] at h; exact h.trans (hmix_result32 a b)
    · rw [ht] at h; exact h.trans (hmix_result64 a b)
  case fold =>
    exact (yields_strOp rfl (by decide) (fun t a _ _ => ofBytes ((bytesOf t a).map foldByte)) rfl hp).mono fun
      | a, _, _, _, rfl => fold_result f.ty a

end Sys2Proof.Machine
end
